-- ==== Sys2Proof/Word.lean ====
section
/-! DEFINITION. The word types of the block (00_scope.md R12) and the names of pin directions and levels
(00_scope.md R7, 10_state.md R14). -/

namespace Sys2Proof

/-- `u8` of R12. -/
abbrev Byte := BitVec 8

/-- `u16` of R12: a data-space address, a flash base. -/
abbrev Addr := BitVec 16

/-- A control/status address, 4 bits (20_memory.md R39, R40). -/
abbrev CsAddr := BitVec 4

/-- `level` of R12: `true` is 1 (high), `false` is 0 (low). -/
abbrev Level := Bool

/-- The argument of `SetDir(d)` (R7). -/
inductive Dir where
  | input
  | output
  deriving DecidableEq, Repr

/-- `S.pin_dir` (R14): the direction the block last set, or UNKNOWN. -/
inductive PinDir where
  | unknown
  | known (d : Dir)
  deriving DecidableEq, Repr

/-- `S.pin_out` (R14): the level the block last wrote, or UNKNOWN. -/
inductive PinOut where
  | unknown
  | known (l : Level)
  deriving DecidableEq, Repr

/-- `ceil_div(a, b) = (a + b - 1) div b` (R12). -/
def ceilDiv (a b : Nat) : Nat := (a + b - 1) / b

end Sys2Proof
end

