-- ==== Sys2Proof/Config.lean ====
section
/-! DEFINITION. What is fixed for a run: the named parameters (00_scope.md R8, R9, R10, R11), the configuration
record (10_state.md R17), and the free values that stand for the environment's answers (R7). -/

namespace Sys2Proof

/-- The named parameters of 00_scope.md R8 to R10 and the pass codes of an abort, each with its default ("The model takes
each as a named parameter with the source value as default", R11). `PIN` and `T` stand in `Cfg` (R17). The byte values of R9 are the spec's own
`[from general knowledge, not in source]`. -/
structure Params where
  idleSettleBits   : Nat := 10
  rxPollDiv        : Nat := 8
  rxPollLimit      : Nat := 5000
  rxCenterDiv      : Nat := 2
  rxSkipBits       : Nat := 3
  dbrkLow1Us       : Nat := 40000
  dbrkHigh1Us      : Nat := 50000
  dbrkLow2Us       : Nat := 40000
  dbrkHigh2Us      : Nat := 10000
  sync             : Byte := 0x55#8
  ack              : Byte := 0x40#8
  maxBurst         : Nat := 256
  keyLen           : Nat := 8
  /-- ASCII "NVMProg " -/
  keyNvmprog       : List Byte := [0x4E#8, 0x56#8, 0x4D#8, 0x50#8, 0x72#8, 0x6F#8, 0x67#8, 0x20#8]
  linkInitAttempts : Nat := 3
  csStatusa        : CsAddr := 0x0#4
  csCtrla          : CsAddr := 0x2#4
  csCtrlb          : CsAddr := 0x3#4
  csAsiKeyStatus   : CsAddr := 0x7#4
  csAsiResetReq    : CsAddr := 0x8#4
  csAsiSysStatus   : CsAddr := 0xB#4
  ctrlaIbdly       : Nat := 7
  ctrlbCcdetdis    : Nat := 3
  ctrlbUpdidis     : Nat := 2
  keystNvmprog     : Nat := 4
  sysNvmprog       : Nat := 3
  sysLockstatus    : Nat := 0
  resetReqValue    : Byte := 0x59#8
  resetReleaseValue : Byte := 0x00#8
  nvmCtrlaOfs      : Nat := 0x00
  nvmStatusOfs     : Nat := 0x02
  nvmstWrerror     : Nat := 2
  nvmstEebusy      : Nat := 1
  nvmstFbusy       : Nat := 0
  cmdWp            : Byte := 0x01#8
  cmdEr            : Byte := 0x02#8
  cmdPbc           : Byte := 0x04#8
  cmdCher          : Byte := 0x05#8
  eraseValue       : Byte := 0xFF#8
  unlockWaitMs     : Nat := 100
  unlockPollMs     : Nat := 1
  readyTimeoutMs   : Nat := 10000
  readyPollMs      : Nat := 1
  settleMs         : Nat := 5
  bcLinkCap        : Nat := 3
  bcDataCap        : Nat := 10
  pgLinkCap        : Nat := 3
  pgBlankCap       : Nat := 3
  pgEscCap         : Nat := 3
  pgDataCap        : Nat := 3
  vfLinkCap        : Nat := 3
  vfDataCap        : Nat := 10
  /-- the pass codes of an abort, 60_exceptions.md R144: R11 counts "the abort codes" among the named parameters -/
  ceLinkCode       : Int := -1
  ceEraseCode      : Int := -2
  bcLinkCode       : Int := -1
  bcDataCode       : Int := -2
  pgRelinkCode     : Int := -1
  pgLinkCode       : Int := -2
  pgEscCode        : Int := -3
  pgEraseCode      : Int := -4
  pgDataCode       : Int := -5
  vfLinkCode       : Int := -1
  vfDataCode       : Int := -1
  deriving DecidableEq, Repr

/-- Every parameter at its default (R8, R9, R10). -/
def defaultParams : Params := {}

/-- The configuration registers of 10_state.md R17, in its index order with its widths: read-only, supplied whole at
session creation. A pin identifier is a natural number (log 17). -/
structure Cfg where
  pin         : Nat
  t           : BitVec 32
  flashBase   : Addr
  flashSize   : BitVec 17
  pageSize    : BitVec 9
  nvmBase     : Addr
  sigrowAddr  : Addr
  fuseAddr    : Addr
  fuseCount   : Byte
  userrowAddr : Addr
  deriving DecidableEq, Repr

/-- The configuration the model's reset state carries: the test configuration of 95_test_vectors.md section 0 with
pin 0. DESIGN CHOICE, unsafe (log 3): R17 gives these registers no reset value. -/
def resetCfg : Cfg where
  pin := 0
  t := 1000#32
  flashBase := 0x8000#16
  flashSize := 256#17
  pageSize := 64#9
  nvmBase := 0x1000#16
  sigrowAddr := 0#16
  fuseAddr := 0#16
  fuseCount := 0#8
  userrowAddr := 0#16

/-- FREE VALUE: the `n`-th answer drawn, where it answers a `ReadLevel()` ("draws under no law", R7). No body: log 1. -/
opaque Config.freeLevel : Nat → Level

/-- FREE VALUE: the `n`-th answer drawn, where it answers a `CapInit()` (R7). No body: log 1. -/
opaque Config.freeCapInit : Nat → Bool

end Sys2Proof
end

