-- ==== Sys2Proof/Syntax.lean ====
section
/-! DEFINITION. The instructions: one constructor per row of spec/opcode_table.json. The table has three formats: UPDI
frames (30_encoding.md R63), NVM controller commands (R74) and host operations (R76). Six mnemonics name a row in two
formats; the frame row's constructor then ends in `Frame`. -/

namespace Sys2Proof

/-- One constructor per row of the opcode table, in the table's order. Operands have the types of R76; the range of a
typed operand is its type, so an operand outside it (R79) is met by the decoder. -/
inductive Instr where
  -- UPDI frames, R63 to R67
  | ldcsFrame (a : CsAddr)
  | stcsFrame (a : CsAddr) (v : Byte)
  | ldsFrame (addr : Addr)
  | stsFrame (addr : Addr) (v : Byte)
  | stPtr (addr : Addr)
  | stPtrInc (data : List Byte)
  | ldPtrInc (m : Nat)
  | repeatFrame (count : Byte)
  | keyFrame (key : List Byte)
  -- NVM controller commands, R74
  | cmdWp
  | cmdEr
  | cmdPbc
  | cmdCher
  -- host operations, R76: PHY
  | phyInit
  | phySend (bytes : List Byte)
  | phyRecv (n : Nat)
  | phyDoubleBreak
  | phyClose
  -- Link
  | ldcs (a : CsAddr)
  | stcs (a : CsAddr) (v : Byte)
  | lds (addr : Addr)
  | sts (addr : Addr) (v : Byte)
  | setPtr (addr : Addr)
  | repeatN (n : Nat)
  | burstWrite (data : List Byte)
  | burstRead (n : Nat)
  | key (key : List Byte)
  | linkInit
  -- device control
  | resetToggle
  | enterProg
  | exitProg
  | waitReady
  | execNvmCmd (cmd : Byte)
  | chipErase
  | pageWrite (addr : Addr) (data : List Byte)
  | pageRead (addr : Addr) (n : Nat)
  | pageErase (addr : Addr)
  -- page-transfer sequencer
  | setImage (image : List Byte) (fuse : Option (List Byte))
  | passChipErase
  | passBlankCheck
  | passProgram
  | passVerify
  deriving DecidableEq, Repr

end Sys2Proof
end

