-- ==== Sys2Proof/WellFormed.lean ====
section
/-! DEFINITION. The checks: a well-formed configuration (10_state.md R18) and a well-formed instruction (30_encoding.md
R79). -/

namespace Sys2Proof

/-- 10_state.md R18, its seven conditions in its order. -/
def Cfg.wf (p : Params) (c : Cfg) : Bool :=
  decide (8 ≤ c.t.toNat) &&
  decide (2 ≤ c.pageSize.toNat ∧ c.pageSize.toNat ≤ p.maxBurst) &&
  decide (c.pageSize.toNat ≤ c.flashSize.toNat) &&
  decide (c.flashSize.toNat % c.pageSize.toNat = 0) &&
  decide (c.flashBase.toNat % c.pageSize.toNat = 0) &&
  decide (c.flashBase.toNat + c.flashSize.toNat ≤ 0x10000) &&
  decide (c.nvmBase.toNat + p.nvmStatusOfs ≤ 0xFFFF)

/-- R79: the only operand whose legality is not its Lean type is a key, which has exactly `KEY_LEN` bytes. Every other
out-of-range size (burst, repeat, page, image) is an operation that ends with `SizeError`, not an ill-formed one. -/
def Instr.wf (p : Params) : Instr → Bool
  | .ldcsFrame _ => true
  | .stcsFrame _ _ => true
  | .ldsFrame _ => true
  | .stsFrame _ _ => true
  | .stPtr _ => true
  | .stPtrInc _ => true
  | .ldPtrInc _ => true
  | .repeatFrame _ => true
  | .keyFrame k => k.length == p.keyLen
  | .cmdWp => true
  | .cmdEr => true
  | .cmdPbc => true
  | .cmdCher => true
  | .phyInit => true
  | .phySend _ => true
  | .phyRecv _ => true
  | .phyDoubleBreak => true
  | .phyClose => true
  | .ldcs _ => true
  | .stcs _ _ => true
  | .lds _ => true
  | .sts _ _ => true
  | .setPtr _ => true
  | .repeatN _ => true
  | .burstWrite _ => true
  | .burstRead _ => true
  | .key k => k.length == p.keyLen
  | .linkInit => true
  | .resetToggle => true
  | .enterProg => true
  | .exitProg => true
  | .waitReady => true
  | .execNvmCmd _ => true
  | .chipErase => true
  | .pageWrite _ _ => true
  | .pageRead _ _ => true
  | .pageErase _ => true
  | .setImage _ _ => true
  | .passChipErase => true
  | .passBlankCheck => true
  | .passProgram => true
  | .passVerify => true

end Sys2Proof
end

