-- ==== Sys2Proof/Decode.lean ====
section
/-! DEFINITION. The three encodings of 30_encoding.md: words at the port, their decoder (total, rejecting by name) and,
after it, the encoder; the decoder of the block's wire output (R73); the opcode table's words; the text syntax of R77. -/

namespace Sys2Proof

/-- One argument of a host operation as the host writes it: R76 gives typed argument lists and no byte layout, so the
types are kept and the values are unbounded (log 6). -/
inductive Arg where
  | num (n : Nat)
  | bytes (l : List Nat)
  | absent
  deriving DecidableEq, Repr

/-- A word at the block's port (log 6, log 7): a host operation (R76); a UPDI frame (R63) with the count of the REPEAT
before it, which fixes the frame's length (R73); an NVM controller command code (R74). -/
inductive PortWord where
  | op (code : Nat) (args : List Arg)
  | frame (rep : Nat) (bytes : List Byte)
  | nvm (code : Byte)
  deriving DecidableEq, Repr

/-- Why a word is no instruction. -/
inductive Reject where
  /-- an operation code not in R76 -/
  | unknownCode (code : Nat)
  /-- the wrong number of arguments, R79 -/
  | argumentCount
  /-- an argument of the wrong type, R79 -/
  | argumentType
  /-- a CS address above 0xF, R69, R79 -/
  | csAddressRange (a : Nat)
  /-- an address above 0xFFFF, R79 -/
  | addressRange (addr : Nat)
  /-- a byte above 0xFF, R79 -/
  | byteRange (b : Nat)
  /-- a KEY argument whose length is not KEY_LEN, R79 -/
  | keyLength (n : Nat)
  /-- a frame that does not open with SYNC, R61 -/
  | noSync
  /-- a frame shorter than its opcode's length, R73 -/
  | truncated
  /-- bytes after a frame's end, R73 -/
  | trailing
  /-- an opcode the block never emits, R75 -/
  | unemittedOpcode (op : Byte)
  /-- a command code not in R74 -/
  | unknownCommand (code : Byte)
  /-- a line that R77 does not give -/
  | badLine
  deriving DecidableEq, Repr

/-- What a decoder answers. -/
inductive Decoded (α : Type) where
  | ok (a : α)
  | reject (r : Reject)
  deriving DecidableEq, Repr

def Decoded.bind {α β : Type} (d : Decoded α) (f : α → Decoded β) : Decoded β :=
  match d with
  | .ok a => f a
  | .reject r => .reject r

/-! ## Host operations (R76, R79) -/

def toByte (n : Nat) : Decoded Byte :=
  if n ≤ 0xFF then .ok (BitVec.ofNat 8 n) else .reject (.byteRange n)

def toBytes : List Nat → Decoded (List Byte)
  | [] => .ok []
  | n :: ns => (toByte n).bind fun b => (toBytes ns).bind fun bs => .ok (b :: bs)

def argCs : Arg → Decoded CsAddr
  | .num n => if n ≤ 0xF then .ok (BitVec.ofNat 4 n) else .reject (.csAddressRange n)
  | .bytes _ => .reject .argumentType
  | .absent => .reject .argumentType

def argByte : Arg → Decoded Byte
  | .num n => toByte n
  | .bytes _ => .reject .argumentType
  | .absent => .reject .argumentType

def argAddr : Arg → Decoded Addr
  | .num n => if n ≤ 0xFFFF then .ok (BitVec.ofNat 16 n) else .reject (.addressRange n)
  | .bytes _ => .reject .argumentType
  | .absent => .reject .argumentType

def argNat : Arg → Decoded Nat
  | .num n => .ok n
  | .bytes _ => .reject .argumentType
  | .absent => .reject .argumentType

def argBytes : Arg → Decoded (List Byte)
  | .num _ => .reject .argumentType
  | .bytes l => toBytes l
  | .absent => .reject .argumentType

def argFuse : Arg → Decoded (Option (List Byte))
  | .num _ => .reject .argumentType
  | .bytes l => (toBytes l).bind fun bs => .ok (some bs)
  | .absent => .ok none

/-- A key has exactly `KEY_LEN` bytes (R79). -/
def checkKey (p : Params) (k : List Byte) : Decoded (List Byte) :=
  if k.length = p.keyLen then .ok k else .reject (.keyLength k.length)

def args0 (i : Instr) : List Arg → Decoded Instr
  | [] => .ok i
  | _ :: _ => .reject .argumentCount

def args1 {α : Type} (f : Arg → Decoded α) (mk : α → Instr) : List Arg → Decoded Instr
  | [x] => (f x).bind fun a => .ok (mk a)
  | [] => .reject .argumentCount
  | _ :: _ :: _ => .reject .argumentCount

def args2 {α β : Type} (f : Arg → Decoded α) (g : Arg → Decoded β) (mk : α → β → Instr) : List Arg → Decoded Instr
  | [x, y] => (f x).bind fun a => (g y).bind fun b => .ok (mk a b)
  | [] => .reject .argumentCount
  | [_] => .reject .argumentCount
  | _ :: _ :: _ :: _ => .reject .argumentCount

/-- The host operation codes of R76. -/
def decodeHost (p : Params) (code : Nat) (args : List Arg) : Decoded Instr :=
  match code with
  | 0x01 => args0 .phyInit args
  | 0x02 => args1 argBytes .phySend args
  | 0x03 => args1 argNat .phyRecv args
  | 0x04 => args0 .phyDoubleBreak args
  | 0x05 => args0 .phyClose args
  | 0x10 => args1 argCs .ldcs args
  | 0x11 => args2 argCs argByte .stcs args
  | 0x12 => args1 argAddr .lds args
  | 0x13 => args2 argAddr argByte .sts args
  | 0x14 => args1 argAddr .setPtr args
  | 0x15 => args1 argNat .repeatN args
  | 0x16 => args1 argBytes .burstWrite args
  | 0x17 => args1 argNat .burstRead args
  | 0x18 => args1 (fun x => (argBytes x).bind (checkKey p)) .key args
  | 0x19 => args0 .linkInit args
  | 0x20 => args0 .resetToggle args
  | 0x21 => args0 .enterProg args
  | 0x22 => args0 .exitProg args
  | 0x23 => args0 .waitReady args
  | 0x24 => args1 argByte .execNvmCmd args
  | 0x25 => args0 .chipErase args
  | 0x26 => args2 argAddr argBytes .pageWrite args
  | 0x27 => args2 argAddr argNat .pageRead args
  | 0x28 => args1 argAddr .pageErase args
  | 0x30 => args2 argBytes argFuse .setImage args
  | 0x31 => args0 .passChipErase args
  | 0x32 => args0 .passBlankCheck args
  | 0x33 => args0 .passProgram args
  | 0x34 => args0 .passVerify args
  | _ => .reject (.unknownCode code)

/-! ## UPDI frames (R61 to R73) -/

/-- Opcode bytes of R62 to R67. -/
def opLdcs : Byte := 0x80#8
def opStcs : Byte := 0xC0#8
def opLds : Byte := 0x04#8
def opSts : Byte := 0x44#8
def opStPtr : Byte := 0x69#8
def opStPtrInc : Byte := 0x64#8
def opLdPtrInc : Byte := 0x24#8
def opRepeat : Byte := 0xA0#8
def opKey : Byte := 0xE0#8

/-- `op[7:4]`, the part the table's mask 0xF0 keeps (R64). -/
def opHigh (op : Byte) : Byte := op &&& 0xF0#8

/-- An address from its two bytes, low byte first (R45, R68). -/
def addrOfBytes (lo hi : Byte) : Addr := hi ++ lo

/-- `addr[7:0]` and `addr[15:8]` (R68). -/
def addrLo (addr : Addr) : Byte := addr.extractLsb' 0 8
def addrHi (addr : Addr) : Byte := addr.extractLsb' 8 8

/-- A frame after SYNC: opcode byte, then the operand bytes (R63, R73). `rep` is the count of the REPEAT before it, one
where there is none: the number of data bytes of `ST *(ptr++)` and of `LD *(ptr++)` (R73). -/
def decodeOpcode (p : Params) (rep : Nat) (op : Byte) (rest : List Byte) : Decoded (Instr × List Byte) :=
  if opHigh op = opLdcs then .ok (.ldcsFrame (op.setWidth 4), rest)
  else if opHigh op = opStcs then
    match rest with
    | v :: r => .ok (.stcsFrame (op.setWidth 4) v, r)
    | [] => .reject .truncated
  else if op = opLds then
    match rest with
    | lo :: hi :: r => .ok (.ldsFrame (addrOfBytes lo hi), r)
    | _ => .reject .truncated
  else if op = opSts then
    match rest with
    | lo :: hi :: v :: r => .ok (.stsFrame (addrOfBytes lo hi) v, r)
    | _ => .reject .truncated
  else if op = opStPtr then
    match rest with
    | lo :: hi :: r => .ok (.stPtr (addrOfBytes lo hi), r)
    | _ => .reject .truncated
  else if op = opStPtrInc then
    if rest.length < rep then .reject .truncated
    else .ok (.stPtrInc (rest.take rep), rest.drop rep)
  else if op = opLdPtrInc then .ok (.ldPtrInc rep, rest)
  else if op = opRepeat then
    match rest with
    | n :: r => .ok (.repeatFrame n, r)
    | [] => .reject .truncated
  else if op = opKey then
    if rest.length < p.keyLen then .reject .truncated
    else .ok (.keyFrame (rest.take p.keyLen).reverse, rest.drop p.keyLen)
  else .reject (.unemittedOpcode op)

/-- The first frame of a byte stream and the bytes after it. -/
def decodeFrame (p : Params) (rep : Nat) : List Byte → Decoded (Instr × List Byte)
  | sync :: op :: rest => if sync = p.sync then decodeOpcode p rep op rest else .reject .noSync
  | _ => .reject .truncated

/-- The REPEAT count in force after a frame: `n` after `REPEAT n`, one after any other. DESIGN CHOICE (log 26): R42 has
the count "consumed by the next pointer access" and also by "the next single load/store opcode", and the block itself
always sends the burst next; here a frame between the two ends the count. -/
def repAfter (i : Instr) : Nat :=
  match i with
  | .repeatFrame count => count.toNat + 1
  | _ => 1

/-- Every frame of the block's outbound bytes, in order (R73); each frame takes at least one byte, so the number of
bytes is fuel enough. DESIGN CHOICE (log 28): a frame that a failed acknowledge cut short, an STS without its value byte
(R97) or a burst stopped early (R100), is not told from a whole one: the bytes it lacks are taken from what follows it,
and at the end of the stream it is rejected as truncated. -/
def decodeStream (p : Params) : Nat → Nat → List Byte → Decoded (List Instr)
  | _, _, [] => .ok []
  | 0, _, _ :: _ => .reject .trailing
  | fuel + 1, rep, b :: bs =>
    (decodeFrame p rep (b :: bs)).bind fun r =>
      (decodeStream p fuel (repAfter r.1) r.2).bind fun is => .ok (r.1 :: is)

def decodeWire (p : Params) (bytes : List Byte) : Decoded (List Instr) := decodeStream p bytes.length 1 bytes

/-! ## NVM controller commands (R74) -/

def decodeNvm (p : Params) (code : Byte) : Decoded Instr :=
  if code = p.cmdWp then .ok .cmdWp
  else if code = p.cmdEr then .ok .cmdEr
  else if code = p.cmdPbc then .ok .cmdPbc
  else if code = p.cmdCher then .ok .cmdCher
  else .reject (.unknownCommand code)

/-! ## The port's decoder -/

/-- A frame word holds exactly one frame. -/
def wholeFrame (r : Instr × List Byte) : Decoded Instr :=
  if r.2 = [] then .ok r.1 else .reject .trailing

def decode (p : Params) : PortWord → Decoded Instr
  | .op code args => decodeHost p code args
  | .frame rep bytes => (decodeFrame p rep bytes).bind wholeFrame
  | .nvm code => decodeNvm p code

/-! ## The encoder -/

/-- The arguments of R76 as the host writes them. -/
def numArg {w : Nat} (v : BitVec w) : Arg := .num v.toNat
def bytesArg (l : List Byte) : Arg := .bytes (l.map BitVec.toNat)
def fuseArg : Option (List Byte) → Arg
  | none => .absent
  | some l => bytesArg l

/-- The sends of a frame, in order (R63): the first opens with SYNC, the later ones are continuations (R61). An
instruction that is no frame has none. -/
def frameSends (p : Params) : Instr → List (List Byte)
  | .ldcsFrame a => [[p.sync, opLdcs ||| a.setWidth 8]]
  | .stcsFrame a v => [[p.sync, opStcs ||| a.setWidth 8, v]]
  | .ldsFrame addr => [[p.sync, opLds, addrLo addr, addrHi addr]]
  | .stsFrame addr v => [[p.sync, opSts, addrLo addr, addrHi addr], [v]]
  | .stPtr addr => [[p.sync, opStPtr, addrLo addr, addrHi addr]]
  | .stPtrInc data => ([p.sync, opStPtrInc] ++ data.take 1) :: (data.drop 1).map fun d => [d]
  | .ldPtrInc _ => [[p.sync, opLdPtrInc]]
  | .repeatFrame count => [[p.sync, opRepeat, count]]
  | .keyFrame k => [[p.sync, opKey], k.reverse]
  | _ => []

/-- The word of an instruction, written from R63 to R67 (frames), R74 (commands) and R76 (host operations). -/
def encode (p : Params) (i : Instr) : PortWord :=
  match i with
  | .ldcsFrame a => .frame 1 (frameSends p (.ldcsFrame a)).flatten
  | .stcsFrame a v => .frame 1 (frameSends p (.stcsFrame a v)).flatten
  | .ldsFrame addr => .frame 1 (frameSends p (.ldsFrame addr)).flatten
  | .stsFrame addr v => .frame 1 (frameSends p (.stsFrame addr v)).flatten
  | .stPtr addr => .frame 1 (frameSends p (.stPtr addr)).flatten
  | .stPtrInc data => .frame data.length (frameSends p (.stPtrInc data)).flatten
  | .ldPtrInc m => .frame m (frameSends p (.ldPtrInc m)).flatten
  | .repeatFrame count => .frame 1 (frameSends p (.repeatFrame count)).flatten
  | .keyFrame k => .frame 1 (frameSends p (.keyFrame k)).flatten
  | .cmdWp => .nvm p.cmdWp
  | .cmdEr => .nvm p.cmdEr
  | .cmdPbc => .nvm p.cmdPbc
  | .cmdCher => .nvm p.cmdCher
  | .phyInit => .op 0x01 []
  | .phySend l => .op 0x02 [bytesArg l]
  | .phyRecv n => .op 0x03 [.num n]
  | .phyDoubleBreak => .op 0x04 []
  | .phyClose => .op 0x05 []
  | .ldcs a => .op 0x10 [numArg a]
  | .stcs a v => .op 0x11 [numArg a, numArg v]
  | .lds addr => .op 0x12 [numArg addr]
  | .sts addr v => .op 0x13 [numArg addr, numArg v]
  | .setPtr addr => .op 0x14 [numArg addr]
  | .repeatN n => .op 0x15 [.num n]
  | .burstWrite data => .op 0x16 [bytesArg data]
  | .burstRead n => .op 0x17 [.num n]
  | .key k => .op 0x18 [bytesArg k]
  | .linkInit => .op 0x19 []
  | .resetToggle => .op 0x20 []
  | .enterProg => .op 0x21 []
  | .exitProg => .op 0x22 []
  | .waitReady => .op 0x23 []
  | .execNvmCmd cmd => .op 0x24 [numArg cmd]
  | .chipErase => .op 0x25 []
  | .pageWrite addr data => .op 0x26 [numArg addr, bytesArg data]
  | .pageRead addr n => .op 0x27 [numArg addr, .num n]
  | .pageErase addr => .op 0x28 [numArg addr]
  | .setImage image fuse => .op 0x30 [bytesArg image, fuseArg fuse]
  | .passChipErase => .op 0x31 []
  | .passBlankCheck => .op 0x32 []
  | .passProgram => .op 0x33 []
  | .passVerify => .op 0x34 []

/-! ## The opcode table's words -/

/-- Zeros for the operands of the host operation with this code, `none` for a code not in R76. A list operand of zero
words is empty but for a key, whose length is fixed (R76). -/
def zeroArgs (p : Params) (code : Nat) : Option (List Arg) :=
  match code with
  | 0x01 | 0x04 | 0x05 | 0x19 | 0x20 | 0x21 | 0x22 | 0x23 | 0x25 | 0x31 | 0x32 | 0x33 | 0x34 => some []
  | 0x03 | 0x10 | 0x12 | 0x14 | 0x15 | 0x17 | 0x24 | 0x28 => some [.num 0]
  | 0x02 | 0x16 => some [.bytes []]
  | 0x11 | 0x13 | 0x27 => some [.num 0, .num 0]
  | 0x18 => some [.bytes (List.replicate p.keyLen 0)]
  | 0x26 => some [.num 0, .bytes []]
  | 0x30 => some [.bytes [], .absent]
  | _ => none

/-- How many operand bytes follow a frame's opcode (R73) with no REPEAT before it; `none` for an opcode the block never
emits (R75). -/
def operandBytes (p : Params) (op : Byte) : Option Nat :=
  if opHigh op = opLdcs then some 0
  else if opHigh op = opStcs then some 1
  else if op = opLds then some 2
  else if op = opSts then some 3
  else if op = opStPtr then some 2
  else if op = opStPtrInc then some 1
  else if op = opLdPtrInc then some 0
  else if op = opRepeat then some 1
  else if op = opKey then some p.keyLen
  else none

/-- Byte `k` of a table word, the first byte its bits 7..0. -/
def wordByte (w k : Nat) : Byte := BitVec.ofNat 8 (w / 256 ^ k)

/-- The port word of a table word `w` of `nbits` bits. The table's three formats share byte values (log 7): a host
operation code (R76) is taken first, as the host port takes it, then a UPDI opcode (R62), then an NVM command (R74). -/
def tableWord (nbits w : Nat) : PortWord :=
  let v := w % 2 ^ nbits
  let op := wordByte v 0
  match zeroArgs defaultParams v with
  | some args => .op v args
  | none =>
    match operandBytes defaultParams op with
    | some n => .frame 1 (defaultParams.sync :: op :: (List.range n).map fun k => wordByte v (k + 1))
    | none => .nvm op

/-- The instruction the decoder reads from a table word; nothing where it rejects. -/
def decodeTableWord (nbits w : Nat) : Option Instr :=
  match decode defaultParams (tableWord nbits w) with
  | .ok i => some i
  | .reject _ => none

/-! ## The text syntax of host operations (R77) -/

/-- Tokens of a line. -/
inductive Tok where
  | word (cs : List Char)
  | num (n : Nat)
  | str (cs : List Char)
  | mark (c : Char)
  deriving DecidableEq, Repr

def quoteChar : Char := Char.ofNat 34

/-- The value of a digit in base 16, `none` for any other character. -/
def hexDigit (c : Char) : Option Nat :=
  if '0'.toNat ≤ c.toNat ∧ c.toNat ≤ '9'.toNat then some (c.toNat - '0'.toNat)
  else if 'A'.toNat ≤ c.toNat ∧ c.toNat ≤ 'F'.toNat then some (c.toNat - 'A'.toNat + 10)
  else if 'a'.toNat ≤ c.toNat ∧ c.toNat ≤ 'f'.toNat then some (c.toNat - 'a'.toNat + 10)
  else none

/-- Digits in a base, most significant first. -/
def digitsValue (base : Nat) : Nat → List Char → Option Nat
  | acc, [] => some acc
  | acc, c :: cs =>
    match hexDigit c with
    | some d => if d < base then digitsValue base (acc * base + d) cs else none
    | none => none

/-- A number is decimal, or hexadecimal after `0x` (R77). -/
def parseNumber : List Char → Option Nat
  | '0' :: 'x' :: c :: cs => digitsValue 16 0 (c :: cs)
  | [] => none
  | c :: cs => digitsValue 10 0 (c :: cs)

/-- The token of a finished run of characters, given last character first. -/
def runToken (rev : List Char) : Tok :=
  match parseNumber rev.reverse with
  | some n => .num n
  | none => .word rev.reverse

def closeRun (rev : List Char) (toks : List Tok) : List Tok :=
  match rev with
  | [] => toks
  | c :: cs => runToken (c :: cs) :: toks

def isMark (c : Char) : Bool := c == ',' || c == '[' || c == ']' || c == '(' || c == ')'

/-- The tokens of a line; a comment starts with `;` (R77). `rev` is the run being read, `quoted` whether it stands in
quotes; an unclosed quote is no line. -/
def lexLine : List Char → List Char → Bool → Option (List Tok)
  | [], rev, false => some (closeRun rev [])
  | [], _, true => none
  | c :: cs, rev, true =>
    if c = quoteChar then (lexLine cs [] false).map fun ts => .str rev.reverse :: ts
    else lexLine cs (c :: rev) true
  | c :: cs, rev, false =>
    if c = ';' then some (closeRun rev [])
    else if c = ' ' then (lexLine cs [] false).map (closeRun rev)
    else if c = quoteChar then (lexLine cs [] true).map (closeRun rev)
    else if isMark c then (lexLine cs [] false).map fun ts => closeRun rev (.mark c :: ts)
    else lexLine cs (c :: rev) false

/-- Where the argument parser stands. -/
inductive ArgPos where
  | arg
  | sep
  | elem (rev : List Nat)
  | elemSep (rev : List Nat)
  | first
  deriving DecidableEq, Repr

/-- The argument list of a line: numbers, byte lists `[b0, b1, ...]`, `fill(v, n)`, quoted keys, `absent` (R77). -/
def parseArgs : ArgPos → List Tok → Option (List Arg)
  | .sep, [] => some []
  | .sep, .mark ',' :: ts => parseArgs .arg ts
  | .arg, .num n :: ts => (parseArgs .sep ts).map fun as => .num n :: as
  | .arg, .str cs :: ts => (parseArgs .sep ts).map fun as => .bytes (cs.map Char.toNat) :: as
  | .arg, .word ['a', 'b', 's', 'e', 'n', 't'] :: ts => (parseArgs .sep ts).map fun as => .absent :: as
  | .arg, .word ['f', 'i', 'l', 'l'] :: .mark '(' :: .num v :: .mark ',' :: .num n :: .mark ')' :: ts =>
    (parseArgs .sep ts).map fun as => .bytes (List.replicate n v) :: as
  | .arg, .mark '[' :: ts => parseArgs .first ts
  | .first, .mark ']' :: ts => (parseArgs .sep ts).map fun as => .bytes [] :: as
  | .first, .num n :: ts => parseArgs (.elemSep [n]) ts
  | .elem rev, .num n :: ts => parseArgs (.elemSep (n :: rev)) ts
  | .elemSep rev, .mark ',' :: ts => parseArgs (.elem rev) ts
  | .elemSep rev, .mark ']' :: ts => (parseArgs .sep ts).map fun as => .bytes rev.reverse :: as
  | _, _ => none

/-- The mnemonics of R76 with their codes. -/
def hostMnemonics : List (List Char × Nat) :=
  [(['P','H','Y','_','I','N','I','T'], 0x01), (['P','H','Y','_','S','E','N','D'], 0x02),
   (['P','H','Y','_','R','E','C','V'], 0x03),
   (['P','H','Y','_','D','O','U','B','L','E','_','B','R','E','A','K'], 0x04),
   (['P','H','Y','_','C','L','O','S','E'], 0x05),
   (['L','D','C','S'], 0x10), (['S','T','C','S'], 0x11), (['L','D','S'], 0x12), (['S','T','S'], 0x13),
   (['S','E','T','_','P','T','R'], 0x14), (['R','E','P','E','A','T'], 0x15)] ++
  [(['B','U','R','S','T','_','W','R','I','T','E'], 0x16), (['B','U','R','S','T','_','R','E','A','D'], 0x17),
   (['K','E','Y'], 0x18), (['L','I','N','K','_','I','N','I','T'], 0x19),
   (['R','E','S','E','T','_','T','O','G','G','L','E'], 0x20), (['E','N','T','E','R','_','P','R','O','G'], 0x21),
   (['E','X','I','T','_','P','R','O','G'], 0x22), (['W','A','I','T','_','R','E','A','D','Y'], 0x23),
   (['E','X','E','C','_','N','V','M','_','C','M','D'], 0x24), (['C','H','I','P','_','E','R','A','S','E'], 0x25)] ++
  [(['P','A','G','E','_','W','R','I','T','E'], 0x26), (['P','A','G','E','_','R','E','A','D'], 0x27),
   (['P','A','G','E','_','E','R','A','S','E'], 0x28), (['S','E','T','_','I','M','A','G','E'], 0x30),
   (['P','A','S','S','_','C','H','I','P','_','E','R','A','S','E'], 0x31),
   (['P','A','S','S','_','B','L','A','N','K','_','C','H','E','C','K'], 0x32),
   (['P','A','S','S','_','P','R','O','G','R','A','M'], 0x33),
   (['P','A','S','S','_','V','E','R','I','F','Y'], 0x34)]

/-- The tokens of a line as a host operation: nothing on a blank or comment line. -/
def parseToks : List Tok → Decoded (Option PortWord)
  | [] => .ok none
  | .word m :: ts =>
    match hostMnemonics.lookup m, parseArgs (if ts = [] then .sep else .arg) ts with
    | some code, some args => .ok (some (.op code args))
    | _, _ => .reject .badLine
  | _ :: _ => .reject .badLine

/-- One line of a test program: the mnemonic, a space, the arguments separated by commas (R77). -/
def parseLine (line : List Char) : Decoded (Option PortWord) :=
  match lexLine line [] false with
  | some ts => parseToks ts
  | none => .reject .badLine

end Sys2Proof
end

