-- ==== Sys2Proof/Machine/State.lean ====
section
/-! DEFINITION. The state of the block (10_state.md), its outputs, the reasons a step can stop, and the state after
reset (70_reset_and_hazards.md R159). -/

namespace Sys2Proof.Machine

/-! ## Error classes (60_exceptions.md R141) -/

/-- The reason an `IOError` carries. -/
inductive IoReason where
  | gpioInit
  | closed
  deriving DecidableEq, Repr

/-- The step an `UnlockFailed` names (42_device_control.md R106). -/
inductive UnlockStep where
  | initialStatus
  | key
  | keyStatus
  | keyRejected
  | reset
  | lockStatus
  | stillLocked
  | finalStatus
  | notInProgrammingMode
  deriving DecidableEq, Repr

/-- What a `Timeout` or `NotReady` waited for. -/
inductive Wait where
  /-- a short read: the bytes that did arrive, 41_link.md R92 -/
  | shortRead (received : Nat)
  /-- no acknowledge byte, 41_link.md R93 -/
  | noAck
  /-- the ready deadline, 42_device_control.md R109 -/
  | notReady
  deriving DecidableEq, Repr

/-- An error with the info it carries (R141, R143; log 14). `LinkDown` has three forms of info: the error of the last
attempt, the status byte zero inside an attempt, no attempt made. -/
inductive Err where
  | ioError (why : IoReason)
  | linkDown (last : Err)
  | linkDownStatusZero
  | linkDownNoAttempt
  | unlockFailed (step : UnlockStep)
  | timeout (what : Wait)
  | writeError (status : Byte)
  | sizeError (n : Nat)
  | nack (b : Byte)
  | notReady (what : Wait)
  | verifyMismatch
  | eraseFailed
  | formatError
  deriving DecidableEq, Repr

/-- The class names of R141. -/
inductive ErrClass where
  | ok
  | ioError
  | linkDown
  | unlockFailed
  | timeout
  | writeError
  | sizeError
  | nack
  | notReady
  | verifyMismatch
  | eraseFailed
  | formatError
  deriving DecidableEq, Repr

/-- The value of a successful operation (30_encoding.md R76). -/
inductive Value where
  | none
  | byte (b : Byte)
  | bytes (l : List Byte)
  | code (c : Int)
  deriving DecidableEq, Repr

/-- "the operation ends with exactly one result, `OK(value)` or one error class" (00_scope.md R6). -/
inductive Result where
  | ok (v : Value)
  | err (e : Err)
  deriving DecidableEq, Repr

/-! ## Sequencer registers (10_state.md R24) -/

/-- `S.seq.pass`. -/
inductive Pass where
  | none
  | chipErase
  | blankCheck
  | program
  | verify
  deriving DecidableEq, Repr

/-- `S.seq.step`. -/
inductive PageStep where
  | attempt
  | linkRetry
  | dataRetry
  | eraseEscalate
  | abort
  | success
  deriving DecidableEq, Repr

/-- The page-transfer sequencer's registers, R24. -/
structure Seq where
  pass      : Pass
  page      : Nat
  addr      : Addr
  linkErr   : Nat
  dataErr   : Nat
  blankCnt  : Nat
  escCnt    : Nat
  skipWrite : Bool
  step      : PageStep
  deriving DecidableEq, Repr

/-- R159 gives `pass`; the other fields "have no value until a pass's StartPage": DESIGN CHOICE, unsafe (log 4). -/
def Seq.atReset : Seq where
  pass := .none
  page := 0
  addr := 0#16
  linkErr := 0
  dataErr := 0
  blankCnt := 0
  escCnt := 0
  skipWrite := false
  step := .attempt

/-! ## Datapath registers (10_state.md R15, R16) -/

/-- The receive datapath, R15. -/
structure Rx where
  shift : Byte
  bit   : Nat
  poll  : Nat
  out   : List Byte
  deriving DecidableEq, Repr

/-- Outside a receive the registers "have no value" (R37): they rest at zero. DESIGN CHOICE, unsafe (log 4). -/
def Rx.idle : Rx := ⟨0#8, 0, 0, []⟩

/-- The transmit datapath, R16. -/
structure Tx where
  byte  : Byte
  slot  : Nat
  index : Nat
  deriving DecidableEq, Repr

/-- Outside a send the registers "have no value" (R37): they rest at zero. DESIGN CHOICE, unsafe (log 4). -/
def Tx.idle : Tx := ⟨0#8, 0, 0⟩

/-! ## Outputs -/

/-- One item of a run's observation (70_reset_and_hazards.md R166): a capability call with the environment's answer
(00_scope.md R7; the pin is the recorded pin), a progress event (43_page_sequencer.md R138), a result (R6). -/
inductive Obs where
  | capInit (answer : Bool)
  | setDir (pin : Option Nat) (d : Dir)
  | writeLevel (pin : Option Nat) (l : Level)
  | readLevel (pin : Option Nat) (answer : Level)
  | sleep (us : Nat)
  | progress (pass : Pass) (i total : Nat)
  | result (r : Result)
  deriving DecidableEq, Repr

/-! ## The state -/

/-- Everything 10_state.md gives the block, with the configuration and the parameters, and the model's own inputs
(`levels`, `capInits`, `draws`, `hostOps`) and output (`obs`). -/
structure State where
  /-- configuration registers, R17; read-only -/
  cfg        : Cfg
  /-- parameters, R8 to R11; fixed (log 2) -/
  prm        : Params
  /-- `S.phy_open`, R14 -/
  phyOpen    : Bool
  /-- `S.pin`, R14 -/
  pin        : Option Nat
  /-- `S.pin_dir`, R14 -/
  pinDir     : PinDir
  /-- `S.pin_out`, R14 -/
  pinOut     : PinOut
  /-- receive datapath, R15 -/
  rx         : Rx
  /-- transmit datapath, R16 -/
  tx         : Tx
  /-- `S.prog_mode`, R19 -/
  progMode   : Bool
  /-- `S.flash_image`, R20: the bytes that differ from ERASE_VALUE, by flash offset, offsets rising -/
  flashImage : List Host.Cell
  /-- `S.bytes_used`, R20 -/
  bytesUsed  : Nat
  /-- `S.fuse_image`, R20; `none` is `absent` -/
  fuseImage  : Option (List Byte)
  /-- `S.rbuf`, R21 -/
  rbuf       : List Byte
  /-- `S.busy`, R22 -/
  busy       : Bool
  /-- `S.refused`, R22 -/
  refused    : Bool
  /-- `S.seq`, R24 -/
  seq        : Seq
  /-- answers of `ReadLevel()` already settled, next first (log 1) -/
  levels     : List Level
  /-- answers of `CapInit()` already settled, next first (log 1) -/
  capInits   : List Bool
  /-- answers drawn so far (log 1) -/
  draws      : Nat
  /-- the observation of the run so far, oldest first (R166, log 9) -/
  obs        : List Obs
  /-- the operations the host will still issue, next first (R6, log 6) -/
  hostOps    : List PortWord
  deriving DecidableEq, Repr

/-- R159, in its order: the configuration supplied (log 3), then every field at its reset value. "Reset makes no
capability call." -/
def State.reset : State where
  cfg := resetCfg
  prm := defaultParams
  phyOpen := false
  pin := none
  pinDir := .unknown
  pinOut := .unknown
  rx := Rx.idle
  tx := Tx.idle
  progMode := false
  flashImage := []
  bytesUsed := 0
  fuseImage := none
  rbuf := []
  busy := false
  refused := false
  seq := Seq.atReset
  levels := []
  capInits := []
  draws := 0
  obs := []
  hostOps := []

/-! ## The reasons a step can stop -/

/-- The faults of the model. The spec has none ("No behaviour of the block itself is a fault or a stuck state",
93_implementation_defined.md). -/
inductive Fault where
  /-- Raised by PASS_PROGRAM alone, where `S.bytes_used > FLASH_SIZE`: the pass would read the image memory at an
  offset that does not exist (R20 bounds `S.bytes_used` by FLASH_SIZE, so no run from reset meets it). Safe (log 11). -/
  | imageRange
  deriving DecidableEq, Repr

/-- The refusals of the model. What the spec calls a refusal (30_encoding.md R79) sets `S.refused` and is a next state
(log 5). -/
inductive Refusal where
  /-- An instruction with no meaning yet, named as the opcode table names it; raised by exec's arms only. Safe. -/
  | notModelled (mnemonic : String)
  deriving DecidableEq, Repr

end Sys2Proof.Machine
end

