-- ==== Sys2Proof/Machine/Flags.lean ====
section
/-! DEFINITION. Flag computations: parity (30_encoding.md R59), the status bits the block tests (10_state.md R28, R31),
the error classes' codes (60_exceptions.md R141), page tests (43_page_sequencer.md R128, R131). -/

namespace Sys2Proof.Machine

/-- `v[i]` (R12). -/
def bitOf (v : Byte) (i : Nat) : Bool := v.getLsbD i

/-- The number of set bits among the low `k` bits of `b`. -/
def popcountBelow (b : Byte) : Nat → Nat
  | 0 => 0
  | k + 1 => popcountBelow b k + (if bitOf b k then 1 else 0)

/-- `popcount(b)` (R12). -/
def popcount (b : Byte) : Nat := popcountBelow b 8

/-- `parity(b) = popcount(b) mod 2` (R12, R59), as a level (R60). -/
def parity (b : Byte) : Level := popcount b % 2 == 1

/-- The twelve slots of a character, in order (30_encoding.md R58): start, data LSB first, parity, two stops. -/
def charLevels (b : Byte) : List Level :=
  [false] ++ (List.range 8).map (bitOf b) ++ [parity b] ++ [true, true]

/-- ASI_SYS_STATUS says NVM programming mode (R28, R106). -/
def inProgMode (p : Params) (status : Byte) : Bool := bitOf status p.sysNvmprog

/-- ASI_SYS_STATUS says the device is locked (R28, R107). -/
def isLocked (p : Params) (status : Byte) : Bool := bitOf status p.sysLockstatus

/-- ASI_KEY_STATUS says the NVM key was accepted (R28, R106). -/
def keyAccepted (p : Params) (status : Byte) : Bool := bitOf status p.keystNvmprog

/-- NVM STATUS says write error (R31, R109). -/
def writeErrorFlag (p : Params) (status : Byte) : Bool := bitOf status p.nvmstWrerror

/-- NVM STATUS says EEPROM busy or flash busy (R31, R109). -/
def nvmBusy (p : Params) (status : Byte) : Bool := bitOf status p.nvmstEebusy || bitOf status p.nvmstFbusy

/-- "every byte of b equals ERASE_VALUE" (R128). -/
def isBlank (p : Params) (page : List Byte) : Bool := page.all fun b => b == p.eraseValue

/-- The class of an error (R141). -/
def errClass : Err → ErrClass
  | .ioError _ => .ioError
  | .linkDown _ => .linkDown
  | .linkDownStatusZero => .linkDown
  | .linkDownNoAttempt => .linkDown
  | .unlockFailed _ => .unlockFailed
  | .timeout _ => .timeout
  | .writeError _ => .writeError
  | .sizeError _ => .sizeError
  | .nack _ => .nack
  | .notReady _ => .notReady
  | .verifyMismatch => .verifyMismatch
  | .eraseFailed => .eraseFailed
  | .formatError => .formatError

/-- The class of a result: an operation that ended with `OK(v)` has class `OK` (R141). -/
def resultClass : Result → ErrClass
  | .ok _ => .ok
  | .err e => errClass e

/-- The numeric codes of R141. -/
def classCode : ErrClass → Nat
  | .ok => 0
  | .ioError => 1
  | .linkDown => 2
  | .unlockFailed => 3
  | .timeout => 4
  | .writeError => 5
  | .sizeError => 6
  | .nack => 7
  | .notReady => 8
  | .verifyMismatch => 9
  | .eraseFailed => 10
  | .formatError => 11

end Sys2Proof.Machine
end

