-- ==== Sys2Proof/Machine/Operands.lean ====
section
/-! DEFINITION. Operand forms: opcode bytes with a CS address (30_encoding.md R64, R69), address bytes (R68), the repeat
operand (R70), the key (R71), addresses computed from the configuration (10_state.md R31, 43_page_sequencer.md). -/

namespace Sys2Proof.Machine

/-- `0x80 | a` (R64). -/
def ldcsOpcode (a : CsAddr) : Byte := opLdcs ||| a.setWidth 8

/-- `0xC0 | a` (R64). -/
def stcsOpcode (a : CsAddr) : Byte := opStcs ||| a.setWidth 8

/-- `addr[7:0]` then `addr[15:8]` (R45, R68). -/
def addrBytes (addr : Addr) : List Byte := [addrLo addr, addrHi addr]

/-- `(n - 1) mod 256` (R70), for `n` of at least one. -/
def repeatOperand (n : Nat) : Byte := BitVec.ofNat 8 (n - 1)

/-- The count a repeat operand byte stands for: `n` where the operand is `n - 1` (R70; log 20). -/
def repeatCount (count : Byte) : Nat := count.toNat + 1

/-- `1 << i` as a byte (R12). -/
def oneBit (i : Nat) : Byte := BitVec.ofNat 8 (2 ^ i)

/-- `NVM_BASE + NVM_CTRLA_OFS` (R31), modulo 2^16 (R12). -/
def nvmCtrlaAddr (s : State) : Addr := s.cfg.nvmBase + BitVec.ofNat 16 s.prm.nvmCtrlaOfs

/-- `NVM_BASE + NVM_STATUS_OFS` (R31), modulo 2^16 (R12). -/
def nvmStatusAddr (s : State) : Addr := s.cfg.nvmBase + BitVec.ofNat 16 s.prm.nvmStatusOfs

/-- `T` in microseconds (R8). -/
def bitPeriod (s : State) : Nat := s.cfg.t.toNat

/-- `PAGE_SIZE` in bytes (R17). -/
def pageBytes (s : State) : Nat := s.cfg.pageSize.toNat

/-- `FLASH_SIZE` in bytes (R17). -/
def flashBytes (s : State) : Nat := s.cfg.flashSize.toNat

/-- `PageAddr(p) = FLASH_BASE + p * PS`, a u16 (43_page_sequencer.md). -/
def pageAddr (s : State) (p : Nat) : Addr := s.cfg.flashBase + BitVec.ofNat 16 (p * pageBytes s)

end Sys2Proof.Machine
end

