-- ==== Sys2Proof/Machine/Ops.lean ====
section
/-! DEFINITION. The named operations every meaning is made of: capability calls with the environment's answers
(00_scope.md R7), raising and catching an error (00_scope.md R12, 60_exceptions.md R148 to R150), the image memory
(10_state.md R20), and the host port, which takes or refuses an operation and delivers its result (R6, 30_encoding.md
R79). -/

namespace Sys2Proof.Machine

/-- An operation of the block: from a state to a value or an error, and a state. The state stays as written when an
error is raised ("there is no rollback", R12, R150). -/
abbrev Op (α : Type) := EStateM Err State α

/-- One step of the machine. -/
abbrev Answer := Host.Outcome State Fault Refusal

/-! ## Errors: the shared "exception entry" -/

/-- `raise E(info)` (R12): ends the current operation; no further call, no further write (R148). -/
def raise {α : Type} (e : Err) : Op α := fun s => .error e s

/-- `r <- Op(args)` without `?` (R12): the whole result, error or value, and the state as the operation left it. -/
def tryOp {α : Type} (m : Op α) : Op (Except Err α) := fun s =>
  match m s with
  | .ok a s' => .ok (.ok a) s'
  | .error e s' => .ok (.error e) s'

/-- Rename an error on its way up (60_exceptions.md R151). -/
def mapErr {α : Type} (f : Err → Err) (m : Op α) : Op α := fun s =>
  match m s with
  | .ok a s' => .ok a s'
  | .error e s' => .error (f e) s'

/-- Write state on every exit by error, before it leaves (42_device_control.md R106). -/
def onError {α : Type} (g : State → State) (m : Op α) : Op α := fun s =>
  match m s with
  | .ok a s' => .ok a s'
  | .error e s' => .error e (g s')

/-- Write state: `S.f <- v` (R12). -/
def update (f : State → State) : Op Unit := fun s => .ok () (f s)

/-! ## Capability calls (R7) -/

/-- Record an observation (R166). -/
def observe (o : Obs) : Op Unit := update fun s => { s with obs := s.obs ++ [o] }

/-- The next answer of `ReadLevel()`: one the environment has settled, else a free value (log 1). -/
def nextLevel (s : State) : Level :=
  match s.levels with
  | l :: _ => l
  | [] => Config.freeLevel s.draws

/-- The next answer of `CapInit()`: one the environment has settled, else a free value (log 1). -/
def nextCapInit (s : State) : Bool :=
  match s.capInits with
  | a :: _ => a
  | [] => Config.freeCapInit s.draws

/-- `CapInit()`. -/
def capInit : Op Bool := fun s =>
  .ok (nextCapInit s)
    { s with capInits := s.capInits.tail, draws := s.draws + 1, obs := s.obs ++ [.capInit (nextCapInit s)] }

/-- `SetDir(d)` on the recorded pin, and `S.pin_dir <- d` (10_state.md R14). -/
def setDir (d : Dir) : Op Unit := update fun s =>
  { s with pinDir := .known d, obs := s.obs ++ [.setDir s.pin d] }

/-- `WriteLevel(l)` on the recorded pin, and `S.pin_out <- l` (R14). -/
def writeLevel (l : Level) : Op Unit := update fun s =>
  { s with pinOut := .known l, obs := s.obs ++ [.writeLevel s.pin l] }

/-- `ReadLevel()` on the recorded pin. -/
def readLevel : Op Level := fun s =>
  .ok (nextLevel s)
    { s with levels := s.levels.tail, draws := s.draws + 1, obs := s.obs ++ [.readLevel s.pin (nextLevel s)] }

/-- `Sleep(us)`. -/
def sleep (us : Nat) : Op Unit := observe (.sleep us)

/-- `Progress(pass, i, total)` (43_page_sequencer.md R138): delivered to the host, changes no state of the block. -/
def progress (pass : Pass) (i total : Nat) : Op Unit := observe (.progress pass i total)

/-- A PHY operation on a closed PHY makes no call and ends with `IOError("closed")` (40_phy.md R90). -/
def requireOpen : Op Unit := fun s => if s.phyOpen then .ok () s else .error (.ioError .closed) s

/-! ## The image memory (10_state.md R20) -/

/-- What an offset reads as that no cell lists: "every byte `ERASE_VALUE`" (R20). -/
def unlistedByte (p : Params) : Byte := p.eraseValue

/-- The byte at offset `o` of a list of cells. -/
def cellAt (dflt : Byte) : List Host.Cell → Nat → Byte
  | [], _ => dflt
  | (a, b) :: cs, o => if a = o then b else cellAt dflt cs o

/-- `S.flash_image[o]` (R43). -/
def imageByte (s : State) (o : Nat) : Byte := cellAt (unlistedByte s.prm) s.flashImage o

/-- Cells with offsets rising from `lo` and no unlisted value among them. -/
def cellsFrom (dflt : Byte) : Nat → List Host.Cell → Bool
  | _, [] => true
  | lo, (a, b) :: cs => decide (lo ≤ a) && (b != dflt) && cellsFrom dflt (a + 1) cs

/-- The canonical form of the image memory. -/
def memoryWf (s : State) : Bool := cellsFrom (unlistedByte s.prm) 0 s.flashImage

/-- The cells of an image laid out from offset `o`: the bytes that differ from `ERASE_VALUE` (43_page_sequencer.md
R121). -/
def imageCells (dflt : Byte) : Nat → List Byte → List Host.Cell
  | _, [] => []
  | o, b :: bs => if b = dflt then imageCells dflt (o + 1) bs else (o, b) :: imageCells dflt (o + 1) bs

/-- One past the last offset, from `o` on, whose byte differs from `ERASE_VALUE`; `used` where there is none (R121). -/
def imageUsed (dflt : Byte) : Nat → Nat → List Byte → Nat
  | _, used, [] => used
  | o, used, b :: bs => imageUsed dflt (o + 1) (if b = dflt then used else o + 1) bs

/-- `ImagePage(p) = S.flash_image[p*PS .. p*PS + PS)` (43_page_sequencer.md). -/
def imagePage (s : State) (p : Nat) : List Byte :=
  (List.range (pageBytes s)).map fun k => imageByte s (p * pageBytes s + k)

/-! ## The host port (00_scope.md R6, 30_encoding.md R79) -/

/-- An operation is run, not refused: none is running, the configuration is well formed (10_state.md R18), the operand
is legal (R79). -/
def accepts (i : Instr) (s : State) : Bool := !s.busy && s.cfg.wf s.prm && i.wf s.prm

/-- "A refused operation makes no capability call, changes no state except `S.refused <- true`, and returns no result"
(R79). -/
def refuse (s : State) : State := { s with refused := true }

/-- An operation starts: the port is busy (10_state.md R22), the datapath registers hold nothing (R15, R16). -/
def beginOp (s : State) : State := { s with busy := true, rx := Rx.idle, tx := Tx.idle }

/-- An operation ends "with exactly one result" (R6), which is delivered to the host. -/
def deliver (r : Result) (s : State) : State := { s with busy := false, obs := s.obs ++ [.result r] }

/-- The end of an operation that answered a value or an error. -/
def endOp : EStateM.Result Err State Value → State
  | .ok v s => deliver (.ok v) s
  | .error e s => deliver (.err e) s

/-- The host port: run operation `m` for instruction `i` to completion, or refuse it (R6, R79). Refusal "precedes
everything" (60_exceptions.md R147). -/
def serve (i : Instr) (m : Op Value) (s : State) : Answer :=
  .next (if accepts i s then endOp (m (beginOp s)) else refuse s)

/-- The value of an operation that has none. -/
def unit (m : Op Unit) : Op Value := do
  m
  pure .none

/-- The value of an operation that answers a byte. -/
def byteValue (m : Op Byte) : Op Value := do
  let b ← m
  pure (.byte b)

/-- The value of an operation that answers a list of bytes. -/
def bytesValue (m : Op (List Byte)) : Op Value := do
  let l ← m
  pure (.bytes l)

/-- The value of a pass (60_exceptions.md R144). -/
def codeValue (m : Op Int) : Op Value := do
  let c ← m
  pure (.code c)

end Sys2Proof.Machine
end

