-- ==== Sys2Proof/Machine/Phy.lean ====
section
/-! DEFINITION. The PHY family (40_phy.md). -/

namespace Sys2Proof.Machine

/-! ## Transmit -/

/-- `Slot(l)` (R82). -/
def slot (l : Level) : Op Unit := do
  writeLevel l
  let s ← get
  sleep (bitPeriod s)

/-- Slots of a character from slot index `k` on (R16, R82). -/
def sendSlots : Nat → List Level → Op Unit
  | _, [] => pure ()
  | k, l :: ls => do
    update fun s => { s with tx := { s.tx with slot := k } }
    slot l
    sendSlots (k + 1) ls

/-- `SendChar(b)` (R82) for the byte of index `j`. -/
def sendChar (j : Nat) (b : Byte) : Op Unit := do
  update fun s => { s with tx := ⟨b, 0, j⟩ }
  sendSlots 0 (charLevels b)

/-- The characters of a list, the first of index `j`. -/
def sendChars : Nat → List Byte → Op Unit
  | _, [] => pure ()
  | j, b :: bs => do
    sendChar j b
    sendChars (j + 1) bs

/-- `PHY_SEND(bytes)` (R81). -/
def phySend (bytes : List Byte) : Op Unit := do
  requireOpen
  setDir .output
  writeLevel true
  let s ← get
  sleep (s.prm.idleSettleBits * bitPeriod s)
  sendChars 0 bytes
  update fun s => { s with tx := Tx.idle }

/-! ## Receive -/

/-- Poll for a start bit at most `k` more times (R83): the first poll that reads 0 is the start. A divisor of 0 gives
`Sleep(0)`, DESIGN CHOICE (log 24). -/
def pollStart : Nat → Op Bool
  | 0 => pure false
  | k + 1 => do
    let l ← readLevel
    if l = false then pure true
    else do
      let s ← get
      sleep (bitPeriod s / s.prm.rxPollDiv)
      update fun s => { s with rx := { s.rx with poll := s.rx.poll + 1 } }
      pollStart k

/-- `rx_shift <- rx_shift | (ReadLevel() << rx_bit)` (R83, R60). -/
def shiftIn (l : Level) (s : State) : State :=
  { s with rx := { s.rx with shift := s.rx.shift ||| (if l then oneBit s.rx.bit else 0#8), bit := s.rx.bit + 1 } }

/-- Sample `k` data bits, one a bit period (R83). -/
def sampleBits : Nat → Op Unit
  | 0 => pure ()
  | k + 1 => do
    let s ← get
    sleep (bitPeriod s)
    let l ← readLevel
    update (shiftIn l)
    sampleBits k

/-- One byte after its start bit was seen (R83); the parity and stop bits are skipped unread (R85). A divisor of 0 gives
`Sleep(0)`, DESIGN CHOICE (log 24). -/
def receiveByte : Op Unit := do
  let s ← get
  sleep (bitPeriod s / s.prm.rxCenterDiv)
  update fun s => { s with rx := { s.rx with shift := 0#8, bit := 0 } }
  sampleBits 8
  sleep (s.prm.rxSkipBits * bitPeriod s)
  update fun s => { s with rx := { s.rx with out := s.rx.out ++ [s.rx.shift] } }

/-- Receive up to `n` bytes; the first byte that times out ends the receive (R83). -/
def receiveBytes : Nat → Op Unit
  | 0 => pure ()
  | n + 1 => do
    update fun s => { s with rx := { s.rx with poll := 0 } }
    let s ← get
    let found ← pollStart s.prm.rxPollLimit
    if found then do
      receiveByte
      receiveBytes n
    else pure ()

/-- `PHY_RECV(n)` (R83). -/
def phyRecv (n : Nat) : Op (List Byte) := do
  requireOpen
  setDir .input
  update fun s => { s with rx := Rx.idle }
  receiveBytes n
  let s ← get
  update fun s => { s with rx := Rx.idle }
  pure s.rx.out

/-! ## Opening, closing, double break -/

/-- `PHY_INIT` (R80). -/
def phyInit : Op Unit := do
  let ready ← capInit
  if ready then do
    update fun s => { s with pin := some s.cfg.pin }
    setDir .input
    update fun s => { s with phyOpen := true }
  else do
    update fun s => { s with phyOpen := false, pin := none }
    raise (.ioError .gpioInit)

/-- `PHY_DOUBLE_BREAK` (R86). -/
def phyDoubleBreak : Op Unit := do
  requireOpen
  setDir .output
  let s ← get
  writeLevel false
  sleep s.prm.dbrkLow1Us
  writeLevel true
  sleep s.prm.dbrkHigh1Us
  writeLevel false
  sleep s.prm.dbrkLow2Us
  writeLevel true
  sleep s.prm.dbrkHigh2Us

/-- `PHY_CLOSE` (R89). -/
def phyClose : Op Unit := do
  let s ← get
  if s.phyOpen then do
    setDir .input
    update fun s => { s with phyOpen := false, pin := none }
  else pure ()

/-! ## The instructions -/

/-- PHY_INIT, host op 0x01 (R80). -/
def execPhyInit (s : State) : Answer := serve .phyInit (unit phyInit) s

/-- PHY_SEND, host op 0x02 (R81). -/
def execPhySend (bytes : List Byte) (s : State) : Answer := serve (.phySend bytes) (unit (phySend bytes)) s

/-- PHY_RECV, host op 0x03 (R83): a short read is `OK` with fewer bytes. -/
def execPhyRecv (n : Nat) (s : State) : Answer := serve (.phyRecv n) (bytesValue (phyRecv n)) s

/-- PHY_DOUBLE_BREAK, host op 0x04 (R86). -/
def execPhyDoubleBreak (s : State) : Answer := serve .phyDoubleBreak (unit phyDoubleBreak) s

/-- PHY_CLOSE, host op 0x05 (R89). -/
def execPhyClose (s : State) : Answer := serve .phyClose (unit phyClose) s

end Sys2Proof.Machine
end

