-- ==== Sys2Proof/Machine/Link.lean ====
section
/-! DEFINITION. The Link family (41_link.md) but for LINK_INIT, which is in DeviceControl.lean beside ENTER_PROG. -/

namespace Sys2Proof.Machine

/-- `ReadBytes(n)` (R92): exactly `n` data bytes. -/
def readBytes (n : Nat) : Op (List Byte) := do
  let r ← phyRecv n
  if r.length < n then raise (.timeout (.shortRead r.length)) else pure r

/-- `ReadBytes(1)` and its byte (R94, R96). -/
def readByte : Op Byte := do
  let r ← readBytes 1
  pure (r.headD 0#8)

/-- `ExpectAck()` (R93). -/
def expectAck : Op Unit := do
  let r ← phyRecv 1
  let s ← get
  match r with
  | [] => raise (.timeout .noAck)
  | b :: _ => if b = s.prm.ack then pure () else raise (.nack b)

/-- `LDCS(a)` (R94). -/
def ldcs (a : CsAddr) : Op Byte := do
  let s ← get
  phySend [s.prm.sync, ldcsOpcode a]
  readByte

/-- `STCS(a, v)` (R95). -/
def stcs (a : CsAddr) (v : Byte) : Op Unit := do
  let s ← get
  phySend [s.prm.sync, stcsOpcode a, v]

/-- `LDS(addr)` (R96). -/
def lds (addr : Addr) : Op Byte := do
  let s ← get
  phySend ([s.prm.sync, opLds] ++ addrBytes addr)
  readByte

/-- `STS(addr, v)` (R97): the value byte only after a matching acknowledge. -/
def sts (addr : Addr) (v : Byte) : Op Unit := do
  let s ← get
  phySend ([s.prm.sync, opSts] ++ addrBytes addr)
  expectAck
  phySend [v]
  expectAck

/-- `SET_PTR(addr)` (R98). -/
def setPtr (addr : Addr) : Op Unit := do
  let s ← get
  phySend ([s.prm.sync, opStPtr] ++ addrBytes addr)
  expectAck

/-- `1 <= n <= MAX_BURST`, else `SizeError(n)` before any PHY call (R99, R100, R101, 42_device_control.md R112); `lo` is
the lower bound. -/
def checkSize (lo n : Nat) : Op Unit := fun s =>
  if n < lo ∨ s.prm.maxBurst < n then .error (.sizeError n) s else .ok () s

/-- `REPEAT(n)` (R99). -/
def repeatOp (n : Nat) : Op Unit := do
  checkSize 1 n
  let s ← get
  phySend [s.prm.sync, opRepeat, repeatOperand n]

/-- The bytes of a burst after the first, each a send of its own followed by an acknowledge wait (R100). -/
def burstRest : List Byte → Op Unit
  | [] => pure ()
  | d :: ds => do
    phySend [d]
    expectAck
    burstRest ds

/-- `BURST_WRITE(data)` (R100). -/
def burstWrite (data : List Byte) : Op Unit := do
  checkSize 1 data.length
  let s ← get
  phySend ([s.prm.sync, opStPtrInc] ++ data.take 1)
  expectAck
  burstRest (data.drop 1)

/-- `BURST_READ(n)` (R101). -/
def burstRead (n : Nat) : Op (List Byte) := do
  checkSize 1 n
  let s ← get
  phySend [s.prm.sync, opLdPtrInc]
  readBytes n

/-- `KEY(key)` (R102): the opcode, then the key reversed, two sends. -/
def sendKey (key : List Byte) : Op Unit := do
  let s ← get
  phySend [s.prm.sync, opKey]
  phySend key.reverse

/-! ## The instructions -/

/-- LDCS, host op 0x10 (R94). -/
def execLdcs (a : CsAddr) (s : State) : Answer := serve (.ldcs a) (byteValue (ldcs a)) s

/-- STCS, host op 0x11 (R95). -/
def execStcs (a : CsAddr) (v : Byte) (s : State) : Answer := serve (.stcs a v) (unit (stcs a v)) s

/-- LDS, host op 0x12 (R96). -/
def execLds (addr : Addr) (s : State) : Answer := serve (.lds addr) (byteValue (lds addr)) s

/-- STS, host op 0x13 (R97). -/
def execSts (addr : Addr) (v : Byte) (s : State) : Answer := serve (.sts addr v) (unit (sts addr v)) s

/-- SET_PTR, host op 0x14 (R98). -/
def execSetPtr (addr : Addr) (s : State) : Answer := serve (.setPtr addr) (unit (setPtr addr)) s

/-- REPEAT, host op 0x15 (R99). -/
def execRepeatN (n : Nat) (s : State) : Answer := serve (.repeatN n) (unit (repeatOp n)) s

/-- BURST_WRITE, host op 0x16 (R100). -/
def execBurstWrite (data : List Byte) (s : State) : Answer := serve (.burstWrite data) (unit (burstWrite data)) s

/-- BURST_READ, host op 0x17 (R101). -/
def execBurstRead (n : Nat) (s : State) : Answer := serve (.burstRead n) (bytesValue (burstRead n)) s

/-- KEY, host op 0x18 (R102); a key of another length is refused (30_encoding.md R79). -/
def execKey (key : List Byte) (s : State) : Answer := serve (.key key) (unit (sendKey key)) s

end Sys2Proof.Machine
end

