-- ==== Sys2Proof/Machine/DeviceControl.lean ====
section
/-! DEFINITION. The device-control family (42_device_control.md) and LINK_INIT (41_link.md R103), which ends with
ENTER_PROG. -/

namespace Sys2Proof.Machine

/-- `RESET_TOGGLE` (R105). -/
def resetToggle : Op Unit := do
  let s ← get
  stcs s.prm.csAsiResetReq s.prm.resetReqValue
  stcs s.prm.csAsiResetReq s.prm.resetReleaseValue

/-! ## Programming mode -/

/-- What `?U(step)` makes of an error (R106): `IOError` stays, any other becomes `UnlockFailed(step)`. -/
def unlockError (step : UnlockStep) (e : Err) : Err :=
  match e with
  | .ioError why => .ioError why
  | _ => .unlockFailed step

/-- `v <- Op()?U(step)` (R106). -/
def orUnlock {α : Type} (step : UnlockStep) (m : Op α) : Op α := mapErr (unlockError step) m

/-- `S.prog_mode <- v` (10_state.md R19). -/
def setProgMode (v : Bool) (s : State) : State := { s with progMode := v }

/-- `ProgFlag()` (R106). -/
def progFlag : Op Bool := do
  let s ← get
  let status ← ldcs s.prm.csAsiSysStatus
  pure (inProgMode s.prm status)

/-- The polls of `WaitUnlocked()` (R107), at most `k` more. -/
def pollUnlocked : Nat → Op Bool
  | 0 => pure false
  | k + 1 => do
    let s ← get
    let status ← ldcs s.prm.csAsiSysStatus
    if isLocked s.prm status then do
      sleep (s.prm.unlockPollMs * 1000)
      pollUnlocked k
    else pure true

/-- `WaitUnlocked()` (R107). A poll interval of 0 gives no poll, so a device still locked: DESIGN CHOICE (log 24). -/
def waitUnlocked : Op Bool := do
  let s ← get
  pollUnlocked (s.prm.unlockWaitMs / s.prm.unlockPollMs)

/-- The key, reset and wait steps of `ENTER_PROG` (R106), where the target was not in programming mode. DESIGN CHOICE
(log 27): `KEY_NVMPROG` is sent in reverse order whatever its length. R9 does not say that it is `KEY_LEN` bytes long,
R102 and R71 give KEY for exactly that many bytes, and R79 refuses a host's operand only. -/
def unlockTarget : Op Unit := do
  let s ← get
  orUnlock .key (sendKey s.prm.keyNvmprog)
  let ks ← orUnlock .keyStatus (ldcs s.prm.csAsiKeyStatus)
  if keyAccepted s.prm ks then do
    orUnlock .reset resetToggle
    let unlocked ← orUnlock .lockStatus waitUnlocked
    if unlocked then do
      let p ← orUnlock .finalStatus progFlag
      if p then update (setProgMode true) else raise (.unlockFailed .notInProgrammingMode)
    else raise (.unlockFailed .stillLocked)
  else raise (.unlockFailed .keyRejected)

/-- `ENTER_PROG` (R106). -/
def enterProg : Op Unit :=
  onError (setProgMode false) do
    let p ← orUnlock .initialStatus progFlag
    if p then update (setProgMode true) else unlockTarget

/-- `EXIT_PROG` (R108). -/
def exitProg : Op Unit := do
  update (setProgMode false)
  resetToggle
  let s ← get
  stcs s.prm.csCtrlb (oneBit s.prm.ctrlbUpdidis ||| oneBit s.prm.ctrlbCcdetdis)

/-! ## NVM controller -/

/-- The polls of `WAIT_READY` (R109), at most `k` more: read, test the write error, test busy, sleep. -/
def pollReady : Nat → Op Unit
  | 0 => raise (.timeout .notReady)
  | k + 1 => do
    let s ← get
    let status ← lds (nvmStatusAddr s)
    if writeErrorFlag s.prm status then raise (.writeError status)
    else if nvmBusy s.prm status then do
      sleep (s.prm.readyPollMs * 1000)
      pollReady k
    else pure ()

/-- `WAIT_READY` (R109). A poll interval of 0 gives no poll, so `Timeout`: DESIGN CHOICE (log 24). -/
def waitReady : Op Unit := do
  let s ← get
  pollReady (s.prm.readyTimeoutMs / s.prm.readyPollMs)

/-- `EXEC_NVM_CMD(cmd)` (R110). -/
def execCommand (cmd : Byte) : Op Unit := do
  let s ← get
  sts (nvmCtrlaAddr s) cmd

/-- What `Ready()` makes of an error (R111): a `Timeout` becomes `NotReady`. -/
def readyError (e : Err) : Err :=
  match e with
  | .timeout what => .notReady what
  | _ => e

/-- `CHIP_ERASE` (R111). -/
def chipErase : Op Unit := do
  mapErr readyError waitReady
  let s ← get
  execCommand s.prm.cmdCher
  mapErr readyError waitReady

/-- `SET_PTR`, `REPEAT`, `BURST_WRITE`, in that order with no frame between them (20_memory.md R42, R118). -/
def burstTo (addr : Addr) (data : List Byte) : Op Unit := do
  setPtr addr
  repeatOp data.length
  burstWrite data

/-- `PAGE_WRITE(addr, data)` (R113). -/
def pageWrite (addr : Addr) (data : List Byte) : Op Unit := do
  checkSize 1 data.length
  waitReady
  let s ← get
  execCommand s.prm.cmdPbc
  waitReady
  burstTo addr data
  execCommand s.prm.cmdWp
  waitReady

/-- `PAGE_READ(addr, n)` (R114). -/
def pageRead (addr : Addr) (n : Nat) : Op (List Byte) := do
  checkSize 2 n
  setPtr addr
  repeatOp n
  burstRead n

/-- `PAGE_ERASE(addr)` (R115). -/
def pageErase (addr : Addr) : Op Unit := do
  waitReady
  let s ← get
  burstTo addr (List.replicate (pageBytes s) s.prm.eraseValue)
  execCommand s.prm.cmdEr
  waitReady

/-! ## LINK_INIT (41_link.md R103) -/

/-- `TryLink()` (R103). -/
def tryLink : Op Unit := do
  phyDoubleBreak
  let s ← get
  stcs s.prm.csCtrlb (oneBit s.prm.ctrlbCcdetdis)
  stcs s.prm.csCtrla (oneBit s.prm.ctrlaIbdly)
  let status ← ldcs s.prm.csStatusa
  if status = 0#8 then raise .linkDownStatusZero else enterProg

/-- `LinkDown(last)` (R103). -/
def linkDownAfter (last : Option Err) : Err :=
  match last with
  | none => .linkDownNoAttempt
  | some e => .linkDown e

/-- The attempts of `LINK_INIT` (R103), `k` more: `IOError` is not retried. -/
def linkAttempts : Nat → Option Err → Op Unit
  | 0, last => raise (linkDownAfter last)
  | k + 1, _ => do
    update (setProgMode false)
    let r ← tryOp tryLink
    match r with
    | .ok _ => pure ()
    | .error (.ioError why) => raise (.ioError why)
    | .error e => linkAttempts k (some e)

/-- `LINK_INIT` (R103). -/
def linkInit : Op Unit := do
  let s ← get
  linkAttempts s.prm.linkInitAttempts none

/-! ## The instructions -/

/-- LINK_INIT, host op 0x19 (41_link.md R103). -/
def execLinkInit (s : State) : Answer := serve .linkInit (unit linkInit) s

/-- RESET_TOGGLE, host op 0x20 (R105). -/
def execResetToggle (s : State) : Answer := serve .resetToggle (unit resetToggle) s

/-- ENTER_PROG, host op 0x21 (R106). -/
def execEnterProg (s : State) : Answer := serve .enterProg (unit enterProg) s

/-- EXIT_PROG, host op 0x22 (R108). -/
def execExitProg (s : State) : Answer := serve .exitProg (unit exitProg) s

/-- WAIT_READY, host op 0x23 (R109). -/
def execWaitReady (s : State) : Answer := serve .waitReady (unit waitReady) s

/-- EXEC_NVM_CMD, host op 0x24 (R110). -/
def execExecNvmCmd (cmd : Byte) (s : State) : Answer := serve (.execNvmCmd cmd) (unit (execCommand cmd)) s

/-- CHIP_ERASE, host op 0x25 (R111). -/
def execChipErase (s : State) : Answer := serve .chipErase (unit chipErase) s

/-- PAGE_WRITE, host op 0x26 (R113). -/
def execPageWrite (addr : Addr) (data : List Byte) (s : State) : Answer :=
  serve (.pageWrite addr data) (unit (pageWrite addr data)) s

/-- PAGE_READ, host op 0x27 (R114). -/
def execPageRead (addr : Addr) (n : Nat) (s : State) : Answer :=
  serve (.pageRead addr n) (bytesValue (pageRead addr n)) s

/-- PAGE_ERASE, host op 0x28 (R115). -/
def execPageErase (addr : Addr) (s : State) : Answer := serve (.pageErase addr) (unit (pageErase addr)) s

end Sys2Proof.Machine
end

