-- ==== Sys2Proof/Machine/Frames.lean ====
section
/-! DEFINITION. The opcode table's frame rows (30_encoding.md R63 to R67) and NVM command rows (R74), as the block runs
them: it emits the frame and awaits the response the frame asks for, by the rule the row names; a command is written to
the NVM controller (42_device_control.md R110). What the target does with either is the environment's (log 8). -/

namespace Sys2Proof.Machine

/-- LDCS frame (41_link.md R94, R64). -/
def execLdcsFrame (a : CsAddr) (s : State) : Answer := serve (.ldcsFrame a) (byteValue (ldcs a)) s

/-- STCS frame (R95, R64). -/
def execStcsFrame (a : CsAddr) (v : Byte) (s : State) : Answer := serve (.stcsFrame a v) (unit (stcs a v)) s

/-- LDS frame (R96, R65). -/
def execLdsFrame (addr : Addr) (s : State) : Answer := serve (.ldsFrame addr) (byteValue (lds addr)) s

/-- STS frame (R97, R65). -/
def execStsFrame (addr : Addr) (v : Byte) (s : State) : Answer := serve (.stsFrame addr v) (unit (sts addr v)) s

/-- ST ptr frame (R98, R66). -/
def execStPtr (addr : Addr) (s : State) : Answer := serve (.stPtr addr) (unit (setPtr addr)) s

/-- ST *(ptr++) frame (R100, R66). -/
def execStPtrInc (data : List Byte) (s : State) : Answer := serve (.stPtrInc data) (unit (burstWrite data)) s

/-- LD *(ptr++) frame (R101, R66): `m` data bytes, the count of the REPEAT before it (R63). -/
def execLdPtrInc (m : Nat) (s : State) : Answer := serve (.ldPtrInc m) (bytesValue (burstRead m)) s

/-- REPEAT frame (R99, R67): its operand byte is `n - 1` (R70). -/
def execRepeatFrame (count : Byte) (s : State) : Answer :=
  serve (.repeatFrame count) (unit (repeatOp (repeatCount count))) s

/-- KEY frame (R102, R67). -/
def execKeyFrame (key : List Byte) (s : State) : Answer := serve (.keyFrame key) (unit (sendKey key)) s

/-- CMD_WP, write-page (R74): `STS(NVM_BASE + NVM_CTRLA_OFS, CMD_WP)` (R110). -/
def execCmdWp (s : State) : Answer := serve .cmdWp (unit (execCommand s.prm.cmdWp)) s

/-- CMD_ER, erase-page (R74, R110). -/
def execCmdEr (s : State) : Answer := serve .cmdEr (unit (execCommand s.prm.cmdEr)) s

/-- CMD_PBC, page-buffer clear (R74, R110). -/
def execCmdPbc (s : State) : Answer := serve .cmdPbc (unit (execCommand s.prm.cmdPbc)) s

/-- CMD_CHER, chip erase (R74, R110). -/
def execCmdCher (s : State) : Answer := serve .cmdCher (unit (execCommand s.prm.cmdCher)) s

end Sys2Proof.Machine
end

