-- ==== Sys2Proof/Machine/Sequencer.lean ====
section
/-! DEFINITION. The page-transfer sequencer (43_page_sequencer.md). -/

namespace Sys2Proof.Machine

/-! ## SET_IMAGE (R121) -/

/-- The fuse operand's length is `FUSE_COUNT`, or it is absent (R121). -/
def fuseFits (s : State) (fuse : Option (List Byte)) : Bool :=
  match fuse with
  | none => true
  | some l => l.length == s.cfg.fuseCount.toNat

/-- The state after the image memory is written whole (R121). -/
def storeImage (image : List Byte) (fuse : Option (List Byte)) (s : State) : State :=
  { s with
    flashImage := imageCells (unlistedByte s.prm) 0 image
    bytesUsed := imageUsed (unlistedByte s.prm) 0 0 image
    fuseImage := fuse }

/-- `SET_IMAGE(image, fuse)` (R121): no capability call; a wrong length writes nothing. -/
def setImage (image : List Byte) (fuse : Option (List Byte)) : Op Unit := do
  let s ← get
  if flashBytes s < image.length then raise (.sizeError image.length)
  else if fuseFits s fuse then update (storeImage image fuse)
  else raise (.sizeError (fuse.getD []).length)

/-! ## The frame of a pass (R122, R123) -/

/-- Write the sequencer's registers. -/
def onSeq (f : Seq → Seq) : Op Unit := update fun s => { s with seq := f s.seq }

/-- `S.seq.step <- step` (10_state.md R24). -/
def setStep (step : PageStep) : Op Unit := onSeq fun q => { q with step := step }

/-- The start of a pass (R122, R124): `S.seq.pass <- pass`, and the page index and the target address of page 0, since R24
has page "0 at pass start" and addr "set with `p`" (DEDUCED: log 13). DESIGN CHOICE (log 13): the counters, `skip_write` and
`step`, to which R24 gives a value at page start only, stay as the pass before left them until `StartPage`. -/
def beginPass (pass : Pass) : Op Unit := update fun s =>
  { s with seq := { s.seq with pass := pass, page := 0, addr := pageAddr s 0 } }

/-- `StartPage(p)` (R122). -/
def startPage (p : Nat) : Op Unit := update fun s =>
  { s with seq :=
    { s.seq with page := p, addr := pageAddr s p, linkErr := 0, dataErr := 0, blankCnt := 0, escCnt := 0,
                 skipWrite := false, step := .attempt } }

/-- `End(c)` (R124): the pass returns its code. -/
def endPass (c : Int) : Op Int := do
  onSeq fun q => { q with pass := .none }
  pure c

/-- `EnsureLink()` (R123): lazy link initialisation on the cached flag alone. -/
def ensureLink : Op Unit := do
  let s ← get
  if s.progMode then pure () else linkInit

/-- `Settle()`. -/
def settle : Op Unit := do
  let s ← get
  sleep (s.prm.settleMs * 1000)

/-- A page ends its pass with code `c` (R126, R130, R136). -/
def abortPage (c : Int) : Op (Option Int) := do
  setStep .abort
  pure (some c)

/-- A page is accepted (R126, R130, R136). -/
def acceptPage : Op (Option Int) := do
  setStep .success
  pure none

/-- The pages of a pass in increasing order, `k` more from page `p` (R122): a page that aborts ends the pass with its
code, an accepted page is reported (R138). -/
def walkPages (pass : Pass) (n : Nat) (page : Nat → Op (Option Int)) : Nat → Nat → Op Int
  | 0, _ => endPass 0
  | k + 1, p => do
    startPage p
    let r ← page p
    match r with
    | some c => endPass c
    | none => do
      progress pass (p + 1) n
      walkPages pass n page k (p + 1)

/-- A page-walking pass over `n` pages (R122): its start, the start event, the lazy link, which fails with `linkCode`, the
pages. -/
def walkPass (pass : Pass) (linkCode : Int) (n : Nat) (page : Nat → Op (Option Int)) : Op Int := do
  beginPass pass
  progress pass 0 n
  let link ← tryOp ensureLink
  match link with
  | .error _ => endPass linkCode
  | .ok _ => walkPages pass n page n 0

/-! ## PASS_CHIP_ERASE (R124) -/

/-- `PASS_CHIP_ERASE()` (R124). -/
def passChipErase : Op Int := do
  let s ← get
  beginPass .chipErase
  progress .chipErase 0 1
  let link ← tryOp ensureLink
  match link with
  | .error _ => endPass s.prm.ceLinkCode
  | .ok _ => do
    let r ← tryOp chipErase
    match r with
    | .error _ => endPass s.prm.ceEraseCode
    | .ok _ => endPass 0

/-! ## Blank-Check and Verify: read, test, retry (R126, R127, R136, R137) -/

/-- `S.seq.link_err <- S.seq.link_err + 1` and its test against the cap (R125). -/
def countLink (cap : Nat) : Op Bool := do
  setStep .linkRetry
  onSeq fun q => { q with linkErr := q.linkErr + 1 }
  let s ← get
  pure (decide (cap < s.seq.linkErr))

/-- `S.seq.data_err <- S.seq.data_err + 1` and its test against the cap (R125). -/
def countData (cap : Nat) : Op Bool := do
  setStep .dataRetry
  onSeq fun q => { q with dataErr := q.dataErr + 1 }
  let s ← get
  pure (decide (cap < s.seq.dataErr))

/-- `S.rbuf <- r` (10_state.md R21). -/
def setRbuf (r : List Byte) : Op Unit := update fun s => { s with rbuf := r }

/-- The loop of one page of Blank-Check (R126) and of Verify (R136): read, accept if the read-back passes `accept`, else
count the failure of its class and retry. `linkCode` is the code above the link cap and of a failed `LINK_INIT`,
`dataCode` that above the data cap. The fuel is R156's bound on reads; the arm with none left is not reached (log 12). -/
def readPage (accept : State → Bool) (linkCap dataCap : Nat) (linkCode dataCode : Int) : Nat → Op (Option Int)
  | 0 => abortPage linkCode
  | fuel + 1 => do
    let s ← get
    let r ← tryOp (pageRead s.seq.addr (pageBytes s))
    match r with
    | .error _ => do
      let exceeded ← countLink linkCap
      if exceeded then abortPage linkCode
      else do
        let link ← tryOp linkInit
        match link with
        | .error _ => abortPage linkCode
        | .ok _ => do
          settle
          setStep .attempt
          readPage accept linkCap dataCap linkCode dataCode fuel
    | .ok bytes => do
      setRbuf bytes
      let s ← get
      if accept s then acceptPage
      else do
        let exceeded ← countData dataCap
        if exceeded then abortPage dataCode
        else do
          settle
          setStep .attempt
          readPage accept linkCap dataCap linkCode dataCode fuel

/-- "at most `LINK_CAP + DATA_CAP + 1` reads" (60_exceptions.md R156). -/
def readBound (linkCap dataCap : Nat) : Nat := linkCap + dataCap + 1

/-- `IsBlank(S.rbuf)` (R128). -/
def rbufBlank (s : State) : Bool := isBlank s.prm s.rbuf

/-- `S.rbuf = ImagePage(p)` (R131, R136). -/
def rbufIsPage (p : Nat) (s : State) : Bool := s.rbuf == imagePage s p

/-- `PASS_BLANK_CHECK()` (R126). -/
def passBlankCheck : Op Int := do
  let s ← get
  walkPass .blankCheck s.prm.bcLinkCode (flashBytes s / pageBytes s) fun _ =>
    readPage rbufBlank s.prm.bcLinkCap s.prm.bcDataCap s.prm.bcLinkCode s.prm.bcDataCode
      (readBound s.prm.bcLinkCap s.prm.bcDataCap)

/-- `PASS_VERIFY()` (R136). -/
def passVerify : Op Int := do
  let s ← get
  walkPass .verify s.prm.vfLinkCode (flashBytes s / pageBytes s) fun p =>
    readPage (rbufIsPage p) s.prm.vfLinkCap s.prm.vfDataCap s.prm.vfLinkCode s.prm.vfDataCode
      (readBound s.prm.vfLinkCap s.prm.vfDataCap)

/-! ## PASS_PROGRAM (R130 to R135) -/

/-- How an attempt ended (R131). -/
inductive AttemptEnd where
  | success
  | writeFail
  | readFail
  | blank
  | mismatch
  deriving DecidableEq, Repr

/-- The write of an attempt, skipped where the previous attempt failed on its read (R131): whether it failed. -/
def attemptWrite (p : Nat) : Op Bool := do
  let s ← get
  if s.seq.skipWrite then pure false
  else do
    let w ← tryOp (pageWrite s.seq.addr (imagePage s p))
    match w with
    | .error _ => pure true
    | .ok _ => pure false

/-- How a read-back compares with the image (R131): equal, blank, or neither. -/
def classify (p : Nat) (s : State) : AttemptEnd :=
  if rbufIsPage p s then .success else if rbufBlank s then .blank else .mismatch

/-- `Attempt(p)` (R131). -/
def attempt (p : Nat) : Op AttemptEnd := do
  let failed ← attemptWrite p
  if failed then pure .writeFail
  else do
    onSeq fun q => { q with skipWrite := false }
    let s ← get
    let r ← tryOp (pageRead s.seq.addr (pageBytes s))
    match r with
    | .error _ => pure .readFail
    | .ok bytes => do
      setRbuf bytes
      let s ← get
      pure (classify p s)

/-- `Relink()` (R132): the pass code to abort with, or none to go on (the spec's 0; log 25). -/
def relink : Op (Option Int) := do
  let s ← get
  let r ← tryOp linkInit
  match r with
  | .error _ => pure (some s.prm.pgRelinkCode)
  | .ok _ => do
    settle
    pure none

/-- `LinkRecover(skip)` (R135). -/
def linkRecover (skip : Bool) : Op (Option Int) := do
  let s ← get
  let exceeded ← countLink s.prm.pgLinkCap
  if exceeded then pure (some s.prm.pgLinkCode)
  else do
    onSeq fun q => { q with skipWrite := skip }
    relink

/-- `DataRecover()` (R134). -/
def dataRecover : Op (Option Int) := do
  let s ← get
  let exceeded ← countData s.prm.pgDataCap
  if exceeded then pure (some s.prm.pgDataCode) else relink

/-- The escalation of `BlankRecover` (R133): the pass code to abort with, or none to go on. -/
def escalate : Op (Option Int) := do
  setStep .eraseEscalate
  onSeq fun q => { q with escCnt := q.escCnt + 1 }
  let s ← get
  if s.prm.pgEscCap < s.seq.escCnt then pure (some s.prm.pgEscCode)
  else do
    let r ← tryOp (pageErase s.seq.addr)
    match r with
    | .error _ => pure (some s.prm.pgEraseCode)
    | .ok _ => do
      onSeq fun q => { q with blankCnt := 0 }
      pure none

/-- `BlankRecover(p)` (R133). -/
def blankRecover : Op (Option Int) := do
  setStep .linkRetry
  onSeq fun q => { q with blankCnt := q.blankCnt + 1 }
  let s ← get
  if s.prm.pgBlankCap < s.seq.blankCnt then do
    let k ← escalate
    match k with
    | some c => pure (some c)
    | none => relink
  else relink

/-- `Recover(p, c)` (R132). -/
def recover (c : AttemptEnd) : Op (Option Int) :=
  match c with
  | .success => pure none
  | .writeFail => linkRecover false
  | .readFail => linkRecover true
  | .blank => blankRecover
  | .mismatch => dataRecover

/-- The loop of one page of Program (R130). The fuel is R156's bound on attempts; the arm with none left is not reached
(log 12). -/
def programPage (p : Nat) : Nat → Op (Option Int)
  | 0 => do
    let s ← get
    abortPage s.prm.pgRelinkCode
  | fuel + 1 => do
    let c ← attempt p
    if c = .success then acceptPage
    else do
      let k ← recover c
      match k with
      | some code => abortPage code
      | none => do
        setStep .attempt
        programPage p fuel

/-- "at most `PG_LINK_CAP + PG_DATA_CAP + (PG_ESC_CAP + 1) * (PG_BLANK_CAP + 1)` attempts" (60_exceptions.md R156). -/
def programBound (p : Params) : Nat := p.pgLinkCap + p.pgDataCap + (p.pgEscCap + 1) * (p.pgBlankCap + 1)

/-- `PASS_PROGRAM()` (R130): "only the populated portion". -/
def passProgram : Op Int := do
  let s ← get
  walkPass .program s.prm.pgRelinkCode (ceilDiv s.bytesUsed (pageBytes s)) fun p => programPage p (programBound s.prm)

/-! ## The instructions -/

/-- SET_IMAGE, host op 0x30 (R121). -/
def execSetImage (image : List Byte) (fuse : Option (List Byte)) (s : State) : Answer :=
  serve (.setImage image fuse) (unit (setImage image fuse)) s

/-- PASS_CHIP_ERASE, host op 0x31 (R124). -/
def execPassChipErase (s : State) : Answer := serve .passChipErase (codeValue passChipErase) s

/-- PASS_BLANK_CHECK, host op 0x32 (R126). -/
def execPassBlankCheck (s : State) : Answer := serve .passBlankCheck (codeValue passBlankCheck) s

/-- PASS_PROGRAM, host op 0x33 (R130). `S.bytes_used <= FLASH_SIZE` (10_state.md R20); a state that breaks it would have
the pass read image offsets that do not exist: fault (log 11). -/
def execPassProgram (s : State) : Answer :=
  if accepts .passProgram s && decide (flashBytes s < s.bytesUsed) then .fault .imageRange
  else serve .passProgram (codeValue passProgram) s

/-- PASS_VERIFY, host op 0x34 (R136). -/
def execPassVerify (s : State) : Answer := serve .passVerify (codeValue passVerify) s

end Sys2Proof.Machine
end

