-- ==== Sys2Proof/Machine/Dispatch.lean ====
section
/-! DEFINITION. exec: one arm per row of spec/opcode_table.json, each one direct call of its meaning. -/

namespace Sys2Proof.Machine

def exec (i : Instr) (s : State) : Host.Outcome State Fault Refusal :=
  match i with
  -- UPDI frames
  | .ldcsFrame a => Sys2Proof.Machine.execLdcsFrame a s
  | .stcsFrame a v => Sys2Proof.Machine.execStcsFrame a v s
  | .ldsFrame addr => Sys2Proof.Machine.execLdsFrame addr s
  | .stsFrame addr v => Sys2Proof.Machine.execStsFrame addr v s
  | .stPtr addr => Sys2Proof.Machine.execStPtr addr s
  | .stPtrInc data => Sys2Proof.Machine.execStPtrInc data s
  | .ldPtrInc m => Sys2Proof.Machine.execLdPtrInc m s
  | .repeatFrame count => Sys2Proof.Machine.execRepeatFrame count s
  | .keyFrame key => Sys2Proof.Machine.execKeyFrame key s
  -- NVM controller commands
  | .cmdWp => Sys2Proof.Machine.execCmdWp s
  | .cmdEr => Sys2Proof.Machine.execCmdEr s
  | .cmdPbc => Sys2Proof.Machine.execCmdPbc s
  | .cmdCher => Sys2Proof.Machine.execCmdCher s
  -- host operations: PHY
  | .phyInit => Sys2Proof.Machine.execPhyInit s
  | .phySend bytes => Sys2Proof.Machine.execPhySend bytes s
  | .phyRecv n => Sys2Proof.Machine.execPhyRecv n s
  | .phyDoubleBreak => Sys2Proof.Machine.execPhyDoubleBreak s
  | .phyClose => Sys2Proof.Machine.execPhyClose s
  -- Link
  | .ldcs a => Sys2Proof.Machine.execLdcs a s
  | .stcs a v => Sys2Proof.Machine.execStcs a v s
  | .lds addr => Sys2Proof.Machine.execLds addr s
  | .sts addr v => Sys2Proof.Machine.execSts addr v s
  | .setPtr addr => Sys2Proof.Machine.execSetPtr addr s
  | .repeatN n => Sys2Proof.Machine.execRepeatN n s
  | .burstWrite data => Sys2Proof.Machine.execBurstWrite data s
  | .burstRead n => Sys2Proof.Machine.execBurstRead n s
  | .key key => Sys2Proof.Machine.execKey key s
  | .linkInit => Sys2Proof.Machine.execLinkInit s
  -- device control
  | .resetToggle => Sys2Proof.Machine.execResetToggle s
  | .enterProg => Sys2Proof.Machine.execEnterProg s
  | .exitProg => Sys2Proof.Machine.execExitProg s
  | .waitReady => Sys2Proof.Machine.execWaitReady s
  | .execNvmCmd cmd => Sys2Proof.Machine.execExecNvmCmd cmd s
  | .chipErase => Sys2Proof.Machine.execChipErase s
  | .pageWrite addr data => Sys2Proof.Machine.execPageWrite addr data s
  | .pageRead addr n => Sys2Proof.Machine.execPageRead addr n s
  | .pageErase addr => Sys2Proof.Machine.execPageErase addr s
  -- page-transfer sequencer
  | .setImage image fuse => Sys2Proof.Machine.execSetImage image fuse s
  | .passChipErase => Sys2Proof.Machine.execPassChipErase s
  | .passBlankCheck => Sys2Proof.Machine.execPassBlankCheck s
  | .passProgram => Sys2Proof.Machine.execPassProgram s
  | .passVerify => Sys2Proof.Machine.execPassVerify s

end Sys2Proof.Machine
end

