-- ==== Sys2Proof/Machine/Step.lean ====
section
/-! DEFINITION. One step: the host's next operation, fetched from the port, decoded and run to completion (00_scope.md
R6), or refused (30_encoding.md R79). -/

namespace Sys2Proof.Machine

/-- One step. With no operation issued the block "is idle and waits" (70_reset_and_hazards.md R161): the state stays. A
word that decodes to nothing is refused (R79). -/
def step (s : State) : Host.Outcome State Fault Refusal :=
  match s.hostOps with
  | [] => .next s
  | w :: rest =>
    match decode s.prm w with
    | .ok i => exec i { s with hostOps := rest }
    | .reject _ => .next (refuse { s with hostOps := rest })

/-- The table word as the operation the host issues next: it takes the place of the one that stands first (log 6). -/
def State.withFetchWord (s : State) (nbits w : Nat) : State :=
  { s with hostOps := tableWord nbits w :: s.hostOps.tail }

end Sys2Proof.Machine
end

