-- ==== Sys2Proof/Safety.lean ====
section
/-! DEFINITION. The terms claims use: the byte-level trace notation of 95_test_vectors.md (`TX`, `RX`, `DB`, `S`) with
the capability calls each item stands for, what counts as a sound state, sums of sleeps (70_reset_and_hazards.md R176),
and the host's run order (R162). -/

namespace Sys2Proof.Safety

open Sys2Proof.Machine

/-! ## Traces -/

/-- A character the environment presents while the block receives: `wait` high polls, then the start bit and `byte`. -/
structure Heard where
  wait : Nat
  byte : Byte
  deriving DecidableEq, Repr

/-- One item of a byte-level trace (95_test_vectors.md section 0). -/
inductive Beat where
  /-- one `PHY_SEND` of these bytes -/
  | tx (bytes : List Byte)
  /-- one `PHY_RECV(n)`, these characters presented and then, where they are fewer than `n`, silence -/
  | rx (n : Nat) (heard : List Heard)
  /-- one `PHY_DOUBLE_BREAK` -/
  | db
  /-- a sleep made by a rule above the PHY -/
  | pause (us : Nat)
  /-- a progress event -/
  | event (pass : Pass) (i total : Nat)
  deriving DecidableEq, Repr

/-- `Slot(l)` (40_phy.md R82). -/
def slotCalls (s : State) (l : Level) : List Obs := [.writeLevel s.pin l, .sleep (bitPeriod s)]

/-- The calls of `PHY_SEND(bytes)` on an open PHY (R81, R82). -/
def txCalls (s : State) (bytes : List Byte) : List Obs :=
  [.setDir s.pin .output, .writeLevel s.pin true, .sleep (s.prm.idleSettleBits * bitPeriod s)] ++
    bytes.flatMap fun b => (charLevels b).flatMap (slotCalls s)

/-- `k` high polls (R83). -/
def pollCalls (s : State) (k : Nat) : List Obs :=
  (List.replicate k [Obs.readLevel s.pin true, Obs.sleep (bitPeriod s / s.prm.rxPollDiv)]).flatten

/-- The calls of one received character (R83): its polls, the half bit, eight samples, the skip. -/
def heardCalls (s : State) (h : Heard) : List Obs :=
  pollCalls s h.wait ++ [.readLevel s.pin false, .sleep (bitPeriod s / s.prm.rxCenterDiv)] ++
    ((List.range 8).flatMap fun i => [.sleep (bitPeriod s), .readLevel s.pin (bitOf h.byte i)]) ++
    [.sleep (s.prm.rxSkipBits * bitPeriod s)]

/-- The calls of `PHY_RECV(n)` on an open PHY (R83). -/
def rxCalls (s : State) (n : Nat) (heard : List Heard) : List Obs :=
  [.setDir s.pin .input] ++ heard.flatMap (heardCalls s) ++
    (if heard.length < n then pollCalls s s.prm.rxPollLimit else [])

/-- The answers of `ReadLevel()` that present one character (R83). -/
def heardLevels (h : Heard) : List Level :=
  List.replicate h.wait true ++ [false] ++ (List.range 8).map (bitOf h.byte)

/-- The answers of `ReadLevel()` in one `PHY_RECV(n)` (R83). -/
def rxLevels (s : State) (n : Nat) (heard : List Heard) : List Level :=
  heard.flatMap heardLevels ++ (if heard.length < n then List.replicate s.prm.rxPollLimit true else [])

/-- The calls of `PHY_DOUBLE_BREAK` (R86). -/
def dbCalls (s : State) : List Obs :=
  [.setDir s.pin .output, .writeLevel s.pin false, .sleep s.prm.dbrkLow1Us, .writeLevel s.pin true,
   .sleep s.prm.dbrkHigh1Us, .writeLevel s.pin false, .sleep s.prm.dbrkLow2Us, .writeLevel s.pin true,
   .sleep s.prm.dbrkHigh2Us]

/-- What one item of a trace leaves: the calls observed, the pin's direction and level, the answers taken. -/
def play (s : State) (b : Beat) : State :=
  match b with
  | .tx bytes => { s with pinDir := .known .output, pinOut := .known true, obs := s.obs ++ txCalls s bytes }
  | .rx n heard =>
    { s with
      pinDir := .known .input
      levels := s.levels.drop (rxLevels s n heard).length
      draws := s.draws + (rxLevels s n heard).length
      obs := s.obs ++ rxCalls s n heard }
  | .db => { s with pinDir := .known .output, pinOut := .known true, obs := s.obs ++ dbCalls s }
  | .pause us => { s with obs := s.obs ++ [.sleep us] }
  | .event pass i total => { s with obs := s.obs ++ [.progress pass i total] }

/-- What a trace leaves. -/
def playAll (s : State) (beats : List Beat) : State := beats.foldl play s

/-- A receive of at most `n` characters, each within the poll budget (R83). -/
def rxFits (s : State) (n : Nat) (heard : List Heard) : Bool :=
  decide (heard.length ≤ n) && heard.all fun h => decide (h.wait < s.prm.rxPollLimit)

/-- The next `n` answers of `ReadLevel()`, settled or free (00_scope.md R7, log 1). -/
def upcoming : Nat → State → List Level
  | 0, _ => []
  | n + 1, s => nextLevel s :: upcoming n { s with levels := s.levels.tail, draws := s.draws + 1 }

/-- The environment answers as one item of a trace says. -/
def answersBeat (s : State) (b : Beat) : Bool :=
  match b with
  | .rx n heard => rxFits s n heard && (upcoming (rxLevels s n heard).length s == rxLevels s n heard)
  | .tx _ => true
  | .db => true
  | .pause _ => true
  | .event _ _ _ => true

/-- The environment answers as a trace says. -/
def answers (s : State) : List Beat → Bool
  | [] => true
  | b :: bs => answersBeat s b && answers (play s b) bs

/-- The state after an accepted operation that made this trace and ended with this result. -/
def done (s : State) (beats : List Beat) (r : Result) : State := deliver r (playAll (beginOp s) beats)

/-- The block takes the operation (00_scope.md R6) and the PHY is open. -/
def ready (i : Instr) (s : State) : Bool := accepts i s && s.phyOpen

/-! ## Traces of the operations -/

/-- An acknowledge after `k` high polls. -/
def ackAfter (s : State) (k : Nat) : Heard := ⟨k, s.prm.ack⟩

/-- `LDCS a` answered `h` (41_link.md R94). -/
def ldcsBeats (s : State) (a : CsAddr) (h : Heard) : List Beat := [.tx [s.prm.sync, 0x80#8 ||| a.setWidth 8], .rx 1 [h]]

/-- `STCS a, v` (R95). -/
def stcsBeats (s : State) (a : CsAddr) (v : Byte) : List Beat := [.tx [s.prm.sync, 0xC0#8 ||| a.setWidth 8, v]]

/-- `LDS addr` answered `h` (R96). -/
def ldsBeats (s : State) (addr : Addr) (h : Heard) : List Beat :=
  [.tx [s.prm.sync, 0x04#8, addr.extractLsb' 0 8, addr.extractLsb' 8 8], .rx 1 [h]]

/-- `STS addr, v`, both acknowledges given (R97). -/
def stsBeats (s : State) (addr : Addr) (v : Byte) (k1 k2 : Nat) : List Beat :=
  [.tx [s.prm.sync, 0x44#8, addr.extractLsb' 0 8, addr.extractLsb' 8 8], .rx 1 [ackAfter s k1], .tx [v],
   .rx 1 [ackAfter s k2]]

/-- `LDS addr` answered by silence (R96, R92). -/
def ldsSilent (s : State) (addr : Addr) : List Beat :=
  [.tx [s.prm.sync, 0x04#8, addr.extractLsb' 0 8, addr.extractLsb' 8 8], .rx 1 []]

/-- `LDCS a` answered by silence (R94, R92). -/
def ldcsSilent (s : State) (a : CsAddr) : List Beat := [.tx [s.prm.sync, 0x80#8 ||| a.setWidth 8], .rx 1 []]

/-- The address send of `STS` and what its acknowledge wait hears (R97). -/
def stsAddrBeats (s : State) (addr : Addr) (heard : List Heard) : List Beat :=
  [.tx [s.prm.sync, 0x44#8, addr.extractLsb' 0 8, addr.extractLsb' 8 8], .rx 1 heard]

/-- `SET_PTR addr` and what its acknowledge wait hears (R98). -/
def setPtrHears (s : State) (addr : Addr) (heard : List Heard) : List Beat :=
  [.tx [s.prm.sync, 0x69#8, addr.extractLsb' 0 8, addr.extractLsb' 8 8], .rx 1 heard]

/-- `SET_PTR addr`, acknowledged (R98). -/
def setPtrBeats (s : State) (addr : Addr) (k : Nat) : List Beat := setPtrHears s addr [ackAfter s k]

/-- `REPEAT n` (R99). -/
def repeatBeats (s : State) (n : Nat) : List Beat := [.tx [s.prm.sync, 0xA0#8, BitVec.ofNat 8 (n - 1)]]

/-- Burst bytes after the first with the polls before each one's acknowledge (R100). -/
def burstRestBeats (s : State) (data : List (Byte × Nat)) : List Beat :=
  data.flatMap fun d => [.tx [d.1], .rx 1 [ackAfter s d.2]]

/-- `BURST_WRITE`, every byte acknowledged (R100): each byte with the polls before its acknowledge. -/
def burstWriteBeats (s : State) : List (Byte × Nat) → List Beat
  | [] => []
  | d :: ds => [.tx [s.prm.sync, 0x64#8, d.1], .rx 1 [ackAfter s d.2]] ++ burstRestBeats s ds

/-- The send of burst byte `j` (R100): the first opens with the opcode. -/
def burstSend (s : State) (j : Nat) (d : Byte) : List Byte := if j = 0 then [s.prm.sync, 0x64#8, d] else [d]

/-- `BURST_WRITE data` whose first bytes are acknowledged, as many as `acks`, and whose next byte hears `heard` (R100). -/
def burstStops (s : State) (data : List Byte) (acks : List Nat) (heard : List Heard) : List Beat :=
  burstWriteBeats s (data.zip acks) ++ [.tx (burstSend s acks.length (data.getD acks.length 0#8)), .rx 1 heard]

/-- `BURST_READ n` answered `heard` (R101). -/
def burstReadBeats (s : State) (n : Nat) (heard : List Heard) : List Beat := [.tx [s.prm.sync, 0x24#8], .rx n heard]

/-- `KEY key` (R102). -/
def keyBeats (s : State) (key : List Byte) : List Beat := [.tx [s.prm.sync, 0xE0#8], .tx key.reverse]

/-- `RESET_TOGGLE` (42_device_control.md R105). -/
def resetBeats (s : State) : List Beat :=
  stcsBeats s s.prm.csAsiResetReq s.prm.resetReqValue ++ stcsBeats s s.prm.csAsiResetReq s.prm.resetReleaseValue

/-- A run of status polls: answers that say wait, then the one that ends the wait. -/
structure Polls where
  waiting : List Heard
  last : Heard
  deriving DecidableEq, Repr

/-- Status reads of `WAIT_READY` after each of which it sleeps (R109). -/
def busyBeats (s : State) (hs : List Heard) : List Beat :=
  hs.flatMap fun h => ldsBeats s (nvmStatusAddr s) h ++ [Beat.pause (s.prm.readyPollMs * 1000)]

/-- `WAIT_READY` that ends at its last read (R109). -/
def readyBeats (s : State) (p : Polls) : List Beat :=
  busyBeats s p.waiting ++ ldsBeats s (nvmStatusAddr s) p.last

/-- Those polls end a ready wait: no write error, busy until the last, within the deadline (R109). -/
def endsReady (s : State) (p : Polls) : Bool :=
  decide (p.waiting.length < s.prm.readyTimeoutMs / s.prm.readyPollMs) &&
  (p.waiting.all fun h => !writeErrorFlag s.prm h.byte && nvmBusy s.prm h.byte) &&
  !writeErrorFlag s.prm p.last.byte && !nvmBusy s.prm p.last.byte

/-- `EXEC_NVM_CMD cmd`, both acknowledges given (R110). -/
def cmdBeats (s : State) (cmd : Byte) (k : Nat × Nat) : List Beat := stsBeats s (nvmCtrlaAddr s) cmd k.1 k.2

/-- `SET_PTR`, `REPEAT`, `BURST_WRITE` of one page (R113, R115). -/
def loadBeats (s : State) (addr : Addr) (data : List (Byte × Nat)) (k : Nat) : List Beat :=
  setPtrBeats s addr k ++ repeatBeats s data.length ++ burstWriteBeats s data

/-- `PAGE_READ addr, n` answered `heard` (R114). -/
def pageReadBeats (s : State) (addr : Addr) (n : Nat) (k : Nat) (heard : List Heard) : List Beat :=
  setPtrBeats s addr k ++ repeatBeats s n ++ burstReadBeats s n heard

/-- What one `PAGE_WRITE` waits for: three ready waits, two commands' acknowledges, the pointer's, and the polls before
each data byte's acknowledge. -/
structure PageWriteRun where
  ready1 : Polls
  pbc : Nat × Nat
  ready2 : Polls
  ptr : Nat
  acks : List Nat
  wp : Nat × Nat
  ready3 : Polls
  deriving DecidableEq, Repr

/-- `PAGE_WRITE addr, data`, everything acknowledged (R113). -/
def pageWriteBeats (s : State) (addr : Addr) (data : List Byte) (r : PageWriteRun) : List Beat :=
  readyBeats s r.ready1 ++ cmdBeats s s.prm.cmdPbc r.pbc ++ readyBeats s r.ready2 ++
    loadBeats s addr (data.zip r.acks) r.ptr ++ cmdBeats s s.prm.cmdWp r.wp ++ readyBeats s r.ready3

/-- The three waits of a `PAGE_WRITE` end ready and there is one acknowledge a byte. -/
def pageWriteFits (s : State) (data : List Byte) (r : PageWriteRun) : Bool :=
  endsReady s r.ready1 && endsReady s r.ready2 && endsReady s r.ready3 && decide (r.acks.length = data.length)

/-- `ENTER_PROG` on a target already in programming mode (R106): one status read. -/
def enterBeats (s : State) (h : Heard) : List Beat := ldcsBeats s s.prm.csAsiSysStatus h

/-- What an unlocking `ENTER_PROG` reads: status, key status, lock polls, final status. -/
structure UnlockRun where
  status : Heard
  keyStatus : Heard
  lock : Polls
  final : Heard
  deriving DecidableEq, Repr

/-- `ENTER_PROG` up to its key (R106). -/
def keyStepBeats (s : State) (status : Heard) : List Beat :=
  ldcsBeats s s.prm.csAsiSysStatus status ++ keyBeats s s.prm.keyNvmprog

/-- `ENTER_PROG` up to lock polls that say locked, each with its sleep (R106, R107). -/
def lockStepBeats (s : State) (status keyStatus : Heard) (locked : List Heard) : List Beat :=
  keyStepBeats s status ++ ldcsBeats s s.prm.csAsiKeyStatus keyStatus ++ resetBeats s ++
    locked.flatMap fun h => ldcsBeats s s.prm.csAsiSysStatus h ++ [Beat.pause (s.prm.unlockPollMs * 1000)]

/-- `ENTER_PROG` that unlocks the target (R106, R107). -/
def unlockBeats (s : State) (r : UnlockRun) : List Beat :=
  lockStepBeats s r.status r.keyStatus r.lock.waiting ++
    ldcsBeats s s.prm.csAsiSysStatus r.lock.last ++ ldcsBeats s s.prm.csAsiSysStatus r.final

/-- Those answers unlock: not in programming mode at first, key accepted, lock clear in time, programming mode at last. -/
def unlocks (s : State) (r : UnlockRun) : Bool :=
  !inProgMode s.prm r.status.byte && keyAccepted s.prm r.keyStatus.byte &&
  decide (r.lock.waiting.length < s.prm.unlockWaitMs / s.prm.unlockPollMs) &&
  (r.lock.waiting.all fun h => isLocked s.prm h.byte) && !isLocked s.prm r.lock.last.byte &&
  inProgMode s.prm r.final.byte

/-- One attempt of `LINK_INIT` before its status read (R103): double break, collision detection off, inter-byte delay
on. -/
def linkStartBeats (s : State) : List Beat :=
  [.db] ++ stcsBeats s s.prm.csCtrlb (BitVec.ofNat 8 (2 ^ s.prm.ctrlbCcdetdis)) ++
    stcsBeats s s.prm.csCtrla (BitVec.ofNat 8 (2 ^ s.prm.ctrlaIbdly))

/-- One attempt of `LINK_INIT` up to its status read (R103). -/
def linkBeats (s : State) (h : Heard) : List Beat := linkStartBeats s ++ ldcsBeats s s.prm.csStatusa h

/-! ## Traces of what fails

Each operation's failures on an open PHY, all of them: the trace up to the point of failure, the conditions on what is
heard, and the error. -/

/-- No acknowledge: silence, or one other byte (41_link.md R93). -/
def ackFails (p : Params) : List Heard → Bool
  | [] => true
  | [h] => h.byte != p.ack
  | _ :: _ :: _ => false

/-- The error of an acknowledge wait that failed (R93). -/
def ackError : List Heard → Err
  | [] => .timeout .noAck
  | h :: _ => .nack h.byte

/-- How a ready wait ends without ready (R109): a write error, an unanswered status read, every poll busy. -/
inductive WaitFail where
  | writeError (p : Polls)
  | unanswered (busy : List Heard)
  | deadline (busy : List Heard)
  deriving DecidableEq, Repr

def waitFailBeats (s : State) : WaitFail → List Beat
  | .writeError p => readyBeats s p
  | .unanswered hs => busyBeats s hs ++ ldsSilent s (nvmStatusAddr s)
  | .deadline hs => busyBeats s hs

/-- Status answers that keep a ready wait going (R109). -/
def allBusy (p : Params) (hs : List Heard) : Bool := hs.all fun h => !writeErrorFlag p h.byte && nvmBusy p h.byte

/-- The polls of a ready wait (R109). -/
def readyPolls (p : Params) : Nat := p.readyTimeoutMs / p.readyPollMs

def waitFailFits (s : State) : WaitFail → Bool
  | .writeError p =>
    decide (p.waiting.length < readyPolls s.prm) && allBusy s.prm p.waiting && writeErrorFlag s.prm p.last.byte
  | .unanswered hs => decide (hs.length < readyPolls s.prm) && allBusy s.prm hs
  | .deadline hs => (hs.length == readyPolls s.prm) && allBusy s.prm hs

def waitFailError : WaitFail → Err
  | .writeError p => .writeError p.last.byte
  | .unanswered _ => .timeout (.shortRead 0)
  | .deadline _ => .timeout .notReady

/-- The same of CHIP_ERASE's waits (R111): a `Timeout` is `NotReady`. -/
def notReadyError : WaitFail → Err
  | .writeError p => .writeError p.last.byte
  | .unanswered _ => .notReady (.shortRead 0)
  | .deadline _ => .notReady .notReady

/-- How an STS fails: at its first or its second acknowledge (41_link.md R97). -/
inductive StsFail where
  | address (heard : List Heard)
  | value (k : Nat) (heard : List Heard)
  deriving DecidableEq, Repr

def stsFailBeats (s : State) (addr : Addr) (v : Byte) : StsFail → List Beat
  | .address heard => stsAddrBeats s addr heard
  | .value k heard => stsAddrBeats s addr [ackAfter s k] ++ [.tx [v], .rx 1 heard]

def stsFailHeard : StsFail → List Heard
  | .address heard => heard
  | .value _ heard => heard

/-- How the loading of a page fails (42_device_control.md R113, R115): at the pointer's acknowledge, or at the
acknowledge of the byte after as many as `acks`. -/
inductive LoadFail where
  | pointer (heard : List Heard)
  | byte (k : Nat) (acks : List Nat) (heard : List Heard)
  deriving DecidableEq, Repr

def loadFailBeats (s : State) (addr : Addr) (data : List Byte) : LoadFail → List Beat
  | .pointer heard => setPtrHears s addr heard
  | .byte k acks heard => setPtrBeats s addr k ++ repeatBeats s data.length ++ burstStops s data acks heard

def loadFailFits (s : State) (data : List Byte) : LoadFail → Bool
  | .pointer heard => ackFails s.prm heard
  | .byte _ acks heard => decide (acks.length < data.length) && ackFails s.prm heard

def loadFailError : LoadFail → Err
  | .pointer heard => ackError heard
  | .byte _ _ heard => ackError heard

/-- How a PAGE_READ fails (R114): at the pointer's acknowledge, or with fewer bytes than asked for. -/
inductive ReadFail where
  | pointer (heard : List Heard)
  | short (k : Nat) (heard : List Heard)
  deriving DecidableEq, Repr

def readFailBeats (s : State) (addr : Addr) (n : Nat) : ReadFail → List Beat
  | .pointer heard => setPtrHears s addr heard
  | .short k heard => pageReadBeats s addr n k heard

def readFailFits (s : State) (n : Nat) : ReadFail → Bool
  | .pointer heard => ackFails s.prm heard
  | .short _ heard => decide (heard.length < n)

def readFailError : ReadFail → Err
  | .pointer heard => ackError heard
  | .short _ heard => .timeout (.shortRead heard.length)

/-- Where a PAGE_WRITE fails (R113). -/
inductive WriteStop where
  | wait1 (f : WaitFail)
  | clear (f : StsFail)
  | wait2 (f : WaitFail)
  | load (f : LoadFail)
  | write (f : StsFail)
  | wait3 (f : WaitFail)
  deriving DecidableEq, Repr

/-- A PAGE_WRITE that fails, `run` up to where it does. -/
structure WriteFailRun where
  run : PageWriteRun
  stop : WriteStop
  deriving DecidableEq, Repr

def writeFailBeats (s : State) (addr : Addr) (data : List Byte) (f : WriteFailRun) : List Beat :=
  let cleared := readyBeats s f.run.ready1 ++ cmdBeats s s.prm.cmdPbc f.run.pbc
  let loaded := cleared ++ readyBeats s f.run.ready2 ++ loadBeats s addr (data.zip f.run.acks) f.run.ptr
  match f.stop with
  | .wait1 x => waitFailBeats s x
  | .clear x => readyBeats s f.run.ready1 ++ stsFailBeats s (nvmCtrlaAddr s) s.prm.cmdPbc x
  | .wait2 x => cleared ++ waitFailBeats s x
  | .load x => cleared ++ readyBeats s f.run.ready2 ++ loadFailBeats s addr data x
  | .write x => loaded ++ stsFailBeats s (nvmCtrlaAddr s) s.prm.cmdWp x
  | .wait3 x => loaded ++ cmdBeats s s.prm.cmdWp f.run.wp ++ waitFailBeats s x

def writeFailFits (s : State) (data : List Byte) (f : WriteFailRun) : Bool :=
  let cleared := endsReady s f.run.ready1
  let loaded := cleared && endsReady s f.run.ready2 && (f.run.acks.length == data.length)
  match f.stop with
  | .wait1 x => waitFailFits s x
  | .clear x => cleared && ackFails s.prm (stsFailHeard x)
  | .wait2 x => cleared && waitFailFits s x
  | .load x => cleared && endsReady s f.run.ready2 && loadFailFits s data x
  | .write x => loaded && ackFails s.prm (stsFailHeard x)
  | .wait3 x => loaded && waitFailFits s x

def writeFailError (f : WriteFailRun) : Err :=
  match f.stop with
  | .wait1 x => waitFailError x
  | .clear x => ackError (stsFailHeard x)
  | .wait2 x => waitFailError x
  | .load x => loadFailError x
  | .write x => ackError (stsFailHeard x)
  | .wait3 x => waitFailError x

/-- What one PAGE_ERASE waits for (R115). -/
structure EraseRun where
  ready1 : Polls
  ptr : Nat
  acks : List Nat
  er : Nat × Nat
  ready2 : Polls
  deriving DecidableEq, Repr

/-- The page of ERASE_VALUE that PAGE_ERASE loads (R115). -/
def erasedPage (s : State) : List Byte := List.replicate (pageBytes s) s.prm.eraseValue

/-- `PAGE_ERASE addr`, everything acknowledged (R115). -/
def eraseBeats (s : State) (addr : Addr) (r : EraseRun) : List Beat :=
  readyBeats s r.ready1 ++ loadBeats s addr ((erasedPage s).zip r.acks) r.ptr ++ cmdBeats s s.prm.cmdEr r.er ++
    readyBeats s r.ready2

def eraseFits (s : State) (r : EraseRun) : Bool :=
  endsReady s r.ready1 && (r.acks.length == pageBytes s) && endsReady s r.ready2

/-- Where a PAGE_ERASE fails (R115). -/
inductive EraseStop where
  | wait1 (f : WaitFail)
  | load (f : LoadFail)
  | erase (f : StsFail)
  | wait2 (f : WaitFail)
  deriving DecidableEq, Repr

/-- A PAGE_ERASE that fails, `run` up to where it does. -/
structure EraseFailRun where
  run : EraseRun
  stop : EraseStop
  deriving DecidableEq, Repr

def eraseFailBeats (s : State) (addr : Addr) (f : EraseFailRun) : List Beat :=
  let loaded := readyBeats s f.run.ready1 ++ loadBeats s addr ((erasedPage s).zip f.run.acks) f.run.ptr
  match f.stop with
  | .wait1 x => waitFailBeats s x
  | .load x => readyBeats s f.run.ready1 ++ loadFailBeats s addr (erasedPage s) x
  | .erase x => loaded ++ stsFailBeats s (nvmCtrlaAddr s) s.prm.cmdEr x
  | .wait2 x => loaded ++ cmdBeats s s.prm.cmdEr f.run.er ++ waitFailBeats s x

def eraseFailFits (s : State) (f : EraseFailRun) : Bool :=
  let loaded := endsReady s f.run.ready1 && (f.run.acks.length == pageBytes s)
  match f.stop with
  | .wait1 x => waitFailFits s x
  | .load x => endsReady s f.run.ready1 && loadFailFits s (erasedPage s) x
  | .erase x => loaded && ackFails s.prm (stsFailHeard x)
  | .wait2 x => loaded && waitFailFits s x

def eraseFailError (f : EraseFailRun) : Err :=
  match f.stop with
  | .wait1 x => waitFailError x
  | .load x => loadFailError x
  | .erase x => ackError (stsFailHeard x)
  | .wait2 x => waitFailError x

/-- What one CHIP_ERASE waits for (R111). -/
structure ChipRun where
  ready1 : Polls
  cher : Nat × Nat
  ready2 : Polls
  deriving DecidableEq, Repr

/-- `CHIP_ERASE`, everything acknowledged (R111). -/
def chipBeats (s : State) (r : ChipRun) : List Beat :=
  readyBeats s r.ready1 ++ cmdBeats s s.prm.cmdCher r.cher ++ readyBeats s r.ready2

def chipFits (s : State) (r : ChipRun) : Bool := endsReady s r.ready1 && endsReady s r.ready2

/-- Where a CHIP_ERASE fails (R111). -/
inductive ChipStop where
  | wait1 (f : WaitFail)
  | command (f : StsFail)
  | wait2 (f : WaitFail)
  deriving DecidableEq, Repr

/-- A CHIP_ERASE that fails, `run` up to where it does. -/
structure ChipFailRun where
  run : ChipRun
  stop : ChipStop
  deriving DecidableEq, Repr

def chipFailBeats (s : State) (f : ChipFailRun) : List Beat :=
  match f.stop with
  | .wait1 x => waitFailBeats s x
  | .command x => readyBeats s f.run.ready1 ++ stsFailBeats s (nvmCtrlaAddr s) s.prm.cmdCher x
  | .wait2 x => readyBeats s f.run.ready1 ++ cmdBeats s s.prm.cmdCher f.run.cher ++ waitFailBeats s x

def chipFailFits (s : State) (f : ChipFailRun) : Bool :=
  match f.stop with
  | .wait1 x => waitFailFits s x
  | .command x => endsReady s f.run.ready1 && ackFails s.prm (stsFailHeard x)
  | .wait2 x => endsReady s f.run.ready1 && waitFailFits s x

def chipFailError (f : ChipFailRun) : Err :=
  match f.stop with
  | .wait1 x => notReadyError x
  | .command x => ackError (stsFailHeard x)
  | .wait2 x => notReadyError x

/-! ## Traces of LINK_INIT (41_link.md R103) -/

/-- An `ENTER_PROG` that succeeds: on a target already in programming mode, or by unlocking it (R106). -/
inductive EnterRun where
  | already (status : Heard)
  | unlock (r : UnlockRun)
  deriving DecidableEq, Repr

def enterRunBeats (s : State) : EnterRun → List Beat
  | .already h => enterBeats s h
  | .unlock r => unlockBeats s r

def enterRunFits (s : State) : EnterRun → Bool
  | .already h => inProgMode s.prm h.byte
  | .unlock r => unlocks s r

/-- An `ENTER_PROG` that fails (R106, R107): the step, with what was read before it. -/
inductive EnterFail where
  | initialStatus
  | keyStatus (status : Heard)
  | keyRejected (status key : Heard)
  | lockStatus (status key : Heard) (locked : List Heard)
  | stillLocked (status key : Heard) (locked : List Heard)
  | finalStatus (status key : Heard) (lock : Polls)
  | notInProgrammingMode (status key : Heard) (lock : Polls) (final : Heard)
  deriving DecidableEq, Repr

def enterFailBeats (s : State) : EnterFail → List Beat
  | .initialStatus => ldcsSilent s s.prm.csAsiSysStatus
  | .keyStatus st => keyStepBeats s st ++ ldcsSilent s s.prm.csAsiKeyStatus
  | .keyRejected st ks => keyStepBeats s st ++ ldcsBeats s s.prm.csAsiKeyStatus ks
  | .lockStatus st ks hs => lockStepBeats s st ks hs ++ ldcsSilent s s.prm.csAsiSysStatus
  | .stillLocked st ks hs => lockStepBeats s st ks hs
  | .finalStatus st ks p =>
    lockStepBeats s st ks p.waiting ++ ldcsBeats s s.prm.csAsiSysStatus p.last ++ ldcsSilent s s.prm.csAsiSysStatus
  | .notInProgrammingMode st ks p f =>
    lockStepBeats s st ks p.waiting ++ ldcsBeats s s.prm.csAsiSysStatus p.last ++ ldcsBeats s s.prm.csAsiSysStatus f

/-- The polls of a lock wait (R107). -/
def lockPolls (p : Params) : Nat := p.unlockWaitMs / p.unlockPollMs

/-- Status answers that keep a lock wait going (R107). -/
def allLocked (p : Params) (hs : List Heard) : Bool := hs.all fun h => isLocked p h.byte

/-- The target was not in programming mode and took the key (R106). -/
def keyTaken (p : Params) (status key : Heard) : Bool := !inProgMode p status.byte && keyAccepted p key.byte

def enterFailFits (s : State) : EnterFail → Bool
  | .initialStatus => true
  | .keyStatus st => !inProgMode s.prm st.byte
  | .keyRejected st ks => !inProgMode s.prm st.byte && !keyAccepted s.prm ks.byte
  | .lockStatus st ks hs => keyTaken s.prm st ks && decide (hs.length < lockPolls s.prm) && allLocked s.prm hs
  | .stillLocked st ks hs => keyTaken s.prm st ks && (hs.length == lockPolls s.prm) && allLocked s.prm hs
  | .finalStatus st ks p =>
    keyTaken s.prm st ks && decide (p.waiting.length < lockPolls s.prm) && allLocked s.prm p.waiting &&
      !isLocked s.prm p.last.byte
  | .notInProgrammingMode st ks p f =>
    keyTaken s.prm st ks && decide (p.waiting.length < lockPolls s.prm) && allLocked s.prm p.waiting &&
      !isLocked s.prm p.last.byte && !inProgMode s.prm f.byte

def enterFailStep : EnterFail → UnlockStep
  | .initialStatus => .initialStatus
  | .keyStatus _ => .keyStatus
  | .keyRejected _ _ => .keyRejected
  | .lockStatus _ _ _ => .lockStatus
  | .stillLocked _ _ _ => .stillLocked
  | .finalStatus _ _ _ => .finalStatus
  | .notInProgrammingMode _ _ _ _ => .notInProgrammingMode

/-- An attempt of LINK_INIT that fails: no status byte, a status of zero, an `ENTER_PROG` that fails. -/
inductive AttemptFail where
  | silent
  | zero (status : Heard)
  | enter (status : Heard) (f : EnterFail)
  deriving DecidableEq, Repr

def attemptFailBeats (s : State) : AttemptFail → List Beat
  | .silent => linkStartBeats s ++ ldcsSilent s s.prm.csStatusa
  | .zero h => linkBeats s h
  | .enter h f => linkBeats s h ++ enterFailBeats s f

def attemptFailFits (s : State) : AttemptFail → Bool
  | .silent => true
  | .zero h => h.byte == 0#8
  | .enter h f => (h.byte != 0#8) && enterFailFits s f

def attemptFailError : AttemptFail → Err
  | .silent => .timeout (.shortRead 0)
  | .zero _ => .linkDownStatusZero
  | .enter _ f => .unlockFailed (enterFailStep f)

/-- A LINK_INIT that succeeds: attempts that fail, then one that does not. -/
structure LinkRun where
  failed : List AttemptFail
  status : Heard
  enter : EnterRun
  deriving DecidableEq, Repr

def linkRunBeats (s : State) (r : LinkRun) : List Beat :=
  r.failed.flatMap (attemptFailBeats s) ++ linkBeats s r.status ++ enterRunBeats s r.enter

def linkRunFits (s : State) (r : LinkRun) : Bool :=
  decide (r.failed.length < s.prm.linkInitAttempts) && r.failed.all (attemptFailFits s) && (r.status.byte != 0#8) &&
    enterRunFits s r.enter

/-- A LINK_INIT that fails: every attempt does. -/
def linkFailBeats (s : State) (fs : List AttemptFail) : List Beat := fs.flatMap (attemptFailBeats s)

def linkFailFits (s : State) (fs : List AttemptFail) : Bool :=
  (fs.length == s.prm.linkInitAttempts) && decide (0 < s.prm.linkInitAttempts) && fs.all (attemptFailFits s)

/-- `LinkDown` with the error of the last attempt. -/
def linkFailError (fs : List AttemptFail) : Err := linkDownAfter (fs.getLast?.map attemptFailError)

/-! ## Passes (43_page_sequencer.md) -/

/-- The pages a page-walking pass covers (R126, R130, R136). -/
def pagesOf (s : State) (pass : Pass) : Nat :=
  match pass with
  | .none => 0
  | .chipErase => 0
  | .blankCheck => flashBytes s / pageBytes s
  | .program => ceilDiv s.bytesUsed (pageBytes s)
  | .verify => flashBytes s / pageBytes s

/-- The counters of a page (10_state.md R24), and whether its next attempt skips the write. -/
structure Tally where
  link : Nat
  data : Nat
  blank : Nat
  esc : Nat
  skip : Bool
  deriving DecidableEq, Repr

/-- At the start of a page (R122). -/
def Tally.zero : Tally := ⟨0, 0, 0, 0, false⟩

/-- What reading one page hears: the polls before the pointer's acknowledge, the page's characters. -/
structure ReadRun where
  ptr : Nat
  heard : List Heard
  deriving DecidableEq, Repr

/-- The bytes a page was read back as. -/
def ReadRun.bytes (r : ReadRun) : List Byte := r.heard.map Heard.byte

/-- The read-back of a whole page. -/
def readRunFits (s : State) (r : ReadRun) : Bool := r.heard.length == pageBytes s

/-- `PAGE_READ` of page `p` (R126, R131, R136). -/
def readRunBeats (s : State) (p : Nat) (r : ReadRun) : List Beat :=
  pageReadBeats s (pageAddr s p) (pageBytes s) r.ptr r.heard

/-- The first `m` pages of a pass, each accepted: its trace and its event (R122, R138). -/
def pagesBeats (pass : Pass) (n m : Nat) (page : Nat → List Beat) : List Beat :=
  (List.range m).flatMap fun p => page p ++ [.event pass (p + 1) n]

/-- The link set up at the start of a pass, where it was not up (R123). -/
def lazyBeats (s : State) (lazy : Option LinkRun) : List Beat :=
  match lazy with
  | none => []
  | some l => linkRunBeats s l

/-- The link is set up just where the flag says that it is down (R123). -/
def lazyFits (s : State) (lazy : Option LinkRun) : Bool :=
  match lazy with
  | none => s.progMode
  | some l => !s.progMode && linkRunFits s l

/-- The start event of a pass over `n` pages, its lazy link, its first `m` pages accepted. -/
def walkBeats (s : State) (pass : Pass) (n m : Nat) (lazy : Option LinkRun) (page : Nat → List Beat) : List Beat :=
  [.event pass 0 n] ++ lazyBeats s lazy ++ pagesBeats pass n m page

/-- LINK_INIT, then the settle: how a failed try is followed by the next (R126, R132, R136, R172). -/
def relinkBeats (s : State) (l : LinkRun) : List Beat := linkRunBeats s l ++ [.pause (s.prm.settleMs * 1000)]

/-- The sequencer's registers when a pass is over (R122, R124): those of its last page `p`. -/
def seqOver (s : State) (p : Nat) (t : Tally) (step : PageStep) : Seq :=
  { pass := .none, page := p, addr := pageAddr s p, linkErr := t.link, dataErr := t.data, blankCnt := t.blank,
    escCnt := t.esc, skipWrite := t.skip, step := step }

/-- The sequencer's registers when a pass is over that started no page (10_state.md R24, R124): page 0 and its address, set
when the pass started. That the counters, `skip_write` and `step` are those before the pass is log 13. -/
def seqStarted (s : State) : Seq := { s.seq with pass := .none, page := 0, addr := pageAddr s 0 }

/-- The sequencer's registers after a pass that returned 0 over `n` pages, whose counters `tally` gives. -/
def seqDone (s : State) (n : Nat) (tally : Nat → Tally) : Seq :=
  if n = 0 then seqStarted s else seqOver s (n - 1) (tally (n - 1)) .success

/-- The read-back buffer once the first `n` pages are accepted, read back last as `last` (10_state.md R21). -/
def rbufAfter (s : State) (n : Nat) (last : Nat → List Byte) : List Byte := if n = 0 then s.rbuf else last (n - 1)

/-! ### Blank-Check and Verify (R126, R127, R136) -/

/-- A try of a page that is followed by another: a read that failed, or a read-back not accepted. -/
inductive ReadTry where
  | failed (f : ReadFail) (link : LinkRun)
  | rejected (r : ReadRun)
  deriving DecidableEq, Repr

/-- A page is read until its read-back is accepted. -/
structure ReadPageRun where
  tries : List ReadTry
  last : ReadRun
  deriving DecidableEq, Repr

/-- What Blank-Check (R126) and Verify (R136) differ in. -/
structure ReadRules where
  pass : Pass
  accept : Nat → List Byte → Bool
  linkCap : Nat
  dataCap : Nat
  linkCode : Int
  dataCode : Int

/-- Blank-Check: every byte is ERASE_VALUE (R126, R128). -/
def blankRules (s : State) : ReadRules where
  pass := .blankCheck
  accept := fun _ bytes => isBlank s.prm bytes
  linkCap := s.prm.bcLinkCap
  dataCap := s.prm.bcDataCap
  linkCode := s.prm.bcLinkCode
  dataCode := s.prm.bcDataCode

/-- Verify: the bytes are the image's (R136). -/
def verifyRules (s : State) : ReadRules where
  pass := .verify
  accept := fun p bytes => bytes == imagePage s p
  linkCap := s.prm.vfLinkCap
  dataCap := s.prm.vfDataCap
  linkCode := s.prm.vfLinkCode
  dataCode := s.prm.vfDataCode

def readTryBeats (s : State) (p : Nat) : ReadTry → List Beat
  | .failed f link => readFailBeats s (pageAddr s p) (pageBytes s) f ++ relinkBeats s link
  | .rejected r => readRunBeats s p r ++ [.pause (s.prm.settleMs * 1000)]

def readTryFits (s : State) (rules : ReadRules) (p : Nat) : ReadTry → Bool
  | .failed f link => readFailFits s (pageBytes s) f && linkRunFits s link
  | .rejected r => readRunFits s r && !rules.accept p r.bytes

/-- The failures of each class among the tries of a page (R125). -/
def readTally : List ReadTry → Tally
  | [] => Tally.zero
  | .failed _ _ :: ts => { readTally ts with link := (readTally ts).link + 1 }
  | .rejected _ :: ts => { readTally ts with data := (readTally ts).data + 1 }

/-- The read-back buffer after the tries of a page (10_state.md R21). -/
def readTriesRbuf (rbuf : List Byte) : List ReadTry → List Byte
  | [] => rbuf
  | .failed _ _ :: ts => readTriesRbuf rbuf ts
  | .rejected r :: ts => readTriesRbuf r.bytes ts

/-- Tries within both caps (R125). -/
def readTriesFit (s : State) (rules : ReadRules) (p : Nat) (tries : List ReadTry) : Bool :=
  (tries.all (readTryFits s rules p)) && decide ((readTally tries).link ≤ rules.linkCap) &&
    decide ((readTally tries).data ≤ rules.dataCap)

def readPageBeats (s : State) (p : Nat) (r : ReadPageRun) : List Beat :=
  r.tries.flatMap (readTryBeats s p) ++ readRunBeats s p r.last

def readPageFits (s : State) (rules : ReadRules) (p : Nat) (r : ReadPageRun) : Bool :=
  readTriesFit s rules p r.tries && readRunFits s r.last && rules.accept p r.last.bytes

/-- The trace of a reading pass up to its page `m`, each page before accepted. -/
def readPassBeats (s : State) (rules : ReadRules) (m : Nat) (lazy : Option LinkRun) (runs : Nat → ReadPageRun) :
    List Beat :=
  walkBeats s rules.pass (pagesOf s rules.pass) m lazy fun p => readPageBeats s p (runs p)

/-- The failure that ends a pass: a read failed at its cap, or its `LINK_INIT` failed below the cap; a read-back rejected
at its cap. -/
inductive ReadStop where
  | failed (f : ReadFail)
  | relinkFailed (f : ReadFail) (attempts : List AttemptFail)
  | rejected (r : ReadRun)
  deriving DecidableEq, Repr

def readStopBeats (s : State) (p : Nat) : ReadStop → List Beat
  | .failed f => readFailBeats s (pageAddr s p) (pageBytes s) f
  | .relinkFailed f fs => readFailBeats s (pageAddr s p) (pageBytes s) f ++ linkFailBeats s fs
  | .rejected r => readRunBeats s p r

/-- The failure stands where it ends the pass, `t` counted before it (R125). -/
def readStopFits (s : State) (rules : ReadRules) (p : Nat) (t : Tally) : ReadStop → Bool
  | .failed f => readFailFits s (pageBytes s) f && (t.link == rules.linkCap)
  | .relinkFailed f fs => readFailFits s (pageBytes s) f && decide (t.link < rules.linkCap) && linkFailFits s fs
  | .rejected r => readRunFits s r && !rules.accept p r.bytes && (t.data == rules.dataCap)

def readStopCode (rules : ReadRules) : ReadStop → Int
  | .failed _ => rules.linkCode
  | .relinkFailed _ _ => rules.linkCode
  | .rejected _ => rules.dataCode

def readStopTally (t : Tally) : ReadStop → Tally
  | .failed _ => { t with link := t.link + 1 }
  | .relinkFailed _ _ => { t with link := t.link + 1 }
  | .rejected _ => { t with data := t.data + 1 }

def readStopRbuf (rbuf : List Byte) : ReadStop → List Byte
  | .failed _ => rbuf
  | .relinkFailed _ _ => rbuf
  | .rejected r => r.bytes

/-- Only a failed `LINK_INIT` leaves the flag false (R103). -/
def readStopMode : ReadStop → Bool
  | .failed _ => true
  | .relinkFailed _ _ => false
  | .rejected _ => true

/-! ### Program (R130 to R135) -/

/-- An attempt that did not succeed: what it wrote, unless it skipped the write, and how it failed. A blank read-back
carries the page erase that follows where it is one too many (R133). -/
inductive ProgFail where
  | write (f : WriteFailRun)
  | read (w : PageWriteRun) (f : ReadFail)
  | blank (w : PageWriteRun) (r : ReadRun) (erase : EraseRun)
  | mismatch (w : PageWriteRun) (r : ReadRun)
  deriving DecidableEq, Repr

/-- A failed attempt and the link set up after it. -/
structure ProgTry where
  fail : ProgFail
  link : LinkRun
  deriving DecidableEq, Repr

/-- A page is attempted until an attempt succeeds. -/
structure ProgPageRun where
  tries : List ProgTry
  write : PageWriteRun
  last : ReadRun
  deriving DecidableEq, Repr

/-- The write of an attempt, which the attempt after a failed read skips (R131). -/
def writeStepBeats (s : State) (p : Nat) (t : Tally) (w : PageWriteRun) : List Beat :=
  if t.skip then [] else pageWriteBeats s (pageAddr s p) (imagePage s p) w

def writeStepFits (s : State) (p : Nat) (t : Tally) (w : PageWriteRun) : Bool :=
  t.skip || pageWriteFits s (imagePage s p) w

/-- One blank read-back more escalates to a page erase (R133). -/
def escalates (s : State) (t : Tally) : Bool := decide (s.prm.pgBlankCap < t.blank + 1)

/-- A failed attempt with what its recovery does before LINK_INIT. -/
def progFailBeats (s : State) (p : Nat) (t : Tally) : ProgFail → List Beat
  | .write f => writeFailBeats s (pageAddr s p) (imagePage s p) f
  | .read w f => writeStepBeats s p t w ++ readFailBeats s (pageAddr s p) (pageBytes s) f
  | .blank w r e =>
    writeStepBeats s p t w ++ readRunBeats s p r ++ (if escalates s t then eraseBeats s (pageAddr s p) e else [])
  | .mismatch w r => writeStepBeats s p t w ++ readRunBeats s p r

/-- The attempt failed so, within the caps (R125). -/
def progFailFits (s : State) (p : Nat) (t : Tally) : ProgFail → Bool
  | .write f => !t.skip && writeFailFits s (imagePage s p) f && decide (t.link < s.prm.pgLinkCap)
  | .read w f => writeStepFits s p t w && readFailFits s (pageBytes s) f && decide (t.link < s.prm.pgLinkCap)
  | .blank w r e =>
    writeStepFits s p t w && readRunFits s r && isBlank s.prm r.bytes && (r.bytes != imagePage s p) &&
      (!escalates s t || (decide (t.esc < s.prm.pgEscCap) && eraseFits s e))
  | .mismatch w r =>
    writeStepFits s p t w && readRunFits s r && !isBlank s.prm r.bytes && (r.bytes != imagePage s p) &&
      decide (t.data < s.prm.pgDataCap)

/-- The counters after a failed attempt, and whether the next attempt skips its write (R131 to R135). -/
def progTally (s : State) (t : Tally) : ProgFail → Tally
  | .write _ => { t with link := t.link + 1, skip := false }
  | .read _ _ => { t with link := t.link + 1, skip := true }
  | .blank _ _ _ =>
    if escalates s t then { t with blank := 0, esc := t.esc + 1, skip := false }
    else { t with blank := t.blank + 1, skip := false }
  | .mismatch _ _ => { t with data := t.data + 1, skip := false }

def progFailRbuf (rbuf : List Byte) : ProgFail → List Byte
  | .write _ => rbuf
  | .read _ _ => rbuf
  | .blank _ r _ => r.bytes
  | .mismatch _ r => r.bytes

/-- The traces of failed attempts, `t` counted before them. -/
def progTriesBeats (s : State) (p : Nat) : Tally → List ProgTry → List Beat
  | _, [] => []
  | t, x :: xs =>
    progFailBeats s p t x.fail ++ relinkBeats s x.link ++ progTriesBeats s p (progTally s t x.fail) xs

def progTriesFit (s : State) (p : Nat) : Tally → List ProgTry → Bool
  | _, [] => true
  | t, x :: xs => progFailFits s p t x.fail && linkRunFits s x.link && progTriesFit s p (progTally s t x.fail) xs

def progTriesTally (s : State) (tries : List ProgTry) : Tally :=
  tries.foldl (fun t x => progTally s t x.fail) Tally.zero

def progTriesRbuf (rbuf : List Byte) (tries : List ProgTry) : List Byte :=
  tries.foldl (fun b x => progFailRbuf b x.fail) rbuf

def progPageBeats (s : State) (p : Nat) (r : ProgPageRun) : List Beat :=
  progTriesBeats s p Tally.zero r.tries ++ writeStepBeats s p (progTriesTally s r.tries) r.write ++
    readRunBeats s p r.last

def progPageFits (s : State) (p : Nat) (r : ProgPageRun) : Bool :=
  progTriesFit s p Tally.zero r.tries && writeStepFits s p (progTriesTally s r.tries) r.write &&
    (r.last.bytes == imagePage s p)

/-- The trace of the Program pass up to its page `m`, each page before accepted. -/
def progPassBeats (s : State) (m : Nat) (lazy : Option LinkRun) (runs : Nat → ProgPageRun) : List Beat :=
  walkBeats s .program (pagesOf s .program) m lazy fun p => progPageBeats s p (runs p)

/-- The failure that ends the pass (R133 to R135): of a write, a read, a mismatch or a blank read-back one above its cap;
of a page erase; of the `LINK_INIT` after a failed attempt within its caps. -/
inductive ProgStop where
  | write (f : WriteFailRun)
  | read (w : PageWriteRun) (f : ReadFail)
  | mismatch (w : PageWriteRun) (r : ReadRun)
  | exhausted (w : PageWriteRun) (r : ReadRun)
  | erase (w : PageWriteRun) (r : ReadRun) (f : EraseFailRun)
  | relink (x : ProgFail) (attempts : List AttemptFail)
  deriving DecidableEq, Repr

def progStopBeats (s : State) (p : Nat) (t : Tally) : ProgStop → List Beat
  | .write f => writeFailBeats s (pageAddr s p) (imagePage s p) f
  | .read w f => writeStepBeats s p t w ++ readFailBeats s (pageAddr s p) (pageBytes s) f
  | .mismatch w r => writeStepBeats s p t w ++ readRunBeats s p r
  | .exhausted w r => writeStepBeats s p t w ++ readRunBeats s p r
  | .erase w r f => writeStepBeats s p t w ++ readRunBeats s p r ++ eraseFailBeats s (pageAddr s p) f
  | .relink x fs => progFailBeats s p t x ++ linkFailBeats s fs

def progStopFits (s : State) (p : Nat) (t : Tally) : ProgStop → Bool
  | .write f => !t.skip && writeFailFits s (imagePage s p) f && (t.link == s.prm.pgLinkCap)
  | .read w f => writeStepFits s p t w && readFailFits s (pageBytes s) f && (t.link == s.prm.pgLinkCap)
  | .mismatch w r =>
    writeStepFits s p t w && readRunFits s r && !isBlank s.prm r.bytes && (r.bytes != imagePage s p) &&
      (t.data == s.prm.pgDataCap)
  | .exhausted w r =>
    writeStepFits s p t w && readRunFits s r && isBlank s.prm r.bytes && (r.bytes != imagePage s p) &&
      escalates s t && (t.esc == s.prm.pgEscCap)
  | .erase w r f =>
    writeStepFits s p t w && readRunFits s r && isBlank s.prm r.bytes && (r.bytes != imagePage s p) &&
      escalates s t && decide (t.esc < s.prm.pgEscCap) && eraseFailFits s f
  | .relink x fs => progFailFits s p t x && linkFailFits s fs

/-- "a distinct negative internal code" for each (R144). -/
def progStopCode (p : Params) : ProgStop → Int
  | .write _ => p.pgLinkCode
  | .read _ _ => p.pgLinkCode
  | .mismatch _ _ => p.pgDataCode
  | .exhausted _ _ => p.pgEscCode
  | .erase _ _ _ => p.pgEraseCode
  | .relink _ _ => p.pgRelinkCode

/-- The counters the aborted page leaves. -/
def progStopTally (s : State) (t : Tally) : ProgStop → Tally
  | .write _ => { t with link := t.link + 1, skip := false }
  | .read _ _ => { t with link := t.link + 1, skip := false }
  | .mismatch _ _ => { t with data := t.data + 1, skip := false }
  | .exhausted _ _ => { t with blank := t.blank + 1, esc := t.esc + 1, skip := false }
  | .erase _ _ _ => { t with blank := t.blank + 1, esc := t.esc + 1, skip := false }
  | .relink x _ => progTally s t x

def progStopRbuf (rbuf : List Byte) : ProgStop → List Byte
  | .write _ => rbuf
  | .read _ _ => rbuf
  | .mismatch _ r => r.bytes
  | .exhausted _ r => r.bytes
  | .erase _ r _ => r.bytes
  | .relink x _ => progFailRbuf rbuf x

/-- Only a failed `LINK_INIT` leaves the flag false (R103). -/
def progStopMode : ProgStop → Bool
  | .write _ => true
  | .read _ _ => true
  | .mismatch _ _ => true
  | .exhausted _ _ => true
  | .erase _ _ _ => true
  | .relink _ _ => false

/-! ### What the passes report -/

/-- The progress events of an observation. -/
def eventsOf (o : List Obs) : List Obs :=
  o.filter fun x => match x with | .progress _ _ _ => true | _ => false

/-- The results of an observation. -/
def resultsOf (o : List Obs) : List Obs :=
  o.filter fun x => match x with | .result _ => true | _ => false

/-- The capability calls of an observation (00_scope.md R7). -/
def callsOf (o : List Obs) : List Obs :=
  o.filter fun x => match x with | .progress _ _ _ => false | .result _ => false | _ => true

/-! ## Groups of instructions -/

/-- The frame rows of the opcode table. -/
def isFrameRow : Instr → Bool
  | .ldcsFrame _ => true
  | .stcsFrame _ _ => true
  | .ldsFrame _ => true
  | .stsFrame _ _ => true
  | .stPtr _ => true
  | .stPtrInc _ => true
  | .ldPtrInc _ => true
  | .repeatFrame _ => true
  | .keyFrame _ => true
  | _ => false

/-- A sequence of frames the decoder of R73 can tell apart: each burst's length is the count of the REPEAT before it
(42_device_control.md R118), one where there is none. -/
def chained (p : Params) : Nat → List Instr → Bool
  | _, [] => true
  | rep, i :: is =>
    isFrameRow i && i.wf p &&
    (match i with
      | .stPtrInc data => data.length == rep
      | .ldPtrInc m => m == rep
      | _ => true) &&
    chained p (repAfter i) is

/-- Operations that write no block state but the pin's direction and level (41_link.md R91, 42_device_control.md). -/
def wireOnly : Instr → Bool
  | .phyInit => false
  | .phyClose => false
  | .linkInit => false
  | .enterProg => false
  | .exitProg => false
  | .setImage _ _ => false
  | .passChipErase => false
  | .passBlankCheck => false
  | .passProgram => false
  | .passVerify => false
  | _ => true

/-- Operations that also write `S.prog_mode` (10_state.md R19). -/
def writesProgMode : Instr → Bool
  | .linkInit => true
  | .enterProg => true
  | .exitProg => true
  | _ => false

/-- The passes (30_encoding.md R76, 0x31 to 0x34). -/
def passOf : Instr → Pass
  | .passChipErase => .chipErase
  | .passBlankCheck => .blankCheck
  | .passProgram => .program
  | .passVerify => .verify
  | _ => .none

/-- The error classes an operation can end with: each rule's "Exceptions", R119 for device control. -/
def errorClasses : Instr → List ErrClass
  | .ldcsFrame _ => [.ioError, .timeout]
  | .stcsFrame _ _ => [.ioError]
  | .ldsFrame _ => [.ioError, .timeout]
  | .stsFrame _ _ => [.ioError, .timeout, .nack]
  | .stPtr _ => [.ioError, .timeout, .nack]
  | .stPtrInc _ => [.sizeError, .ioError, .timeout, .nack]
  | .ldPtrInc _ => [.sizeError, .ioError, .timeout]
  | .repeatFrame _ => [.sizeError, .ioError]
  | .keyFrame _ => [.ioError]
  | .cmdWp => [.ioError, .timeout, .nack]
  | .cmdEr => [.ioError, .timeout, .nack]
  | .cmdPbc => [.ioError, .timeout, .nack]
  | .cmdCher => [.ioError, .timeout, .nack]
  | .phyInit => [.ioError]
  | .phySend _ => [.ioError]
  | .phyRecv _ => [.ioError]
  | .phyDoubleBreak => [.ioError]
  | .phyClose => []
  | .ldcs _ => [.ioError, .timeout]
  | .stcs _ _ => [.ioError]
  | .lds _ => [.ioError, .timeout]
  | .sts _ _ => [.ioError, .timeout, .nack]
  | .setPtr _ => [.ioError, .timeout, .nack]
  | .repeatN _ => [.sizeError, .ioError]
  | .burstWrite _ => [.sizeError, .ioError, .timeout, .nack]
  | .burstRead _ => [.sizeError, .ioError, .timeout]
  | .key _ => [.ioError]
  | .linkInit => [.linkDown, .ioError]
  | .resetToggle => [.ioError]
  | .enterProg => [.ioError, .unlockFailed]
  | .exitProg => [.ioError]
  | .waitReady => [.ioError, .timeout, .writeError]
  | .execNvmCmd _ => [.ioError, .timeout, .nack]
  | .chipErase => [.ioError, .timeout, .nack, .writeError, .notReady]
  | .pageWrite _ _ => [.ioError, .timeout, .nack, .writeError, .sizeError]
  | .pageRead _ _ => [.ioError, .timeout, .nack, .sizeError]
  | .pageErase _ => [.ioError, .timeout, .nack, .writeError]
  | .setImage _ _ => [.sizeError]
  | .passChipErase => []
  | .passBlankCheck => []
  | .passProgram => []
  | .passVerify => []

/-- The codes with which a pass aborts (60_exceptions.md R144). -/
def abortCodes (p : Params) : Pass → List Int
  | .none => []
  | .chipErase => [p.ceLinkCode, p.ceEraseCode]
  | .blankCheck => [p.bcLinkCode, p.bcDataCode]
  | .program => [p.pgRelinkCode, p.pgLinkCode, p.pgEscCode, p.pgEraseCode, p.pgDataCode]
  | .verify => [p.vfLinkCode, p.vfDataCode]

/-- The code of a pass whose lazy LINK_INIT failed (R123, R144). -/
def lazyCode (p : Params) : Pass → Int
  | .none => 0
  | .chipErase => p.ceLinkCode
  | .blankCheck => p.bcLinkCode
  | .program => p.pgRelinkCode
  | .verify => p.vfLinkCode

/-! ## Legal host words (30_encoding.md R76, R79) -/

/-- The types of R76's argument column. -/
inductive ArgKind where
  | cs
  | byte
  | addr
  | nat
  | bytes
  | key
  | fuse
  deriving DecidableEq, Repr

/-- The arguments of each operation code (R76), none for a code not in R76. -/
def hostArgs : Nat → Option (List ArgKind)
  | 0x01 => some []
  | 0x02 => some [.bytes]
  | 0x03 => some [.nat]
  | 0x04 => some []
  | 0x05 => some []
  | 0x10 => some [.cs]
  | 0x11 => some [.cs, .byte]
  | 0x12 => some [.addr]
  | 0x13 => some [.addr, .byte]
  | 0x14 => some [.addr]
  | 0x15 => some [.nat]
  | 0x16 => some [.bytes]
  | 0x17 => some [.nat]
  | 0x18 => some [.key]
  | 0x19 => some []
  | 0x20 => some []
  | 0x21 => some []
  | 0x22 => some []
  | 0x23 => some []
  | 0x24 => some [.byte]
  | 0x25 => some []
  | 0x26 => some [.addr, .bytes]
  | 0x27 => some [.addr, .nat]
  | 0x28 => some [.addr]
  | 0x30 => some [.bytes, .fuse]
  | 0x31 => some []
  | 0x32 => some []
  | 0x33 => some []
  | 0x34 => some []
  | _ => none

/-- Every byte of a list is at most 0xFF. -/
def allBytes (l : List Nat) : Bool := l.all fun b => decide (b ≤ 0xFF)

/-- An argument is of its type and within its range (R79). -/
def argFits (p : Params) : ArgKind → Arg → Bool
  | .cs, .num n => decide (n ≤ 0xF)
  | .byte, .num n => decide (n ≤ 0xFF)
  | .addr, .num n => decide (n ≤ 0xFFFF)
  | .nat, .num _ => true
  | .bytes, .bytes l => allBytes l
  | .key, .bytes l => allBytes l && (l.length == p.keyLen)
  | .fuse, .bytes l => allBytes l
  | .fuse, .absent => true
  | _, _ => false

/-- A host operation R79 does not refuse: a known code, as many arguments as it takes, each of its type and range. -/
def legalHostWord (p : Params) (code : Nat) (args : List Arg) : Bool :=
  match hostArgs code with
  | none => false
  | some kinds => (args.length == kinds.length) && (kinds.zip args).all fun x => argFits p x.1 x.2

/-! ## Sums of sleeps (R176) -/

/-- The time one observation sleeps. -/
def sleepOf : Obs → Nat
  | .sleep us => us
  | .capInit _ => 0
  | .setDir _ _ => 0
  | .writeLevel _ _ => 0
  | .readLevel _ _ => 0
  | .progress _ _ _ => 0
  | .result _ => 0

/-- "Durations, counted as the sum of `Sleep` arguments" (R176). -/
def sleepTotal (o : List Obs) : Nat := (o.map sleepOf).sum

/-! ## Sound states -/

/-- The direction the last `SetDir` of an observation set (10_state.md R14). -/
def lastDir (o : List Obs) : PinDir :=
  o.foldl (fun d x => match x with | .setDir _ d' => .known d' | _ => d) .unknown

/-- The level the last `WriteLevel` of an observation wrote (R14). -/
def lastOut (o : List Obs) : PinOut :=
  o.foldl (fun l x => match x with | .writeLevel _ l' => .known l' | _ => l) .unknown

/-- The pin record (R14): an open PHY drives the configured pin, a closed one has none. -/
def pinRecorded (s : State) : Bool := s.pin == (if s.phyOpen then some s.cfg.pin else none)

/-- The image memory (R20): canonical, its watermark one past the last cell, all within the flash. -/
def imageSound (s : State) : Bool :=
  memoryWf s && (s.bytesUsed == (s.flashImage.getLast?.map fun c => c.1 + 1).getD 0) &&
  decide (s.bytesUsed ≤ flashBytes s)

/-- The fuse image has `FUSE_COUNT` bytes or is absent (R20). -/
def fuseSound (s : State) : Bool := fuseFits s s.fuseImage

/-- Between operations: nothing runs (R22, R24), the datapath registers hold nothing (R15, R16). -/
def atRest (s : State) : Bool :=
  !s.busy && (s.seq.pass == .none) && (s.rx == Rx.idle) && (s.tx == Tx.idle)

/-- The invariant every step keeps. -/
def sound (s : State) : Bool :=
  (s.pinDir == lastDir s.obs) && (s.pinOut == lastOut s.obs) && pinRecorded s && imageSound s && fuseSound s &&
  atRest s && decide (s.rbuf.length ≤ pageBytes s)

/-- A run the spec gives a meaning to has no refusal (R22, R166). -/
def meaningful (s : State) : Bool := !s.refused

/-! ## The host's run order (R162) -/

/-- The result the last operation of an observation delivered. -/
def lastResult (o : List Obs) : Option Result :=
  o.foldl (fun r x => match x with | .result r' => some r' | _ => r) none

/-- A result after which the run goes on: a success whose pass code, if it has one, is 0 (R162). -/
def goesOn (r : Option Result) : Bool :=
  match r with
  | some (.ok (.code c)) => c == 0
  | some (.ok _) => true
  | some (.err _) => false
  | none => false

/-- The operations of `RUN(image, fuse)`, in order (R162). -/
def runOrder (image : List Byte) (fuse : Option (List Byte)) : List Instr :=
  [.phyInit, .setImage image fuse, .passChipErase, .passBlankCheck, .passProgram, .passVerify, .phyClose]

/-- The host issues operations in order and stops at the first failure (R162). -/
def runOps : List Instr → State → Answer
  | [], s => .next s
  | i :: is, s =>
    match exec i s with
    | .next t => if goesOn (lastResult t.obs) then runOps is t else .next t
    | .fault f => .fault f
    | .refused r => .refused r

/-- `RUN(image, fuse)` (R162). -/
def run (image : List Byte) (fuse : Option (List Byte)) (s : State) : Answer := runOps (runOrder image fuse) s

end Sys2Proof.Safety
end

