-- ==== Sys2Proof/Certificates/Slice0/Obligations.lean ====
section
/-! DEFINITION. The statements for the provers. -/

open Sys2Proof Sys2Proof.Machine Sys2Proof.Safety

/-! ## Encoding -/

/-- R63 to R67, R74, R76: every well-formed instruction, with every operand, reads back from its word; the four command
codes must differ, as R74's do. -/
def Obligations.DecodeOfEncodeIsTheInstruction : Prop :=
  ∀ (p : Params) (i : Instr), i.wf p = true → [p.cmdWp, p.cmdEr, p.cmdPbc, p.cmdCher].Nodup →
    decode p (encode p i) = .ok i

/-- R76: a host operation's word has one meaning, and that meaning one word. -/
def Obligations.EncodeOfDecodedHostWordIsTheWord : Prop :=
  ∀ (p : Params) (code : Nat) (args : List Arg) (i : Instr), decode p (.op code args) = .ok i →
    encode p i = .op code args

/-- The decoder of the block's output reads back every sequence of frames whose bursts follow their REPEAT: "A decoder of
the block's output therefore tells each frame's length from its opcode byte and the preceding REPEAT", which the spec
marks its own inference. That a REPEAT count ends at the next frame, whatever that is, is the model's choice (log 26). -/
def Obligations.WireDecoderReadsBackEveryFrameSequence : Prop :=
  ∀ (p : Params) (frames : List Instr), chained p 1 frames = true →
    decodeWire p (frames.flatMap fun i => (frameSends p i).flatten) = .ok frames

/-- Words written out from R64 to R67, R74 and R76. That a table word of one byte, such as 0xC3, 0x69 or 0xA0, reads as
its frame with operands of zero is the model's reading of the table (log 6, log 7): by R73 those frames are 3 and 4 bytes
long. -/
def Obligations.SpecWordsDecode : Prop :=
  decodeTableWord 8 0x8B = some (.ldcsFrame 0xB#4) ∧ decodeTableWord 8 0xC3 = some (.stcsFrame 0x3#4 0x00#8) ∧
  decodeTableWord 8 0x69 = some (.stPtr 0x0000#16) ∧ decodeTableWord 8 0xA0 = some (.repeatFrame 0x00#8) ∧
  decodeTableWord 8 0x19 = some .linkInit ∧ decodeTableWord 8 0x34 = some .passVerify ∧
  decode defaultParams (.frame 1 [0x55#8, 0x44#8, 0x34#8, 0x12#8, 0xAB#8]) = .ok (.stsFrame 0x1234#16 0xAB#8) ∧
  decode defaultParams (.nvm 0x05#8) = .ok .cmdCher ∧
  decode defaultParams (.op 0x13 [.num 0x1000, .num 0x04]) = .ok (.sts 0x1000#16 0x04#8)

/-- R75: an opcode not in R63 is rejected by name, whatever follows; every opcode with `op[4] = 1` is such a one. -/
def Obligations.UnemittedOpcodesAreRejected : Prop :=
  (∀ (p : Params) (rep : Nat) (op : Byte) (rest : List Byte), op.extractLsb' 4 4 ≠ 0x8#4 → op.extractLsb' 4 4 ≠ 0xC#4 →
    op ∉ [0x04#8, 0x44#8, 0x69#8, 0x64#8, 0x24#8, 0xA0#8, 0xE0#8] →
    decodeFrame p rep (p.sync :: op :: rest) = .reject (.unemittedOpcode op)) ∧
  (∀ (p : Params) (rep : Nat) (op : Byte) (rest : List Byte), op.getLsbD 4 = true →
    decodeFrame p rep (p.sync :: op :: rest) = .reject (.unemittedOpcode op))

/-! ## The port -/

/-- The host's next word, where it decodes, is what the step runs; the word is gone from the port and nothing else is
changed before. With no operation issued "the block is idle and waits", the spec's own inference; that a wait is a step that
changes nothing, and the form of the port, are the model's choice (log 6). -/
def Obligations.StepRunsTheDecodedInstruction : Prop :=
  (∀ (s : State) (w : PortWord) (rest : List PortWord) (i : Instr), s.hostOps = w :: rest →
    decode s.prm w = .ok i → step s = exec i { s with hostOps := rest }) ∧
  (∀ s : State, s.hostOps = [] → step s = .next s)

/-- R79 (the next state for a refusal is log 5): a refused operation changes `S.refused` and nothing else. -/
def Obligations.RefusedOperationSetsRefusedAlone : Prop :=
  ∀ (i : Instr) (s : State), accepts i s = false → exec i s = .next { s with refused := true }

/-- R79: a word the decoder rejects is refused. The decoder takes a host word just where its code is in R76, it has that
code's arguments, each of its type, and each is in its range; a code not in R76 is rejected whatever the arguments. The
named rejections: a CS address above 0xF, an address above 0xFFFF, a byte above 0xFF alone or in a list, each for every
operation that takes one, and a key of another length. -/
def Obligations.IllTypedHostOperationsAreRefused : Prop :=
  (∀ (s : State) (w : PortWord) (rest : List PortWord) (r : Reject), s.hostOps = w :: rest → decode s.prm w = .reject r →
    step s = .next { s with hostOps := rest, refused := true }) ∧
  (∀ (p : Params) (code : Nat) (args : List Arg),
    (∃ i, decode p (.op code args) = .ok i) ↔ legalHostWord p code args = true) ∧
  (∀ (p : Params) (code : Nat) (args : List Arg), hostArgs code = none →
    decode p (.op code args) = .reject (.unknownCode code)) ∧
  (∀ (p : Params) (a : Nat) (x : Arg), 0xF < a →
    decode p (.op 0x10 [.num a]) = .reject (.csAddressRange a) ∧
    decode p (.op 0x11 [.num a, x]) = .reject (.csAddressRange a)) ∧
  (∀ (p : Params) (a : Nat) (x : Arg), 0xFFFF < a →
    (∀ code ∈ [0x12, 0x14, 0x28], decode p (.op code [.num a]) = .reject (.addressRange a)) ∧
    (∀ code ∈ [0x13, 0x26, 0x27], decode p (.op code [.num a, x]) = .reject (.addressRange a))) ∧
  (∀ (p : Params) (a v : Nat), 0xFF < v →
    decode p (.op 0x24 [.num v]) = .reject (.byteRange v) ∧
    (a ≤ 0xF → decode p (.op 0x11 [.num a, .num v]) = .reject (.byteRange v)) ∧
    (a ≤ 0xFFFF → decode p (.op 0x13 [.num a, .num v]) = .reject (.byteRange v))) ∧
  (∀ (p : Params) (pre post : List Nat) (b : Nat), allBytes pre = true → 0xFF < b →
    (∀ code ∈ [0x02, 0x16, 0x18], decode p (.op code [.bytes (pre ++ b :: post)]) = .reject (.byteRange b)) ∧
    (∀ a, a ≤ 0xFFFF → decode p (.op 0x26 [.num a, .bytes (pre ++ b :: post)]) = .reject (.byteRange b)) ∧
    (∀ x, decode p (.op 0x30 [.bytes (pre ++ b :: post), x]) = .reject (.byteRange b)) ∧
    (∀ image, allBytes image = true →
      decode p (.op 0x30 [.bytes image, .bytes (pre ++ b :: post)]) = .reject (.byteRange b))) ∧
  (∀ (p : Params) (k : List Nat), allBytes k = true → k.length ≠ p.keyLen →
    decode p (.op 0x18 [.bytes k]) = .reject (.keyLength k.length))

/-- R6: an accepted operation ends with exactly one result, delivered last, and the port is free. -/
def Obligations.AcceptedOperationDeliversExactlyOneResult : Prop :=
  ∀ (i : Instr) (s t : State), accepts i s = true → exec i s = .next t →
    t.busy = false ∧ ∃ o r, t.obs = s.obs ++ o ++ [.result r] ∧ resultsOf o = []

/-! ## PHY -/

/-- R80: both outcomes of `CapInit()`. -/
def Obligations.PhyInitOpensThePinOrFails : Prop :=
  ∀ s : State, accepts .phyInit s = true →
    (nextCapInit s = true → exec .phyInit s = .next
      { s with
        phyOpen := true, pin := some s.cfg.pin, pinDir := .known .input, rx := Rx.idle, tx := Tx.idle
        capInits := s.capInits.tail, draws := s.draws + 1
        obs := s.obs ++ [.capInit true, .setDir (some s.cfg.pin) .input, .result (.ok .none)] }) ∧
    (nextCapInit s = false → exec .phyInit s = .next
      { s with
        phyOpen := false, pin := none, rx := Rx.idle, tx := Tx.idle
        capInits := s.capInits.tail, draws := s.draws + 1
        obs := s.obs ++ [.capInit false, .result (.err (.ioError .gpioInit))] })

/-- R81, R82: idle settle, then the twelve slots of every byte, whatever the list (`txCalls` is R81's call list); on a
closed PHY no call. -/
def Obligations.PhySendEmitsEveryCharacter : Prop :=
  ∀ (s : State) (bytes : List Byte), accepts (.phySend bytes) s = true →
    (s.phyOpen = true → exec (.phySend bytes) s = .next (done s [.tx bytes] (.ok .none))) ∧
    (s.phyOpen = false → exec (.phySend bytes) s = .next (done s [] (.err (.ioError .closed))))

/-- R83, R85: for the characters the environment presents, their bytes, with no framing check; fewer than `n` then
silence is a short read, not an error; on a closed PHY no call. -/
def Obligations.PhyRecvReturnsTheCharactersHeard : Prop :=
  ∀ (s : State) (n : Nat), accepts (.phyRecv n) s = true →
    (∀ heard : List Heard, s.phyOpen = true → answers s [.rx n heard] = true →
      exec (.phyRecv n) s = .next (done s [.rx n heard] (.ok (.bytes (heard.map Heard.byte))))) ∧
    (s.phyOpen = false → exec (.phyRecv n) s = .next (done s [] (.err (.ioError .closed))))

/-- The results PHY_RECV(n) can return are exactly the byte lists of length 0 to `n`: the spec's own inference, "the set of
results `PHY_RECV(n)` can return is exactly the set of byte lists of" those lengths. -/
def Obligations.PhyRecvResultsAreExactlyTheListsUpToN : Prop :=
  (∀ (s : State) (n : Nat), ready (.phyRecv n) s = true →
    ∃ (bytes : List Byte) (t : State), bytes.length ≤ n ∧ exec (.phyRecv n) s = .next t ∧
      t.obs.getLast? = some (.result (.ok (.bytes bytes)))) ∧
  (∀ (s : State) (n : Nat) (bytes : List Byte), ready (.phyRecv n) s = true → 0 < s.prm.rxPollLimit →
    bytes.length ≤ n → ∃ (ls : List Level) (t : State), exec (.phyRecv n) { s with levels := ls } = .next t ∧
      t.obs.getLast? = some (.result (.ok (.bytes bytes))))

/-- R86: the calls and the state of the double break, which never fails on an open PHY; on a closed one no call. -/
def Obligations.PhyDoubleBreakForcesIdle : Prop :=
  ∀ s : State, accepts .phyDoubleBreak s = true →
    (s.phyOpen = true → exec .phyDoubleBreak s = .next
      { s with
        pinDir := .known .output, pinOut := .known true, rx := Rx.idle, tx := Tx.idle
        obs := s.obs ++
          [.setDir s.pin .output, .writeLevel s.pin false, .sleep s.prm.dbrkLow1Us, .writeLevel s.pin true,
           .sleep s.prm.dbrkHigh1Us, .writeLevel s.pin false, .sleep s.prm.dbrkLow2Us, .writeLevel s.pin true,
           .sleep s.prm.dbrkHigh2Us, .result (.ok .none)] }) ∧
    (s.phyOpen = false → exec .phyDoubleBreak s = .next (done s [] (.err (.ioError .closed))))

/-- R89: an open PHY is released; on a closed one nothing happens but the result. -/
def Obligations.PhyCloseReleasesThePinOnce : Prop :=
  ∀ s : State, accepts .phyClose s = true →
    (s.phyOpen = true → exec .phyClose s = .next
      { s with
        phyOpen := false, pin := none, pinDir := .known .input, rx := Rx.idle, tx := Tx.idle
        obs := s.obs ++ [.setDir s.pin .input, .result (.ok .none)] }) ∧
    (s.phyOpen = false → exec .phyClose s = .next
      { s with rx := Rx.idle, tx := Tx.idle, obs := s.obs ++ [.result (.ok .none)] })

/-- R90: on a closed PHY every operation that reaches a send, a receive or a double break makes no capability call and
ends with `IOError("closed")`; sizes are tested first; the waits and the link set-up must be allowed a first try. -/
def Obligations.ClosedPhyEndsOperationsWithIOError : Prop :=
  ∀ (i : Instr) (s : State), accepts i s = true → s.phyOpen = false →
    (∀ (bytes : List Byte) (n : Nat), i = .phySend bytes ∨ i = .phyRecv n ∨ i = .phyDoubleBreak →
      exec i s = .next (done s [] (.err (.ioError .closed)))) ∧
    (∀ (a : CsAddr) (v : Byte) (addr : Addr) (k : List Byte),
      i = .ldcs a ∨ i = .stcs a v ∨ i = .lds addr ∨ i = .sts addr v ∨ i = .setPtr addr ∨ i = .key k ∨
      i = .ldcsFrame a ∨ i = .stcsFrame a v ∨ i = .ldsFrame addr ∨ i = .stsFrame addr v ∨ i = .stPtr addr ∨
      i = .keyFrame k ∨ i = .resetToggle ∨ i = .execNvmCmd v ∨ i = .cmdWp ∨ i = .cmdEr ∨ i = .cmdPbc ∨ i = .cmdCher →
      exec i s = .next (done s [] (.err (.ioError .closed)))) ∧
    (∀ (n : Nat) (c : Byte) (addr : Addr) (data : List Byte), 1 ≤ n → n ≤ s.prm.maxBurst →
      i = .repeatN n ∨ (i = .repeatFrame c ∧ n = c.toNat + 1) ∨ i = .burstRead n ∨ i = .ldPtrInc n ∨
      (i = .burstWrite data ∧ data.length = n) ∨ (i = .stPtrInc data ∧ data.length = n) ∨
      (i = .pageRead addr n ∧ 2 ≤ n) →
      exec i s = .next (done s [] (.err (.ioError .closed)))) ∧
    (0 < s.prm.readyTimeoutMs / s.prm.readyPollMs → ∀ (addr : Addr) (data : List Byte),
      i = .waitReady ∨ i = .chipErase ∨ i = .pageErase addr ∨
      (i = .pageWrite addr data ∧ 1 ≤ data.length ∧ data.length ≤ s.prm.maxBurst) →
      exec i s = .next (done s [] (.err (.ioError .closed)))) ∧
    (i = .enterProg ∨ i = .exitProg ∨ (i = .linkInit ∧ 0 < s.prm.linkInitAttempts) →
      exec i s = .next { done s [] (.err (.ioError .closed)) with progMode := false })

/-- R58, R59, R60: the twelve slots of a character, and the nine data and parity bits hold an even number of ones. -/
def Obligations.CharacterHasTwelveSlotsAndEvenParity : Prop :=
  ∀ b : Byte, ∃ par : Level,
    charLevels b = [false, b.getLsbD 0, b.getLsbD 1, b.getLsbD 2, b.getLsbD 3, b.getLsbD 4, b.getLsbD 5, b.getLsbD 6,
      b.getLsbD 7, par, true, true] ∧
    (((charLevels b).drop 1).take 9).count true % 2 = 0

/-- A send sleeps `10 T + 12 T * len(b)` and a double break 140 ms, with the default timing parameters: the table of
"Durations, counted as the sum of `Sleep` arguments", the spec's own inference. -/
def Obligations.SendAndBreakSleepTheirDurations : Prop :=
  (∀ (s : State) (bytes : List Byte), ready (.phySend bytes) s = true → s.prm = defaultParams →
    ∃ t, exec (.phySend bytes) s = .next t ∧
      sleepTotal t.obs = sleepTotal s.obs + (10 * bitPeriod s + 12 * bitPeriod s * bytes.length)) ∧
  (∀ s : State, ready .phyDoubleBreak s = true → s.prm = defaultParams →
    ∃ t, exec .phyDoubleBreak s = .next t ∧ sleepTotal t.obs = sleepTotal s.obs + 140000)

/-! ## Link -/

/-- R94, R92: LDCS, as host operation and as frame: the byte heard, or `Timeout` where none arrives. -/
def Obligations.LdcsReturnsTheByteHeard : Prop :=
  ∀ (s : State) (a : CsAddr) (i : Instr), i = .ldcs a ∨ i = .ldcsFrame a → accepts i s = true →
    (∀ h : Heard, s.phyOpen = true → answers s (ldcsBeats s a h) = true →
      exec i s = .next (done s (ldcsBeats s a h) (.ok (.byte h.byte)))) ∧
    (s.phyOpen = true → answers s [.tx [s.prm.sync, 0x80#8 ||| a.setWidth 8], .rx 1 []] = true →
      exec i s = .next (done s [.tx [s.prm.sync, 0x80#8 ||| a.setWidth 8], .rx 1 []]
        (.err (.timeout (.shortRead 0))))) ∧
    (s.phyOpen = false → exec i s = .next (done s [] (.err (.ioError .closed))))

/-- R95: STCS, as host operation and as frame: one send, no response. -/
def Obligations.StcsSendsItsThreeBytes : Prop :=
  ∀ (s : State) (a : CsAddr) (v : Byte) (i : Instr), i = .stcs a v ∨ i = .stcsFrame a v → accepts i s = true →
    (s.phyOpen = true → exec i s = .next (done s [.tx [s.prm.sync, 0xC0#8 ||| a.setWidth 8, v]] (.ok .none))) ∧
    (s.phyOpen = false → exec i s = .next (done s [] (.err (.ioError .closed))))

/-- R96, R92: LDS, as host operation and as frame: the byte heard, or `Timeout` where none arrives. -/
def Obligations.LdsReturnsTheByteHeard : Prop :=
  ∀ (s : State) (addr : Addr) (i : Instr), i = .lds addr ∨ i = .ldsFrame addr → accepts i s = true →
    (∀ h : Heard, s.phyOpen = true → answers s (ldsBeats s addr h) = true →
      exec i s = .next (done s (ldsBeats s addr h) (.ok (.byte h.byte)))) ∧
    (s.phyOpen = true → answers s (ldsSilent s addr) = true →
      exec i s = .next (done s (ldsSilent s addr) (.err (.timeout (.shortRead 0))))) ∧
    (s.phyOpen = false → exec i s = .next (done s [] (.err (.ioError .closed))))

/-- R97, R93: STS as host operation and as frame. Both acknowledges given, it sends address then value; where the first
acknowledge fails the value byte is not sent: `Nack` for a wrong byte, `Timeout` for none; likewise the second. -/
def Obligations.StsSendsAddressThenValue : Prop :=
  ∀ (s : State) (addr : Addr) (v : Byte) (i : Instr), i = .sts addr v ∨ i = .stsFrame addr v → accepts i s = true →
    (s.phyOpen = false → exec i s = .next (done s [] (.err (.ioError .closed)))) ∧
    (∀ k1 k2 : Nat, s.phyOpen = true → answers s (stsBeats s addr v k1 k2) = true →
      exec i s = .next (done s (stsBeats s addr v k1 k2) (.ok .none))) ∧
    (∀ h : Heard, s.phyOpen = true → h.byte ≠ s.prm.ack → answers s (stsAddrBeats s addr [h]) = true →
      exec i s = .next (done s (stsAddrBeats s addr [h]) (.err (.nack h.byte)))) ∧
    (s.phyOpen = true → answers s (stsAddrBeats s addr []) = true →
      exec i s = .next (done s (stsAddrBeats s addr []) (.err (.timeout .noAck)))) ∧
    (∀ (k : Nat) (h : Heard), s.phyOpen = true → h.byte ≠ s.prm.ack →
      answers s (stsAddrBeats s addr [ackAfter s k] ++ [.tx [v], .rx 1 [h]]) = true →
      exec i s = .next (done s (stsAddrBeats s addr [ackAfter s k] ++ [.tx [v], .rx 1 [h]]) (.err (.nack h.byte)))) ∧
    (∀ k : Nat, s.phyOpen = true →
      answers s (stsAddrBeats s addr [ackAfter s k] ++ [.tx [v], .rx 1 []]) = true →
      exec i s = .next (done s (stsAddrBeats s addr [ackAfter s k] ++ [.tx [v], .rx 1 []]) (.err (.timeout .noAck))))

/-- R98, R93: SET_PTR, as host operation and as frame: the address, low byte first, and one acknowledge; a wrong byte is
`Nack`, none is `Timeout`. -/
def Obligations.SetPtrSendsTheAddress : Prop :=
  ∀ (s : State) (addr : Addr) (i : Instr), i = .setPtr addr ∨ i = .stPtr addr → accepts i s = true →
    (∀ k : Nat, s.phyOpen = true → answers s (setPtrBeats s addr k) = true →
      exec i s = .next (done s (setPtrBeats s addr k) (.ok .none))) ∧
    (∀ h : Heard, s.phyOpen = true → h.byte ≠ s.prm.ack → answers s (setPtrHears s addr [h]) = true →
      exec i s = .next (done s (setPtrHears s addr [h]) (.err (.nack h.byte)))) ∧
    (s.phyOpen = true → answers s (setPtrHears s addr []) = true →
      exec i s = .next (done s (setPtrHears s addr []) (.err (.timeout .noAck)))) ∧
    (s.phyOpen = false → exec i s = .next (done s [] (.err (.ioError .closed))))

/-- R99, R70: REPEAT n sends `(n - 1) mod 256` and awaits nothing; a count out of bounds is `SizeError` before any PHY
call. The frame with operand byte `n - 1` is the same. -/
def Obligations.RepeatSendsOneLess : Prop :=
  ∀ (s : State) (n : Nat) (i : Instr), i = .repeatN n ∨ (∃ c : Byte, i = .repeatFrame c ∧ n = c.toNat + 1) →
    accepts i s = true →
    (n < 1 ∨ s.prm.maxBurst < n → exec i s = .next (done s [] (.err (.sizeError n)))) ∧
    (1 ≤ n → n ≤ s.prm.maxBurst →
      (s.phyOpen = true → exec i s = .next (done s [.tx [s.prm.sync, 0xA0#8, BitVec.ofNat 8 (n - 1)]] (.ok .none))) ∧
      (s.phyOpen = false → exec i s = .next (done s [] (.err (.ioError .closed)))))

/-- R100: BURST_WRITE, as host operation and as frame: the first byte with the opcode, each further byte alone, an
acknowledge after each. A wrong or missing acknowledge ends it with no further byte sent; a size out of bounds is
`SizeError` before any PHY call. -/
def Obligations.BurstWriteSendsEveryByte : Prop :=
  ∀ (s : State) (data : List Byte) (i : Instr), i = .burstWrite data ∨ i = .stPtrInc data → accepts i s = true →
    (data.length < 1 ∨ s.prm.maxBurst < data.length →
      exec i s = .next (done s [] (.err (.sizeError data.length)))) ∧
    (1 ≤ data.length → data.length ≤ s.prm.maxBurst →
      (∀ acks : List Nat, s.phyOpen = true → acks.length = data.length →
        answers s (burstWriteBeats s (data.zip acks)) = true →
        exec i s = .next (done s (burstWriteBeats s (data.zip acks)) (.ok .none))) ∧
      (∀ (acks : List Nat) (h : Heard), s.phyOpen = true → acks.length < data.length → h.byte ≠ s.prm.ack →
        answers s (burstStops s data acks [h]) = true →
        exec i s = .next (done s (burstStops s data acks [h]) (.err (.nack h.byte)))) ∧
      (∀ acks : List Nat, s.phyOpen = true → acks.length < data.length → answers s (burstStops s data acks []) = true →
        exec i s = .next (done s (burstStops s data acks []) (.err (.timeout .noAck)))) ∧
      (s.phyOpen = false → exec i s = .next (done s [] (.err (.ioError .closed)))))

/-- R101, R92: BURST_READ, as host operation and as frame: all `n` bytes, or `Timeout` with the bytes that did arrive
discarded; a size out of bounds is `SizeError` before any PHY call. -/
def Obligations.BurstReadReturnsEveryByte : Prop :=
  ∀ (s : State) (n : Nat) (i : Instr), i = .burstRead n ∨ i = .ldPtrInc n → accepts i s = true →
    (n < 1 ∨ s.prm.maxBurst < n → exec i s = .next (done s [] (.err (.sizeError n)))) ∧
    (1 ≤ n → n ≤ s.prm.maxBurst →
      (∀ heard : List Heard, s.phyOpen = true → heard.length = n → answers s (burstReadBeats s n heard) = true →
        exec i s = .next (done s (burstReadBeats s n heard) (.ok (.bytes (heard.map Heard.byte))))) ∧
      (∀ heard : List Heard, s.phyOpen = true → heard.length < n → answers s (burstReadBeats s n heard) = true →
        exec i s = .next (done s (burstReadBeats s n heard) (.err (.timeout (.shortRead heard.length))))) ∧
      (s.phyOpen = false → exec i s = .next (done s [] (.err (.ioError .closed)))))

/-- R102: KEY, as host operation and as frame: the opcode, then the key reversed, two sends and no response. -/
def Obligations.KeyIsSentReversed : Prop :=
  ∀ (s : State) (k : List Byte) (i : Instr), i = .key k ∨ i = .keyFrame k → accepts i s = true →
    (s.phyOpen = true → exec i s = .next (done s [.tx [s.prm.sync, 0xE0#8], .tx k.reverse] (.ok .none))) ∧
    (s.phyOpen = false → exec i s = .next (done s [] (.err (.ioError .closed))))

/-- R112, R121: a page operation of a size out of bounds ends before any capability call, on a closed PHY too; SET_IMAGE
with an operand of the wrong length writes nothing, and tests the image's length first. -/
def Obligations.SizeErrorsMakeNoCall : Prop :=
  (∀ (s : State) (addr : Addr) (data : List Byte), data.length < 1 ∨ s.prm.maxBurst < data.length →
    accepts (.pageWrite addr data) s = true →
    exec (.pageWrite addr data) s = .next (done s [] (.err (.sizeError data.length)))) ∧
  (∀ (s : State) (addr : Addr) (n : Nat), n < 2 ∨ s.prm.maxBurst < n → accepts (.pageRead addr n) s = true →
    exec (.pageRead addr n) s = .next (done s [] (.err (.sizeError n)))) ∧
  (∀ (s : State) (image : List Byte) (fuse : Option (List Byte)), accepts (.setImage image fuse) s = true →
    (flashBytes s < image.length →
      exec (.setImage image fuse) s = .next (done s [] (.err (.sizeError image.length)))) ∧
    (∀ l, image.length ≤ flashBytes s → fuse = some l → l.length ≠ s.cfg.fuseCount.toNat →
      exec (.setImage image fuse) s = .next (done s [] (.err (.sizeError l.length)))))

/-- R103, R106, R107: after as many failed attempts as are left over, each by silence, by a status of zero or by an
ENTER_PROG that fails, an attempt on a link that answers, with the target in programming mode or unlocked: no error,
`S.prog_mode` true, and the whole trace. -/
def Obligations.LinkInitBringsTheLinkUp : Prop :=
  ∀ (s : State) (r : LinkRun), ready .linkInit s = true → linkRunFits s r = true → answers s (linkRunBeats s r) = true →
    exec .linkInit s = .next { done s (linkRunBeats s r) (.ok .none) with progMode := true }

/-- R103: where every attempt fails, by silence, by a status of zero or by an ENTER_PROG that fails in any of its ways,
LINK_INIT ends after `LINK_INIT_ATTEMPTS` attempts with `LinkDown`, which carries the error of the last one, and
`S.prog_mode` is false. -/
def Obligations.LinkInitGivesUpAfterItsAttempts : Prop :=
  ∀ (s : State) (fs : List AttemptFail), ready .linkInit s = true → linkFailFits s fs = true →
    answers s (linkFailBeats s fs) = true →
    exec .linkInit s = .next { done s (linkFailBeats s fs) (.err (linkFailError fs)) with progMode := false }

/-! ## Device control -/

/-- R105: assert then release, two sends and no response. -/
def Obligations.ResetToggleAssertsThenReleases : Prop :=
  ∀ s : State, accepts .resetToggle s = true →
    (s.phyOpen = true → exec .resetToggle s = .next (done s
      (stcsBeats s s.prm.csAsiResetReq s.prm.resetReqValue ++ stcsBeats s s.prm.csAsiResetReq s.prm.resetReleaseValue)
      (.ok .none))) ∧
    (s.phyOpen = false → exec .resetToggle s = .next (done s [] (.err (.ioError .closed))))

/-- R106, R107: on a target already in programming mode one LDCS is sent and nothing else, whatever `S.prog_mode` said;
else the unlock sequence: key, key status, reset toggle, lock polls, final status. -/
def Obligations.EnterProgEntersProgrammingMode : Prop :=
  ∀ s : State, ready .enterProg s = true →
    (∀ h : Heard, inProgMode s.prm h.byte = true → answers s (enterBeats s h) = true →
      exec .enterProg s = .next { done s (enterBeats s h) (.ok .none) with progMode := true }) ∧
    (∀ r : UnlockRun, unlocks s r = true → answers s (unlockBeats s r) = true →
      exec .enterProg s = .next { done s (unlockBeats s r) (.ok .none) with progMode := true })

/-- R106: the flag after ENTER_PROG says whether it succeeded, whatever it was before; a failure is `IOError` or
`UnlockFailed`. -/
def Obligations.EnterProgSetsTheFlagToItsOutcome : Prop :=
  ∀ s : State, accepts .enterProg s = true → ∃ t, exec .enterProg s = .next t ∧
    ((t.progMode = true ∧ lastResult t.obs = some (.ok .none)) ∨
     (t.progMode = false ∧ ∃ e, lastResult t.obs = some (.err e) ∧
       (errClass e = .ioError ∨ errClass e = .unlockFailed)))

/-- R106, R107: the steps that do not confirm, each by its name: no initial status, key status, lock status or final
status byte; key rejected; still locked after every poll; not in programming mode at the end. The flag is false. -/
def Obligations.EnterProgFailsAtItsSteps : Prop :=
  ∀ s : State, ready .enterProg s = true →
    (answers s (ldcsSilent s s.prm.csAsiSysStatus) = true →
      exec .enterProg s = .next { done s (ldcsSilent s s.prm.csAsiSysStatus) (.err (.unlockFailed .initialStatus)) with
        progMode := false }) ∧
    (∀ h : Heard, inProgMode s.prm h.byte = false →
      (answers s (keyStepBeats s h ++ ldcsSilent s s.prm.csAsiKeyStatus) = true →
        exec .enterProg s = .next
          { done s (keyStepBeats s h ++ ldcsSilent s s.prm.csAsiKeyStatus) (.err (.unlockFailed .keyStatus)) with
            progMode := false }) ∧
      (∀ ks : Heard, keyAccepted s.prm ks.byte = false →
        answers s (keyStepBeats s h ++ ldcsBeats s s.prm.csAsiKeyStatus ks) = true →
        exec .enterProg s = .next
          { done s (keyStepBeats s h ++ ldcsBeats s s.prm.csAsiKeyStatus ks) (.err (.unlockFailed .keyRejected)) with
            progMode := false }) ∧
      (∀ ks : Heard, keyAccepted s.prm ks.byte = true → ∀ hs : List Heard, (∀ x ∈ hs, isLocked s.prm x.byte = true) →
        (hs.length = s.prm.unlockWaitMs / s.prm.unlockPollMs → answers s (lockStepBeats s h ks hs) = true →
          exec .enterProg s = .next { done s (lockStepBeats s h ks hs) (.err (.unlockFailed .stillLocked)) with
            progMode := false }) ∧
        (hs.length < s.prm.unlockWaitMs / s.prm.unlockPollMs →
          answers s (lockStepBeats s h ks hs ++ ldcsSilent s s.prm.csAsiSysStatus) = true →
          exec .enterProg s = .next
            { done s (lockStepBeats s h ks hs ++ ldcsSilent s s.prm.csAsiSysStatus)
                (.err (.unlockFailed .lockStatus)) with progMode := false }) ∧
        (hs.length < s.prm.unlockWaitMs / s.prm.unlockPollMs → ∀ last : Heard, isLocked s.prm last.byte = false →
          (answers s (lockStepBeats s h ks hs ++ ldcsBeats s s.prm.csAsiSysStatus last ++
            ldcsSilent s s.prm.csAsiSysStatus) = true →
            exec .enterProg s = .next
              { done s (lockStepBeats s h ks hs ++ ldcsBeats s s.prm.csAsiSysStatus last ++
                  ldcsSilent s s.prm.csAsiSysStatus) (.err (.unlockFailed .finalStatus)) with progMode := false }) ∧
          (∀ final : Heard, inProgMode s.prm final.byte = false →
            answers s (lockStepBeats s h ks hs ++ ldcsBeats s s.prm.csAsiSysStatus last ++
              ldcsBeats s s.prm.csAsiSysStatus final) = true →
            exec .enterProg s = .next
              { done s (lockStepBeats s h ks hs ++ ldcsBeats s s.prm.csAsiSysStatus last ++
                  ldcsBeats s s.prm.csAsiSysStatus final) (.err (.unlockFailed .notInProgrammingMode)) with
                progMode := false }))))

/-- R108: reset toggle, then CTRLB with UPDIDIS and CCDETDIS; the flag is false whatever the outcome. -/
def Obligations.ExitProgDisablesTheInterface : Prop :=
  ∀ s : State, accepts .exitProg s = true →
    (s.phyOpen = true → exec .exitProg s = .next
      { done s (resetBeats s ++ stcsBeats s s.prm.csCtrlb
          (BitVec.ofNat 8 (2 ^ s.prm.ctrlbUpdidis) ||| BitVec.ofNat 8 (2 ^ s.prm.ctrlbCcdetdis))) (.ok .none) with
        progMode := false }) ∧
    (s.phyOpen = false → exec .exitProg s = .next { done s [] (.err (.ioError .closed)) with progMode := false })

/-- R109: status reads with 1 ms between them. The first that shows neither busy flag ends the wait; the first that
shows WRERROR ends it with `WriteError`, even where a busy flag is also set; every poll busy ends it with
`Timeout`, as does a status read that is not answered; the status address is `NVM_BASE + NVM_STATUS_OFS`. -/
def Obligations.WaitReadyEndsByItsStatusReads : Prop :=
  ∀ s : State, ready .waitReady s = true → nvmStatusAddr s = s.cfg.nvmBase + BitVec.ofNat 16 s.prm.nvmStatusOfs ∧
    (∀ p : Polls, endsReady s p = true → answers s (readyBeats s p) = true →
      exec .waitReady s = .next (done s (readyBeats s p) (.ok .none))) ∧
    (∀ p : Polls, p.waiting.length < s.prm.readyTimeoutMs / s.prm.readyPollMs →
      (∀ h ∈ p.waiting, writeErrorFlag s.prm h.byte = false ∧ nvmBusy s.prm h.byte = true) →
      writeErrorFlag s.prm p.last.byte = true → answers s (readyBeats s p) = true →
      exec .waitReady s = .next (done s (readyBeats s p) (.err (.writeError p.last.byte)))) ∧
    (∀ hs : List Heard, hs.length = s.prm.readyTimeoutMs / s.prm.readyPollMs →
      (∀ h ∈ hs, writeErrorFlag s.prm h.byte = false ∧ nvmBusy s.prm h.byte = true) →
      answers s (busyBeats s hs) = true →
      exec .waitReady s = .next (done s (busyBeats s hs) (.err (.timeout .notReady)))) ∧
    (∀ hs : List Heard, hs.length < s.prm.readyTimeoutMs / s.prm.readyPollMs →
      (∀ h ∈ hs, writeErrorFlag s.prm h.byte = false ∧ nvmBusy s.prm h.byte = true) →
      answers s (busyBeats s hs ++ ldsSilent s (nvmStatusAddr s)) = true →
      exec .waitReady s = .next
        (done s (busyBeats s hs ++ ldsSilent s (nvmStatusAddr s)) (.err (.timeout (.shortRead 0)))))

/-- R110, R74: a command is one STS of its code to `NVM_BASE + NVM_CTRLA_OFS`, with no wait after it; its errors
are those of that STS. -/
def Obligations.NvmCommandsAreStoredToCtrla : Prop :=
  (∀ (s : State) (cmd : Byte),
    exec (.execNvmCmd cmd) s = exec (.sts (s.cfg.nvmBase + BitVec.ofNat 16 s.prm.nvmCtrlaOfs) cmd) s) ∧
  (∀ (s : State) (cmd : Byte) (k : Nat × Nat), ready (.execNvmCmd cmd) s = true → answers s (cmdBeats s cmd k) = true →
    exec (.execNvmCmd cmd) s = .next (done s (cmdBeats s cmd k) (.ok .none)) ∧
    (cmd = s.prm.cmdWp → exec .cmdWp s = .next (done s (cmdBeats s cmd k) (.ok .none))) ∧
    (cmd = s.prm.cmdEr → exec .cmdEr s = .next (done s (cmdBeats s cmd k) (.ok .none))) ∧
    (cmd = s.prm.cmdPbc → exec .cmdPbc s = .next (done s (cmdBeats s cmd k) (.ok .none))) ∧
    (cmd = s.prm.cmdCher → exec .cmdCher s = .next (done s (cmdBeats s cmd k) (.ok .none))))

/-- R111: ready wait, chip-erase command, ready wait. Either wait that times out, in its polls or in a status read, is
`NotReady`; in either a write error stays `WriteError`; a command not acknowledged is `Nack` or `Timeout`. -/
def Obligations.ChipEraseWaitsCommandsWaits : Prop :=
  ∀ s : State, ready .chipErase s = true →
    (∀ r : ChipRun, chipFits s r = true → answers s (chipBeats s r) = true →
      exec .chipErase s = .next (done s (chipBeats s r) (.ok .none))) ∧
    (∀ f : ChipFailRun, chipFailFits s f = true → answers s (chipFailBeats s f) = true →
      exec .chipErase s = .next (done s (chipFailBeats s f) (.err (chipFailError f))))

/-- R113: the whole sequence of a page write; and the error of each way it fails, at each of its three ready waits, at
either acknowledge of either command, at the pointer's acknowledge and at any data byte's, with what was sent by then. -/
def Obligations.PageWriteRunsItsSequence : Prop :=
  ∀ (s : State) (addr : Addr) (data : List Byte), ready (.pageWrite addr data) s = true → 1 ≤ data.length →
    data.length ≤ s.prm.maxBurst →
    (∀ r : PageWriteRun, pageWriteFits s data r = true → answers s (pageWriteBeats s addr data r) = true →
      exec (.pageWrite addr data) s = .next (done s (pageWriteBeats s addr data r) (.ok .none))) ∧
    (∀ f : WriteFailRun, writeFailFits s data f = true → answers s (writeFailBeats s addr data f) = true →
      exec (.pageWrite addr data) s = .next (done s (writeFailBeats s addr data f) (.err (writeFailError f))))

/-- R114: pointer, repeat, burst read, no ready wait; the result is the bytes read. A pointer that is not acknowledged is
`Nack` or `Timeout`, fewer than `n` bytes `Timeout`. -/
def Obligations.PageReadReturnsThePage : Prop :=
  ∀ (s : State) (addr : Addr) (n : Nat), ready (.pageRead addr n) s = true → 2 ≤ n → n ≤ s.prm.maxBurst →
    (∀ (k : Nat) (heard : List Heard), heard.length = n → answers s (pageReadBeats s addr n k heard) = true →
      exec (.pageRead addr n) s = .next
        (done s (pageReadBeats s addr n k heard) (.ok (.bytes (heard.map Heard.byte))))) ∧
    (∀ f : ReadFail, readFailFits s n f = true → answers s (readFailBeats s addr n f) = true →
      exec (.pageRead addr n) s = .next (done s (readFailBeats s addr n f) (.err (readFailError f))))

/-- R115: ready wait, a page of ERASE_VALUE at the address, erase command, ready wait; and the error of each way it fails,
at either wait, at the pointer's, a data byte's or the command's acknowledge. -/
def Obligations.PageEraseOverwritesAndErases : Prop :=
  ∀ (s : State) (addr : Addr), ready (.pageErase addr) s = true →
    (∀ r : EraseRun, eraseFits s r = true → answers s (eraseBeats s addr r) = true →
      exec (.pageErase addr) s = .next (done s (eraseBeats s addr r) (.ok .none))) ∧
    (∀ f : EraseFailRun, eraseFailFits s f = true → answers s (eraseFailBeats s addr f) = true →
      exec (.pageErase addr) s = .next (done s (eraseFailBeats s addr f) (.err (eraseFailError f))))

/-- Each rule's exceptions: the classes an operation's result can have; no other class ever. For device control this is
the spec's own inference, "Errors each APP operation can end with". -/
def Obligations.ErrorClassesAreTheOperationsOwn : Prop :=
  ∀ (i : Instr) (s t : State), accepts i s = true → exec i s = .next t →
    ∃ r, lastResult t.obs = some r ∧ (resultClass r = .ok ∨ resultClass r ∈ errorClasses i)

/-! ## Sequencer -/

/-- R121: the image memory after SET_IMAGE, byte for byte, its watermark, the fuse image; no capability call. -/
def Obligations.SetImageStoresTheWholeImage : Prop :=
  ∀ (s : State) (image : List Byte) (fuse : Option (List Byte)), accepts (.setImage image fuse) s = true →
    image.length ≤ flashBytes s → (∀ l, fuse = some l → l.length = s.cfg.fuseCount.toNat) →
    ∃ t, exec (.setImage image fuse) s = .next t ∧
      t = { s with
        rx := Rx.idle, tx := Tx.idle, flashImage := t.flashImage, bytesUsed := t.bytesUsed, fuseImage := fuse
        obs := s.obs ++ [.result (.ok .none)] } ∧
      (∀ o, imageByte t o = (image[o]?).getD s.prm.eraseValue) ∧
      (∀ o, t.bytesUsed ≤ o → imageByte t o = s.prm.eraseValue) ∧
      (t.bytesUsed ≠ 0 → imageByte t (t.bytesUsed - 1) ≠ s.prm.eraseValue)

/-- R124, R123: the chip-erase pass, with the link up or brought up first: code 0, or its erase code where the erase fails
in any of its ways. R145: with the flag true and the PHY closed, the erase fails and the pass returns its erase code. That
`S.seq` then holds page 0, its address and else what it held before is the model's reading of R24 and R124 (log 13). -/
def Obligations.PassChipEraseErasesTheChip : Prop :=
  ∀ s : State,
    (∀ lazy : Option LinkRun, ready .passChipErase s = true → lazyFits s lazy = true →
      (∀ r : ChipRun, chipFits s r = true →
        answers s ([.event .chipErase 0 1] ++ lazyBeats s lazy ++ chipBeats s r) = true →
        exec .passChipErase s = .next
          { done s ([.event .chipErase 0 1] ++ lazyBeats s lazy ++ chipBeats s r) (.ok (.code 0)) with
            progMode := true, seq := seqStarted s }) ∧
      (∀ f : ChipFailRun, chipFailFits s f = true →
        answers s ([.event .chipErase 0 1] ++ lazyBeats s lazy ++ chipFailBeats s f) = true →
        exec .passChipErase s = .next
          { done s ([.event .chipErase 0 1] ++ lazyBeats s lazy ++ chipFailBeats s f) (.ok (.code s.prm.ceEraseCode)) with
            progMode := true, seq := seqStarted s })) ∧
    (accepts .passChipErase s = true → s.phyOpen = false → s.progMode = true →
      exec .passChipErase s = .next
        { done s [.event .chipErase 0 1] (.ok (.code s.prm.ceEraseCode)) with seq := seqStarted s })

/-- R126, R122, R125: every page read until its read-back is blank, within the caps: after a failed read LINK_INIT and
settle, after a read-back that is not blank settle alone; code 0. -/
def Obligations.PassBlankCheckAcceptsAnErasedFlash : Prop :=
  ∀ (s : State) (lazy : Option LinkRun) (runs : Nat → ReadPageRun), ready .passBlankCheck s = true →
    lazyFits s lazy = true →
    (∀ p < pagesOf s .blankCheck, readPageFits s (blankRules s) p (runs p) = true) →
    answers s (readPassBeats s (blankRules s) (pagesOf s .blankCheck) lazy runs) = true →
    exec .passBlankCheck s = .next
      { done s (readPassBeats s (blankRules s) (pagesOf s .blankCheck) lazy runs) (.ok (.code 0)) with
        progMode := true
        seq := seqDone s (pagesOf s .blankCheck) fun p => readTally (runs p).tries
        rbuf := rbufAfter s (pagesOf s .blankCheck) fun p => (runs p).last.bytes }

/-- R130 to R135: every page of the populated portion attempted until its read-back equals the image, within the caps. A
failed write or read is followed by LINK_INIT and settle, a failed read also by an attempt that does not write; a blank
read-back by the same, and where it is one above PG_BLANK_CAP by a page erase first; a mismatch by LINK_INIT and settle.
Code 0. With no page to write and the flag true the pass makes no call, so a closed PHY does not matter; what `S.seq`
holds after a pass over no page is the model's reading of R24 (log 13). -/
def Obligations.PassProgramWritesEveryUsedPage : Prop :=
  ∀ s : State,
    (∀ (lazy : Option LinkRun) (runs : Nat → ProgPageRun), ready .passProgram s = true → s.bytesUsed ≤ flashBytes s →
      lazyFits s lazy = true → (∀ p < pagesOf s .program, progPageFits s p (runs p) = true) →
      answers s (progPassBeats s (pagesOf s .program) lazy runs) = true →
      exec .passProgram s = .next
        { done s (progPassBeats s (pagesOf s .program) lazy runs) (.ok (.code 0)) with
          progMode := true
          seq := seqDone s (pagesOf s .program) fun p => { progTriesTally s (runs p).tries with skip := false }
          rbuf := rbufAfter s (pagesOf s .program) fun p => (runs p).last.bytes }) ∧
    (accepts .passProgram s = true → s.bytesUsed = 0 → s.progMode = true → exec .passProgram s = .next
      { done s [.event .program 0 0] (.ok (.code 0)) with seq := seqStarted s })

/-- R136, R122, R125: every page of the flash read until it equals the image, within the caps; code 0; nothing written or
erased. -/
def Obligations.PassVerifyAcceptsAnEqualFlash : Prop :=
  ∀ (s : State) (lazy : Option LinkRun) (runs : Nat → ReadPageRun), ready .passVerify s = true →
    lazyFits s lazy = true →
    (∀ p < pagesOf s .verify, readPageFits s (verifyRules s) p (runs p) = true) →
    answers s (readPassBeats s (verifyRules s) (pagesOf s .verify) lazy runs) = true →
    exec .passVerify s = .next
      { done s (readPassBeats s (verifyRules s) (pagesOf s .verify) lazy runs) (.ok (.code 0)) with
        progMode := true
        seq := seqDone s (pagesOf s .verify) fun p => readTally (runs p).tries
        rbuf := rbufAfter s (pagesOf s .verify) fun p => (runs p).last.bytes }

/-- R20, R130 (the fault is log 11): a watermark past the flash, which R20 excludes, stops the Program pass. -/
def Obligations.PassProgramFaultsOnAWatermarkPastTheFlash : Prop :=
  ∀ s : State, accepts .passProgram s = true → flashBytes s < s.bytesUsed →
    exec .passProgram s = .fault .imageRange

/-- R144, R122: a pass never ends with an error class; its code is one of its own, and no pass is running after it. -/
def Obligations.PassesReturnTheirOwnCodes : Prop :=
  ∀ (i : Instr) (s t : State), passOf i ≠ .none → accepts i s = true → exec i s = .next t →
    t.seq.pass = .none ∧ ∃ c, lastResult t.obs = some (.ok (.code c)) ∧ (c = 0 ∨ c ∈ abortCodes s.prm (passOf i))

/-- R123, R144, R90: with the flag false every pass reports its start and sets the link up; where every attempt fails, or
the PHY is closed, it returns its link code, -1 unless the parameters say otherwise, and touches no page. What `S.seq`
holds then is the model's reading of R24 (log 13). -/
def Obligations.LazyLinkFailureEndsThePassWithItsLinkCode : Prop :=
  ∀ s : State, s.progMode = false → 0 < s.prm.linkInitAttempts →
    (accepts .passChipErase s = true →
      (s.phyOpen = false → exec .passChipErase s = .next
        { done s [.event .chipErase 0 1] (.ok (.code s.prm.ceLinkCode)) with seq := seqStarted s }) ∧
      (∀ fs : List AttemptFail, s.phyOpen = true → linkFailFits s fs = true →
        answers s ([.event .chipErase 0 1] ++ linkFailBeats s fs) = true → exec .passChipErase s = .next
          { done s ([.event .chipErase 0 1] ++ linkFailBeats s fs) (.ok (.code s.prm.ceLinkCode)) with
            seq := seqStarted s })) ∧
    (∀ i : Instr, i = .passBlankCheck ∨ i = .passVerify ∨ (i = .passProgram ∧ s.bytesUsed ≤ flashBytes s) →
      accepts i s = true →
      (s.phyOpen = false → exec i s = .next
        { done s [.event (passOf i) 0 (pagesOf s (passOf i))] (.ok (.code (lazyCode s.prm (passOf i)))) with
          seq := seqStarted s }) ∧
      (∀ fs : List AttemptFail, s.phyOpen = true → linkFailFits s fs = true →
        answers s ([.event (passOf i) 0 (pagesOf s (passOf i))] ++ linkFailBeats s fs) = true → exec i s = .next
          { done s ([.event (passOf i) 0 (pagesOf s (passOf i))] ++ linkFailBeats s fs)
              (.ok (.code (lazyCode s.prm (passOf i)))) with
            seq := seqStarted s }))

/-- R125, R126, R133 to R136: a page is retried within its caps, as far as they allow, and the failure after that ends the
pass with its code: the pages before accepted, the tries within the caps, then a read, a write, a read-back or a blank
read-back one above its cap, a page erase that fails, or a LINK_INIT that fails. In the Program pass the failure above a
cap makes no capability call of its own. R145: on a closed PHY with the flag true the first page's read or write counts
one link failure, and where the cap allows it its LINK_INIT fails too; the pass ends with its link code and no call.
R130 aborts where the recovery's code is not 0: that a Program pass ends so with a code whose parameter is 0 is the model's
choice (log 25). -/
def Obligations.RecoveryEndsThePageAboveItsCaps : Prop :=
  ∀ s : State,
    (∀ (i : Instr) (rules : ReadRules), (i = .passBlankCheck ∧ rules = blankRules s) ∨
        (i = .passVerify ∧ rules = verifyRules s) →
      ∀ (lazy : Option LinkRun) (runs : Nat → ReadPageRun) (m : Nat) (tries : List ReadTry) (stop : ReadStop),
        ready i s = true → lazyFits s lazy = true → m < pagesOf s rules.pass →
        (∀ p < m, readPageFits s rules p (runs p) = true) → readTriesFit s rules m tries = true →
        readStopFits s rules m (readTally tries) stop = true →
        answers s (readPassBeats s rules m lazy runs ++ tries.flatMap (readTryBeats s m) ++ readStopBeats s m stop) =
          true →
        exec i s = .next
          { done s (readPassBeats s rules m lazy runs ++ tries.flatMap (readTryBeats s m) ++ readStopBeats s m stop)
              (.ok (.code (readStopCode rules stop))) with
            progMode := readStopMode stop
            seq := seqOver s m (readStopTally (readTally tries) stop) .abort
            rbuf := readStopRbuf (readTriesRbuf (rbufAfter s m fun p => (runs p).last.bytes) tries) stop }) ∧
    (∀ (lazy : Option LinkRun) (runs : Nat → ProgPageRun) (m : Nat) (tries : List ProgTry) (stop : ProgStop),
      ready .passProgram s = true → s.bytesUsed ≤ flashBytes s → lazyFits s lazy = true → m < pagesOf s .program →
      (∀ p < m, progPageFits s p (runs p) = true) → progTriesFit s m Tally.zero tries = true →
      progStopFits s m (progTriesTally s tries) stop = true →
      answers s (progPassBeats s m lazy runs ++ progTriesBeats s m Tally.zero tries ++
        progStopBeats s m (progTriesTally s tries) stop) = true →
      exec .passProgram s = .next
        { done s (progPassBeats s m lazy runs ++ progTriesBeats s m Tally.zero tries ++
              progStopBeats s m (progTriesTally s tries) stop) (.ok (.code (progStopCode s.prm stop))) with
          progMode := progStopMode stop
          seq := seqOver s m (progStopTally s (progTriesTally s tries) stop) .abort
          rbuf := progStopRbuf (progTriesRbuf (rbufAfter s m fun p => (runs p).last.bytes) tries) stop }) ∧
    (∀ skip, s.prm.pgLinkCap ≤ s.seq.linkErr → ∃ q, linkRecover skip s = .ok (some s.prm.pgLinkCode) { s with seq := q } ∧
      q.linkErr = s.seq.linkErr + 1 ∧ q.step = .linkRetry ∧ q.skipWrite = s.seq.skipWrite) ∧
    (s.prm.pgDataCap ≤ s.seq.dataErr → ∃ q, dataRecover s = .ok (some s.prm.pgDataCode) { s with seq := q } ∧
      q.dataErr = s.seq.dataErr + 1 ∧ q.step = .dataRetry) ∧
    (s.prm.pgBlankCap ≤ s.seq.blankCnt → s.prm.pgEscCap ≤ s.seq.escCnt → ∃ q,
      blankRecover s = .ok (some s.prm.pgEscCode) { s with seq := q } ∧ q.blankCnt = s.seq.blankCnt + 1 ∧
      q.escCnt = s.seq.escCnt + 1 ∧ q.step = .eraseEscalate) ∧
    (∀ (i : Instr) (rules : ReadRules), (i = .passBlankCheck ∧ rules = blankRules s) ∨
        (i = .passVerify ∧ rules = verifyRules s) →
      accepts i s = true → s.phyOpen = false → s.progMode = true → 0 < s.prm.linkInitAttempts →
      0 < pagesOf s rules.pass → exec i s = .next
        { done s [.event rules.pass 0 (pagesOf s rules.pass)] (.ok (.code rules.linkCode)) with
          progMode := rules.linkCap == 0
          seq := seqOver s 0 { Tally.zero with link := 1 } .abort }) ∧
    (accepts .passProgram s = true → s.phyOpen = false → s.progMode = true → 0 < s.prm.linkInitAttempts →
      s.bytesUsed ≤ flashBytes s → 0 < pagesOf s .program → exec .passProgram s = .next
        { done s [.event .program 0 (pagesOf s .program)]
            (.ok (.code (if s.prm.pgLinkCap = 0 then s.prm.pgLinkCode else s.prm.pgRelinkCode))) with
          progMode := s.prm.pgLinkCap == 0
          seq := seqOver s 0 { Tally.zero with link := 1 } .abort })

/-- R138: with abort codes that are not 0, as R144's are, a page-walking pass that returned 0 has reported every page,
in order, and nothing else. The last page it read back is blank, or is the image's: the spec's own inference, "A pass
returning 0 has thus read every page it covers and found it right at the time of reading". -/
def Obligations.PassReturningZeroReportedEveryPage : Prop :=
  ∀ (i : Instr) (s t : State), i = .passBlankCheck ∨ i = .passProgram ∨ i = .passVerify → accepts i s = true →
    (∀ c ∈ abortCodes s.prm (passOf i), c ≠ 0) → exec i s = .next t → lastResult t.obs = some (.ok (.code 0)) →
    eventsOf t.obs = eventsOf s.obs ++
      (List.range (pagesOf s (passOf i) + 1)).map (fun k => .progress (passOf i) k (pagesOf s (passOf i))) ∧
    (0 < pagesOf s (passOf i) →
      (i = .passBlankCheck → isBlank s.prm t.rbuf = true ∧ t.rbuf.length = pageBytes s) ∧
      (i ≠ .passBlankCheck → t.rbuf = imagePage s (pagesOf s (passOf i) - 1)))

/-- The bounds on reads and attempts per page, the spec's own inference ("Every wait the source bounds by time is bounded
by a count"), are met: more fuel changes nothing. That the loops run on fuel is the model's choice (log 12). -/
def Obligations.PageLoopsEndWithinTheirBounds : Prop :=
  (∀ (accept : State → Bool) (linkCap dataCap fuel : Nat) (linkCode dataCode : Int) (s : State), s.seq.linkErr = 0 →
    s.seq.dataErr = 0 → readBound linkCap dataCap ≤ fuel →
    readPage accept linkCap dataCap linkCode dataCode fuel s =
      readPage accept linkCap dataCap linkCode dataCode (readBound linkCap dataCap) s) ∧
  (∀ (p fuel : Nat) (s : State), s.seq.linkErr = 0 → s.seq.dataErr = 0 → s.seq.blankCnt = 0 → s.seq.escCnt = 0 →
    programBound s.prm ≤ fuel → programPage p fuel s = programPage p (programBound s.prm) s)

/-! ## The whole machine -/

/-- R14, R20, R21, R22, R24: what a state between operations is, kept by every step from every such state. -/
def Obligations.EveryStepKeepsTheStateSound : Prop :=
  ∀ s t : State, sound s = true → step s = .next t → sound t = true

/-- The state after reset, whose configuration is the model's choice (log 3), is sound. -/
def Obligations.ResetStateIsSound : Prop := sound State.reset = true

/-- R159: the values the spec gives reset; no capability call. The configuration and the fields with no value at reset are
the model's choice (log 3, log 4) and stand in no clause. -/
def Obligations.ResetGivesTheStatedValues : Prop :=
  State.reset.phyOpen = false ∧ State.reset.pin = none ∧ State.reset.pinDir = .unknown ∧
  State.reset.pinOut = .unknown ∧ State.reset.progMode = false ∧
  (∀ o, imageByte State.reset o = State.reset.prm.eraseValue) ∧ State.reset.bytesUsed = 0 ∧
  State.reset.fuseImage = none ∧ State.reset.rbuf = [] ∧ State.reset.busy = false ∧ State.reset.refused = false ∧
  State.reset.seq.pass = .none ∧ State.reset.obs = []

/-- R91, R13, R26, 42_device_control.md: what the PHY, Link, frame, command and device-control operations leave
unchanged, whatever their outcome. -/
def Obligations.WireOperationsChangeNoSessionState : Prop :=
  ∀ (i : Instr) (s t : State), wireOnly i = true → accepts i s = true → exec i s = .next t →
    t.cfg = s.cfg ∧ t.prm = s.prm ∧ t.phyOpen = s.phyOpen ∧ t.pin = s.pin ∧ t.progMode = s.progMode ∧
    t.bytesUsed = s.bytesUsed ∧ t.fuseImage = s.fuseImage ∧ t.rbuf = s.rbuf ∧ t.busy = s.busy ∧
    t.refused = s.refused ∧ t.seq = s.seq ∧ t.capInits = s.capInits ∧ t.hostOps = s.hostOps ∧
    (∀ o, imageByte t o = imageByte s o)

/-- R19, R103, R106, R108, R122, R124: LINK_INIT, ENTER_PROG and EXIT_PROG also write `S.prog_mode`, a pass also
`S.prog_mode`, `S.seq` and `S.rbuf`, and nothing more. The last clause, that the chip-erase pass leaves in `S.seq` page 0 and
its address, where R124 names only `S.seq.pass` and R24 gives both at pass start, and every other field as it was, is the
model's reading (log 13). -/
def Obligations.SessionOperationsChangeTheirOwnFieldsAlone : Prop :=
  ∀ (i : Instr) (s t : State), writesProgMode i = true ∨ passOf i ≠ .none → accepts i s = true → exec i s = .next t →
    t.cfg = s.cfg ∧ t.prm = s.prm ∧ t.phyOpen = s.phyOpen ∧ t.pin = s.pin ∧ t.bytesUsed = s.bytesUsed ∧
    t.fuseImage = s.fuseImage ∧ t.busy = s.busy ∧ t.refused = s.refused ∧ t.capInits = s.capInits ∧
    t.hostOps = s.hostOps ∧ (∀ o, imageByte t o = imageByte s o) ∧
    (writesProgMode i = true → t.seq = s.seq ∧ t.rbuf = s.rbuf) ∧
    (passOf i = .chipErase → t.seq = seqStarted s ∧ t.rbuf = s.rbuf)

/-- R17, R22, R34, R166: no step writes the configuration or a parameter, clears `S.refused`, or takes back an
observation. -/
def Obligations.NoStepRewritesConfigurationOrHistory : Prop :=
  ∀ s t : State, step s = .next t →
    t.cfg = s.cfg ∧ t.prm = s.prm ∧ (s.refused = true → t.refused = true) ∧ s.obs <+: t.obs

/-- Every operation makes a bounded number of capability calls, whatever the environment answers: the bound depends on the
operation, the parameters, the configuration and the watermark alone. The spec's own inference, "Every host operation
ends after a bounded number of capability calls, whatever the environment answers". -/
def Obligations.EveryOperationMakesBoundedlyManyCalls : Prop :=
  ∀ (i : Instr) (p : Params) (c : Cfg) (used : Nat), ∃ bound : Nat, ∀ s t : State, s.prm = p → s.cfg = c →
    s.bytesUsed = used → exec i s = .next t → (callsOf t.obs).length ≤ (callsOf s.obs).length + bound
end

