-- ==== Sys2Proof/Laws/State.lean ====
section
/-! SUPPORT. One lemma per field per named update of the state, each true by rfl, so that no later proof unfolds a
record update. -/

namespace Sys2Proof.Machine

/-! ## refuse -/

@[simp] theorem refuse_cfg (s : State) :
    (refuse s).cfg = s.cfg := rfl

@[simp] theorem refuse_prm (s : State) :
    (refuse s).prm = s.prm := rfl

@[simp] theorem refuse_phyOpen (s : State) :
    (refuse s).phyOpen = s.phyOpen := rfl

@[simp] theorem refuse_pin (s : State) :
    (refuse s).pin = s.pin := rfl

@[simp] theorem refuse_pinDir (s : State) :
    (refuse s).pinDir = s.pinDir := rfl

@[simp] theorem refuse_pinOut (s : State) :
    (refuse s).pinOut = s.pinOut := rfl

@[simp] theorem refuse_rx (s : State) :
    (refuse s).rx = s.rx := rfl

@[simp] theorem refuse_tx (s : State) :
    (refuse s).tx = s.tx := rfl

@[simp] theorem refuse_progMode (s : State) :
    (refuse s).progMode = s.progMode := rfl

@[simp] theorem refuse_flashImage (s : State) :
    (refuse s).flashImage = s.flashImage := rfl

@[simp] theorem refuse_bytesUsed (s : State) :
    (refuse s).bytesUsed = s.bytesUsed := rfl

@[simp] theorem refuse_fuseImage (s : State) :
    (refuse s).fuseImage = s.fuseImage := rfl

@[simp] theorem refuse_rbuf (s : State) :
    (refuse s).rbuf = s.rbuf := rfl

@[simp] theorem refuse_busy (s : State) :
    (refuse s).busy = s.busy := rfl

@[simp] theorem refuse_refused (s : State) :
    (refuse s).refused = true := rfl

@[simp] theorem refuse_seq (s : State) :
    (refuse s).seq = s.seq := rfl

@[simp] theorem refuse_levels (s : State) :
    (refuse s).levels = s.levels := rfl

@[simp] theorem refuse_capInits (s : State) :
    (refuse s).capInits = s.capInits := rfl

@[simp] theorem refuse_draws (s : State) :
    (refuse s).draws = s.draws := rfl

@[simp] theorem refuse_obs (s : State) :
    (refuse s).obs = s.obs := rfl

@[simp] theorem refuse_hostOps (s : State) :
    (refuse s).hostOps = s.hostOps := rfl

/-! ## beginOp -/

@[simp] theorem beginOp_cfg (s : State) :
    (beginOp s).cfg = s.cfg := rfl

@[simp] theorem beginOp_prm (s : State) :
    (beginOp s).prm = s.prm := rfl

@[simp] theorem beginOp_phyOpen (s : State) :
    (beginOp s).phyOpen = s.phyOpen := rfl

@[simp] theorem beginOp_pin (s : State) :
    (beginOp s).pin = s.pin := rfl

@[simp] theorem beginOp_pinDir (s : State) :
    (beginOp s).pinDir = s.pinDir := rfl

@[simp] theorem beginOp_pinOut (s : State) :
    (beginOp s).pinOut = s.pinOut := rfl

@[simp] theorem beginOp_rx (s : State) :
    (beginOp s).rx = Rx.idle := rfl

@[simp] theorem beginOp_tx (s : State) :
    (beginOp s).tx = Tx.idle := rfl

@[simp] theorem beginOp_progMode (s : State) :
    (beginOp s).progMode = s.progMode := rfl

@[simp] theorem beginOp_flashImage (s : State) :
    (beginOp s).flashImage = s.flashImage := rfl

@[simp] theorem beginOp_bytesUsed (s : State) :
    (beginOp s).bytesUsed = s.bytesUsed := rfl

@[simp] theorem beginOp_fuseImage (s : State) :
    (beginOp s).fuseImage = s.fuseImage := rfl

@[simp] theorem beginOp_rbuf (s : State) :
    (beginOp s).rbuf = s.rbuf := rfl

@[simp] theorem beginOp_busy (s : State) :
    (beginOp s).busy = true := rfl

@[simp] theorem beginOp_refused (s : State) :
    (beginOp s).refused = s.refused := rfl

@[simp] theorem beginOp_seq (s : State) :
    (beginOp s).seq = s.seq := rfl

@[simp] theorem beginOp_levels (s : State) :
    (beginOp s).levels = s.levels := rfl

@[simp] theorem beginOp_capInits (s : State) :
    (beginOp s).capInits = s.capInits := rfl

@[simp] theorem beginOp_draws (s : State) :
    (beginOp s).draws = s.draws := rfl

@[simp] theorem beginOp_obs (s : State) :
    (beginOp s).obs = s.obs := rfl

@[simp] theorem beginOp_hostOps (s : State) :
    (beginOp s).hostOps = s.hostOps := rfl

/-! ## deliver -/

@[simp] theorem deliver_cfg (r : Result) (s : State) :
    (deliver r s).cfg = s.cfg := rfl

@[simp] theorem deliver_prm (r : Result) (s : State) :
    (deliver r s).prm = s.prm := rfl

@[simp] theorem deliver_phyOpen (r : Result) (s : State) :
    (deliver r s).phyOpen = s.phyOpen := rfl

@[simp] theorem deliver_pin (r : Result) (s : State) :
    (deliver r s).pin = s.pin := rfl

@[simp] theorem deliver_pinDir (r : Result) (s : State) :
    (deliver r s).pinDir = s.pinDir := rfl

@[simp] theorem deliver_pinOut (r : Result) (s : State) :
    (deliver r s).pinOut = s.pinOut := rfl

@[simp] theorem deliver_rx (r : Result) (s : State) :
    (deliver r s).rx = s.rx := rfl

@[simp] theorem deliver_tx (r : Result) (s : State) :
    (deliver r s).tx = s.tx := rfl

@[simp] theorem deliver_progMode (r : Result) (s : State) :
    (deliver r s).progMode = s.progMode := rfl

@[simp] theorem deliver_flashImage (r : Result) (s : State) :
    (deliver r s).flashImage = s.flashImage := rfl

@[simp] theorem deliver_bytesUsed (r : Result) (s : State) :
    (deliver r s).bytesUsed = s.bytesUsed := rfl

@[simp] theorem deliver_fuseImage (r : Result) (s : State) :
    (deliver r s).fuseImage = s.fuseImage := rfl

@[simp] theorem deliver_rbuf (r : Result) (s : State) :
    (deliver r s).rbuf = s.rbuf := rfl

@[simp] theorem deliver_busy (r : Result) (s : State) :
    (deliver r s).busy = false := rfl

@[simp] theorem deliver_refused (r : Result) (s : State) :
    (deliver r s).refused = s.refused := rfl

@[simp] theorem deliver_seq (r : Result) (s : State) :
    (deliver r s).seq = s.seq := rfl

@[simp] theorem deliver_levels (r : Result) (s : State) :
    (deliver r s).levels = s.levels := rfl

@[simp] theorem deliver_capInits (r : Result) (s : State) :
    (deliver r s).capInits = s.capInits := rfl

@[simp] theorem deliver_draws (r : Result) (s : State) :
    (deliver r s).draws = s.draws := rfl

@[simp] theorem deliver_obs (r : Result) (s : State) :
    (deliver r s).obs = s.obs ++ [.result r] := rfl

@[simp] theorem deliver_hostOps (r : Result) (s : State) :
    (deliver r s).hostOps = s.hostOps := rfl

/-! ## setProgMode -/

@[simp] theorem setProgMode_cfg (v : Bool) (s : State) :
    (setProgMode v s).cfg = s.cfg := rfl

@[simp] theorem setProgMode_prm (v : Bool) (s : State) :
    (setProgMode v s).prm = s.prm := rfl

@[simp] theorem setProgMode_phyOpen (v : Bool) (s : State) :
    (setProgMode v s).phyOpen = s.phyOpen := rfl

@[simp] theorem setProgMode_pin (v : Bool) (s : State) :
    (setProgMode v s).pin = s.pin := rfl

@[simp] theorem setProgMode_pinDir (v : Bool) (s : State) :
    (setProgMode v s).pinDir = s.pinDir := rfl

@[simp] theorem setProgMode_pinOut (v : Bool) (s : State) :
    (setProgMode v s).pinOut = s.pinOut := rfl

@[simp] theorem setProgMode_rx (v : Bool) (s : State) :
    (setProgMode v s).rx = s.rx := rfl

@[simp] theorem setProgMode_tx (v : Bool) (s : State) :
    (setProgMode v s).tx = s.tx := rfl

@[simp] theorem setProgMode_progMode (v : Bool) (s : State) :
    (setProgMode v s).progMode = v := rfl

@[simp] theorem setProgMode_flashImage (v : Bool) (s : State) :
    (setProgMode v s).flashImage = s.flashImage := rfl

@[simp] theorem setProgMode_bytesUsed (v : Bool) (s : State) :
    (setProgMode v s).bytesUsed = s.bytesUsed := rfl

@[simp] theorem setProgMode_fuseImage (v : Bool) (s : State) :
    (setProgMode v s).fuseImage = s.fuseImage := rfl

@[simp] theorem setProgMode_rbuf (v : Bool) (s : State) :
    (setProgMode v s).rbuf = s.rbuf := rfl

@[simp] theorem setProgMode_busy (v : Bool) (s : State) :
    (setProgMode v s).busy = s.busy := rfl

@[simp] theorem setProgMode_refused (v : Bool) (s : State) :
    (setProgMode v s).refused = s.refused := rfl

@[simp] theorem setProgMode_seq (v : Bool) (s : State) :
    (setProgMode v s).seq = s.seq := rfl

@[simp] theorem setProgMode_levels (v : Bool) (s : State) :
    (setProgMode v s).levels = s.levels := rfl

@[simp] theorem setProgMode_capInits (v : Bool) (s : State) :
    (setProgMode v s).capInits = s.capInits := rfl

@[simp] theorem setProgMode_draws (v : Bool) (s : State) :
    (setProgMode v s).draws = s.draws := rfl

@[simp] theorem setProgMode_obs (v : Bool) (s : State) :
    (setProgMode v s).obs = s.obs := rfl

@[simp] theorem setProgMode_hostOps (v : Bool) (s : State) :
    (setProgMode v s).hostOps = s.hostOps := rfl

/-! ## storeImage -/

@[simp] theorem storeImage_cfg (image : List Byte) (fuse : Option (List Byte)) (s : State) :
    (storeImage image fuse s).cfg = s.cfg := rfl

@[simp] theorem storeImage_prm (image : List Byte) (fuse : Option (List Byte)) (s : State) :
    (storeImage image fuse s).prm = s.prm := rfl

@[simp] theorem storeImage_phyOpen (image : List Byte) (fuse : Option (List Byte)) (s : State) :
    (storeImage image fuse s).phyOpen = s.phyOpen := rfl

@[simp] theorem storeImage_pin (image : List Byte) (fuse : Option (List Byte)) (s : State) :
    (storeImage image fuse s).pin = s.pin := rfl

@[simp] theorem storeImage_pinDir (image : List Byte) (fuse : Option (List Byte)) (s : State) :
    (storeImage image fuse s).pinDir = s.pinDir := rfl

@[simp] theorem storeImage_pinOut (image : List Byte) (fuse : Option (List Byte)) (s : State) :
    (storeImage image fuse s).pinOut = s.pinOut := rfl

@[simp] theorem storeImage_rx (image : List Byte) (fuse : Option (List Byte)) (s : State) :
    (storeImage image fuse s).rx = s.rx := rfl

@[simp] theorem storeImage_tx (image : List Byte) (fuse : Option (List Byte)) (s : State) :
    (storeImage image fuse s).tx = s.tx := rfl

@[simp] theorem storeImage_progMode (image : List Byte) (fuse : Option (List Byte)) (s : State) :
    (storeImage image fuse s).progMode = s.progMode := rfl

@[simp] theorem storeImage_flashImage (image : List Byte) (fuse : Option (List Byte)) (s : State) :
    (storeImage image fuse s).flashImage = imageCells (unlistedByte s.prm) 0 image := rfl

@[simp] theorem storeImage_bytesUsed (image : List Byte) (fuse : Option (List Byte)) (s : State) :
    (storeImage image fuse s).bytesUsed = imageUsed (unlistedByte s.prm) 0 0 image := rfl

@[simp] theorem storeImage_fuseImage (image : List Byte) (fuse : Option (List Byte)) (s : State) :
    (storeImage image fuse s).fuseImage = fuse := rfl

@[simp] theorem storeImage_rbuf (image : List Byte) (fuse : Option (List Byte)) (s : State) :
    (storeImage image fuse s).rbuf = s.rbuf := rfl

@[simp] theorem storeImage_busy (image : List Byte) (fuse : Option (List Byte)) (s : State) :
    (storeImage image fuse s).busy = s.busy := rfl

@[simp] theorem storeImage_refused (image : List Byte) (fuse : Option (List Byte)) (s : State) :
    (storeImage image fuse s).refused = s.refused := rfl

@[simp] theorem storeImage_seq (image : List Byte) (fuse : Option (List Byte)) (s : State) :
    (storeImage image fuse s).seq = s.seq := rfl

@[simp] theorem storeImage_levels (image : List Byte) (fuse : Option (List Byte)) (s : State) :
    (storeImage image fuse s).levels = s.levels := rfl

@[simp] theorem storeImage_capInits (image : List Byte) (fuse : Option (List Byte)) (s : State) :
    (storeImage image fuse s).capInits = s.capInits := rfl

@[simp] theorem storeImage_draws (image : List Byte) (fuse : Option (List Byte)) (s : State) :
    (storeImage image fuse s).draws = s.draws := rfl

@[simp] theorem storeImage_obs (image : List Byte) (fuse : Option (List Byte)) (s : State) :
    (storeImage image fuse s).obs = s.obs := rfl

@[simp] theorem storeImage_hostOps (image : List Byte) (fuse : Option (List Byte)) (s : State) :
    (storeImage image fuse s).hostOps = s.hostOps := rfl

/-! ## shiftIn -/

@[simp] theorem shiftIn_cfg (l : Level) (s : State) :
    (shiftIn l s).cfg = s.cfg := rfl

@[simp] theorem shiftIn_prm (l : Level) (s : State) :
    (shiftIn l s).prm = s.prm := rfl

@[simp] theorem shiftIn_phyOpen (l : Level) (s : State) :
    (shiftIn l s).phyOpen = s.phyOpen := rfl

@[simp] theorem shiftIn_pin (l : Level) (s : State) :
    (shiftIn l s).pin = s.pin := rfl

@[simp] theorem shiftIn_pinDir (l : Level) (s : State) :
    (shiftIn l s).pinDir = s.pinDir := rfl

@[simp] theorem shiftIn_pinOut (l : Level) (s : State) :
    (shiftIn l s).pinOut = s.pinOut := rfl

@[simp] theorem shiftIn_rx (l : Level) (s : State) :
    (shiftIn l s).rx = { s.rx with shift := s.rx.shift ||| (if l then oneBit s.rx.bit else 0#8), bit := s.rx.bit + 1 } := rfl

@[simp] theorem shiftIn_tx (l : Level) (s : State) :
    (shiftIn l s).tx = s.tx := rfl

@[simp] theorem shiftIn_progMode (l : Level) (s : State) :
    (shiftIn l s).progMode = s.progMode := rfl

@[simp] theorem shiftIn_flashImage (l : Level) (s : State) :
    (shiftIn l s).flashImage = s.flashImage := rfl

@[simp] theorem shiftIn_bytesUsed (l : Level) (s : State) :
    (shiftIn l s).bytesUsed = s.bytesUsed := rfl

@[simp] theorem shiftIn_fuseImage (l : Level) (s : State) :
    (shiftIn l s).fuseImage = s.fuseImage := rfl

@[simp] theorem shiftIn_rbuf (l : Level) (s : State) :
    (shiftIn l s).rbuf = s.rbuf := rfl

@[simp] theorem shiftIn_busy (l : Level) (s : State) :
    (shiftIn l s).busy = s.busy := rfl

@[simp] theorem shiftIn_refused (l : Level) (s : State) :
    (shiftIn l s).refused = s.refused := rfl

@[simp] theorem shiftIn_seq (l : Level) (s : State) :
    (shiftIn l s).seq = s.seq := rfl

@[simp] theorem shiftIn_levels (l : Level) (s : State) :
    (shiftIn l s).levels = s.levels := rfl

@[simp] theorem shiftIn_capInits (l : Level) (s : State) :
    (shiftIn l s).capInits = s.capInits := rfl

@[simp] theorem shiftIn_draws (l : Level) (s : State) :
    (shiftIn l s).draws = s.draws := rfl

@[simp] theorem shiftIn_obs (l : Level) (s : State) :
    (shiftIn l s).obs = s.obs := rfl

@[simp] theorem shiftIn_hostOps (l : Level) (s : State) :
    (shiftIn l s).hostOps = s.hostOps := rfl

/-! ## A trace item (Safety.play) -/

@[simp] theorem play_cfg (s : State) (b : Safety.Beat) : (Safety.play s b).cfg = s.cfg := by cases b <;> rfl

@[simp] theorem play_prm (s : State) (b : Safety.Beat) : (Safety.play s b).prm = s.prm := by cases b <;> rfl

@[simp] theorem play_phyOpen (s : State) (b : Safety.Beat) : (Safety.play s b).phyOpen = s.phyOpen := by cases b <;> rfl

@[simp] theorem play_pin (s : State) (b : Safety.Beat) : (Safety.play s b).pin = s.pin := by cases b <;> rfl

@[simp] theorem play_rx (s : State) (b : Safety.Beat) : (Safety.play s b).rx = s.rx := by cases b <;> rfl

@[simp] theorem play_tx (s : State) (b : Safety.Beat) : (Safety.play s b).tx = s.tx := by cases b <;> rfl

@[simp] theorem play_progMode (s : State) (b : Safety.Beat) : (Safety.play s b).progMode = s.progMode := by cases b <;> rfl

@[simp] theorem play_flashImage (s : State) (b : Safety.Beat) : (Safety.play s b).flashImage = s.flashImage := by cases b <;> rfl

@[simp] theorem play_bytesUsed (s : State) (b : Safety.Beat) : (Safety.play s b).bytesUsed = s.bytesUsed := by cases b <;> rfl

@[simp] theorem play_fuseImage (s : State) (b : Safety.Beat) : (Safety.play s b).fuseImage = s.fuseImage := by cases b <;> rfl

@[simp] theorem play_rbuf (s : State) (b : Safety.Beat) : (Safety.play s b).rbuf = s.rbuf := by cases b <;> rfl

@[simp] theorem play_busy (s : State) (b : Safety.Beat) : (Safety.play s b).busy = s.busy := by cases b <;> rfl

@[simp] theorem play_refused (s : State) (b : Safety.Beat) : (Safety.play s b).refused = s.refused := by cases b <;> rfl

@[simp] theorem play_seq (s : State) (b : Safety.Beat) : (Safety.play s b).seq = s.seq := by cases b <;> rfl

@[simp] theorem play_capInits (s : State) (b : Safety.Beat) : (Safety.play s b).capInits = s.capInits := by cases b <;> rfl

@[simp] theorem play_hostOps (s : State) (b : Safety.Beat) : (Safety.play s b).hostOps = s.hostOps := by cases b <;> rfl

end Sys2Proof.Machine
end

