-- ==== Sys2Proof/Laws/Op.lean ====
section
/-! SUPPORT. What the operation combinators do, and frames of operations: a relation between the state before and after
that holds of the parts holds of the whole. -/

namespace Sys2Proof.Machine

variable {α β : Type}

/-! ## Running an operation -/

@[simp] theorem pure_apply (a : α) (s : State) : (pure a : Op α) s = .ok a s := rfl

@[simp] theorem bind_apply (m : Op α) (f : α → Op β) (s : State) :
    (m >>= f) s = match m s with
      | .ok a s' => f a s'
      | .error e s' => .error e s' := by
  simp only [bind, EStateM.bind]
  cases m s <;> rfl

@[simp] theorem get_apply (s : State) : (get : Op State) s = .ok s s := rfl

@[simp] theorem raise_apply (e : Err) (s : State) : (raise e : Op α) s = .error e s := rfl

@[simp] theorem update_apply (f : State → State) (s : State) : update f s = .ok () (f s) := rfl

@[simp] theorem requireOpen_open {s : State} (h : s.phyOpen = true) : requireOpen s = .ok () s := by
  simp [requireOpen, h]

@[simp] theorem requireOpen_closed {s : State} (h : s.phyOpen = false) :
    requireOpen s = .error (.ioError .closed) s := by
  simp [requireOpen, h]

theorem tryOp_apply (m : Op α) (s : State) :
    tryOp m s = match m s with
      | .ok a s' => .ok (.ok a) s'
      | .error e s' => .ok (.error e) s' := rfl

theorem mapErr_apply (f : Err → Err) (m : Op α) (s : State) :
    mapErr f m s = match m s with
      | .ok a s' => .ok a s'
      | .error e s' => .error (f e) s' := rfl

theorem onError_apply (g : State → State) (m : Op α) (s : State) :
    onError g m s = match m s with
      | .ok a s' => .ok a s'
      | .error e s' => .error e (g s') := rfl

/-! ## The state an operation leaves -/

/-- The state after an operation, however it ended. -/
def endState : EStateM.Result Err State α → State
  | .ok _ s => s
  | .error _ s => s

@[simp] theorem endState_ok (a : α) (s : State) : endState (.ok a s : EStateM.Result Err State α) = s := rfl
@[simp] theorem endState_error (e : Err) (s : State) :
    endState (.error e s : EStateM.Result Err State α) = s := rfl

/-- However it ends, the operation leaves a state in relation `R` to the one it started from. -/
def Keeps (R : State → State → Prop) (m : Op α) : Prop := ∀ s, R s (endState (m s))

/-- A frame: every state is in relation to itself, and relations chain. -/
structure Frame (R : State → State → Prop) : Prop where
  refl : ∀ s, R s s
  trans : ∀ {s t u}, R s t → R t u → R s u

variable {R : State → State → Prop}

theorem Frame.pure (hR : Frame R) (a : α) : Keeps R (pure a : Op α) := fun s => hR.refl s

theorem Frame.raise (hR : Frame R) (e : Err) : Keeps R (raise e : Op α) := fun s => hR.refl s

theorem Frame.get (hR : Frame R) : Keeps R (get : Op State) := fun s => hR.refl s

theorem Frame.bind (hR : Frame R) {m : Op α} {f : α → Op β} (hm : Keeps R m) (hf : ∀ a, Keeps R (f a)) :
    Keeps R (m >>= f) := by
  intro s
  have h := hm s
  simp only [bind_apply]
  cases hs : m s with
  | ok a t => rw [hs] at h; exact hR.trans h (hf a t)
  | error e t => rw [hs] at h; exact h

theorem Frame.ite (_ : Frame R) {c : Prop} [Decidable c] {m n : Op α} (hm : Keeps R m) (hn : Keeps R n) :
    Keeps R (if c then m else n) := by
  split
  · exact hm
  · exact hn

theorem Keeps.update {f : State → State} (h : ∀ s, R s (f s)) : Keeps R (Machine.update f) := fun s => h s

theorem Keeps.tryOp {m : Op α} (hm : Keeps R m) : Keeps R (Machine.tryOp m) := by
  intro s
  have h := hm s
  simp only [tryOp_apply]
  cases hs : m s with
  | ok a t => rw [hs] at h; exact h
  | error e t => rw [hs] at h; exact h

theorem Keeps.mapErr {m : Op α} (hm : Keeps R m) (f : Err → Err) : Keeps R (Machine.mapErr f m) := by
  intro s
  have h := hm s
  simp only [mapErr_apply]
  cases hs : m s with
  | ok a t => rw [hs] at h; exact h
  | error e t => rw [hs] at h; exact h

theorem Frame.onError (hR : Frame R) {m : Op α} {g : State → State} (hm : Keeps R m) (hg : ∀ s, R s (g s)) :
    Keeps R (Machine.onError g m) := by
  intro s
  have h := hm s
  simp only [onError_apply]
  cases hs : m s with
  | ok a t => rw [hs] at h; exact h
  | error e t => rw [hs] at h; exact hR.trans h (hg t)

end Sys2Proof.Machine
end

