-- ==== Sys2Proof/Laws/Phy.lean ====
section
/-! SUPPORT. The PHY operations as items of a trace (40_phy.md): PHY_SEND is `tx`, PHY_RECV is `rx` for the characters
the environment presents, PHY_DOUBLE_BREAK is `db`. -/

namespace Sys2Proof.Machine

open Sys2Proof.Safety

/-! ## Transmit -/

theorem sendSlots_eq (ls : List Level) : ∀ (k : Nat) (s : State), ∃ t : Tx,
    sendSlots k ls s = .ok ()
      { s with tx := t, pinOut := ls.foldl (fun _ l => .known l) s.pinOut, obs := s.obs ++ ls.flatMap (slotCalls s) } := by
  induction ls with
  | nil => intro k s; exact ⟨s.tx, by simp [sendSlots]⟩
  | cons l ls ih =>
    intro k s
    obtain ⟨t, ht⟩ := ih (k + 1)
      { s with tx := { s.tx with slot := k }, pinOut := .known l, obs := s.obs ++ slotCalls s l }
    refine ⟨t, ?_⟩
    simp [sendSlots, slot, writeLevel, sleep, observe] at ht ⊢
    simp [slotCalls, bitPeriod] at ht ⊢
    exact ht

theorem charLevels_last (b : Byte) (o : PinOut) :
    (charLevels b).foldl (fun _ l => PinOut.known l) o = .known true := by
  simp [charLevels]

theorem sendChars_eq (bs : List Byte) : ∀ (j : Nat) (s : State), s.pinOut = .known true → ∃ t : Tx,
    sendChars j bs s = .ok ()
      { s with tx := t, obs := s.obs ++ bs.flatMap fun b => (charLevels b).flatMap (slotCalls s) } := by
  induction bs with
  | nil => intro j s _; exact ⟨s.tx, by simp [sendChars]⟩
  | cons b bs ih =>
    intro j s hs
    obtain ⟨t, ht⟩ := sendSlots_eq (charLevels b) 0 { s with tx := ⟨b, 0, j⟩ }
    rw [charLevels_last] at ht
    obtain ⟨t', ht'⟩ := ih (j + 1)
      { s with tx := t, obs := s.obs ++ (charLevels b).flatMap (slotCalls s) } hs
    refine ⟨t', ?_⟩
    have hp : s = { s with pinOut := .known true } := by rw [← hs]
    simp only [sendChars, sendChar, bind_apply, update_apply, ht]
    have e : ({ s with tx := t, pinOut := .known true, obs := s.obs ++ (charLevels b).flatMap (slotCalls s) } : State) =
        { s with tx := t, obs := s.obs ++ (charLevels b).flatMap (slotCalls s) } := by rw [← hs]
    have hc : (slotCalls { s with tx := ⟨b, 0, j⟩ }) = slotCalls s := rfl
    simp only [hc]
    rw [e, ht']
    have hc' : (slotCalls { s with tx := t, obs := s.obs ++ (charLevels b).flatMap (slotCalls s) }) = slotCalls s := rfl
    simp only [hc', List.flatMap_cons, List.append_assoc]

/-- The state before the first character of a send (R81): the pin an output, high for the idle settle. -/
def settled (s : State) : State :=
  { s with
    pinDir := .known .output
    pinOut := .known true
    obs := s.obs ++ [.setDir s.pin .output, .writeLevel s.pin true, .sleep (s.prm.idleSettleBits * bitPeriod s)] }

theorem phySend_settled {s : State} (bytes : List Byte) (ho : s.phyOpen = true) :
    phySend bytes s = (sendChars 0 bytes >>= fun _ => update fun s => { s with tx := Tx.idle }) (settled s) := by
  have e : settled s =
      { s with
        pinDir := .known .output
        pinOut := .known true
        obs := ((s.obs ++ [.setDir s.pin .output]) ++ [.writeLevel s.pin true]) ++
          [.sleep (s.prm.idleSettleBits * bitPeriod s)] } := by simp [settled]
  rw [e]
  simp only [phySend, bind_apply, requireOpen_open ho, setDir, writeLevel, sleep, observe, update_apply, get_apply]
  rfl

/-- PHY_SEND on an open PHY (R81, R82). -/
theorem phySend_eq {s : State} (bytes : List Byte) (ho : s.phyOpen = true) (ht : s.tx = Tx.idle) :
    phySend bytes s = .ok () (play s (.tx bytes)) := by
  obtain ⟨t, h⟩ := sendChars_eq bytes 0 (settled s) rfl
  rw [phySend_settled bytes ho, bind_apply, h]
  simp only [update_apply, settled, play, txCalls, ← ht, List.append_assoc]
  rfl

/-- PHY_SEND on a closed PHY (R90). -/
theorem phySend_closed {s : State} (bytes : List Byte) (ho : s.phyOpen = false) :
    phySend bytes s = .error (.ioError .closed) s := by
  simp [phySend, ho]

/-! ## Double break, close -/

/-- PHY_DOUBLE_BREAK on an open PHY (R86). -/
theorem phyDoubleBreak_eq {s : State} (ho : s.phyOpen = true) :
    phyDoubleBreak s = .ok () (play s .db) := by
  simp [phyDoubleBreak, setDir, writeLevel, sleep, observe, ho, play, dbCalls]

/-- PHY_DOUBLE_BREAK on a closed PHY (R90). -/
theorem phyDoubleBreak_closed {s : State} (ho : s.phyOpen = false) :
    phyDoubleBreak s = .error (.ioError .closed) s := by
  simp [phyDoubleBreak, ho]

/-! ## Receive -/

/-- The state after `n` answers of the environment were taken. -/
def taken (n : Nat) (s : State) : State := { s with levels := s.levels.drop n, draws := s.draws + n }

theorem upcoming_congr (n : Nat) : ∀ {s t : State}, s.levels = t.levels → s.draws = t.draws →
    upcoming n s = upcoming n t := by
  induction n with
  | zero => intros; rfl
  | succ n ih =>
    intro s t h1 h2
    simp only [upcoming]
    congr 1
    · simp [nextLevel, h1, h2]
    · exact ih (by simp [h1]) (by simp [h2])

theorem upcoming_of {n : Nat} {s t : State} {ls : List Level} (h : upcoming n t = ls) (h1 : s.levels = t.levels)
    (h2 : s.draws = t.draws) : upcoming n s = ls := (upcoming_congr n h1 h2).trans h

@[simp] theorem upcoming_length (n : Nat) : ∀ s : State, (upcoming n s).length = n := by
  induction n with
  | zero => intro s; rfl
  | succ n ih => intro s; simp [upcoming, ih]

theorem upcoming_add (m n : Nat) : ∀ s : State, upcoming (m + n) s = upcoming m s ++ upcoming n (taken m s) := by
  induction m with
  | zero => intro s; simp [upcoming, taken]
  | succ m ih =>
    intro s
    rw [Nat.succ_add]
    simp only [upcoming, List.cons_append]
    congr 1
    rw [ih]
    congr 1
    exact upcoming_congr n (by simp [taken]) (by simp [taken]; omega)

theorem pollCalls_succ (s : State) (k : Nat) :
    pollCalls s (k + 1) =
      [Obs.readLevel s.pin true, Obs.sleep (bitPeriod s / s.prm.rxPollDiv)] ++ pollCalls s k := by
  simp [pollCalls, List.replicate_succ]

theorem upcoming_cons {n : Nat} {s : State} {l : Level} {ls : List Level} (h : upcoming (n + 1) s = l :: ls) :
    nextLevel s = l ∧ upcoming n (taken 1 s) = ls := by
  simp only [upcoming, List.cons.injEq] at h
  refine ⟨h.1, ?_⟩
  rw [← h.2]
  exact upcoming_congr n (by simp [taken]) (by simp [taken])

/-- The state after one high poll (R83). -/
def polled (s : State) : State :=
  { taken 1 s with
    rx := { s.rx with poll := s.rx.poll + 1 }
    obs := s.obs ++ [.readLevel s.pin true, .sleep (bitPeriod s / s.prm.rxPollDiv)] }

theorem pollStart_high {s : State} (k : Nat) (h : nextLevel s = true) : pollStart (k + 1) s = pollStart k (polled s) := by
  simp [pollStart, readLevel, h, sleep, observe, polled, taken, bitPeriod]

theorem pollStart_low {s : State} (k : Nat) (h : nextLevel s = false) :
    pollStart (k + 1) s = .ok true { taken 1 s with obs := s.obs ++ [.readLevel s.pin false] } := by
  simp [pollStart, readLevel, h, taken]

/-- A poll that finds a start bit after `w` high polls (R83). -/
theorem pollStart_found (w : Nat) : ∀ (k : Nat) (s : State), w < k →
    upcoming (w + 1) s = List.replicate w true ++ [false] →
    pollStart k s = .ok true
      { taken (w + 1) s with
        rx := { s.rx with poll := s.rx.poll + w }, obs := s.obs ++ pollCalls s w ++ [.readLevel s.pin false] } := by
  induction w with
  | zero =>
    intro k s hk h
    obtain ⟨k, rfl⟩ : ∃ j, k = j + 1 := ⟨k - 1, by omega⟩
    rw [pollStart_low k (by simpa [upcoming] using h)]
    simp [pollCalls]
    rfl
  | succ w ih =>
    intro k s hk h
    obtain ⟨k, rfl⟩ : ∃ j, k = j + 1 := ⟨k - 1, by omega⟩
    rw [List.replicate_succ, List.cons_append] at h
    obtain ⟨hl, hr⟩ := upcoming_cons h
    rw [pollStart_high k hl, ih k (polled s) (by omega) (upcoming_of hr rfl rfl)]
    simp [polled, taken, pollCalls_succ, Nat.add_comm, Nat.add_left_comm]
    rfl

/-- A poll that runs out (R83). -/
theorem pollStart_silent (k : Nat) : ∀ (s : State), upcoming k s = List.replicate k true →
    pollStart k s = .ok false
      { taken k s with rx := { s.rx with poll := s.rx.poll + k }, obs := s.obs ++ pollCalls s k } := by
  induction k with
  | zero => intro s _; simp [pollStart, taken, pollCalls]
  | succ k ih =>
    intro s h
    rw [List.replicate_succ] at h
    obtain ⟨hl, hr⟩ := upcoming_cons h
    rw [pollStart_high k hl, ih (polled s) (upcoming_of hr rfl rfl)]
    simp [polled, taken, pollCalls_succ, Nat.add_comm, Nat.add_left_comm]
    rfl

/-- The byte `j` samples have built (R83, LSB first). -/
def builtByte (b : Byte) : Nat → Byte
  | 0 => 0#8
  | j + 1 => builtByte b j ||| (if bitOf b j then oneBit j else 0#8)

theorem builtByte_eight (b : Byte) : builtByte b 8 = b := by
  revert b; decide

/-- Samples `j` to `j + k` of a byte (R83). -/
theorem sampleBits_eq (b : Byte) (k : Nat) : ∀ (j : Nat) (s : State),
    s.rx.shift = builtByte b j → s.rx.bit = j → upcoming k s = (List.range' j k).map (bitOf b) →
    sampleBits k s = .ok ()
      { taken k s with
        rx := { s.rx with shift := builtByte b (j + k), bit := j + k }
        obs := s.obs ++ (List.range' j k).flatMap fun i =>
          [.sleep (bitPeriod s), .readLevel s.pin (bitOf b i)] } := by
  induction k with
  | zero =>
    intro j s h1 h2 _
    subst h2
    simp only [sampleBits, pure_apply, Nat.add_zero, ← h1, taken, List.drop_zero, List.range'_zero,
      List.flatMap_nil, List.append_nil]
  | succ k ih =>
    intro j s h1 h2 h
    rw [List.range'_succ, List.map_cons] at h
    obtain ⟨hl, hr⟩ := upcoming_cons h
    have hn : nextLevel { s with obs := s.obs ++ [.sleep (bitPeriod s)] } = bitOf b j := hl
    have := ih (j + 1) { taken 1 s with
        rx := { s.rx with shift := builtByte b (j + 1), bit := j + 1 }
        obs := s.obs ++ [.sleep (bitPeriod s), .readLevel s.pin (bitOf b j)] } rfl rfl
      (upcoming_of hr rfl rfl)
    simp only [sampleBits, bind_apply, get_apply, sleep, observe, update_apply, readLevel, hn]
    have hs : shiftIn (bitOf b j)
        { s with
          obs := s.obs ++ [.sleep (bitPeriod s)] ++ [.readLevel s.pin (bitOf b j)]
          levels := s.levels.tail, draws := s.draws + 1 } =
        { taken 1 s with
          rx := { s.rx with shift := builtByte b (j + 1), bit := j + 1 }
          obs := s.obs ++ [.sleep (bitPeriod s), .readLevel s.pin (bitOf b j)] } := by
      simp [shiftIn, taken, h1, h2, builtByte]
    rw [hs, this]
    simp [taken, List.range'_succ, bitPeriod, Nat.add_comm, Nat.add_left_comm]

/-- One received byte (R83). -/
theorem receiveByte_eq (b : Byte) (s : State) (h : upcoming 8 s = (List.range 8).map (bitOf b)) :
    receiveByte s = .ok ()
      { taken 8 s with
        rx := { s.rx with shift := b, bit := 8, out := s.rx.out ++ [b] }
        obs := s.obs ++ ([.sleep (bitPeriod s / s.prm.rxCenterDiv)] ++
          ((List.range 8).flatMap fun i => [.sleep (bitPeriod s), .readLevel s.pin (bitOf b i)]) ++
          [.sleep (s.prm.rxSkipBits * bitPeriod s)]) } := by
  have := sampleBits_eq b 8 0
    { s with rx := { s.rx with shift := 0#8, bit := 0 }, obs := s.obs ++ [.sleep (bitPeriod s / s.prm.rxCenterDiv)] }
    rfl rfl (by rw [← List.range_eq_range']; exact upcoming_of h rfl rfl)
  simp only [receiveByte, bind_apply, get_apply, sleep, observe, update_apply]
  rw [this]
  simp [builtByte_eight, taken, bitPeriod, List.range_eq_range']

theorem heardLevels_length (h : Heard) : (heardLevels h).length = h.wait + 1 + 8 := by
  simp [heardLevels]

/-- The bytes of a receive (R83). -/
theorem receiveBytes_eq (heard : List Heard) : ∀ (n : Nat) (s : State), heard.length ≤ n →
    (∀ h ∈ heard, h.wait < s.prm.rxPollLimit) →
    upcoming (rxLevels s n heard).length s = rxLevels s n heard → ∃ r : Rx, r.out = s.rx.out ++ heard.map Heard.byte ∧
    receiveBytes n s = .ok ()
      { taken (rxLevels s n heard).length s with
        rx := r
        obs := s.obs ++ (heard.flatMap (heardCalls s) ++
          (if heard.length < n then pollCalls s s.prm.rxPollLimit else [])) } := by
  induction heard with
  | nil =>
    intro n s _ _ h
    cases n with
    | zero => exact ⟨s.rx, by simp, by simp [receiveBytes, taken, rxLevels]⟩
    | succ n =>
      simp only [rxLevels, List.flatMap_nil, List.nil_append, List.length_nil, Nat.zero_lt_succ, if_true,
        List.length_replicate] at h ⊢
      have := pollStart_silent s.prm.rxPollLimit { s with rx := { s.rx with poll := 0 } }
        (upcoming_of h rfl rfl)
      refine ⟨{ s.rx with poll := s.prm.rxPollLimit }, by simp, ?_⟩
      simp only [receiveBytes, bind_apply, update_apply, get_apply]
      rw [this]
      simp [taken, pollCalls, bitPeriod]
  | cons x xs ih =>
    intro n s hn hw h
    obtain ⟨n, rfl⟩ : ∃ j, n = j + 1 := ⟨n - 1, by simp at hn; omega⟩
    have hx : x.wait < s.prm.rxPollLimit := hw x (by simp)
    -- split the answers: this character's, then the rest's
    have hsplit : rxLevels s (n + 1) (x :: xs) = heardLevels x ++ rxLevels s n xs := by
      simp [rxLevels, List.append_assoc]
    rw [hsplit, List.length_append, upcoming_add] at h
    obtain ⟨h1, h2⟩ := List.append_inj h (by simp)
    rw [heardLevels_length, upcoming_add] at h1
    have hh : heardLevels x = (List.replicate x.wait true ++ [false]) ++ (List.range 8).map (bitOf x.byte) := rfl
    rw [hh] at h1
    obtain ⟨h3, h4⟩ := List.append_inj h1 (by simp)
    have p := pollStart_found x.wait s.prm.rxPollLimit { s with rx := { s.rx with poll := 0 } } hx
      (upcoming_of h3 rfl rfl)
    have q := receiveByte_eq x.byte
      { taken (x.wait + 1) s with
        rx := { s.rx with poll := x.wait }, obs := s.obs ++ pollCalls s x.wait ++ [.readLevel s.pin false] }
      (upcoming_of h4 rfl rfl)
    obtain ⟨r, hr, hb⟩ := ih n
      { taken (x.wait + 1 + 8) s with
        rx := { shift := x.byte, bit := 8, poll := x.wait, out := s.rx.out ++ [x.byte] }
        obs := s.obs ++ heardCalls s x } (by simp at hn; exact hn) (fun y hy => hw y (by simp [hy]))
      (by
        have : rxLevels { taken (x.wait + 1 + 8) s with
            rx := { shift := x.byte, bit := 8, poll := x.wait, out := s.rx.out ++ [x.byte] }
            obs := s.obs ++ heardCalls s x } n xs = rxLevels s n xs := rfl
        rw [this]
        rw [heardLevels_length] at h2
        exact upcoming_of h2 rfl rfl)
    refine ⟨r, by simp [hr], ?_⟩
    simp only [receiveBytes, bind_apply, update_apply, get_apply]
    rw [p]
    simp only [Nat.zero_add, if_true, bind_apply]
    have e1 : ({ taken (x.wait + 1) { s with rx := { s.rx with poll := 0 } } with
        rx := { s.rx with poll := x.wait }
        obs := s.obs ++ pollCalls { s with rx := { s.rx with poll := 0 } } x.wait ++ [.readLevel s.pin false] } : State) =
      { taken (x.wait + 1) s with
        rx := { s.rx with poll := x.wait }, obs := s.obs ++ pollCalls s x.wait ++ [.readLevel s.pin false] } := rfl
    rw [e1, q]
    have e2 : ({ taken 8 { taken (x.wait + 1) s with
          rx := { s.rx with poll := x.wait }
          obs := s.obs ++ pollCalls s x.wait ++ [.readLevel s.pin false] } with
        rx := { shift := x.byte, bit := 8, poll := x.wait, out := s.rx.out ++ [x.byte] }
        obs := s.obs ++ pollCalls s x.wait ++ [.readLevel s.pin false] ++
          ([.sleep (bitPeriod s / s.prm.rxCenterDiv)] ++
            ((List.range 8).flatMap fun i => [.sleep (bitPeriod s), .readLevel s.pin (bitOf x.byte i)]) ++
            [.sleep (s.prm.rxSkipBits * bitPeriod s)]) } : State) =
      { taken (x.wait + 1 + 8) s with
        rx := { shift := x.byte, bit := 8, poll := x.wait, out := s.rx.out ++ [x.byte] }
        obs := s.obs ++ heardCalls s x } := by
      simp [taken, heardCalls, Nat.add_assoc]
    refine (congrArg (receiveBytes n) e2).trans ?_
    rw [hb, hsplit]
    simp [taken, heardLevels_length, Nat.add_assoc]
    refine ⟨?_, ?_, ?_⟩
    all_goals rfl

/-- PHY_RECV on an open PHY (R83), for the characters the environment presents. -/
theorem phyRecv_eq {s : State} {n : Nat} {heard : List Heard} (ho : s.phyOpen = true) (hr : s.rx = Rx.idle)
    (ha : answersBeat s (.rx n heard) = true) :
    phyRecv n s = .ok (heard.map Heard.byte) (play s (.rx n heard)) := by
  simp [answersBeat, rxFits] at ha
  obtain ⟨⟨hn, hw⟩, hu⟩ := ha
  obtain ⟨r, h1, h2⟩ := receiveBytes_eq heard n
    { s with pinDir := .known .input, rx := Rx.idle, obs := s.obs ++ [.setDir s.pin .input] } hn hw
    (upcoming_of hu rfl rfl)
  simp only [phyRecv, bind_apply, requireOpen_open ho, setDir, update_apply, h2, get_apply, pure_apply]
  simp only [h1, Rx.idle, List.nil_append]
  congr 1
  simp only [taken, play, rxCalls, hr, List.append_assoc]
  rfl

/-- PHY_RECV on a closed PHY (R90). -/
theorem phyRecv_closed {s : State} (n : Nat) (ho : s.phyOpen = false) :
    phyRecv n s = .error (.ioError .closed) s := by
  simp [phyRecv, ho]

end Sys2Proof.Machine
end

