-- ==== Sys2Proof/Laws/Trace.lean ====
section
/-! SUPPORT. Every operation above the PHY leaves the trace of some sequence of trace items and, beside it, writes only
`S.prog_mode`, `S.seq` and `S.rbuf`: one inversion lemma per operation, from which frames and invariants follow. -/

namespace Sys2Proof.Machine

open Sys2Proof.Safety

/-! ## Traces compose -/

@[simp] theorem playAll_nil (s : State) : playAll s [] = s := rfl

@[simp] theorem playAll_cons (s : State) (b : Beat) (bs : List Beat) :
    playAll s (b :: bs) = playAll (play s b) bs := rfl

theorem playAll_append (s : State) (bs cs : List Beat) : playAll s (bs ++ cs) = playAll (playAll s bs) cs := by
  simp [playAll]

theorem answers_append (bs cs : List Beat) : ∀ s : State,
    answers s (bs ++ cs) = (answers s bs && answers (playAll s bs) cs) := by
  induction bs with
  | nil => intro s; simp [answers]
  | cons b bs ih => intro s; simp [answers, ih, Bool.and_assoc]

/-! ## What no trace changes -/

section
variable (bs : List Beat) (s : State)

theorem playAll_cfg : (playAll s bs).cfg = s.cfg := by
  induction bs generalizing s with
  | nil => rfl
  | cons b bs ih => simp [ih]
theorem playAll_prm : (playAll s bs).prm = s.prm := by
  induction bs generalizing s with
  | nil => rfl
  | cons b bs ih => simp [ih]
theorem playAll_phyOpen : (playAll s bs).phyOpen = s.phyOpen := by
  induction bs generalizing s with
  | nil => rfl
  | cons b bs ih => simp [ih]
theorem playAll_pin : (playAll s bs).pin = s.pin := by
  induction bs generalizing s with
  | nil => rfl
  | cons b bs ih => simp [ih]
theorem playAll_rx : (playAll s bs).rx = s.rx := by
  induction bs generalizing s with
  | nil => rfl
  | cons b bs ih => simp [ih]
theorem playAll_tx : (playAll s bs).tx = s.tx := by
  induction bs generalizing s with
  | nil => rfl
  | cons b bs ih => simp [ih]
theorem playAll_progMode : (playAll s bs).progMode = s.progMode := by
  induction bs generalizing s with
  | nil => rfl
  | cons b bs ih => simp [ih]
theorem playAll_flashImage : (playAll s bs).flashImage = s.flashImage := by
  induction bs generalizing s with
  | nil => rfl
  | cons b bs ih => simp [ih]
theorem playAll_bytesUsed : (playAll s bs).bytesUsed = s.bytesUsed := by
  induction bs generalizing s with
  | nil => rfl
  | cons b bs ih => simp [ih]
theorem playAll_fuseImage : (playAll s bs).fuseImage = s.fuseImage := by
  induction bs generalizing s with
  | nil => rfl
  | cons b bs ih => simp [ih]
theorem playAll_rbuf : (playAll s bs).rbuf = s.rbuf := by
  induction bs generalizing s with
  | nil => rfl
  | cons b bs ih => simp [ih]
theorem playAll_busy : (playAll s bs).busy = s.busy := by
  induction bs generalizing s with
  | nil => rfl
  | cons b bs ih => simp [ih]
theorem playAll_refused : (playAll s bs).refused = s.refused := by
  induction bs generalizing s with
  | nil => rfl
  | cons b bs ih => simp [ih]
theorem playAll_seq : (playAll s bs).seq = s.seq := by
  induction bs generalizing s with
  | nil => rfl
  | cons b bs ih => simp [ih]
theorem playAll_capInits : (playAll s bs).capInits = s.capInits := by
  induction bs generalizing s with
  | nil => rfl
  | cons b bs ih => simp [ih]
theorem playAll_hostOps : (playAll s bs).hostOps = s.hostOps := by
  induction bs generalizing s with
  | nil => rfl
  | cons b bs ih => simp [ih]
end

/-! ## The three fields a trace neither reads nor writes -/

/-- The state with its flag of programming mode, sequencer registers and read-back buffer replaced. -/
def withSession (s : State) (m : Bool) (q : Seq) (r : List Byte) : State :=
  { s with progMode := m, seq := q, rbuf := r }

theorem withSession_self (s : State) : withSession s s.progMode s.seq s.rbuf = s := rfl

theorem play_withSession (s : State) (m : Bool) (q : Seq) (r : List Byte) (b : Beat) :
    play (withSession s m q r) b = withSession (play s b) m q r := by
  cases b <;> rfl

theorem playAll_withSession (bs : List Beat) (m : Bool) (q : Seq) (r : List Byte) : ∀ s : State,
    playAll (withSession s m q r) bs = withSession (playAll s bs) m q r := by
  induction bs with
  | nil => intro s; rfl
  | cons b bs ih => intro s; simp [play_withSession, ih]

theorem answersBeat_withSession (s : State) (m : Bool) (q : Seq) (r : List Byte) (b : Beat) :
    answersBeat (withSession s m q r) b = answersBeat s b := by
  cases b with
  | rx n heard =>
    have h : upcoming (rxLevels s n heard).length (withSession s m q r) = upcoming (rxLevels s n heard).length s :=
      upcoming_congr _ rfl rfl
    simp only [answersBeat, ← h]
    rfl
  | tx _ => rfl
  | db => rfl
  | pause _ => rfl
  | event _ _ _ => rfl

theorem answers_withSession (bs : List Beat) (m : Bool) (q : Seq) (r : List Byte) : ∀ s : State,
    answers (withSession s m q r) bs = answers s bs := by
  induction bs with
  | nil => intro s; rfl
  | cons b bs ih => intro s; simp [answers, answersBeat_withSession, play_withSession, ih]

/-! ## The frame -/

/-- A progress event. -/
def isEvent : Beat → Bool
  | .event _ _ _ => true
  | .tx _ => false
  | .rx _ _ => false
  | .db => false
  | .pause _ => false

/-- From a state whose datapath registers are idle: some trace the environment answers, and writes to the session fields
alone; `ev` says whether the trace may hold progress events. -/
def Traced (ev : Bool) (s t : State) : Prop :=
  s.rx = Rx.idle → s.tx = Tx.idle →
    ∃ beats, (∀ b ∈ beats, isEvent b = true → ev = true) ∧ answers s beats = true ∧
      t = withSession (playAll s beats) t.progMode t.seq t.rbuf

variable {ev : Bool}

theorem traced_frame : Frame (Traced ev) where
  refl s := fun _ _ => ⟨[], by simp, rfl, rfl⟩
  trans := by
    intro s t u h1 h2 hr ht
    obtain ⟨b1, v1, a1, e1⟩ := h1 hr ht
    have hr' : t.rx = Rx.idle := by rw [e1]; exact (playAll_rx b1 s).trans hr
    have ht' : t.tx = Tx.idle := by rw [e1]; exact (playAll_tx b1 s).trans ht
    obtain ⟨b2, v2, a2, e2⟩ := h2 hr' ht'
    refine ⟨b1 ++ b2, ?_, ?_, ?_⟩
    · intro b hb
      rcases List.mem_append.1 hb with hb | hb
      · exact v1 b hb
      · exact v2 b hb
    · rw [answers_append, a1, Bool.true_and]
      rw [e1, answers_withSession] at a2
      exact a2
    · rw [playAll_append]
      rw [e1, playAll_withSession] at e2
      exact e2

/-- One trace item. -/
theorem traced_play {s : State} {b : Beat} (hv : isEvent b = true → ev = true) (h : answersBeat s b = true) :
    Traced ev s (play s b) :=
  fun _ _ => ⟨[b], by simpa using hv, by simp [answers, h], (withSession_self (play s b)).symm⟩

/-- An operation that reports nothing may stand in one that does. -/
theorem Traced.mayReport {s t : State} (h : Traced false s t) : Traced ev s t := by
  intro hr ht
  obtain ⟨b, v, a, e⟩ := h hr ht
  exact ⟨b, fun x hx hxe => absurd (v x hx hxe) (by simp), a, e⟩

/-- A write to the session fields. -/
theorem traced_session (s : State) (m : Bool) (q : Seq) (r : List Byte) : Traced ev s (withSession s m q r) :=
  fun _ _ => ⟨[], by simp, rfl, rfl⟩

/-! ## The PHY -/

/-- The byte of eight samples. -/
theorem exists_byte_of_levels (ls : List Level) (h : ls.length = 8) : ∃ b : Byte, (List.range 8).map (bitOf b) = ls := by
  match ls, h with
  | [a, b, c, d, e, f, g, i], _ =>
    have : ∀ a b c d e f g i : Bool,
        (List.range 8).map (bitOf (BitVec.ofBoolListLE [a, b, c, d, e, f, g, i])) = [a, b, c, d, e, f, g, i] := by
      decide
    exact ⟨_, this a b c d e f g i⟩

/-- A start bit within `k` polls, or silence. -/
theorem exists_poll (k : Nat) : ∀ s : State,
    (∃ w, w < k ∧ upcoming (w + 1) s = List.replicate w true ++ [false]) ∨ upcoming k s = List.replicate k true := by
  induction k with
  | zero => intro s; exact .inr rfl
  | succ k ih =>
    intro s
    cases hl : nextLevel s with
    | false => exact .inl ⟨0, by omega, by simp [upcoming, hl]⟩
    | true =>
      rcases ih (taken 1 s) with ⟨w, hw, h⟩ | h
      · refine .inl ⟨w + 1, by omega, ?_⟩
        rw [upcoming, hl, List.replicate_succ, List.cons_append]
        exact congrArg _ (upcoming_of h (by simp [taken]) rfl)
      · refine .inr ?_
        rw [upcoming, hl, List.replicate_succ]
        exact congrArg _ (upcoming_of h (by simp [taken]) rfl)

theorem rxLevels_cons (s : State) (n : Nat) (x : Heard) (xs : List Heard) :
    rxLevels s (n + 1) (x :: xs) = heardLevels x ++ rxLevels s n xs := by
  simp [rxLevels, List.append_assoc]

/-- Whatever the environment answers, a receive of `n` hears some characters (R88). -/
theorem exists_heard (n : Nat) : ∀ s : State, ∃ heard : List Heard, heard.length ≤ n ∧
    (∀ h ∈ heard, h.wait < s.prm.rxPollLimit) ∧
    upcoming (rxLevels s n heard).length s = rxLevels s n heard := by
  induction n with
  | zero => intro s; exact ⟨[], by simp, by simp, by simp [rxLevels, upcoming]⟩
  | succ n ih =>
    intro s
    rcases exists_poll s.prm.rxPollLimit s with ⟨w, hw, h⟩ | h
    · obtain ⟨b, hb⟩ := exists_byte_of_levels (upcoming 8 (taken (w + 1) s)) (by simp)
      obtain ⟨heard, h1, h2, h3⟩ := ih (taken (w + 1 + 8) s)
      refine ⟨⟨w, b⟩ :: heard, by simp; exact h1, ?_, ?_⟩
      · intro x hx
        rcases List.mem_cons.1 hx with rfl | hx
        · exact hw
        · exact h2 x hx
      · rw [rxLevels_cons, List.length_append, upcoming_add, heardLevels_length, upcoming_add, h, ← hb]
        have e : rxLevels (taken (w + 1 + 8) s) n heard = rxLevels s n heard := rfl
        rw [e] at h3
        rw [h3]
        simp [heardLevels]
    · exact ⟨[], by simp, by simp, by simpa [rxLevels] using h⟩

/-- PHY_RECV on an open PHY, whatever the environment answers (R83, R88). -/
theorem phyRecv_total {s : State} (n : Nat) (ho : s.phyOpen = true) (hr : s.rx = Rx.idle) :
    ∃ heard, answersBeat s (.rx n heard) = true ∧
      phyRecv n s = .ok (heard.map Heard.byte) (play s (.rx n heard)) := by
  obtain ⟨heard, h1, h2, h3⟩ := exists_heard n s
  have ha : answersBeat s (.rx n heard) = true := by
    simp [answersBeat, rxFits, h1, h3]
    exact h2
  exact ⟨heard, ha, phyRecv_eq ho hr ha⟩

theorem phySend_traced (bytes : List Byte) : Keeps (Traced ev) (phySend bytes) := by
  intro s hr ht
  cases ho : s.phyOpen with
  | true => rw [phySend_eq bytes ho ht]; exact traced_play (b := .tx bytes) (by simp [isEvent]) rfl hr ht
  | false => rw [phySend_closed bytes ho]; exact traced_frame.refl s hr ht

theorem phyRecv_traced (n : Nat) : Keeps (Traced ev) (phyRecv n) := by
  intro s hr ht
  cases ho : s.phyOpen with
  | true =>
    obtain ⟨heard, ha, h⟩ := phyRecv_total n ho hr
    rw [h]
    exact traced_play (by simp [isEvent]) ha hr ht
  | false => rw [phyRecv_closed n ho]; exact traced_frame.refl s hr ht

theorem phyDoubleBreak_traced : Keeps (Traced ev) phyDoubleBreak := by
  intro s hr ht
  cases ho : s.phyOpen with
  | true => rw [phyDoubleBreak_eq ho]; exact traced_play (b := .db) (by simp [isEvent]) rfl hr ht
  | false => rw [phyDoubleBreak_closed ho]; exact traced_frame.refl s hr ht

theorem sleep_traced (us : Nat) : Keeps (Traced ev) (sleep us) :=
  fun s => traced_play (s := s) (b := .pause us) (by simp [isEvent]) rfl

theorem progress_traced (pass : Pass) (i n : Nat) : Keeps (Traced true) (progress pass i n) :=
  fun s => traced_play (s := s) (b := .event pass i n) (fun _ => rfl) rfl

/-! ## Building blocks -/

theorem traced_pure {α : Type} (a : α) : Keeps (Traced ev) (pure a : Op α) := traced_frame.pure a
theorem traced_raise {α : Type} (e : Err) : Keeps (Traced ev) (raise e : Op α) := traced_frame.raise e
theorem traced_get : Keeps (Traced ev) (get : Op State) := traced_frame.get
theorem traced_bind {α β : Type} {m : Op α} {f : α → Op β} (hm : Keeps (Traced ev) m) (hf : ∀ a, Keeps (Traced ev) (f a)) :
    Keeps (Traced ev) (m >>= f) := traced_frame.bind hm hf
theorem traced_ite {α : Type} {c : Prop} [Decidable c] {m n : Op α} (hm : Keeps (Traced ev) m) (hn : Keeps (Traced ev) n) :
    Keeps (Traced ev) (if c then m else n) := traced_frame.ite hm hn
theorem traced_getThen {α : Type} {f : State → Op α} (hf : ∀ s, Keeps (Traced ev) (f s)) : Keeps (Traced ev) (get >>= f) :=
  traced_bind traced_get hf
theorem setProgMode_traced (v : Bool) : Keeps (Traced ev) (update (setProgMode v)) :=
  fun s => traced_session s v s.seq s.rbuf
theorem onSeq_traced (f : Seq → Seq) : Keeps (Traced ev) (onSeq f) :=
  fun s => traced_session s s.progMode (f s.seq) s.rbuf
theorem setRbuf_traced (r : List Byte) : Keeps (Traced ev) (setRbuf r) :=
  fun s => traced_session s s.progMode s.seq r
theorem beginPass_traced (pass : Pass) : Keeps (Traced ev) (beginPass pass) :=
  fun s => traced_session s s.progMode _ s.rbuf
theorem startPage_traced (p : Nat) : Keeps (Traced ev) (startPage p) :=
  fun s => traced_session s s.progMode _ s.rbuf
theorem checkSize_traced (lo n : Nat) : Keeps (Traced ev) (checkSize lo n) := by
  intro s
  unfold checkSize
  split <;> exact traced_frame.refl s

/-! ## Link -/

theorem readBytes_traced (n : Nat) : Keeps (Traced ev) (readBytes n) :=
  traced_bind (phyRecv_traced n) fun _ => traced_ite (traced_raise _) (traced_pure _)

theorem readByte_traced : Keeps (Traced ev) readByte :=
  traced_bind (readBytes_traced 1) fun _ => traced_pure _

theorem expectAck_traced : Keeps (Traced ev) expectAck := by
  refine traced_bind (phyRecv_traced 1) fun r => traced_getThen fun s => ?_
  cases r with
  | nil => exact traced_raise _
  | cons b _ => exact traced_ite (traced_pure _) (traced_raise _)

theorem ldcs_traced (a : CsAddr) : Keeps (Traced ev) (ldcs a) :=
  traced_getThen fun _ => traced_bind (phySend_traced _) fun _ => readByte_traced

theorem stcs_traced (a : CsAddr) (v : Byte) : Keeps (Traced ev) (stcs a v) :=
  traced_getThen fun _ => phySend_traced _

theorem lds_traced (addr : Addr) : Keeps (Traced ev) (lds addr) :=
  traced_getThen fun _ => traced_bind (phySend_traced _) fun _ => readByte_traced

theorem sts_traced (addr : Addr) (v : Byte) : Keeps (Traced ev) (sts addr v) :=
  traced_getThen fun _ => traced_bind (phySend_traced _) fun _ => traced_bind expectAck_traced fun _ =>
    traced_bind (phySend_traced _) fun _ => expectAck_traced

theorem setPtr_traced (addr : Addr) : Keeps (Traced ev) (setPtr addr) :=
  traced_getThen fun _ => traced_bind (phySend_traced _) fun _ => expectAck_traced

theorem repeatOp_traced (n : Nat) : Keeps (Traced ev) (repeatOp n) :=
  traced_bind (checkSize_traced 1 n) fun _ => traced_getThen fun _ => phySend_traced _

theorem burstRest_traced (data : List Byte) : Keeps (Traced ev) (burstRest data) := by
  induction data with
  | nil => exact traced_pure _
  | cons d ds ih => exact traced_bind (phySend_traced _) fun _ => traced_bind expectAck_traced fun _ => ih

theorem burstWrite_traced (data : List Byte) : Keeps (Traced ev) (burstWrite data) :=
  traced_bind (checkSize_traced 1 _) fun _ => traced_getThen fun _ => traced_bind (phySend_traced _) fun _ =>
    traced_bind expectAck_traced fun _ => burstRest_traced _

theorem burstRead_traced (n : Nat) : Keeps (Traced ev) (burstRead n) :=
  traced_bind (checkSize_traced 1 n) fun _ => traced_getThen fun _ => traced_bind (phySend_traced _) fun _ =>
    readBytes_traced n

theorem sendKey_traced (key : List Byte) : Keeps (Traced ev) (sendKey key) :=
  traced_getThen fun _ => traced_bind (phySend_traced _) fun _ => phySend_traced _

/-! ## Device control -/

theorem resetToggle_traced : Keeps (Traced ev) resetToggle :=
  traced_getThen fun _ => traced_bind (stcs_traced _ _) fun _ => stcs_traced _ _

theorem progFlag_traced : Keeps (Traced ev) progFlag :=
  traced_getThen fun _ => traced_bind (ldcs_traced _) fun _ => traced_pure _

theorem pollUnlocked_traced (k : Nat) : Keeps (Traced ev) (pollUnlocked k) := by
  induction k with
  | zero => exact traced_pure _
  | succ k ih =>
    exact traced_getThen fun _ => traced_bind (ldcs_traced _) fun _ =>
      traced_ite (traced_bind (sleep_traced _) fun _ => ih) (traced_pure _)

theorem waitUnlocked_traced : Keeps (Traced ev) waitUnlocked := traced_getThen fun _ => pollUnlocked_traced _

theorem orUnlock_traced {α : Type} {m : Op α} (step : UnlockStep) (hm : Keeps (Traced ev) m) :
    Keeps (Traced ev) (orUnlock step m) := hm.mapErr _

theorem unlockTarget_traced : Keeps (Traced ev) unlockTarget :=
  traced_getThen fun _ => traced_bind (orUnlock_traced _ (sendKey_traced _)) fun _ =>
    traced_bind (orUnlock_traced _ (ldcs_traced _)) fun _ =>
      traced_ite
        (traced_bind (orUnlock_traced _ resetToggle_traced) fun _ =>
          traced_bind (orUnlock_traced _ waitUnlocked_traced) fun _ =>
            traced_ite
              (traced_bind (orUnlock_traced _ progFlag_traced) fun _ =>
                traced_ite (setProgMode_traced true) (traced_raise _))
              (traced_raise _))
        (traced_raise _)

theorem enterProg_traced : Keeps (Traced ev) enterProg :=
  traced_frame.onError
    (traced_bind (orUnlock_traced _ progFlag_traced) fun _ => traced_ite (setProgMode_traced true) unlockTarget_traced)
    (setProgMode_traced false)

theorem exitProg_traced : Keeps (Traced ev) exitProg :=
  traced_bind (setProgMode_traced false) fun _ => traced_bind resetToggle_traced fun _ =>
    traced_getThen fun _ => stcs_traced _ _

theorem pollReady_traced (k : Nat) : Keeps (Traced ev) (pollReady k) := by
  induction k with
  | zero => exact traced_raise _
  | succ k ih =>
    exact traced_getThen fun _ => traced_bind (lds_traced _) fun _ => traced_ite (traced_raise _)
      (traced_ite (traced_bind (sleep_traced _) fun _ => ih) (traced_pure _))

theorem waitReady_traced : Keeps (Traced ev) waitReady := traced_getThen fun _ => pollReady_traced _

theorem execCommand_traced (cmd : Byte) : Keeps (Traced ev) (execCommand cmd) := traced_getThen fun _ => sts_traced _ _

theorem chipErase_traced : Keeps (Traced ev) chipErase :=
  traced_bind (waitReady_traced.mapErr _) fun _ => traced_getThen fun _ =>
    traced_bind (execCommand_traced _) fun _ => waitReady_traced.mapErr _

theorem burstTo_traced (addr : Addr) (data : List Byte) : Keeps (Traced ev) (burstTo addr data) :=
  traced_bind (setPtr_traced _) fun _ => traced_bind (repeatOp_traced _) fun _ => burstWrite_traced _

theorem pageWrite_traced (addr : Addr) (data : List Byte) : Keeps (Traced ev) (pageWrite addr data) :=
  traced_bind (checkSize_traced 1 _) fun _ => traced_bind waitReady_traced fun _ => traced_getThen fun _ =>
    traced_bind (execCommand_traced _) fun _ => traced_bind waitReady_traced fun _ =>
      traced_bind (burstTo_traced _ _) fun _ => traced_bind (execCommand_traced _) fun _ => waitReady_traced

theorem pageRead_traced (addr : Addr) (n : Nat) : Keeps (Traced ev) (pageRead addr n) :=
  traced_bind (checkSize_traced 2 n) fun _ => traced_bind (setPtr_traced _) fun _ =>
    traced_bind (repeatOp_traced _) fun _ => burstRead_traced _

theorem pageErase_traced (addr : Addr) : Keeps (Traced ev) (pageErase addr) :=
  traced_bind waitReady_traced fun _ => traced_getThen fun _ => traced_bind (burstTo_traced _ _) fun _ =>
    traced_bind (execCommand_traced _) fun _ => waitReady_traced

theorem tryLink_traced : Keeps (Traced ev) tryLink :=
  traced_bind phyDoubleBreak_traced fun _ => traced_getThen fun _ => traced_bind (stcs_traced _ _) fun _ =>
    traced_bind (stcs_traced _ _) fun _ => traced_bind (ldcs_traced _) fun _ =>
      traced_ite (traced_raise _) enterProg_traced

theorem linkAttempts_traced (k : Nat) : ∀ last, Keeps (Traced ev) (linkAttempts k last) := by
  induction k with
  | zero => intro last; exact traced_raise _
  | succ k ih =>
    intro last
    refine traced_bind (setProgMode_traced false) fun _ => traced_bind tryLink_traced.tryOp fun r => ?_
    cases r with
    | ok _ => exact traced_pure _
    | error e => cases e <;> first | exact traced_raise _ | exact ih _

theorem linkInit_traced : Keeps (Traced ev) linkInit := traced_getThen fun _ => linkAttempts_traced _ _

/-! ## Sequencer -/

theorem setStep_traced (step : PageStep) : Keeps (Traced ev) (setStep step) := onSeq_traced _

theorem endPass_traced (c : Int) : Keeps (Traced ev) (endPass c) :=
  traced_bind (onSeq_traced _) fun _ => traced_pure _

theorem ensureLink_traced : Keeps (Traced ev) ensureLink :=
  traced_getThen fun _ => traced_ite (traced_pure _) linkInit_traced

theorem settle_traced : Keeps (Traced ev) settle := traced_getThen fun _ => sleep_traced _

theorem abortPage_traced (c : Int) : Keeps (Traced ev) (abortPage c) :=
  traced_bind (setStep_traced _) fun _ => traced_pure _

theorem acceptPage_traced : Keeps (Traced ev) acceptPage :=
  traced_bind (setStep_traced _) fun _ => traced_pure _

theorem walkPages_traced (pass : Pass) (n : Nat) {page : Nat → Op (Option Int)} (hp : ∀ p, Keeps (Traced true) (page p))
    (k : Nat) : ∀ p, Keeps (Traced true) (walkPages pass n page k p) := by
  induction k with
  | zero => intro p; exact endPass_traced 0
  | succ k ih =>
    intro p
    refine traced_bind (startPage_traced p) fun _ => traced_bind (hp p) fun r => ?_
    cases r with
    | some c => exact endPass_traced c
    | none => exact traced_bind (progress_traced _ _ _) fun _ => ih _

theorem walkPass_traced (pass : Pass) (linkCode : Int) (n : Nat) {page : Nat → Op (Option Int)}
    (hp : ∀ p, Keeps (Traced true) (page p)) : Keeps (Traced true) (walkPass pass linkCode n page) := by
  refine traced_bind (beginPass_traced _) fun _ => traced_bind (progress_traced _ _ _) fun _ =>
    traced_bind ensureLink_traced.tryOp fun r => ?_
  cases r with
  | ok _ => exact walkPages_traced pass n hp n 0
  | error _ => exact endPass_traced _

theorem passChipErase_traced : Keeps (Traced true) passChipErase := by
  refine traced_getThen fun _ => traced_bind (beginPass_traced _) fun _ => traced_bind (progress_traced _ _ _) fun _ =>
    traced_bind ensureLink_traced.tryOp fun r => ?_
  cases r with
  | error _ => exact endPass_traced _
  | ok _ =>
    refine traced_bind chipErase_traced.tryOp fun r => ?_
    cases r with
    | error _ => exact endPass_traced _
    | ok _ => exact endPass_traced _

theorem countLink_traced (cap : Nat) : Keeps (Traced ev) (countLink cap) :=
  traced_bind (setStep_traced _) fun _ => traced_bind (onSeq_traced _) fun _ => traced_getThen fun _ => traced_pure _

theorem countData_traced (cap : Nat) : Keeps (Traced ev) (countData cap) :=
  traced_bind (setStep_traced _) fun _ => traced_bind (onSeq_traced _) fun _ => traced_getThen fun _ => traced_pure _

theorem readPage_traced (accept : State → Bool) (linkCap dataCap : Nat) (linkCode dataCode : Int) (fuel : Nat) :
    Keeps (Traced ev) (readPage accept linkCap dataCap linkCode dataCode fuel) := by
  induction fuel with
  | zero => exact abortPage_traced _
  | succ fuel ih =>
    refine traced_getThen fun _ => traced_bind (pageRead_traced _ _).tryOp fun r => ?_
    cases r with
    | error _ =>
      refine traced_bind (countLink_traced _) fun _ => traced_ite (abortPage_traced _) ?_
      refine traced_bind linkInit_traced.tryOp fun r => ?_
      cases r with
      | error _ => exact abortPage_traced _
      | ok _ => exact traced_bind settle_traced fun _ => traced_bind (setStep_traced _) fun _ => ih
    | ok bytes =>
      exact traced_bind (setRbuf_traced _) fun _ => traced_getThen fun _ => traced_ite acceptPage_traced
        (traced_bind (countData_traced _) fun _ => traced_ite (abortPage_traced _)
          (traced_bind settle_traced fun _ => traced_bind (setStep_traced _) fun _ => ih))

theorem passBlankCheck_traced : Keeps (Traced true) passBlankCheck :=
  traced_getThen fun _ => walkPass_traced _ _ _ fun _ => readPage_traced _ _ _ _ _ _

theorem passVerify_traced : Keeps (Traced true) passVerify :=
  traced_getThen fun _ => walkPass_traced _ _ _ fun _ => readPage_traced _ _ _ _ _ _

theorem attemptWrite_traced (p : Nat) : Keeps (Traced ev) (attemptWrite p) := by
  refine traced_getThen fun _ => traced_ite (traced_pure _) (traced_bind (pageWrite_traced _ _).tryOp fun r => ?_)
  cases r <;> exact traced_pure _

theorem attempt_traced (p : Nat) : Keeps (Traced ev) (attempt p) := by
  refine traced_bind (attemptWrite_traced p) fun _ => traced_ite (traced_pure _) (traced_bind (onSeq_traced _) fun _ =>
    traced_getThen fun _ => traced_bind (pageRead_traced _ _).tryOp fun r => ?_)
  cases r with
  | error _ => exact traced_pure _
  | ok bytes => exact traced_bind (setRbuf_traced _) fun _ => traced_getThen fun _ => traced_pure _

theorem relink_traced : Keeps (Traced ev) relink := by
  refine traced_getThen fun _ => traced_bind linkInit_traced.tryOp fun r => ?_
  cases r with
  | error _ => exact traced_pure _
  | ok _ => exact traced_bind settle_traced fun _ => traced_pure _

theorem linkRecover_traced (skip : Bool) : Keeps (Traced ev) (linkRecover skip) :=
  traced_getThen fun _ => traced_bind (countLink_traced _) fun _ => traced_ite (traced_pure _)
    (traced_bind (onSeq_traced _) fun _ => relink_traced)

theorem dataRecover_traced : Keeps (Traced ev) dataRecover :=
  traced_getThen fun _ => traced_bind (countData_traced _) fun _ => traced_ite (traced_pure _) relink_traced

theorem escalate_traced : Keeps (Traced ev) escalate := by
  refine traced_bind (setStep_traced _) fun _ => traced_bind (onSeq_traced _) fun _ => traced_getThen fun _ =>
    traced_ite (traced_pure _) (traced_bind (pageErase_traced _).tryOp fun r => ?_)
  cases r with
  | error _ => exact traced_pure _
  | ok _ => exact traced_bind (onSeq_traced _) fun _ => traced_pure _

theorem blankRecover_traced : Keeps (Traced ev) blankRecover := by
  refine traced_bind (setStep_traced _) fun _ => traced_bind (onSeq_traced _) fun _ => traced_getThen fun _ =>
    traced_ite (traced_bind escalate_traced fun k => ?_) relink_traced
  cases k with
  | some c => exact traced_pure _
  | none => exact relink_traced

theorem recover_traced (c : AttemptEnd) : Keeps (Traced ev) (recover c) := by
  cases c with
  | success => exact traced_pure _
  | writeFail => exact linkRecover_traced _
  | readFail => exact linkRecover_traced _
  | blank => exact blankRecover_traced
  | mismatch => exact dataRecover_traced

theorem programPage_traced (p fuel : Nat) : Keeps (Traced ev) (programPage p fuel) := by
  induction fuel with
  | zero => exact traced_getThen fun _ => abortPage_traced _
  | succ fuel ih =>
    refine traced_bind (attempt_traced p) fun _ => traced_ite acceptPage_traced
      (traced_bind (recover_traced _) fun k => ?_)
    cases k with
    | some c => exact abortPage_traced c
    | none => exact traced_bind (setStep_traced _) fun _ => ih

theorem passProgram_traced : Keeps (Traced true) passProgram :=
  traced_getThen fun _ => walkPass_traced _ _ _ fun _ => programPage_traced _ _

end Sys2Proof.Machine
end

