-- ==== Sys2Proof/Laws/Link.lean ====
section
/-! SUPPORT. The Link operations as traces (41_link.md): for the answers the environment gives, the result and the state
each operation ends with. Provers cite these instead of unfolding an operation. -/

namespace Sys2Proof.Machine

open Sys2Proof.Safety

variable {s : State}

/-! ## Sequencing -/

theorem bind_ok {α β : Type} {m : Op α} {f : α → Op β} {t : State} {a : α} (h : m s = .ok a t) :
    (m >>= f) s = f a t := by rw [bind_apply, h]

theorem bind_error {α β : Type} {m : Op α} {f : α → Op β} {t : State} {e : Err} (h : m s = .error e t) :
    (m >>= f) s = .error e t := by rw [bind_apply, h]

theorem get_bind {β : Type} (f : State → Op β) : ((get : Op State) >>= f) s = f s s := bind_apply _ _ _

theorem answers_left {bs cs : List Beat} (h : answers s (bs ++ cs) = true) : answers s bs = true := by
  rw [answers_append, Bool.and_eq_true] at h
  exact h.1

theorem answers_right {bs cs : List Beat} (h : answers s (bs ++ cs) = true) : answers (playAll s bs) cs = true := by
  rw [answers_append, Bool.and_eq_true] at h
  exact h.2

/-- The PHY is open and its datapath registers idle: where every operation above the PHY starts and ends. -/
structure Listening (s : State) : Prop where
  isOpen : s.phyOpen = true
  rxIdle : s.rx = Rx.idle
  txIdle : s.tx = Tx.idle

theorem Listening.playAll (h : Listening s) (bs : List Beat) : Listening (Safety.playAll s bs) where
  isOpen := (playAll_phyOpen bs s).trans h.isOpen
  rxIdle := (playAll_rx bs s).trans h.rxIdle
  txIdle := (playAll_tx bs s).trans h.txIdle

theorem Listening.withSession (h : Listening s) (m : Bool) (q : Seq) (r : List Byte) :
    Listening (Machine.withSession s m q r) := ⟨h.isOpen, h.rxIdle, h.txIdle⟩

theorem listening_beginOp (ho : s.phyOpen = true) : Listening (beginOp s) := ⟨ho, rfl, rfl⟩

/-! ## The host port -/

/-- An accepted operation that left a trace and ended with a value. -/
theorem serve_ok {i : Instr} {m : Op Value} {v : Value} {bs : List Beat} (ha : accepts i s = true)
    (h : m (beginOp s) = .ok v (playAll (beginOp s) bs)) : serve i m s = .next (done s bs (.ok v)) := by
  simp [serve, ha, h, endOp, done]

/-- An accepted operation that left a trace and ended with an error. -/
theorem serve_error {i : Instr} {m : Op Value} {e : Err} {bs : List Beat} (ha : accepts i s = true)
    (h : m (beginOp s) = .error e (playAll (beginOp s) bs)) : serve i m s = .next (done s bs (.err e)) := by
  simp [serve, ha, h, endOp, done]

theorem answersBeat_beginOp (b : Beat) : answersBeat (beginOp s) b = answersBeat s b := by
  cases b with
  | rx n heard =>
    have h : upcoming (rxLevels s n heard).length (beginOp s) = upcoming (rxLevels s n heard).length s :=
      upcoming_congr _ rfl rfl
    simp only [answersBeat, ← h]
    rfl
  | tx _ => rfl
  | db => rfl
  | pause _ => rfl
  | event _ _ _ => rfl

theorem play_beginOp (b : Beat) : play (beginOp s) b = beginOp (play s b) := by cases b <;> rfl

/-- The environment answers an operation as it answers the state the operation started from. -/
theorem answers_beginOp (bs : List Beat) : ∀ s : State, answers (beginOp s) bs = answers s bs := by
  induction bs with
  | nil => intro s; rfl
  | cons b bs ih => intro s; simp [answers, answersBeat_beginOp, play_beginOp, ih]

theorem unit_ok {m : Op Unit} {t : State} (h : m s = .ok () t) : unit m s = .ok .none t := by simp [unit, h]
theorem unit_error {m : Op Unit} {t : State} {e : Err} (h : m s = .error e t) : unit m s = .error e t := by
  simp [unit, h]
theorem byteValue_ok {m : Op Byte} {t : State} {b : Byte} (h : m s = .ok b t) : byteValue m s = .ok (.byte b) t := by
  simp [byteValue, h]
theorem byteValue_error {m : Op Byte} {t : State} {e : Err} (h : m s = .error e t) :
    byteValue m s = .error e t := by simp [byteValue, h]
theorem bytesValue_ok {m : Op (List Byte)} {t : State} {l : List Byte} (h : m s = .ok l t) :
    bytesValue m s = .ok (.bytes l) t := by simp [bytesValue, h]
theorem bytesValue_error {m : Op (List Byte)} {t : State} {e : Err} (h : m s = .error e t) :
    bytesValue m s = .error e t := by simp [bytesValue, h]

/-! ## Sends and receives -/

theorem send_eq (L : Listening s) (bytes : List Byte) : phySend bytes s = .ok () (playAll s [.tx bytes]) :=
  phySend_eq bytes L.isOpen L.txIdle

theorem recv_eq (L : Listening s) {n : Nat} {heard : List Heard} (ha : answers s [.rx n heard] = true) :
    phyRecv n s = .ok (heard.map Heard.byte) (playAll s [.rx n heard]) :=
  phyRecv_eq L.isOpen L.rxIdle (by simpa [answers] using ha)

/-- R92 with all the bytes. -/
theorem readBytes_eq (L : Listening s) {n : Nat} {heard : List Heard} (hn : heard.length = n)
    (ha : answers s [.rx n heard] = true) :
    readBytes n s = .ok (heard.map Heard.byte) (playAll s [.rx n heard]) := by
  rw [readBytes, bind_ok (recv_eq L ha)]
  simp [hn]

/-- R92 with fewer. -/
theorem readBytes_short (L : Listening s) {n : Nat} {heard : List Heard} (hn : heard.length < n)
    (ha : answers s [.rx n heard] = true) :
    readBytes n s = .error (.timeout (.shortRead heard.length)) (playAll s [.rx n heard]) := by
  rw [readBytes, bind_ok (recv_eq L ha)]
  simp [hn]

theorem readByte_eq (L : Listening s) {h : Heard} (ha : answers s [.rx 1 [h]] = true) :
    readByte s = .ok h.byte (playAll s [.rx 1 [h]]) := by
  rw [readByte, bind_ok (readBytes_eq (n := 1) L rfl ha)]
  simp

theorem readByte_silent (L : Listening s) (ha : answers s [.rx 1 []] = true) :
    readByte s = .error (.timeout (.shortRead 0)) (playAll s [.rx 1 []]) := by
  rw [readByte, bind_error (readBytes_short L (by simp) ha)]
  rfl

/-- R93, the acknowledge given. -/
theorem expectAck_eq (L : Listening s) {h : Heard} (hb : h.byte = s.prm.ack) (ha : answers s [.rx 1 [h]] = true) :
    expectAck s = .ok () (playAll s [.rx 1 [h]]) := by
  rw [expectAck, bind_ok (recv_eq L ha), get_bind]
  simp [hb]

/-- R93, another byte. -/
theorem expectAck_nack (L : Listening s) {h : Heard} (hb : h.byte ≠ s.prm.ack) (ha : answers s [.rx 1 [h]] = true) :
    expectAck s = .error (.nack h.byte) (playAll s [.rx 1 [h]]) := by
  rw [expectAck, bind_ok (recv_eq L ha), get_bind]
  simp [hb]

/-- R93, no byte. -/
theorem expectAck_silent (L : Listening s) (ha : answers s [.rx 1 []] = true) :
    expectAck s = .error (.timeout .noAck) (playAll s [.rx 1 []]) := by
  rw [expectAck, bind_ok (recv_eq L ha), get_bind]
  rfl

/-! ## A send and the acknowledge wait after it -/

theorem sendAck_eq (L : Listening s) (bytes : List Byte) {h : Heard} (hb : h.byte = s.prm.ack)
    (ha : answers s [.tx bytes, .rx 1 [h]] = true) {β : Type} (f : Unit → Op β) :
    (phySend bytes >>= fun _ => expectAck >>= f) s = f () (playAll s [.tx bytes, .rx 1 [h]]) := by
  rw [bind_ok (send_eq L bytes)]
  exact bind_ok (expectAck_eq (L.playAll [.tx bytes]) (by rw [playAll_prm]; exact hb) (answers_right (bs := [.tx bytes]) ha))

theorem sendAck_nack (L : Listening s) (bytes : List Byte) {h : Heard} (hb : h.byte ≠ s.prm.ack)
    (ha : answers s [.tx bytes, .rx 1 [h]] = true) {β : Type} (f : Unit → Op β) :
    (phySend bytes >>= fun _ => expectAck >>= f) s = .error (.nack h.byte) (playAll s [.tx bytes, .rx 1 [h]]) := by
  rw [bind_ok (send_eq L bytes)]
  exact bind_error
    (expectAck_nack (L.playAll [.tx bytes]) (by rw [playAll_prm]; exact hb) (answers_right (bs := [.tx bytes]) ha))

theorem sendAck_silent (L : Listening s) (bytes : List Byte) (ha : answers s [.tx bytes, .rx 1 []] = true)
    {β : Type} (f : Unit → Op β) :
    (phySend bytes >>= fun _ => expectAck >>= f) s = .error (.timeout .noAck) (playAll s [.tx bytes, .rx 1 []]) := by
  rw [bind_ok (send_eq L bytes)]
  exact bind_error (expectAck_silent (L.playAll [.tx bytes]) (answers_right (bs := [.tx bytes]) ha))

theorem expectAck_then : (expectAck >>= fun u => (pure u : Op Unit)) = expectAck := by
  funext s
  rw [bind_apply]
  cases expectAck s <;> rfl

/-! ## The operations -/

/-- R94. -/
theorem ldcs_eq (L : Listening s) (a : CsAddr) {h : Heard} (ha : answers s (ldcsBeats s a h) = true) :
    ldcs a s = .ok h.byte (playAll s (ldcsBeats s a h)) := by
  rw [ldcs, get_bind, bind_ok (send_eq L _)]
  exact readByte_eq (L.playAll _) (answers_right (bs := [.tx _]) ha)

theorem ldcs_silent (L : Listening s) (a : CsAddr) (ha : answers s (ldcsSilent s a) = true) :
    ldcs a s = .error (.timeout (.shortRead 0)) (playAll s (ldcsSilent s a)) := by
  rw [ldcs, get_bind, bind_ok (send_eq L _)]
  exact readByte_silent (L.playAll _) (answers_right (bs := [.tx _]) ha)

/-- R95. -/
theorem stcs_eq (L : Listening s) (a : CsAddr) (v : Byte) : stcs a v s = .ok () (playAll s (stcsBeats s a v)) := by
  rw [stcs, get_bind]
  exact send_eq L _

/-- R96. -/
theorem lds_eq (L : Listening s) (addr : Addr) {h : Heard} (ha : answers s (ldsBeats s addr h) = true) :
    lds addr s = .ok h.byte (playAll s (ldsBeats s addr h)) := by
  rw [lds, get_bind, bind_ok (send_eq L _)]
  exact readByte_eq (L.playAll _) (answers_right (bs := [.tx _]) ha)

theorem lds_silent (L : Listening s) (addr : Addr) (ha : answers s (ldsSilent s addr) = true) :
    lds addr s = .error (.timeout (.shortRead 0)) (playAll s (ldsSilent s addr)) := by
  rw [lds, get_bind, bind_ok (send_eq L _)]
  exact readByte_silent (L.playAll _) (answers_right (bs := [.tx _]) ha)

/-- R97, both acknowledges given. -/
theorem sts_eq (L : Listening s) (addr : Addr) (v : Byte) (k1 k2 : Nat)
    (ha : answers s (stsBeats s addr v k1 k2) = true) :
    sts addr v s = .ok () (playAll s (stsBeats s addr v k1 k2)) := by
  have h1 := answers_left (bs := stsAddrBeats s addr [ackAfter s k1]) (cs := [.tx [v], .rx 1 [ackAfter s k2]]) ha
  have h2 := answers_right (bs := stsAddrBeats s addr [ackAfter s k1]) (cs := [.tx [v], .rx 1 [ackAfter s k2]]) ha
  rw [sts, get_bind]
  refine (sendAck_eq L _ rfl h1 _).trans ?_
  rw [← expectAck_then]
  exact sendAck_eq (L.playAll _) [v] (h := ackAfter s k2) (by rw [playAll_prm]; rfl) h2 _

theorem sts_nack (L : Listening s) (addr : Addr) (v : Byte) {h : Heard} (hb : h.byte ≠ s.prm.ack)
    (ha : answers s (stsAddrBeats s addr [h]) = true) :
    sts addr v s = .error (.nack h.byte) (playAll s (stsAddrBeats s addr [h])) := by
  rw [sts, get_bind]
  exact sendAck_nack L _ hb ha _

theorem sts_silent (L : Listening s) (addr : Addr) (v : Byte) (ha : answers s (stsAddrBeats s addr []) = true) :
    sts addr v s = .error (.timeout .noAck) (playAll s (stsAddrBeats s addr [])) := by
  rw [sts, get_bind]
  exact sendAck_silent L _ ha _

/-- R98. -/
theorem setPtr_eq (L : Listening s) (addr : Addr) (k : Nat) (ha : answers s (setPtrBeats s addr k) = true) :
    setPtr addr s = .ok () (playAll s (setPtrBeats s addr k)) := by
  rw [setPtr, get_bind, ← expectAck_then]
  exact sendAck_eq L _ rfl ha _

theorem setPtr_nack (L : Listening s) (addr : Addr) {h : Heard} (hb : h.byte ≠ s.prm.ack)
    (ha : answers s (setPtrHears s addr [h]) = true) :
    setPtr addr s = .error (.nack h.byte) (playAll s (setPtrHears s addr [h])) := by
  rw [setPtr, get_bind, ← expectAck_then]
  exact sendAck_nack L _ hb ha _

theorem setPtr_silent (L : Listening s) (addr : Addr) (ha : answers s (setPtrHears s addr []) = true) :
    setPtr addr s = .error (.timeout .noAck) (playAll s (setPtrHears s addr [])) := by
  rw [setPtr, get_bind, ← expectAck_then]
  exact sendAck_silent L _ ha _

theorem checkSize_ok {lo n : Nat} (h1 : lo ≤ n) (h2 : n ≤ s.prm.maxBurst) : checkSize lo n s = .ok () s := by
  simp [checkSize, Nat.not_lt.2 h1, Nat.not_lt.2 h2]

theorem checkSize_error {lo n : Nat} (h : n < lo ∨ s.prm.maxBurst < n) :
    checkSize lo n s = .error (.sizeError n) s := by
  simp [checkSize, h]

/-- R99. -/
theorem repeatOp_eq (L : Listening s) {n : Nat} (h1 : 1 ≤ n) (h2 : n ≤ s.prm.maxBurst) :
    repeatOp n s = .ok () (playAll s (repeatBeats s n)) := by
  rw [repeatOp, bind_ok (checkSize_ok h1 h2), get_bind]
  exact send_eq L _

/-- The burst bytes after the first (R100). -/
theorem burstRest_eq (data : List (Byte × Nat)) : ∀ {s : State}, Listening s →
    answers s (burstRestBeats s data) = true →
    burstRest (data.map Prod.fst) s = .ok () (playAll s (burstRestBeats s data)) := by
  induction data with
  | nil => intro s _ _; rfl
  | cons d ds ih =>
    intro s L ha
    have e : burstRestBeats s (d :: ds) = [.tx [d.1], .rx 1 [ackAfter s d.2]] ++ burstRestBeats s ds := by
      simp [burstRestBeats]
    rw [e] at ha ⊢
    have hr : ∀ t : State, t.prm = s.prm → burstRestBeats t ds = burstRestBeats s ds := by
      intro t ht
      simp [burstRestBeats, ackAfter, ht]
    have h2 := answers_right ha
    rw [List.map_cons, burstRest, playAll_append]
    refine (sendAck_eq L _ (by rfl) (answers_left ha) _).trans ?_
    have e2 := hr (playAll s [.tx [d.1], .rx 1 [ackAfter s d.2]]) (playAll_prm _ _)
    rw [← e2] at h2 ⊢
    exact ih (L.playAll _) h2

/-- R100, every byte acknowledged. -/
theorem burstWrite_eq (L : Listening s) (data : List (Byte × Nat)) (h1 : 1 ≤ data.length)
    (h2 : data.length ≤ s.prm.maxBurst) (ha : answers s (burstWriteBeats s data) = true) :
    burstWrite (data.map Prod.fst) s = .ok () (playAll s (burstWriteBeats s data)) := by
  match data, h1, ha with
  | d :: ds, h1, ha =>
    rw [burstWrite, bind_ok (checkSize_ok (by simp) (by simpa using h2)), get_bind]
    have hr : burstRestBeats (playAll s [.tx [s.prm.sync, 0x64#8, d.1], .rx 1 [ackAfter s d.2]]) ds =
        burstRestBeats s ds := by simp [burstRestBeats, ackAfter]
    have h3 := answers_right (bs := [.tx [s.prm.sync, 0x64#8, d.1], .rx 1 [ackAfter s d.2]]) ha
    refine (sendAck_eq L _ rfl (answers_left (cs := burstRestBeats s ds) ha) _).trans ?_
    rw [burstWriteBeats, playAll_append]
    rw [← hr] at h3 ⊢
    exact burstRest_eq ds (L.playAll _) h3

/-- R101. -/
theorem burstRead_eq (L : Listening s) {n : Nat} {heard : List Heard} (h1 : 1 ≤ n) (h2 : n ≤ s.prm.maxBurst)
    (hn : heard.length = n) (ha : answers s (burstReadBeats s n heard) = true) :
    burstRead n s = .ok (heard.map Heard.byte) (playAll s (burstReadBeats s n heard)) := by
  rw [burstRead, bind_ok (checkSize_ok h1 h2), get_bind, bind_ok (send_eq L _)]
  exact readBytes_eq (L.playAll _) hn (answers_right (bs := [.tx _]) ha)

theorem burstRead_short (L : Listening s) {n : Nat} {heard : List Heard} (h2 : n ≤ s.prm.maxBurst)
    (hn : heard.length < n) (ha : answers s (burstReadBeats s n heard) = true) :
    burstRead n s = .error (.timeout (.shortRead heard.length)) (playAll s (burstReadBeats s n heard)) := by
  rw [burstRead, bind_ok (checkSize_ok (by omega) h2), get_bind, bind_ok (send_eq L _)]
  exact readBytes_short (L.playAll _) hn (answers_right (bs := [.tx _]) ha)

/-- R102. -/
theorem sendKey_eq (L : Listening s) (key : List Byte) : sendKey key s = .ok () (playAll s (keyBeats s key)) := by
  rw [sendKey, get_bind, bind_ok (send_eq L _)]
  exact send_eq (L.playAll _) _

end Sys2Proof.Machine
end

