-- ==== Sys2Proof/Laws/Device.lean ====
section
/-! SUPPORT. The device-control operations and LINK_INIT as traces (42_device_control.md, 41_link.md R103), for the
answers the environment gives. -/

namespace Sys2Proof.Machine

open Sys2Proof.Safety

variable {s : State}

/-! ## Traces depend on the parameters and the configuration alone -/

section
variable {t : State} (hp : t.prm = s.prm)
include hp
theorem ldcsBeats_congr (a : CsAddr) (h : Heard) : ldcsBeats t a h = ldcsBeats s a h := by simp [ldcsBeats, hp]
theorem ldcsSilent_congr (a : CsAddr) : ldcsSilent t a = ldcsSilent s a := by simp [ldcsSilent, hp]
theorem stcsBeats_congr (a : CsAddr) (v : Byte) : stcsBeats t a v = stcsBeats s a v := by simp [stcsBeats, hp]
theorem ldsBeats_congr (addr : Addr) (h : Heard) : ldsBeats t addr h = ldsBeats s addr h := by simp [ldsBeats, hp]
theorem ldsSilent_congr (addr : Addr) : ldsSilent t addr = ldsSilent s addr := by simp [ldsSilent, hp]
theorem stsBeats_congr (addr : Addr) (v : Byte) (k1 k2 : Nat) : stsBeats t addr v k1 k2 = stsBeats s addr v k1 k2 := by
  simp [stsBeats, ackAfter, hp]
theorem setPtrBeats_congr (addr : Addr) (k : Nat) : setPtrBeats t addr k = setPtrBeats s addr k := by
  simp [setPtrBeats, setPtrHears, ackAfter, hp]
theorem repeatBeats_congr (n : Nat) : repeatBeats t n = repeatBeats s n := by simp [repeatBeats, hp]
theorem burstWriteBeats_congr (data : List (Byte × Nat)) : burstWriteBeats t data = burstWriteBeats s data := by
  cases data <;> simp [burstWriteBeats, burstRestBeats, ackAfter, hp]
theorem burstReadBeats_congr (n : Nat) (heard : List Heard) : burstReadBeats t n heard = burstReadBeats s n heard := by
  simp [burstReadBeats, hp]
theorem keyBeats_congr (key : List Byte) : keyBeats t key = keyBeats s key := by simp [keyBeats, hp]
theorem resetBeats_congr : resetBeats t = resetBeats s := by simp [resetBeats, stcsBeats, hp]
theorem loadBeats_congr (addr : Addr) (data : List (Byte × Nat)) (k : Nat) :
    loadBeats t addr data k = loadBeats s addr data k := by
  simp [loadBeats, setPtrBeats_congr hp, repeatBeats_congr hp, burstWriteBeats_congr hp]
theorem pageReadBeats_congr (addr : Addr) (n k : Nat) (heard : List Heard) :
    pageReadBeats t addr n k heard = pageReadBeats s addr n k heard := by
  simp [pageReadBeats, setPtrBeats_congr hp, repeatBeats_congr hp, burstReadBeats_congr hp]

variable (hc : t.cfg = s.cfg)
include hc
theorem nvmStatusAddr_congr : nvmStatusAddr t = nvmStatusAddr s := by simp [nvmStatusAddr, hp, hc]
theorem nvmCtrlaAddr_congr : nvmCtrlaAddr t = nvmCtrlaAddr s := by simp [nvmCtrlaAddr, hp, hc]
theorem busyBeats_congr (hs : List Heard) : busyBeats t hs = busyBeats s hs := by
  simp [busyBeats, ldsBeats, nvmStatusAddr, hp, hc]
theorem readyBeats_congr (p : Polls) : readyBeats t p = readyBeats s p := by
  simp [readyBeats, busyBeats_congr hp hc, ldsBeats_congr hp, nvmStatusAddr_congr hp hc]
theorem cmdBeats_congr (cmd : Byte) (k : Nat × Nat) : cmdBeats t cmd k = cmdBeats s cmd k := by
  simp [cmdBeats, stsBeats_congr hp, nvmCtrlaAddr_congr hp hc]
end

theorem endsReady_congr {t : State} (hp : t.prm = s.prm) (p : Polls) : endsReady t p = endsReady s p := by
  simp [endsReady, hp]

/-- Run a trace, then another from where it ends. -/
theorem answers_then {bs cs : List Beat} (ha : answers s (bs ++ cs) = true) {cs' : List Beat}
    (e : cs' = cs) : answers (playAll s bs) cs' = true := e ▸ answers_right ha

theorem sleep_eq (us : Nat) : sleep us s = .ok () (playAll s [.pause us]) := rfl

/-! ## Reset, commands -/

/-- R105. -/
theorem resetToggle_eq (L : Listening s) : resetToggle s = .ok () (playAll s (resetBeats s)) := by
  rw [resetToggle, get_bind, bind_ok (stcs_eq L _ _), stcs_eq (L.playAll _), stcsBeats_congr (playAll_prm _ _),
    ← playAll_append]
  rfl

/-- R110. -/
theorem execCommand_eq (L : Listening s) (cmd : Byte) (k : Nat × Nat) (ha : answers s (cmdBeats s cmd k) = true) :
    execCommand cmd s = .ok () (playAll s (cmdBeats s cmd k)) := by
  rw [execCommand, get_bind]
  exact sts_eq L _ _ _ _ ha

/-! ## The ready wait (R109) -/

theorem busyBeats_cons (h : Heard) (hs : List Heard) :
    busyBeats s (h :: hs) = (ldsBeats s (nvmStatusAddr s) h ++ [.pause (s.prm.readyPollMs * 1000)]) ++ busyBeats s hs := by
  simp [busyBeats]

/-- Busy polls use up the polls left. -/
theorem pollReady_busy (hs : List Heard) (k : Nat) : ∀ {s : State}, Listening s →
    (∀ h ∈ hs, writeErrorFlag s.prm h.byte = false ∧ nvmBusy s.prm h.byte = true) →
    answers s (busyBeats s hs) = true →
    pollReady (hs.length + k) s = pollReady k (playAll s (busyBeats s hs)) := by
  induction hs with
  | nil => intro s _ _ _; simp [busyBeats]
  | cons h hs ih =>
    intro s L hb ha
    obtain ⟨h1, h2⟩ := hb h (by simp)
    rw [busyBeats_cons] at ha ⊢
    have ha1 := answers_left (answers_left ha)
    have e : (h :: hs).length + k = (hs.length + k) + 1 := by simp; omega
    rw [e, pollReady, get_bind, bind_ok (lds_eq L _ ha1)]
    simp only [h1, Bool.false_eq_true, if_false, h2, if_true]
    rw [bind_ok (sleep_eq _), ← playAll_append (bs := ldsBeats s (nvmStatusAddr s) h), playAll_append (cs := busyBeats s hs)]
    have hp := playAll_prm (ldsBeats s (nvmStatusAddr s) h ++ [.pause (s.prm.readyPollMs * 1000)]) s
    have hc := playAll_cfg (ldsBeats s (nvmStatusAddr s) h ++ [.pause (s.prm.readyPollMs * 1000)]) s
    rw [← busyBeats_congr hp hc hs]
    refine ih (L.playAll _) ?_ (answers_then ha (busyBeats_congr hp hc hs))
    intro x hx
    rw [hp]
    exact hb x (by simp [hx])

/-- Every poll busy. -/
theorem waitReady_timeout (L : Listening s) (hs : List Heard)
    (hn : hs.length = s.prm.readyTimeoutMs / s.prm.readyPollMs)
    (hb : ∀ h ∈ hs, writeErrorFlag s.prm h.byte = false ∧ nvmBusy s.prm h.byte = true)
    (ha : answers s (busyBeats s hs) = true) :
    waitReady s = .error (.timeout .notReady) (playAll s (busyBeats s hs)) := by
  rw [waitReady, get_bind, ← hn, ← Nat.add_zero hs.length, pollReady_busy hs 0 L hb ha]
  rfl

/-- Busy polls, then one more read. -/
theorem pollReady_last (L : Listening s) (hs : List Heard)
    (hn : hs.length < s.prm.readyTimeoutMs / s.prm.readyPollMs)
    (hb : ∀ h ∈ hs, writeErrorFlag s.prm h.byte = false ∧ nvmBusy s.prm h.byte = true)
    (ha : answers s (busyBeats s hs) = true) :
    ∃ k, waitReady s = pollReady (k + 1) (playAll s (busyBeats s hs)) := by
  refine ⟨s.prm.readyTimeoutMs / s.prm.readyPollMs - hs.length - 1, ?_⟩
  rw [waitReady, get_bind, ← pollReady_busy hs _ L hb ha]
  congr 1
  omega

theorem waitReady_last (L : Listening s) (p : Polls)
    (hn : p.waiting.length < s.prm.readyTimeoutMs / s.prm.readyPollMs)
    (hb : ∀ h ∈ p.waiting, writeErrorFlag s.prm h.byte = false ∧ nvmBusy s.prm h.byte = true)
    (ha : answers s (readyBeats s p) = true) : ∃ k,
    waitReady s =
      if writeErrorFlag s.prm p.last.byte then .error (.writeError p.last.byte) (playAll s (readyBeats s p))
      else if nvmBusy s.prm p.last.byte then
        (sleep (s.prm.readyPollMs * 1000) >>= fun _ => pollReady k) (playAll s (readyBeats s p))
      else .ok () (playAll s (readyBeats s p)) := by
  obtain ⟨k, hk⟩ := pollReady_last L p.waiting hn hb (answers_left ha)
  refine ⟨k, ?_⟩
  have hp := playAll_prm (busyBeats s p.waiting) s
  have hc := playAll_cfg (busyBeats s p.waiting) s
  have e : ldsBeats (playAll s (busyBeats s p.waiting)) (nvmStatusAddr (playAll s (busyBeats s p.waiting))) p.last =
      ldsBeats s (nvmStatusAddr s) p.last := by rw [ldsBeats_congr hp, nvmStatusAddr_congr hp hc]
  rw [hk, pollReady, get_bind, bind_ok (lds_eq (L.playAll _) _ (answers_then ha e)), e, hp, ← playAll_append]
  change (if writeErrorFlag s.prm p.last.byte = true then _ else _ : Op Unit) (playAll s (readyBeats s p)) = _
  split <;> [rfl; split <;> rfl]

/-- R109, ready. -/
theorem waitReady_eq (L : Listening s) (p : Polls) (hr : endsReady s p = true)
    (ha : answers s (readyBeats s p) = true) : waitReady s = .ok () (playAll s (readyBeats s p)) := by
  simp only [endsReady, Bool.and_eq_true, decide_eq_true_eq, List.all_eq_true, Bool.not_eq_true'] at hr
  obtain ⟨⟨⟨hn, hb⟩, hw⟩, hl⟩ := hr
  obtain ⟨k, hk⟩ := waitReady_last L p hn hb ha
  rw [hk, hw, hl]
  rfl

/-- R109, write error. -/
theorem waitReady_writeError (L : Listening s) (p : Polls)
    (hn : p.waiting.length < s.prm.readyTimeoutMs / s.prm.readyPollMs)
    (hb : ∀ h ∈ p.waiting, writeErrorFlag s.prm h.byte = false ∧ nvmBusy s.prm h.byte = true)
    (hw : writeErrorFlag s.prm p.last.byte = true) (ha : answers s (readyBeats s p) = true) :
    waitReady s = .error (.writeError p.last.byte) (playAll s (readyBeats s p)) := by
  obtain ⟨k, hk⟩ := waitReady_last L p hn hb ha
  rw [hk, hw]
  rfl

/-- R109, a status read not answered. -/
theorem waitReady_silent (L : Listening s) (hs : List Heard)
    (hn : hs.length < s.prm.readyTimeoutMs / s.prm.readyPollMs)
    (hb : ∀ h ∈ hs, writeErrorFlag s.prm h.byte = false ∧ nvmBusy s.prm h.byte = true)
    (ha : answers s (busyBeats s hs ++ ldsSilent s (nvmStatusAddr s)) = true) :
    waitReady s = .error (.timeout (.shortRead 0)) (playAll s (busyBeats s hs ++ ldsSilent s (nvmStatusAddr s))) := by
  obtain ⟨k, hk⟩ := pollReady_last L hs hn hb (answers_left ha)
  have hp := playAll_prm (busyBeats s hs) s
  have hc := playAll_cfg (busyBeats s hs) s
  have e : ldsSilent (playAll s (busyBeats s hs)) (nvmStatusAddr (playAll s (busyBeats s hs))) =
      ldsSilent s (nvmStatusAddr s) := by rw [ldsSilent_congr hp, nvmStatusAddr_congr hp hc]
  rw [hk, pollReady, get_bind, bind_error (lds_silent (L.playAll _) _ (answers_then ha e)), e, ← playAll_append]

/-! ## Page operations -/

/-- A trace, then an operation whose trace is the same from any state with these parameters and configuration. -/
theorem then_eq {α : Type} {m : Op α} {a : α} {bs cs : List Beat} (L : Listening s)
    (ha : answers s (bs ++ cs) = true) (cs' : State → List Beat)
    (hm : ∀ t : State, t.prm = s.prm → t.cfg = s.cfg → Listening t → answers t (cs' t) = true →
      m t = .ok a (playAll t (cs' t)))
    (e : ∀ t : State, t.prm = s.prm → t.cfg = s.cfg → cs' t = cs) :
    m (playAll s bs) = .ok a (playAll s (bs ++ cs)) := by
  have e' := e (playAll s bs) (playAll_prm _ _) (playAll_cfg _ _)
  rw [hm _ (playAll_prm _ _) (playAll_cfg _ _) (L.playAll _) (answers_then ha e'), e', ← playAll_append]

/-- R42, R118. -/
theorem burstTo_eq (L : Listening s) (addr : Addr) (data : List (Byte × Nat)) (k : Nat) (h1 : 1 ≤ data.length)
    (h2 : data.length ≤ s.prm.maxBurst) (ha : answers s (loadBeats s addr data k) = true) :
    burstTo addr (data.map Prod.fst) s = .ok () (playAll s (loadBeats s addr data k)) := by
  have hl : (data.map Prod.fst).length = data.length := List.length_map ..
  rw [burstTo, bind_ok (setPtr_eq L addr k (answers_left (answers_left ha))), hl]
  have hr := then_eq (m := repeatOp data.length) (a := ()) (bs := setPtrBeats s addr k) L (answers_left ha)
    (fun t => repeatBeats t data.length)
    (fun t hp _ Lt _ => repeatOp_eq Lt h1 (by rw [hp]; exact h2)) (fun t hp _ => repeatBeats_congr hp _)
  rw [bind_ok hr]
  exact then_eq (m := burstWrite (data.map Prod.fst)) L ha (fun t => burstWriteBeats t data)
    (fun t hp _ Lt hat => burstWrite_eq Lt data h1 (by rw [hp]; exact h2) hat)
    (fun t hp _ => burstWriteBeats_congr hp _)

/-- R114. -/
theorem pageRead_eq (L : Listening s) (addr : Addr) {n : Nat} (k : Nat) {heard : List Heard} (h1 : 2 ≤ n)
    (h2 : n ≤ s.prm.maxBurst) (hn : heard.length = n) (ha : answers s (pageReadBeats s addr n k heard) = true) :
    pageRead addr n s = .ok (heard.map Heard.byte) (playAll s (pageReadBeats s addr n k heard)) := by
  rw [pageRead, bind_ok (checkSize_ok h1 h2), bind_ok (setPtr_eq L addr k (answers_left (answers_left ha)))]
  have hr := then_eq (m := repeatOp n) (a := ()) (bs := setPtrBeats s addr k) L (answers_left ha)
    (fun t => repeatBeats t n)
    (fun t hp _ Lt _ => repeatOp_eq Lt (by omega) (by rw [hp]; exact h2)) (fun t hp _ => repeatBeats_congr hp _)
  rw [bind_ok hr]
  exact then_eq (m := burstRead n) L ha (fun t => burstReadBeats t n heard)
    (fun t hp _ Lt hat => burstRead_eq Lt (by omega) (by rw [hp]; exact h2) hn hat)
    (fun t hp _ => burstReadBeats_congr hp _ _)

theorem waitReady_then (L : Listening s) (p : Polls) (hr : endsReady s p = true) {bs : List Beat}
    (ha : answers s (bs ++ readyBeats s p) = true) :
    waitReady (playAll s bs) = .ok () (playAll s (bs ++ readyBeats s p)) :=
  then_eq L ha (fun t => readyBeats t p)
    (fun _ hp _ Lt hat => waitReady_eq Lt p (by rw [endsReady_congr hp]; exact hr) hat)
    (fun _ hp hc => readyBeats_congr hp hc p)

theorem execCommand_then (L : Listening s) (cmd : Byte) (k : Nat × Nat) {bs : List Beat}
    (ha : answers s (bs ++ cmdBeats s cmd k) = true) :
    execCommand cmd (playAll s bs) = .ok () (playAll s (bs ++ cmdBeats s cmd k)) :=
  then_eq L ha (fun t => cmdBeats t cmd k) (fun _ _ _ Lt hat => execCommand_eq Lt cmd k hat)
    (fun _ hp hc => cmdBeats_congr hp hc cmd k)

theorem burstTo_then (L : Listening s) (addr : Addr) (data : List (Byte × Nat)) (k : Nat) (h1 : 1 ≤ data.length)
    (h2 : data.length ≤ s.prm.maxBurst) {bs : List Beat} (ha : answers s (bs ++ loadBeats s addr data k) = true) :
    burstTo addr (data.map Prod.fst) (playAll s bs) = .ok () (playAll s (bs ++ loadBeats s addr data k)) :=
  then_eq L ha (fun t => loadBeats t addr data k)
    (fun _ hp _ Lt hat => burstTo_eq Lt addr data k h1 (by rw [hp]; exact h2) hat)
    (fun _ hp _ => loadBeats_congr hp addr data k)

/-- R113. -/
theorem pageWrite_eq (L : Listening s) (addr : Addr) (data : List Byte) (r : PageWriteRun) (h1 : 1 ≤ data.length)
    (h2 : data.length ≤ s.prm.maxBurst) (hf : pageWriteFits s data r = true)
    (ha : answers s (pageWriteBeats s addr data r) = true) :
    pageWrite addr data s = .ok () (playAll s (pageWriteBeats s addr data r)) := by
  simp only [pageWriteFits, Bool.and_eq_true, decide_eq_true_eq] at hf
  obtain ⟨⟨⟨r1, r2⟩, r3⟩, hn⟩ := hf
  have hz : (data.zip r.acks).length = data.length := by simp [hn]
  have hd : (data.zip r.acks).map Prod.fst = data := List.map_fst_zip (by omega)
  have a1 := answers_left ha
  have a2 := answers_left a1
  have a3 := answers_left a2
  have a4 := answers_left a3
  have hb := burstTo_then L addr (data.zip r.acks) r.ptr (by omega) (by omega) a2
  rw [hd] at hb
  rw [pageWrite, bind_ok (checkSize_ok h1 h2), bind_ok (waitReady_eq L _ r1 (answers_left a4)), get_bind, playAll_prm,
    bind_ok (execCommand_then L _ r.pbc a4), bind_ok (waitReady_then L _ r2 a3), bind_ok hb,
    bind_ok (execCommand_then L _ r.wp a1)]
  exact waitReady_then L _ r3 ha

/-- R115. -/
theorem pageErase_eq (L : Listening s) (addr : Addr) (p1 p2 : Polls) (k : Nat) (acks : List Nat) (c : Nat × Nat)
    (h1 : 1 ≤ pageBytes s) (h2 : pageBytes s ≤ s.prm.maxBurst) (r1 : endsReady s p1 = true)
    (r2 : endsReady s p2 = true) (hn : acks.length = pageBytes s)
    (ha : answers s (readyBeats s p1 ++ loadBeats s addr ((List.replicate (pageBytes s) s.prm.eraseValue).zip acks) k ++
      cmdBeats s s.prm.cmdEr c ++ readyBeats s p2) = true) :
    pageErase addr s = .ok () (playAll s (readyBeats s p1 ++
      loadBeats s addr ((List.replicate (pageBytes s) s.prm.eraseValue).zip acks) k ++
      cmdBeats s s.prm.cmdEr c ++ readyBeats s p2)) := by
  have a1 := answers_left ha
  have a2 := answers_left a1
  have hz : ((List.replicate (pageBytes s) s.prm.eraseValue).zip acks).length = pageBytes s := by simp [hn]
  have hb := burstTo_then L addr _ k (by omega) (by omega) a2
  rw [List.map_fst_zip (by simp [hn])] at hb
  have hpb : pageBytes (playAll s (readyBeats s p1)) = pageBytes s := by simp [pageBytes, playAll_cfg]
  rw [pageErase, bind_ok (waitReady_eq L _ r1 (answers_left a2)), get_bind, hpb, playAll_prm, bind_ok hb,
    bind_ok (execCommand_then L _ c a1)]
  exact waitReady_then L _ r2 ha

theorem mapErr_ok {α : Type} {f : Err → Err} {m : Op α} {a : α} {t : State} (h : m s = .ok a t) :
    mapErr f m s = .ok a t := by rw [mapErr_apply, h]

theorem mapErr_error {α : Type} {f : Err → Err} {m : Op α} {e : Err} {t : State} (h : m s = .error e t) :
    mapErr f m s = .error (f e) t := by rw [mapErr_apply, h]

/-- R111. -/
theorem chipErase_eq (L : Listening s) (p1 p2 : Polls) (k : Nat × Nat) (r1 : endsReady s p1 = true)
    (r2 : endsReady s p2 = true)
    (ha : answers s (readyBeats s p1 ++ cmdBeats s s.prm.cmdCher k ++ readyBeats s p2) = true) :
    chipErase s = .ok () (playAll s (readyBeats s p1 ++ cmdBeats s s.prm.cmdCher k ++ readyBeats s p2)) := by
  have a1 := answers_left ha
  rw [chipErase, bind_ok (mapErr_ok (waitReady_eq L _ r1 (answers_left a1))), get_bind, playAll_prm,
    bind_ok (execCommand_then L _ k a1)]
  exact mapErr_ok (waitReady_then L _ r2 ha)

/-! ## Programming mode (R106, R107) -/

theorem orUnlock_ok {α : Type} {step : UnlockStep} {m : Op α} {a : α} {t : State} (h : m s = .ok a t) :
    orUnlock step m s = .ok a t := mapErr_ok h

theorem orUnlock_error {α : Type} {step : UnlockStep} {m : Op α} {e : Err} {t : State} (h : m s = .error e t) :
    orUnlock step m s = .error (unlockError step e) t := mapErr_error h

theorem progFlag_eq (L : Listening s) {h : Heard} (ha : answers s (enterBeats s h) = true) :
    progFlag s = .ok (inProgMode s.prm h.byte) (playAll s (enterBeats s h)) := by
  rw [progFlag, get_bind, bind_ok (ldcs_eq L _ ha)]
  rfl

/-- R106 on a target already in programming mode. -/
theorem enterProg_idempotent (L : Listening s) {h : Heard} (hp : inProgMode s.prm h.byte = true)
    (ha : answers s (enterBeats s h) = true) :
    enterProg s = .ok () (setProgMode true (playAll s (enterBeats s h))) := by
  rw [enterProg, onError_apply, bind_ok (orUnlock_ok (progFlag_eq L ha)), hp]
  rfl

/-- Locked polls with their sleeps (R107). -/
def lockedBeats (s : State) (hs : List Heard) : List Beat :=
  hs.flatMap fun h => ldcsBeats s s.prm.csAsiSysStatus h ++ [Beat.pause (s.prm.unlockPollMs * 1000)]

theorem lockedBeats_congr {t : State} (hp : t.prm = s.prm) (hs : List Heard) : lockedBeats t hs = lockedBeats s hs := by
  simp [lockedBeats, ldcsBeats, hp]

theorem pollUnlocked_locked (hs : List Heard) (k : Nat) : ∀ {s : State}, Listening s →
    (∀ h ∈ hs, isLocked s.prm h.byte = true) → answers s (lockedBeats s hs) = true →
    pollUnlocked (hs.length + k) s = pollUnlocked k (playAll s (lockedBeats s hs)) := by
  induction hs with
  | nil => intro s _ _ _; simp [lockedBeats]
  | cons h hs ih =>
    intro s L hb ha
    have e1 : lockedBeats s (h :: hs) =
        (ldcsBeats s s.prm.csAsiSysStatus h ++ [.pause (s.prm.unlockPollMs * 1000)]) ++ lockedBeats s hs := by
      simp [lockedBeats]
    rw [e1] at ha ⊢
    have e : (h :: hs).length + k = (hs.length + k) + 1 := by simp; omega
    have hl := hb h (by simp)
    rw [e, pollUnlocked, get_bind, bind_ok (ldcs_eq L _ (answers_left (answers_left ha)))]
    simp only [hl, if_true]
    rw [bind_ok (sleep_eq _), ← playAll_append (bs := ldcsBeats s s.prm.csAsiSysStatus h),
      playAll_append (cs := lockedBeats s hs)]
    have hp := playAll_prm (ldcsBeats s s.prm.csAsiSysStatus h ++ [.pause (s.prm.unlockPollMs * 1000)]) s
    rw [← lockedBeats_congr hp hs]
    refine ih (L.playAll _) ?_ (answers_then ha (lockedBeats_congr hp hs))
    intro x hx
    rw [hp]
    exact hb x (by simp [hx])

/-- R107, unlocked in time. -/
theorem waitUnlocked_eq (L : Listening s) (p : Polls)
    (hn : p.waiting.length < s.prm.unlockWaitMs / s.prm.unlockPollMs)
    (hb : ∀ h ∈ p.waiting, isLocked s.prm h.byte = true) (hl : isLocked s.prm p.last.byte = false)
    (ha : answers s (lockedBeats s p.waiting ++ ldcsBeats s s.prm.csAsiSysStatus p.last) = true) :
    waitUnlocked s = .ok true (playAll s (lockedBeats s p.waiting ++ ldcsBeats s s.prm.csAsiSysStatus p.last)) := by
  have hk : s.prm.unlockWaitMs / s.prm.unlockPollMs =
      p.waiting.length + ((s.prm.unlockWaitMs / s.prm.unlockPollMs - p.waiting.length - 1) + 1) := by omega
  have hp := playAll_prm (lockedBeats s p.waiting) s
  have e := ldcsBeats_congr hp s.prm.csAsiSysStatus p.last
  rw [waitUnlocked, get_bind, hk, pollUnlocked_locked _ _ L hb (answers_left ha), pollUnlocked, get_bind, hp,
    bind_ok (ldcs_eq (L.playAll _) _ (answers_then ha e)), e, ← playAll_append]
  simp only [hl]
  rfl

/-- R107, every poll locked. -/
theorem waitUnlocked_locked (L : Listening s) (hs : List Heard)
    (hn : hs.length = s.prm.unlockWaitMs / s.prm.unlockPollMs) (hb : ∀ h ∈ hs, isLocked s.prm h.byte = true)
    (ha : answers s (lockedBeats s hs) = true) : waitUnlocked s = .ok false (playAll s (lockedBeats s hs)) := by
  rw [waitUnlocked, get_bind, ← hn, ← Nat.add_zero hs.length, pollUnlocked_locked hs 0 L hb ha]
  rfl

/-- R106, the unlock sequence. -/
theorem enterProg_unlocks (L : Listening s) (r : UnlockRun) (hu : unlocks s r = true)
    (ha : answers s (unlockBeats s r) = true) :
    enterProg s = .ok () (setProgMode true (playAll s (unlockBeats s r))) := by
  simp only [unlocks, Bool.and_eq_true, decide_eq_true_eq, List.all_eq_true, Bool.not_eq_true'] at hu
  obtain ⟨⟨⟨⟨⟨u1, u2⟩, u3⟩, u4⟩, u5⟩, u6⟩ := hu
  have e0 : unlockBeats s r = ldcsBeats s s.prm.csAsiSysStatus r.status ++ keyBeats s s.prm.keyNvmprog ++
      ldcsBeats s s.prm.csAsiKeyStatus r.keyStatus ++ resetBeats s ++
      (lockedBeats s r.lock.waiting ++ ldcsBeats s s.prm.csAsiSysStatus r.lock.last) ++
      ldcsBeats s s.prm.csAsiSysStatus r.final := by
    simp [unlockBeats, lockStepBeats, keyStepBeats, lockedBeats, List.append_assoc]
  rw [e0] at ha ⊢
  have a1 := answers_left ha
  have a2 := answers_left a1
  have a3 := answers_left a2
  have a4 := answers_left a3
  have a5 := answers_left a4
  have k1 := then_eq (m := sendKey s.prm.keyNvmprog) (a := ()) L a4 (fun t => keyBeats t s.prm.keyNvmprog)
    (fun t _ _ Lt _ => sendKey_eq Lt _) (fun t hp _ => keyBeats_congr hp _)
  have k2 := then_eq (m := ldcs s.prm.csAsiKeyStatus) (a := r.keyStatus.byte) L a3
    (fun t => ldcsBeats t s.prm.csAsiKeyStatus r.keyStatus)
    (fun t _ _ Lt hat => ldcs_eq Lt _ hat) (fun t hp _ => ldcsBeats_congr hp _ _)
  have k3 := then_eq (m := resetToggle) (a := ()) L a2 (fun t => resetBeats t)
    (fun t _ _ Lt _ => resetToggle_eq Lt) (fun t hp _ => resetBeats_congr hp)
  have k4 := then_eq (m := waitUnlocked) (a := true) L a1
    (fun t => lockedBeats t r.lock.waiting ++ ldcsBeats t t.prm.csAsiSysStatus r.lock.last)
    (fun t hp _ Lt hat => waitUnlocked_eq Lt r.lock (by rw [hp]; exact u3) (by rw [hp]; exact u4)
      (by rw [hp]; exact u5) hat)
    (fun t hp _ => by rw [lockedBeats_congr hp, ldcsBeats_congr hp, hp])
  have k5 := then_eq (m := progFlag) (a := true) L ha (fun t => enterBeats t r.final)
    (fun t hp _ Lt hat => by rw [progFlag_eq Lt hat, hp, u6]) (fun t hp _ => by rw [enterBeats, ldcsBeats_congr hp, hp])
  have k0 : progFlag s = .ok false (playAll s (ldcsBeats s s.prm.csAsiSysStatus r.status)) := by
    rw [progFlag_eq L a5, u1]
    rfl
  rw [enterProg, onError_apply, bind_ok (orUnlock_ok k0)]
  simp only [Bool.false_eq_true, if_false]
  rw [unlockTarget, get_bind, playAll_prm, bind_ok (orUnlock_ok k1), bind_ok (orUnlock_ok k2)]
  simp only [u2, if_true]
  rw [bind_ok (orUnlock_ok k3), bind_ok (orUnlock_ok k4)]
  simp only [if_true]
  rw [bind_ok (orUnlock_ok k5)]
  rfl

/-! ## LINK_INIT (R103) -/

/-- One attempt up to its status read. -/
theorem tryLink_linked (L : Listening s) {h : Heard} (ha : answers s (linkBeats s h) = true) :
    tryLink s = (if h.byte = 0#8 then raise .linkDownStatusZero else enterProg : Op Unit)
      (playAll s (linkBeats s h)) := by
  have a1 := answers_left ha
  have k1 := then_eq (m := stcs s.prm.csCtrlb (oneBit s.prm.ctrlbCcdetdis)) (a := ()) L (answers_left a1)
    (fun t => stcsBeats t s.prm.csCtrlb (BitVec.ofNat 8 (2 ^ s.prm.ctrlbCcdetdis)))
    (fun t _ _ Lt _ => stcs_eq Lt _ _) (fun t hp _ => stcsBeats_congr hp _ _)
  have k2 := then_eq (m := stcs s.prm.csCtrla (oneBit s.prm.ctrlaIbdly)) (a := ()) L a1
    (fun t => stcsBeats t s.prm.csCtrla (BitVec.ofNat 8 (2 ^ s.prm.ctrlaIbdly)))
    (fun t _ _ Lt _ => stcs_eq Lt _ _) (fun t hp _ => stcsBeats_congr hp _ _)
  have k3 := then_eq (m := ldcs s.prm.csStatusa) (a := h.byte) L ha (fun t => ldcsBeats t s.prm.csStatusa h)
    (fun t _ _ Lt hat => ldcs_eq Lt _ hat) (fun t hp _ => ldcsBeats_congr hp _ _)
  rw [tryLink, bind_ok (phyDoubleBreak_eq L.isOpen), get_bind]
  change (stcs s.prm.csCtrlb (oneBit s.prm.ctrlbCcdetdis) >>= _) (playAll s [.db]) = _
  rw [bind_ok k1]
  refine (bind_ok k2).trans ?_
  exact bind_ok k3

/-- R103, an attempt whose status is not zero and whose ENTER_PROG succeeds. -/
theorem linkInit_eq (L : Listening s) (hn : 0 < s.prm.linkInitAttempts) {h : Heard} (hz : h.byte ≠ 0#8)
    {bs : List Beat} (ha : answers s (linkBeats s h ++ bs) = true)
    (he : ∀ t : State, t.prm = s.prm → t.cfg = s.cfg → Listening t → answers t bs = true →
      enterProg t = .ok () (setProgMode true (playAll t bs))) :
    linkInit s = .ok () (setProgMode true (playAll s (linkBeats s h ++ bs))) := by
  obtain ⟨k, hk⟩ : ∃ k, s.prm.linkInitAttempts = k + 1 := ⟨s.prm.linkInitAttempts - 1, by omega⟩
  have L' : Listening (setProgMode false s) := L.withSession false s.seq s.rbuf
  have ha' : answers (setProgMode false s) (linkBeats (setProgMode false s) h ++ bs) = true := by
    rw [← ha]
    exact answers_withSession (linkBeats s h ++ bs) false s.seq s.rbuf s
  have e : playAll (setProgMode false s) (linkBeats (setProgMode false s) h ++ bs) =
      setProgMode false (playAll s (linkBeats s h ++ bs)) := by
    refine (playAll_withSession (linkBeats s h ++ bs) false s.seq s.rbuf s).trans ?_
    simp only [withSession, setProgMode]
    rw [← playAll_seq (linkBeats s h ++ bs) s, ← playAll_rbuf (linkBeats s h ++ bs) s]
  rw [linkInit, get_bind, hk, linkAttempts]
  rw [bind_ok (update_apply _ _)]
  have ht : tryLink (setProgMode false s) = .ok () (setProgMode true (playAll s (linkBeats s h ++ bs))) := by
    rw [tryLink_linked L' (answers_left ha'), if_neg hz,
      he (playAll (setProgMode false s) (linkBeats (setProgMode false s) h)) (playAll_prm _ (setProgMode false s))
        (playAll_cfg _ (setProgMode false s)) (L'.playAll _) (answers_right ha'), ← playAll_append, e]
    rfl
  rw [bind_ok (m := tryOp tryLink) (a := .ok ()) (by rw [tryOp_apply, ht])]
  rfl

end Sys2Proof.Machine
end

