-- ==== Sys2Proof/Laws/Memory.lean ====
section
/-! SUPPORT. The image memory (10_state.md R20): its canonical form, kept by the one operation that writes it and held
after reset; what a byte of it reads as after SET_IMAGE (43_page_sequencer.md R121); equal memories are equal data. -/

namespace Sys2Proof.Machine

variable {d : Byte}

/-! ## Canonical cells -/

theorem cellsFrom_mono {cs : List Host.Cell} {lo lo' : Nat} (h : cellsFrom d lo cs = true) (hl : lo' ≤ lo) :
    cellsFrom d lo' cs = true := by
  cases cs with
  | nil => rfl
  | cons c cs =>
    simp only [cellsFrom, Bool.and_eq_true, decide_eq_true_eq] at h ⊢
    exact ⟨⟨by omega, h.1.2⟩, h.2⟩

/-- Below the first offset nothing is listed. -/
theorem cellAt_below {cs : List Host.Cell} : ∀ {lo o : Nat}, cellsFrom d lo cs = true → o < lo → cellAt d cs o = d := by
  induction cs with
  | nil => intro lo o _ _; rfl
  | cons c cs ih =>
    intro lo o h ho
    simp only [cellsFrom, Bool.and_eq_true, decide_eq_true_eq] at h
    have hne : c.1 ≠ o := by omega
    simp only [cellAt, if_neg hne]
    exact ih h.2 (by omega)

/-- Equal memories are equal data. -/
theorem cells_ext {cs : List Host.Cell} : ∀ {ds : List Host.Cell} {lo : Nat}, cellsFrom d lo cs = true →
    cellsFrom d lo ds = true → (∀ o, cellAt d cs o = cellAt d ds o) → cs = ds := by
  induction cs with
  | nil =>
    intro ds lo _ h e
    cases ds with
    | nil => rfl
    | cons x xs =>
      simp only [cellsFrom, Bool.and_eq_true, bne_iff_ne] at h
      have := e x.1
      simp only [cellAt, if_true] at this
      exact absurd this.symm h.1.2
  | cons c cs ih =>
    intro ds lo hc h e
    cases ds with
    | nil =>
      simp only [cellsFrom, Bool.and_eq_true, bne_iff_ne] at hc
      have := e c.1
      simp only [cellAt, if_true] at this
      exact absurd this hc.1.2
    | cons x xs =>
      simp only [cellsFrom, Bool.and_eq_true, bne_iff_ne, decide_eq_true_eq] at h hc
      have hx : c.1 = x.1 := by
        rcases Nat.lt_trichotomy c.1 x.1 with hlt | heq | hlt
        · have := e c.1
          simp only [cellAt, if_true, if_neg (show x.1 ≠ c.1 by omega)] at this
          exact absurd (this.trans (cellAt_below h.2 (by omega))) hc.1.2
        · exact heq
        · have := e x.1
          simp only [cellAt, if_true, if_neg (show c.1 ≠ x.1 by omega)] at this
          exact absurd (this.symm.trans (cellAt_below hc.2 (by omega))) h.1.2
      have hb : c.2 = x.2 := by
        have := e c.1
        simpa only [cellAt, if_true, if_pos hx.symm] using this
      have ht : cs = xs := by
        refine ih hc.2 (by rw [hx]; exact h.2) fun o => ?_
        rcases Nat.lt_or_ge c.1 o with ho | ho
        · have := e o
          simpa only [cellAt, if_neg (show c.1 ≠ o by omega), if_neg (show x.1 ≠ o by omega)] using this
        · rw [cellAt_below hc.2 (by omega), cellAt_below h.2 (by omega)]
      rw [ht, Prod.ext hx hb]

/-! ## Cells of an image -/

theorem imageCells_canonical (bs : List Byte) : ∀ o, cellsFrom d o (imageCells d o bs) = true := by
  induction bs with
  | nil => intro o; rfl
  | cons b bs ih =>
    intro o
    simp only [imageCells]
    split
    · exact cellsFrom_mono (ih (o + 1)) (by omega)
    · rename_i hb
      simp [cellsFrom, hb, ih (o + 1)]

/-- Every byte of an image reads back, and past its end the unlisted value (R121). -/
theorem cellAt_imageCells (bs : List Byte) : ∀ o k, cellAt d (imageCells d o bs) (o + k) = (bs[k]?).getD d := by
  induction bs with
  | nil => intro o k; simp [imageCells, cellAt]
  | cons b bs ih =>
    intro o k
    cases k with
    | zero =>
      simp only [imageCells]
      split
      · rename_i hb
        rw [cellAt_below (imageCells_canonical bs (o + 1)) (by omega)]
        simp [hb]
      · simp [cellAt]
    | succ k =>
      have hk : o + (k + 1) = (o + 1) + k := by omega
      rw [hk]
      simp only [imageCells]
      split
      · rw [ih]
        simp
      · rw [cellAt, if_neg (by omega), ih]
        simp

/-- The watermark is one past the last cell (R121). -/
theorem imageUsed_eq (bs : List Byte) : ∀ o used,
    imageUsed d o used bs = ((imageCells d o bs).getLast?.map fun c => c.1 + 1).getD used := by
  induction bs with
  | nil => intro o used; rfl
  | cons b bs ih =>
    intro o used
    simp only [imageUsed, imageCells]
    split
    · exact ih _ _
    · rw [ih, List.getLast?_cons]
      cases (imageCells d (o + 1) bs).getLast? <;> rfl

theorem imageUsed_le (bs : List Byte) : ∀ o used, used ≤ o + bs.length → imageUsed d o used bs ≤ o + bs.length := by
  induction bs with
  | nil => intro o used h; simpa [imageUsed] using h
  | cons b bs ih =>
    intro o used h
    simp only [imageUsed, List.length_cons] at h ⊢
    have := ih (o + 1) (if b = d then used else o + 1) (by split <;> omega)
    omega

/-! ## The operations over the image memory -/

/-- The one operation that writes the image memory leaves it canonical. -/
theorem memoryWf_storeImage (image : List Byte) (fuse : Option (List Byte)) (s : State) :
    memoryWf (storeImage image fuse s) = true := imageCells_canonical image 0

/-- The image memory is canonical after reset. -/
theorem memoryWf_reset : memoryWf State.reset = true := rfl

/-- Byte `o` of the image memory after SET_IMAGE (R121). -/
theorem imageByte_storeImage (image : List Byte) (fuse : Option (List Byte)) (s : State) (o : Nat) :
    imageByte (storeImage image fuse s) o = (image[o]?).getD s.prm.eraseValue := by
  have := cellAt_imageCells (d := unlistedByte s.prm) image 0 o
  rw [Nat.zero_add] at this
  exact this

/-- Every byte reads as ERASE_VALUE after reset (R20). -/
theorem imageByte_reset (o : Nat) : imageByte State.reset o = State.reset.prm.eraseValue := rfl

/-- An operation that leaves a trace leaves the image memory canonical. -/
theorem Traced.memoryWf {ev : Bool} {s t : State} (h : Traced ev s t) (hr : s.rx = Rx.idle) (ht : s.tx = Tx.idle) :
    memoryWf t = memoryWf s := by
  obtain ⟨bs, _, _, e⟩ := h hr ht
  rw [e]
  simp only [Machine.memoryWf, withSession, playAll_flashImage, playAll_prm]

end Sys2Proof.Machine
end

