-- ==== Sys2Proof/Laws/Scripts.lean ====
section
/-! SUPPORT. What the operations do for every way their answers can go: each successful and each failing script of
Safety.lean, as the result and the trace of the operation it scripts, from any state with the script's parameters and
configuration. The pass laws chain these. -/

namespace Sys2Proof.Machine

open Sys2Proof.Safety

variable {α β : Type} {s t : State}

/-! ## The calculus -/

/-- An answer of an operation: a value or an error, and a state. -/
def ended (r : Except Err α) (t : State) : EStateM.Result Err State α :=
  match r with
  | .ok a => .ok a t
  | .error e => .error e t

/-- From every listening state with these parameters and configuration, where the environment answers the trace, the
operation leaves that trace and this result. -/
def Tells (s : State) (m : Op α) (bs : List Beat) (r : Except Err α) : Prop :=
  ∀ t : State, t.prm = s.prm → t.cfg = s.cfg → Listening t → answers t bs = true → m t = ended r (playAll t bs)

/-- The same with the flag of programming mode written at the end. -/
def Sets (s : State) (m : Op α) (bs : List Beat) (v : Bool) (r : Except Err α) : Prop :=
  ∀ t : State, t.prm = s.prm → t.cfg = s.cfg → Listening t → answers t bs = true →
    m t = ended r (setProgMode v (playAll t bs))

variable {m : Op α} {f : α → Op β} {a : α} {e : Err} {bs cs : List Beat} {r : Except Err α} {r' : Except Err β} {v : Bool}

theorem Tells.bind (hm : Tells s m bs (.ok a)) (hf : Tells s (f a) cs r') : Tells s (m >>= f) (bs ++ cs) r' := by
  intro t hp hc L ha
  rw [bind_ok (hm t hp hc L (answers_left ha)), hf _ ((playAll_prm _ _).trans hp) ((playAll_cfg _ _).trans hc) (L.playAll _)
    (answers_right ha), ← playAll_append]

theorem Tells.bind_error (hm : Tells s m bs (.error e)) : Tells s (m >>= f) bs (.error e) :=
  fun t hp hc L ha => Machine.bind_error (hm t hp hc L ha)

theorem Tells.bindSets (hm : Tells s m bs (.ok a)) (hf : Sets s (f a) cs v r') : Sets s (m >>= f) (bs ++ cs) v r' := by
  intro t hp hc L ha
  rw [bind_ok (hm t hp hc L (answers_left ha)), hf _ ((playAll_prm _ _).trans hp) ((playAll_cfg _ _).trans hc) (L.playAll _)
    (answers_right ha), ← playAll_append]

/-- An operation that first makes no trace. -/
theorem Tells.after (hm : ∀ t : State, t.prm = s.prm → t.cfg = s.cfg → m t = .ok a t) (hf : Tells s (f a) bs r') :
    Tells s (m >>= f) bs r' := by
  intro t hp hc L ha
  rw [bind_ok (hm t hp hc)]
  exact hf t hp hc L ha

theorem Tells.get {g : State → Op β} (h : ∀ t : State, t.prm = s.prm → t.cfg = s.cfg → Tells s (g t) bs r') :
    Tells s ((get : Op State) >>= g) bs r' := by
  intro t hp hc L ha
  rw [get_bind]
  exact h t hp hc t hp hc L ha

theorem Sets.get {g : State → Op β} (h : ∀ t : State, t.prm = s.prm → t.cfg = s.cfg → Sets s (g t) bs v r') :
    Sets s ((get : Op State) >>= g) bs v r' := by
  intro t hp hc L ha
  rw [get_bind]
  exact h t hp hc t hp hc L ha

theorem Tells.pure (a : α) : Tells s (pure a : Op α) [] (.ok a) := fun _ _ _ _ _ => rfl

theorem Tells.raise (e : Err) : Tells s (raise e : Op α) [] (.error e) := fun _ _ _ _ _ => rfl

theorem Tells.mapErr_ok {g : Err → Err} (h : Tells s m bs (.ok a)) : Tells s (mapErr g m) bs (.ok a) :=
  fun t hp hc L ha => Machine.mapErr_ok (h t hp hc L ha)

theorem Tells.mapErr_error {g : Err → Err} (h : Tells s m bs (.error e)) : Tells s (mapErr g m) bs (.error (g e)) :=
  fun t hp hc L ha => Machine.mapErr_error (h t hp hc L ha)

theorem Tells.of_eq {bs' : List Beat} (h : Tells s m bs r) (e : bs' = bs) : Tells s m bs' r := e ▸ h

theorem Sets.of_eq {bs' : List Beat} (h : Sets s m bs v r) (e : bs' = bs) : Sets s m bs' v r := e ▸ h

theorem tells_checkSize {lo n : Nat} (h1 : lo ≤ n) (h2 : n ≤ s.prm.maxBurst) (t : State) (hp : t.prm = s.prm) :
    checkSize lo n t = .ok () t := checkSize_ok h1 (by rw [hp]; exact h2)

/-! ## Frames -/

theorem tells_stcs (a : CsAddr) (v : Byte) : Tells s (stcs a v) (stcsBeats s a v) (.ok ()) := by
  intro t hp _ L _
  rw [stcs_eq L, stcsBeats_congr hp]
  rfl

theorem tells_ldcs (a : CsAddr) (h : Heard) : Tells s (ldcs a) (ldcsBeats s a h) (.ok h.byte) := by
  intro t hp _ L ha
  rw [← ldcsBeats_congr hp] at ha ⊢
  exact ldcs_eq L a ha

theorem tells_ldcsSilent (a : CsAddr) : Tells s (ldcs a) (ldcsSilent s a) (.error (.timeout (.shortRead 0))) := by
  intro t hp _ L ha
  rw [← ldcsSilent_congr hp] at ha ⊢
  exact ldcs_silent L a ha

theorem tells_sendKey (key : List Byte) : Tells s (sendKey key) (keyBeats s key) (.ok ()) := by
  intro t hp _ L _
  rw [sendKey_eq L, keyBeats_congr hp]
  rfl

theorem tells_send (bytes : List Byte) : Tells s (phySend bytes) [.tx bytes] (.ok ()) := fun _ _ _ L _ => send_eq L bytes

theorem tells_ack (k : Nat) : Tells s expectAck [.rx 1 [ackAfter s k]] (.ok ()) := by
  intro t hp _ L ha
  exact expectAck_eq L (by rw [hp]; rfl) ha

/-- An acknowledge wait that fails (41_link.md R93). -/
theorem tells_noAck {heard : List Heard} (hf : ackFails s.prm heard = true) :
    Tells s expectAck [.rx 1 heard] (.error (ackError heard)) := by
  intro t hp _ L ha
  match heard, hf with
  | [], _ => exact expectAck_silent L ha
  | [h], hf => exact expectAck_nack L (by rw [hp]; simpa [ackFails] using hf) ha

theorem tells_sts (addr : Addr) (v : Byte) (k1 k2 : Nat) : Tells s (sts addr v) (stsBeats s addr v k1 k2) (.ok ()) := by
  intro t hp _ L ha
  rw [← stsBeats_congr hp] at ha ⊢
  exact sts_eq L addr v k1 k2 ha

/-- Every failure of an STS (R97). -/
theorem tells_stsFail (addr : Addr) (v : Byte) (x : StsFail) (hf : ackFails s.prm (stsFailHeard x) = true) :
    Tells s (sts addr v) (stsFailBeats s addr v x) (.error (ackError (stsFailHeard x))) := by
  refine Tells.get fun t hp _ => ?_
  rw [hp]
  cases x with
  | address heard => exact (tells_send _).bind (tells_noAck hf).bind_error
  | value k heard => exact (tells_send _).bind ((tells_ack k).bind ((tells_send _).bind (tells_noAck hf)))

/-- Every failure of an NVM command (R110). -/
theorem tells_cmdFail (cmd : Byte) (x : StsFail) (hf : ackFails s.prm (stsFailHeard x) = true) :
    Tells s (execCommand cmd) (stsFailBeats s (nvmCtrlaAddr s) cmd x) (.error (ackError (stsFailHeard x))) := by
  refine Tells.get fun t hp hc => ?_
  rw [nvmCtrlaAddr_congr hp hc]
  exact tells_stsFail _ _ x hf

theorem tells_cmd (cmd : Byte) (k : Nat × Nat) : Tells s (execCommand cmd) (cmdBeats s cmd k) (.ok ()) := by
  intro t hp hc L ha
  rw [← cmdBeats_congr hp hc] at ha ⊢
  exact execCommand_eq L cmd k ha

theorem tells_setPtr (addr : Addr) (k : Nat) : Tells s (setPtr addr) (setPtrBeats s addr k) (.ok ()) := by
  intro t hp _ L ha
  rw [← setPtrBeats_congr hp] at ha ⊢
  exact setPtr_eq L addr k ha

theorem tells_setPtrFail (addr : Addr) {heard : List Heard} (hf : ackFails s.prm heard = true) :
    Tells s (setPtr addr) (setPtrHears s addr heard) (.error (ackError heard)) := by
  refine Tells.get fun t hp _ => ?_
  rw [hp]
  exact (tells_send _).bind (tells_noAck hf)

theorem tells_repeat {n : Nat} (h1 : 1 ≤ n) (h2 : n ≤ s.prm.maxBurst) :
    Tells s (repeatOp n) (repeatBeats s n) (.ok ()) := by
  intro t hp _ L _
  rw [repeatOp_eq L h1 (by rw [hp]; exact h2), repeatBeats_congr hp]
  rfl

/-! ## Bursts (R100, R101) -/

/-- Burst bytes after the first, the byte after the acknowledged ones not acknowledged. -/
theorem tells_burstRestFail (data : List Byte) : ∀ (acks : List Nat) {heard : List Heard}, acks.length < data.length →
    ackFails s.prm heard = true →
    Tells s (burstRest data)
      (burstRestBeats s (data.zip acks) ++ [.tx [data.getD acks.length 0#8], .rx 1 heard]) (.error (ackError heard)) := by
  induction data with
  | nil => intro acks heard h _; simp at h
  | cons d ds ih =>
    intro acks heard h hf
    cases acks with
    | nil => exact (tells_send _).bind (tells_noAck hf).bind_error
    | cons k ks =>
      have := ih ks (by simpa using h) hf
      refine Tells.of_eq ((tells_send [d]).bind ((tells_ack k).bind this)) ?_
      simp [burstRestBeats]

/-- Every failure of a BURST_WRITE on an open PHY (R100). -/
theorem tells_burstFail {data : List Byte} {acks : List Nat} {heard : List Heard} (h2 : data.length ≤ s.prm.maxBurst)
    (h : acks.length < data.length) (hf : ackFails s.prm heard = true) :
    Tells s (burstWrite data) (burstStops s data acks heard) (.error (ackError heard)) := by
  refine Tells.after (a := ()) (fun t hp _ => tells_checkSize (by omega) h2 t hp) (Tells.get fun t hp _ => ?_)
  rw [hp]
  match data, h with
  | d :: ds, h =>
    cases acks with
    | nil => exact (tells_send _).bind (tells_noAck hf).bind_error
    | cons k ks =>
      have := tells_burstRestFail ds ks (by simpa using h) hf
      refine Tells.of_eq ((tells_send _).bind ((tells_ack k).bind this)) ?_
      simp [burstStops, burstWriteBeats, burstSend]
      rfl

theorem tells_burstWrite (data : List (Byte × Nat)) (h1 : 1 ≤ data.length) (h2 : data.length ≤ s.prm.maxBurst) :
    Tells s (burstWrite (data.map Prod.fst)) (burstWriteBeats s data) (.ok ()) := by
  intro t hp _ L ha
  rw [← burstWriteBeats_congr hp] at ha ⊢
  exact burstWrite_eq L data h1 (by rw [hp]; exact h2) ha

/-- The loading of a page (R113, R115). -/
theorem tells_load (addr : Addr) {data : List Byte} {acks : List Nat} (k : Nat) (h1 : 1 ≤ data.length)
    (h2 : data.length ≤ s.prm.maxBurst) (hn : acks.length = data.length) :
    Tells s (burstTo addr data) (loadBeats s addr (data.zip acks) k) (.ok ()) := by
  have hz : (data.zip acks).length = data.length := by simp [hn]
  have hd : (data.zip acks).map Prod.fst = data := List.map_fst_zip (by omega)
  have hw := tells_burstWrite (s := s) (data.zip acks) (by omega) (by omega)
  rw [hd] at hw
  refine Tells.of_eq ((tells_setPtr addr k).bind ((tells_repeat h1 h2).bind hw)) ?_
  rw [loadBeats, hz, List.append_assoc]

/-- Every failure of the loading of a page. -/
theorem tells_loadFail (addr : Addr) {data : List Byte} (h1 : 1 ≤ data.length) (h2 : data.length ≤ s.prm.maxBurst)
    (x : LoadFail) (hf : loadFailFits s data x = true) :
    Tells s (burstTo addr data) (loadFailBeats s addr data x) (.error (loadFailError x)) := by
  cases x with
  | pointer heard => exact (tells_setPtrFail addr hf).bind_error
  | byte k acks heard =>
    simp only [loadFailFits, Bool.and_eq_true, decide_eq_true_eq] at hf
    refine Tells.of_eq
      ((tells_setPtr addr k).bind ((tells_repeat h1 h2).bind (tells_burstFail h2 hf.1 hf.2))) ?_
    rw [loadFailBeats, List.append_assoc]

theorem tells_pageRead (addr : Addr) {n : Nat} (k : Nat) {heard : List Heard} (h1 : 2 ≤ n) (h2 : n ≤ s.prm.maxBurst)
    (hn : heard.length = n) :
    Tells s (pageRead addr n) (pageReadBeats s addr n k heard) (.ok (heard.map Heard.byte)) := by
  intro t hp _ L ha
  rw [← pageReadBeats_congr hp] at ha ⊢
  exact pageRead_eq L addr k h1 (by rw [hp]; exact h2) hn ha

/-- Every failure of a PAGE_READ (R114). -/
theorem tells_readFail (addr : Addr) {n : Nat} (h1 : 2 ≤ n) (h2 : n ≤ s.prm.maxBurst) (x : ReadFail)
    (hf : readFailFits s n x = true) :
    Tells s (pageRead addr n) (readFailBeats s addr n x) (.error (readFailError x)) := by
  refine Tells.after (a := ()) (fun t hp _ => tells_checkSize h1 h2 t hp) ?_
  cases x with
  | pointer heard => exact (tells_setPtrFail addr hf).bind_error
  | short k heard =>
    have hb : Tells s (burstRead n) (burstReadBeats s n heard) (.error (.timeout (.shortRead heard.length))) := by
      intro t hp _ L ha
      rw [← burstReadBeats_congr hp] at ha ⊢
      exact burstRead_short L (by rw [hp]; exact h2) (by simpa [readFailFits] using hf) ha
    refine Tells.of_eq ((tells_setPtr addr k).bind ((tells_repeat (by omega) h2).bind hb)) ?_
    rw [readFailBeats, pageReadBeats, List.append_assoc]

/-! ## Ready waits (R109) -/

theorem tells_ready (p : Polls) (hr : endsReady s p = true) : Tells s waitReady (readyBeats s p) (.ok ()) := by
  intro t hp hc L ha
  rw [← readyBeats_congr hp hc] at ha ⊢
  exact waitReady_eq L p (by rw [endsReady_congr hp]; exact hr) ha

theorem allBusy_iff {p : Params} {hs : List Heard} (h : allBusy p hs = true) :
    ∀ x ∈ hs, writeErrorFlag p x.byte = false ∧ nvmBusy p x.byte = true := by
  simpa [allBusy] using h

/-- Every failure of a ready wait (R109). -/
theorem tells_waitFail (x : WaitFail) (hf : waitFailFits s x = true) :
    Tells s waitReady (waitFailBeats s x) (.error (waitFailError x)) := by
  intro t hp hc L ha
  cases x with
  | writeError p =>
    simp only [waitFailFits, Bool.and_eq_true, decide_eq_true_eq] at hf
    obtain ⟨⟨h1, h2⟩, h3⟩ := hf
    rw [waitFailBeats, ← readyBeats_congr hp hc] at ha ⊢
    exact waitReady_writeError L p (by rw [hp]; exact h1) (by rw [hp]; exact allBusy_iff h2) (by rw [hp]; exact h3) ha
  | unanswered hs =>
    simp only [waitFailFits, Bool.and_eq_true, decide_eq_true_eq] at hf
    rw [waitFailBeats, ← busyBeats_congr hp hc, ← nvmStatusAddr_congr hp hc, ← ldsSilent_congr hp] at ha ⊢
    exact waitReady_silent L hs (by rw [hp]; exact hf.1) (by rw [hp]; exact allBusy_iff hf.2) ha
  | deadline hs =>
    simp only [waitFailFits, Bool.and_eq_true, beq_iff_eq] at hf
    rw [waitFailBeats, ← busyBeats_congr hp hc] at ha ⊢
    exact waitReady_timeout L hs (by rw [hp]; exact hf.1) (by rw [hp]; exact allBusy_iff hf.2) ha

/-! ## Page writes, page erases, chip erases -/

/-- Every failure of a PAGE_WRITE of a legal size (R113). -/
theorem tells_writeFail (addr : Addr) {data : List Byte} (h1 : 1 ≤ data.length) (h2 : data.length ≤ s.prm.maxBurst)
    (x : WriteFailRun) (hf : writeFailFits s data x = true) :
    Tells s (pageWrite addr data) (writeFailBeats s addr data x) (.error (writeFailError x)) := by
  refine Tells.after (a := ()) (fun t hp _ => tells_checkSize h1 h2 t hp) ?_
  obtain ⟨run, stop⟩ := x
  cases stop <;> simp only [writeFailFits, Bool.and_eq_true, beq_iff_eq] at hf <;>
    simp only [writeFailBeats, writeFailError, List.append_assoc]
  case wait1 x => exact (tells_waitFail x hf).bind_error
  case clear x =>
    refine (tells_ready _ hf.1).bind (Tells.get fun t hp _ => ?_)
    rw [hp]
    exact (tells_cmdFail _ x hf.2).bind_error
  case wait2 x =>
    refine (tells_ready _ hf.1).bind (Tells.get fun t hp _ => ?_)
    rw [hp]
    exact (tells_cmd _ _).bind (tells_waitFail x hf.2).bind_error
  case load x =>
    refine (tells_ready _ hf.1.1).bind (Tells.get fun t hp _ => ?_)
    rw [hp]
    exact (tells_cmd _ _).bind ((tells_ready _ hf.1.2).bind (tells_loadFail addr h1 h2 x hf.2).bind_error)
  case write x =>
    refine (tells_ready _ hf.1.1.1).bind (Tells.get fun t hp _ => ?_)
    rw [hp]
    exact (tells_cmd _ _).bind ((tells_ready _ hf.1.1.2).bind
      ((tells_load addr _ h1 h2 hf.1.2).bind (tells_cmdFail _ x hf.2).bind_error))
  case wait3 x =>
    refine (tells_ready _ hf.1.1.1).bind (Tells.get fun t hp _ => ?_)
    rw [hp]
    exact (tells_cmd _ _).bind ((tells_ready _ hf.1.1.2).bind
      ((tells_load addr _ h1 h2 hf.1.2).bind ((tells_cmd _ _).bind (tells_waitFail x hf.2))))

theorem tells_pageWrite (addr : Addr) {data : List Byte} (h1 : 1 ≤ data.length) (h2 : data.length ≤ s.prm.maxBurst)
    (x : PageWriteRun) (hf : pageWriteFits s data x = true) :
    Tells s (pageWrite addr data) (pageWriteBeats s addr data x) (.ok ()) := by
  refine Tells.after (a := ()) (fun t hp _ => tells_checkSize h1 h2 t hp) ?_
  simp only [pageWriteFits, Bool.and_eq_true, decide_eq_true_eq] at hf
  simp only [pageWriteBeats, List.append_assoc]
  refine (tells_ready _ hf.1.1.1).bind (Tells.get fun t hp _ => ?_)
  rw [hp]
  exact (tells_cmd _ _).bind ((tells_ready _ hf.1.1.2).bind
    ((tells_load addr _ h1 h2 hf.2).bind ((tells_cmd _ _).bind (tells_ready _ hf.1.2))))

theorem erasedPage_congr (hp : t.prm = s.prm) (hc : t.cfg = s.cfg) : erasedPage t = erasedPage s := by
  simp [erasedPage, pageBytes, hp, hc]

@[simp] theorem erasedPage_length (s : State) : (erasedPage s).length = pageBytes s := by simp [erasedPage]

theorem tells_pageErase (addr : Addr) (h1 : 1 ≤ pageBytes s) (h2 : pageBytes s ≤ s.prm.maxBurst) (x : EraseRun)
    (hf : eraseFits s x = true) : Tells s (pageErase addr) (eraseBeats s addr x) (.ok ()) := by
  simp only [eraseFits, Bool.and_eq_true, beq_iff_eq] at hf
  simp only [eraseBeats, List.append_assoc]
  refine (tells_ready _ hf.1.1).bind (Tells.get fun t hp hc => ?_)
  have := erasedPage_congr hp hc
  rw [erasedPage] at this
  rw [this, hp]
  exact (tells_load addr _ (by simpa using h1) (by simpa using h2) (by simpa using hf.1.2)).bind
    ((tells_cmd _ _).bind (tells_ready _ hf.2))

/-- Every failure of a PAGE_ERASE (R115). -/
theorem tells_eraseFail (addr : Addr) (h1 : 1 ≤ pageBytes s) (h2 : pageBytes s ≤ s.prm.maxBurst) (x : EraseFailRun)
    (hf : eraseFailFits s x = true) : Tells s (pageErase addr) (eraseFailBeats s addr x) (.error (eraseFailError x)) := by
  have e1 : 1 ≤ (erasedPage s).length := by simpa using h1
  have e2 : (erasedPage s).length ≤ s.prm.maxBurst := by simpa using h2
  have he : ∀ t : State, t.prm = s.prm → t.cfg = s.cfg →
      List.replicate (pageBytes t) t.prm.eraseValue = erasedPage s := fun t hp hc => erasedPage_congr hp hc
  obtain ⟨run, stop⟩ := x
  cases stop <;> simp only [eraseFailFits, Bool.and_eq_true, beq_iff_eq] at hf <;>
    simp only [eraseFailBeats, eraseFailError, List.append_assoc]
  case wait1 x => exact (tells_waitFail x hf).bind_error
  case load x =>
    refine (tells_ready _ hf.1).bind (Tells.get fun t hp hc => ?_)
    rw [he t hp hc]
    exact (tells_loadFail addr e1 e2 x hf.2).bind_error
  case erase x =>
    refine (tells_ready _ hf.1.1).bind (Tells.get fun t hp hc => ?_)
    rw [he t hp hc, hp]
    exact (tells_load addr _ e1 e2 (by simpa using hf.1.2)).bind (tells_cmdFail _ x hf.2).bind_error
  case wait2 x =>
    refine (tells_ready _ hf.1.1).bind (Tells.get fun t hp hc => ?_)
    rw [he t hp hc, hp]
    exact (tells_load addr _ e1 e2 (by simpa using hf.1.2)).bind
      ((tells_cmd _ _).bind (tells_waitFail x hf.2))

theorem tells_chipErase (x : ChipRun) (hf : chipFits s x = true) : Tells s chipErase (chipBeats s x) (.ok ()) := by
  simp only [chipFits, Bool.and_eq_true] at hf
  simp only [chipBeats, List.append_assoc]
  refine (tells_ready _ hf.1).mapErr_ok.bind (Tells.get fun t hp _ => ?_)
  rw [hp]
  exact (tells_cmd _ _).bind (tells_ready _ hf.2).mapErr_ok

theorem readyError_waitFailError (x : WaitFail) : readyError (waitFailError x) = notReadyError x := by cases x <;> rfl

/-- Every failure of a CHIP_ERASE (R111). -/
theorem tells_chipFail (x : ChipFailRun) (hf : chipFailFits s x = true) :
    Tells s chipErase (chipFailBeats s x) (.error (chipFailError x)) := by
  obtain ⟨run, stop⟩ := x
  cases stop <;> simp only [chipFailFits, Bool.and_eq_true] at hf <;>
    simp only [chipFailBeats, chipFailError, List.append_assoc, ← readyError_waitFailError]
  case wait1 x => exact (tells_waitFail x hf).mapErr_error.bind_error
  case command x =>
    refine (tells_ready _ hf.1).mapErr_ok.bind (Tells.get fun t hp _ => ?_)
    rw [hp]
    exact (tells_cmdFail _ x hf.2).bind_error
  case wait2 x =>
    refine (tells_ready _ hf.1).mapErr_ok.bind (Tells.get fun t hp _ => ?_)
    rw [hp]
    exact (tells_cmd _ _).bind (tells_waitFail x hf.2).mapErr_error

/-! ## Programming mode (R106, R107) -/

theorem tells_progFlag (h : Heard) : Tells s progFlag (enterBeats s h) (.ok (inProgMode s.prm h.byte)) := by
  refine Tells.get fun t hp _ => ?_
  rw [hp]
  refine Tells.of_eq ((tells_ldcs _ h).bind (Tells.pure _)) (by rw [List.append_nil]; rfl)

theorem tells_progFlagSilent :
    Tells s progFlag (ldcsSilent s s.prm.csAsiSysStatus) (.error (.timeout (.shortRead 0))) := by
  refine Tells.get fun t hp _ => ?_
  rw [hp]
  exact (tells_ldcsSilent _).bind_error

theorem tells_reset : Tells s resetToggle (resetBeats s) (.ok ()) := by
  refine Tells.get fun t hp _ => ?_
  rw [hp]
  exact (tells_stcs _ _).bind (tells_stcs _ _)

theorem allLocked_iff {p : Params} {hs : List Heard} (h : allLocked p hs = true) : ∀ x ∈ hs, isLocked p x.byte = true := by
  simpa [allLocked] using h

theorem tells_locked (hs : List Heard) (h1 : hs.length = lockPolls s.prm) (h2 : allLocked s.prm hs = true) :
    Tells s waitUnlocked (lockedBeats s hs) (.ok false) := by
  intro t hp _ L ha
  rw [← lockedBeats_congr hp] at ha ⊢
  exact waitUnlocked_locked L hs (by rw [hp]; exact h1) (by rw [hp]; exact allLocked_iff h2) ha

theorem tells_unlocked (p : Polls) (h1 : p.waiting.length < lockPolls s.prm) (h2 : allLocked s.prm p.waiting = true)
    (h3 : isLocked s.prm p.last.byte = false) :
    Tells s waitUnlocked (lockedBeats s p.waiting ++ ldcsBeats s s.prm.csAsiSysStatus p.last) (.ok true) := by
  intro t hp _ L ha
  rw [← lockedBeats_congr hp, ← ldcsBeats_congr hp, ← hp] at ha ⊢
  exact waitUnlocked_eq L p (by rw [hp]; exact h1) (by rw [hp]; exact allLocked_iff h2) (by rw [hp]; exact h3) ha

theorem tells_lockSilent (hs : List Heard) (h1 : hs.length < lockPolls s.prm) (h2 : allLocked s.prm hs = true) :
    Tells s waitUnlocked (lockedBeats s hs ++ ldcsSilent s s.prm.csAsiSysStatus) (.error (.timeout (.shortRead 0))) := by
  intro t hp _ L ha
  rw [← lockedBeats_congr hp, ← ldcsSilent_congr hp, ← hp] at ha ⊢
  have hk : t.prm.unlockWaitMs / t.prm.unlockPollMs =
      hs.length + ((t.prm.unlockWaitMs / t.prm.unlockPollMs - hs.length - 1) + 1) := by
    have : hs.length < t.prm.unlockWaitMs / t.prm.unlockPollMs := by rw [hp]; exact h1
    omega
  have hq := playAll_prm (lockedBeats t hs) t
  have e := ldcsSilent_congr hq t.prm.csAsiSysStatus
  rw [waitUnlocked, get_bind, hk, pollUnlocked_locked _ _ L (by rw [hp]; exact allLocked_iff h2) (answers_left ha),
    pollUnlocked, get_bind, hq, bind_error (ldcs_silent (L.playAll _) _ (answers_then ha e)), e, ← playAll_append]
  rfl

theorem lockStepBeats_eq (status key : Heard) (hs : List Heard) : lockStepBeats s status key hs =
    ldcsBeats s s.prm.csAsiSysStatus status ++ (keyBeats s s.prm.keyNvmprog ++
      (ldcsBeats s s.prm.csAsiKeyStatus key ++ (resetBeats s ++ lockedBeats s hs))) := by
  simp [lockStepBeats, keyStepBeats, lockedBeats]

theorem onError_error {g : State → State} {u : State} (h : m t = .error e u) : onError g m t = .error e (g u) := by
  rw [onError_apply, h]

/-- ENTER_PROG on a target not in programming mode (R106). -/
theorem enterProg_unlocking {status : Heard} (hs : inProgMode s.prm status.byte = false) {cs : List Beat}
    (h : Tells s unlockTarget cs (.error e)) :
    Sets s enterProg (enterBeats s status ++ cs) false (.error e) := by
  intro t hp hc L ha
  have k := (Tells.mapErr_ok (g := unlockError .initialStatus) (tells_progFlag (s := s) status)).bind
    (f := fun p => if p = true then update (setProgMode true) else unlockTarget) (cs := cs) (r' := .error e)
    (by rw [hs]; exact h) t hp hc L ha
  exact onError_error k

/-- The key and its status (R106), and what follows where the key is accepted. -/
theorem tells_unlock {key : Heard} (hk : keyAccepted s.prm key.byte = true) {cs : List Beat}
    (h : Tells s (orUnlock .lockStatus waitUnlocked >>= fun unlocked =>
      if unlocked = true then orUnlock .finalStatus progFlag >>= fun p =>
        if p = true then update (setProgMode true) else raise (.unlockFailed .notInProgrammingMode)
      else raise (.unlockFailed .stillLocked)) cs (.error e)) :
    Tells s unlockTarget (keyBeats s s.prm.keyNvmprog ++ (ldcsBeats s s.prm.csAsiKeyStatus key ++ (resetBeats s ++ cs)))
      (.error e) := by
  refine Tells.get fun t hp _ => ?_
  rw [hp]
  refine (tells_sendKey _).mapErr_ok.bind ((tells_ldcs _ key).mapErr_ok.bind ?_)
  rw [hk]
  exact tells_reset.mapErr_ok.bind h

/-- Every failure of an ENTER_PROG on an open PHY (R106, R107). -/
theorem sets_enterFail (x : EnterFail) (hf : enterFailFits s x = true) :
    Sets s enterProg (enterFailBeats s x) false (.error (.unlockFailed (enterFailStep x))) := by
  cases x with
  | initialStatus =>
    intro t hp hc L ha
    have k := (tells_progFlagSilent (s := s)).mapErr_error (g := unlockError .initialStatus) t hp hc L ha
    exact onError_error (bind_error k)
  | keyStatus st =>
    refine Sets.of_eq (enterProg_unlocking (by simpa [enterFailFits] using hf)
      (cs := keyBeats s s.prm.keyNvmprog ++ ldcsSilent s s.prm.csAsiKeyStatus) (Tells.get fun t hp _ => ?_))
      (by simp [enterFailBeats, keyStepBeats, enterBeats])
    rw [hp]
    exact (tells_sendKey _).mapErr_ok.bind (tells_ldcsSilent _).mapErr_error.bind_error
  | keyRejected st ks =>
    simp only [enterFailFits, Bool.and_eq_true, Bool.not_eq_true'] at hf
    refine Sets.of_eq (enterProg_unlocking hf.1
      (cs := keyBeats s s.prm.keyNvmprog ++ (ldcsBeats s s.prm.csAsiKeyStatus ks ++ [])) (Tells.get fun t hp _ => ?_))
      (by simp [enterFailBeats, keyStepBeats, enterBeats])
    rw [hp]
    refine (tells_sendKey _).mapErr_ok.bind ((tells_ldcs _ ks).mapErr_ok.bind ?_)
    rw [hf.2]
    exact Tells.raise _
  | lockStatus st ks hs =>
    simp only [enterFailFits, keyTaken, Bool.and_eq_true, Bool.not_eq_true', decide_eq_true_eq] at hf
    obtain ⟨⟨⟨h1, h2⟩, h3⟩, h4⟩ := hf
    refine Sets.of_eq (enterProg_unlocking h1 (tells_unlock h2 ((tells_lockSilent hs h3 h4).mapErr_error.bind_error)))
      (by simp [enterFailBeats, lockStepBeats_eq, enterBeats])
  | stillLocked st ks hs =>
    simp only [enterFailFits, keyTaken, Bool.and_eq_true, Bool.not_eq_true', beq_iff_eq] at hf
    obtain ⟨⟨⟨h1, h2⟩, h3⟩, h4⟩ := hf
    refine Sets.of_eq (enterProg_unlocking h1 (tells_unlock h2 ((tells_locked hs h3 h4).mapErr_ok.bind (Tells.raise _))))
      (by simp [enterFailBeats, lockStepBeats_eq, enterBeats])
  | finalStatus st ks p =>
    simp only [enterFailFits, keyTaken, Bool.and_eq_true, Bool.not_eq_true', decide_eq_true_eq] at hf
    obtain ⟨⟨⟨⟨h1, h2⟩, h3⟩, h4⟩, h5⟩ := hf
    refine Sets.of_eq (enterProg_unlocking h1 (tells_unlock h2 ((tells_unlocked p h3 h4 h5).mapErr_ok.bind
      tells_progFlagSilent.mapErr_error.bind_error)))
      (by simp [enterFailBeats, lockStepBeats_eq, enterBeats])
  | notInProgrammingMode st ks p x =>
    simp only [enterFailFits, keyTaken, Bool.and_eq_true, Bool.not_eq_true', decide_eq_true_eq] at hf
    obtain ⟨⟨⟨⟨⟨h1, h2⟩, h3⟩, h4⟩, h5⟩, h6⟩ := hf
    refine Sets.of_eq (enterProg_unlocking h1 (tells_unlock h2 ((tells_unlocked p h3 h4 h5).mapErr_ok.bind
      ((tells_progFlag x).mapErr_ok.bind (cs := []) ?_))))
      (by simp [enterFailBeats, lockStepBeats_eq, enterBeats])
    rw [h6]
    exact Tells.raise _

/-- Every success of an ENTER_PROG (R106). -/
theorem sets_enter (x : EnterRun) (hf : enterRunFits s x = true) :
    Sets s enterProg (enterRunBeats s x) true (.ok ()) := by
  intro t hp hc L ha
  cases x with
  | already h =>
    have e : enterBeats s h = enterBeats t h := by rw [enterBeats, enterBeats, hp, ldcsBeats_congr hp]
    simp only [enterRunBeats, e] at ha ⊢
    exact enterProg_idempotent L (by rw [hp]; exact hf) ha
  | unlock r =>
    have e : unlockBeats s r = unlockBeats t r := by
      simp [unlockBeats, lockStepBeats, keyStepBeats, hp, ldcsBeats_congr hp, keyBeats_congr hp, resetBeats_congr hp]
    simp only [enterRunBeats, e] at ha ⊢
    exact enterProg_unlocks L r (by simpa [enterRunFits, unlocks, hp] using hf) ha

/-! ## LINK_INIT (R103) -/

/-- An attempt whose status byte does not arrive. -/
theorem tells_linkSilent :
    Tells s tryLink (linkStartBeats s ++ ldcsSilent s s.prm.csStatusa) (.error (.timeout (.shortRead 0))) := by
  have hd : Tells s phyDoubleBreak [.db] (.ok ()) := fun t _ _ L _ => phyDoubleBreak_eq L.isOpen
  simp only [linkStartBeats, List.append_assoc]
  refine hd.bind (Tells.get fun t hp _ => ?_)
  rw [hp]
  exact (tells_stcs _ _).bind ((tells_stcs _ _).bind (tells_ldcsSilent _).bind_error)

theorem linkBeats_congr (hp : t.prm = s.prm) (h : Heard) : linkBeats t h = linkBeats s h := by
  simp [linkBeats, linkStartBeats, stcsBeats, ldcsBeats, hp]

/-- An attempt whose status is zero. -/
theorem tells_linkZero {h : Heard} (hz : h.byte = 0#8) : Tells s tryLink (linkBeats s h) (.error .linkDownStatusZero) := by
  intro t hp _ L ha
  rw [← linkBeats_congr hp] at ha ⊢
  rw [tryLink_linked L ha, if_pos hz]
  rfl

/-- An attempt whose status is not zero ends as its ENTER_PROG does. -/
theorem sets_tryLink {h : Heard} (hz : h.byte ≠ 0#8) {r : Except Err Unit} (he : Sets s enterProg cs v r) :
    Sets s tryLink (linkBeats s h ++ cs) v r := by
  intro t hp hc L ha
  rw [← linkBeats_congr hp] at ha ⊢
  rw [tryLink_linked L (answers_left ha), if_neg hz, he _ ((playAll_prm _ _).trans hp) ((playAll_cfg _ _).trans hc)
    (L.playAll _) (answers_right ha), ← playAll_append]

theorem answers_setProgMode (bs : List Beat) (v : Bool) : answers (setProgMode v t) bs = answers t bs :=
  answers_withSession bs v t.seq t.rbuf t

theorem playAll_setProgMode (bs : List Beat) (v : Bool) :
    playAll (setProgMode v t) bs = setProgMode v (playAll t bs) := by
  refine (playAll_withSession bs v t.seq t.rbuf t).trans ?_
  simp only [withSession, setProgMode]
  rw [← playAll_seq bs t, ← playAll_rbuf bs t]

@[simp] theorem setProgMode_setProgMode (v w : Bool) : setProgMode v (setProgMode w t) = setProgMode v t := rfl

/-- Every failure of an attempt of LINK_INIT on an open PHY, from a state with the flag false (R103). -/
theorem tryLink_fails (x : AttemptFail) (hf : attemptFailFits s x = true) (hp : t.prm = s.prm) (hc : t.cfg = s.cfg)
    (L : Listening t) (ha : answers t (attemptFailBeats s x) = true) :
    tryLink (setProgMode false t) = .error (attemptFailError x) (setProgMode false (playAll t (attemptFailBeats s x))) := by
  have L' : Listening (setProgMode false t) := L.withSession false t.seq t.rbuf
  rw [← answers_setProgMode (v := false)] at ha
  cases x with
  | silent =>
    rw [tells_linkSilent (s := s) (setProgMode false t) hp hc L' ha, playAll_setProgMode]
    rfl
  | zero h =>
    rw [tells_linkZero (s := s) (by simpa [attemptFailFits] using hf) (setProgMode false t) hp hc L' ha, playAll_setProgMode]
    rfl
  | enter h f =>
    simp only [attemptFailFits, Bool.and_eq_true, bne_iff_ne] at hf
    rw [sets_tryLink (s := s) hf.1 (sets_enterFail f hf.2) (setProgMode false t) hp hc L' ha, playAll_setProgMode]
    rfl

/-- Failed attempts use up the attempts left (R103). -/
theorem linkAttempts_failed (fs : List AttemptFail) (k : Nat) : ∀ {t : State} (last : Option Err),
    fs.all (attemptFailFits s) = true → t.prm = s.prm → t.cfg = s.cfg → Listening t → 0 < fs.length →
    answers t (linkFailBeats s fs) = true →
    linkAttempts (fs.length + k) last t =
      linkAttempts k (fs.getLast?.map attemptFailError) (setProgMode false (playAll t (linkFailBeats s fs))) := by
  induction fs with
  | nil => intro t last _ _ _ _ h; simp at h
  | cons x xs ih =>
    intro t last hf hp hc L _ ha
    simp only [List.all_cons, Bool.and_eq_true] at hf
    have hb : linkFailBeats s (x :: xs) = attemptFailBeats s x ++ linkFailBeats s xs := by simp [linkFailBeats]
    rw [hb] at ha ⊢
    have e : (x :: xs).length + k = (xs.length + k) + 1 := by simp; omega
    have ht := tryLink_fails x hf.1 hp hc L (answers_left ha)
    have hs : linkAttempts ((x :: xs).length + k) last t = linkAttempts (xs.length + k) (some (attemptFailError x))
        (setProgMode false (playAll t (attemptFailBeats s x))) := by
      rw [e, linkAttempts, bind_ok (update_apply _ _),
        bind_ok (m := tryOp tryLink) (a := .error (attemptFailError x)) (by rw [tryOp_apply, ht])]
      cases x <;> rfl
    rw [hs]
    cases xs with
    | nil => simp [linkFailBeats]
    | cons y ys =>
      have L' : Listening (setProgMode false (playAll t (attemptFailBeats s x))) := (L.playAll _).withSession _ _ _
      rw [ih (t := setProgMode false (playAll t (attemptFailBeats s x))) (some (attemptFailError x)) hf.2
        ((playAll_prm _ _).trans hp) ((playAll_cfg _ _).trans hc) L' (by simp)
        (by rw [answers_setProgMode]; exact answers_right ha), playAll_setProgMode, playAll_append]
      rfl

/-- Every success of a LINK_INIT (R103). -/
theorem sets_linkRun (x : LinkRun) (hf : linkRunFits s x = true) : Sets s linkInit (linkRunBeats s x) true (.ok ()) := by
  intro t hp hc L ha
  simp only [linkRunFits, Bool.and_eq_true, decide_eq_true_eq, bne_iff_ne] at hf
  obtain ⟨⟨⟨h1, h2⟩, h3⟩, h4⟩ := hf
  obtain ⟨k, hk⟩ : ∃ k, t.prm.linkInitAttempts = x.failed.length + (k + 1) :=
    ⟨s.prm.linkInitAttempts - x.failed.length - 1, by rw [hp]; omega⟩
  have hb : linkRunBeats s x = linkFailBeats s x.failed ++ (linkBeats s x.status ++ enterRunBeats s x.enter) := by
    simp [linkRunBeats, linkFailBeats]
  rw [hb] at ha ⊢
  have last : ∀ (u : State) (o : Option Err), u.prm = s.prm → u.cfg = s.cfg → Listening u →
      answers u (linkBeats s x.status ++ enterRunBeats s x.enter) = true →
      linkAttempts (k + 1) o u = .ok () (setProgMode true (playAll u (linkBeats s x.status ++ enterRunBeats s x.enter))) := by
    intro u o hup huc Lu hua
    have Lu' : Listening (setProgMode false u) := Lu.withSession false u.seq u.rbuf
    rw [← answers_setProgMode (v := false)] at hua
    have ht := sets_tryLink h3 (sets_enter x.enter h4) (setProgMode false u) hup huc Lu' hua
    rw [linkAttempts, bind_ok (update_apply _ _), bind_ok (m := tryOp tryLink) (a := .ok ())
      (by rw [tryOp_apply, ht]; rfl), playAll_setProgMode]
    rfl
  rw [linkInit, get_bind, hk]
  cases hx : x.failed with
  | nil =>
    rw [hx] at ha
    rw [List.length_nil, Nat.zero_add]
    exact last t none hp hc L ha
  | cons y ys =>
    rw [hx] at ha h2
    have L' : Listening (setProgMode false (playAll t (linkFailBeats s (y :: ys)))) := (L.playAll _).withSession _ _ _
    rw [linkAttempts_failed (s := s) (y :: ys) (k + 1) none h2 hp hc L (by simp) (answers_left ha),
      last (setProgMode false (playAll t (linkFailBeats s (y :: ys)))) _ ((playAll_prm _ _).trans hp) ((playAll_cfg _ _).trans hc) L'
        (by rw [answers_setProgMode]; exact answers_right ha), playAll_setProgMode,
      setProgMode_setProgMode, ← playAll_append]
    rfl

/-- Every failure of a LINK_INIT on an open PHY (R103). -/
theorem sets_linkFail (fs : List AttemptFail) (hf : linkFailFits s fs = true) :
    Sets s linkInit (linkFailBeats s fs) false (.error (linkFailError fs)) := by
  intro t hp hc L ha
  simp only [linkFailFits, Bool.and_eq_true, decide_eq_true_eq, beq_iff_eq] at hf
  obtain ⟨⟨h1, h2⟩, h3⟩ := hf
  rw [linkInit, get_bind, hp, ← h1, ← Nat.add_zero fs.length,
    linkAttempts_failed (s := s) fs 0 none h3 hp hc L (by omega) ha]
  rfl

end Sys2Proof.Machine
end

