-- ==== Sys2Proof/Laws/Passes.lean ====
section
/-! SUPPORT. The loops of the passes (43_page_sequencer.md) for every way a page can go: its tries within the caps, the
read-back that is accepted, the failure that ends the pass; and the walk over the pages. -/

namespace Sys2Proof.Machine

open Sys2Proof.Safety

/-! ## States inside a pass -/

/-- What scripts written from `s` need of the state `u` a pass runs from. -/
structure Base (s u : State) : Prop where
  prm : u.prm = s.prm
  cfg : u.cfg = s.cfg
  image : u.flashImage = s.flashImage
  listening : Listening u

theorem base_beginOp {s : State} (ho : s.phyOpen = true) : Base s (beginOp s) := ⟨rfl, rfl, rfl, listening_beginOp ho⟩

/-- The state inside a pass that ran from `u`: a trace, and the session's fields. -/
def inside (u : State) (bs : List Beat) (v : Bool) (q : Seq) (rbuf : List Byte) : State :=
  withSession (playAll u bs) v q rbuf

/-- The sequencer's registers while a page is worked on. -/
def seqIn (pass : Pass) (s : State) (p : Nat) (t : Tally) (step : PageStep) : Seq :=
  { seqOver s p t step with pass := pass }

/-- The sequencer's registers once a pass has started (10_state.md R24). -/
def seqBegun (pass : Pass) (s : State) : Seq := { seqStarted s with pass := pass }

section
variable {s u : State} (B : Base s u) {bs cs : List Beat} {v : Bool} {q : Seq} {b : List Byte}
include B

theorem inside_prm : (inside u bs v q b).prm = s.prm := (playAll_prm bs u).trans B.prm
theorem inside_cfg : (inside u bs v q b).cfg = s.cfg := (playAll_cfg bs u).trans B.cfg
theorem inside_image : (inside u bs v q b).flashImage = s.flashImage := (playAll_flashImage bs u).trans B.image
theorem inside_listening : Listening (inside u bs v q b) := (B.listening.playAll bs).withSession v q b
theorem inside_pageBytes : pageBytes (inside u bs v q b) = pageBytes s := by simp [pageBytes, inside_cfg B]
theorem inside_pageAddr (p : Nat) : pageAddr (inside u bs v q b) p = pageAddr s p := by
  simp [pageAddr, inside_cfg B, inside_pageBytes B]
theorem inside_imagePage (p : Nat) : imagePage (inside u bs v q b) p = imagePage s p := by
  simp [imagePage, imageByte, inside_prm B, inside_image B, inside_pageBytes B]

theorem Tells.inside {α : Type} {m : Op α} {r : Except Err α} (h : Tells s m cs r) (ha : answers u (bs ++ cs) = true) :
    m (inside u bs v q b) = ended r (Machine.inside u (bs ++ cs) v q b) := by
  have ha' : answers (Machine.inside u bs v q b) cs = true := (answers_withSession _ _ _ _ _).trans (answers_right ha)
  rw [h _ (inside_prm B) (inside_cfg B) (inside_listening B) ha']
  simp only [Machine.inside, playAll_withSession, ← playAll_append]

theorem Sets.inside {α : Type} {m : Op α} {r : Except Err α} {w : Bool} (h : Sets s m cs w r)
    (ha : answers u (bs ++ cs) = true) :
    m (inside u bs v q b) = ended r (Machine.inside u (bs ++ cs) w q b) := by
  have ha' : answers (Machine.inside u bs v q b) cs = true := (answers_withSession _ _ _ _ _).trans (answers_right ha)
  rw [h _ (inside_prm B) (inside_cfg B) (inside_listening B) ha']
  simp only [Machine.inside, playAll_withSession, ← playAll_append]
  rfl

theorem settle_inside : settle (inside u bs v q b) = .ok () (inside u (bs ++ [.pause (s.prm.settleMs * 1000)]) v q b) := by
  rw [settle, get_bind, sleep_eq, inside_prm B]
  simp only [Machine.inside, playAll_withSession, ← playAll_append]

theorem startPage_inside (p : Nat) :
    startPage p (inside u bs v q b) = .ok () (inside u bs v (seqIn q.pass s p Tally.zero .attempt) b) := by
  rw [startPage, update_apply, inside_pageAddr B]
  rfl
end

section
variable {u : State} {bs : List Beat} {v : Bool} {q : Seq} {b : List Byte}

theorem beginPass_inside (pass : Pass) : beginPass pass u = .ok () (inside u [] u.progMode (seqBegun pass u) u.rbuf) := rfl

theorem onSeq_inside (f : Seq → Seq) : onSeq f (inside u bs v q b) = .ok () (inside u bs v (f q) b) := rfl

theorem setStep_inside (step : PageStep) :
    setStep step (inside u bs v q b) = .ok () (inside u bs v { q with step := step } b) := rfl

theorem setRbuf_inside (r : List Byte) : setRbuf r (inside u bs v q b) = .ok () (inside u bs v q r) := rfl

theorem progress_inside (pass : Pass) (i n : Nat) :
    progress pass i n (inside u bs v q b) = .ok () (inside u (bs ++ [.event pass i n]) v q b) := by
  simp only [Machine.inside, playAll_append]
  rfl

theorem countLink_inside (cap : Nat) : countLink cap (inside u bs v q b) =
    .ok (decide (cap < q.linkErr + 1)) (inside u bs v { q with step := .linkRetry, linkErr := q.linkErr + 1 } b) := rfl

theorem countData_inside (cap : Nat) : countData cap (inside u bs v q b) =
    .ok (decide (cap < q.dataErr + 1)) (inside u bs v { q with step := .dataRetry, dataErr := q.dataErr + 1 } b) := rfl

theorem abortPage_inside (c : Int) :
    abortPage c (inside u bs v q b) = .ok (some c) (inside u bs v { q with step := .abort } b) := rfl

theorem acceptPage_inside : acceptPage (inside u bs v q b) = .ok none (inside u bs v { q with step := .success } b) := rfl

theorem endPass_inside (c : Int) :
    endPass c (inside u bs v q b) = .ok c (inside u bs v { q with pass := .none } b) := rfl

theorem tryOp_ok {α : Type} {m : Op α} {a : α} {t t' : State} (h : m t = .ok a t') : tryOp m t = .ok (.ok a) t' := by
  rw [tryOp_apply, h]

theorem tryOp_error {α : Type} {m : Op α} {e : Err} {t t' : State} (h : m t = .error e t') :
    tryOp m t = .ok (.error e) t' := by rw [tryOp_apply, h]
end

/-! ## Blank-Check and Verify: one page (R126, R136) -/

theorem tells_readRun {s : State} (h2 : 2 ≤ pageBytes s) (hm : pageBytes s ≤ s.prm.maxBurst) {p : Nat}
    (r : ReadRun) (hr : readRunFits s r = true) :
    Tells s (pageRead (pageAddr s p) (pageBytes s)) (readRunBeats s p r) (.ok r.bytes) :=
  tells_pageRead _ _ h2 hm (by simpa [readRunFits] using hr)

theorem tells_readRunFail {s : State} (h2 : 2 ≤ pageBytes s) (hm : pageBytes s ≤ s.prm.maxBurst) {p : Nat}
    (x : ReadFail) (hf : readFailFits s (pageBytes s) x = true) :
    Tells s (pageRead (pageAddr s p) (pageBytes s)) (readFailBeats s (pageAddr s p) (pageBytes s) x)
      (.error (readFailError x)) := tells_readFail _ h2 hm x hf

/-- The registers after some failures of each class. -/
def seqRead (pass : Pass) (s : State) (p l d : Nat) : Seq := seqIn pass s p ⟨l, d, 0, 0, false⟩ .attempt

theorem readTally_counts (tries : List ReadTry) :
    tries.length = (readTally tries).link + (readTally tries).data ∧
      readTally tries = ⟨(readTally tries).link, (readTally tries).data, 0, 0, false⟩ := by
  induction tries with
  | nil => exact ⟨rfl, rfl⟩
  | cons x xs ih =>
    obtain ⟨h1, h2⟩ := ih
    cases x <;> simp only [readTally, List.length_cons, h1] <;> refine ⟨by omega, ?_⟩ <;> rw [h2]
/-- The tries of a page, its counters at zero: what the loop goes on with, as many reads left as the caps allow. -/
theorem readTries_fuel {s : State} {rules : ReadRules} {p : Nat} {tries : List ReadTry}
    (hf : readTriesFit s rules p tries = true) :
    ∃ j, readBound rules.linkCap rules.dataCap = tries.length + (j + 1) := by
  simp only [readTriesFit, Bool.and_eq_true, decide_eq_true_eq] at hf
  have h1 := (readTally_counts tries).1
  refine ⟨rules.linkCap + rules.dataCap - tries.length, ?_⟩
  simp only [readBound]
  omega

section
variable {s u : State} (B : Base s u) (h2 : 2 ≤ pageBytes s) (hm : pageBytes s ≤ s.prm.maxBurst) {rules : ReadRules}
  {p : Nat} {acc : State → Bool} (hacc : ∀ bs v q b, acc (inside u bs v q b) = rules.accept p b)
include B h2 hm

/-- A read that fails, and what the loop does then. -/
theorem readPage_fails (x : ReadFail) (hf : readFailFits s (pageBytes s) x = true) {bs : List Beat} {q : Seq}
    {b : List Byte} (hq : q.addr = pageAddr s p) (fuel : Nat)
    (ha : answers u (bs ++ readFailBeats s (pageAddr s p) (pageBytes s) x) = true) :
    readPage acc rules.linkCap rules.dataCap rules.linkCode rules.dataCode (fuel + 1) (inside u bs true q b) =
      (if decide (rules.linkCap < q.linkErr + 1) = true then abortPage rules.linkCode
       else tryOp linkInit >>= fun link =>
        match link with
        | .error _ => abortPage rules.linkCode
        | .ok _ => do
          settle
          setStep .attempt
          readPage acc rules.linkCap rules.dataCap rules.linkCode rules.dataCode fuel : Op (Option Int))
        (inside u (bs ++ readFailBeats s (pageAddr s p) (pageBytes s) x) true
          { q with step := .linkRetry, linkErr := q.linkErr + 1 } b) := by
  have hr := (tells_readRunFail (p := p) h2 hm x hf).inside B (v := true) (q := q) (b := b) ha
  have e : pageRead (inside u bs true q b).seq.addr (pageBytes (inside u bs true q b)) =
      pageRead (pageAddr s p) (pageBytes s) := by rw [inside_pageBytes B]; exact congrArg (pageRead · _) hq
  rw [readPage, get_bind, e, bind_ok (tryOp_error hr)]
  exact bind_ok (countLink_inside _)

include hacc in
/-- A read that does not fail, and what the loop does then. -/
theorem readPage_reads (r : ReadRun) (hr : readRunFits s r = true) {bs : List Beat} {q : Seq} {b : List Byte}
    (hq : q.addr = pageAddr s p) (fuel : Nat) (ha : answers u (bs ++ readRunBeats s p r) = true) :
    readPage acc rules.linkCap rules.dataCap rules.linkCode rules.dataCode (fuel + 1) (inside u bs true q b) =
      (if rules.accept p r.bytes = true then acceptPage
       else countData rules.dataCap >>= fun exceeded =>
        if exceeded = true then abortPage rules.dataCode
        else do
          settle
          setStep .attempt
          readPage acc rules.linkCap rules.dataCap rules.linkCode rules.dataCode fuel : Op (Option Int))
        (inside u (bs ++ readRunBeats s p r) true q r.bytes) := by
  have hr := (tells_readRun (p := p) h2 hm r hr).inside B (v := true) (q := q) (b := b) ha
  have e : pageRead (inside u bs true q b).seq.addr (pageBytes (inside u bs true q b)) =
      pageRead (pageAddr s p) (pageBytes s) := by rw [inside_pageBytes B]; exact congrArg (pageRead · _) hq
  rw [readPage, get_bind, e, bind_ok (tryOp_ok hr)]
  refine (bind_ok (setRbuf_inside _)).trans ?_
  rw [get_bind, hacc]

include hacc in
/-- Tries within the caps: the loop goes on with what they leave (R125, R126, R136). -/
theorem readPage_tries (tries : List ReadTry) (k : Nat) : ∀ {bs : List Beat} (l d : Nat) (b : List Byte),
    tries.all (readTryFits s rules p) = true → l + (readTally tries).link ≤ rules.linkCap →
    d + (readTally tries).data ≤ rules.dataCap → answers u (bs ++ tries.flatMap (readTryBeats s p)) = true →
    readPage acc rules.linkCap rules.dataCap rules.linkCode rules.dataCode (tries.length + k)
        (inside u bs true (seqRead rules.pass s p l d) b) =
      readPage acc rules.linkCap rules.dataCap rules.linkCode rules.dataCode k
        (inside u (bs ++ tries.flatMap (readTryBeats s p)) true
          (seqRead rules.pass s p (l + (readTally tries).link) (d + (readTally tries).data)) (readTriesRbuf b tries)) := by
  induction tries with
  | nil => intro bs l d b _ _ _ _; simp [readTally, readTriesRbuf, Tally.zero]
  | cons x xs ih =>
    intro bs l d b hf hl hd ha
    simp only [List.all_cons, Bool.and_eq_true] at hf
    have e : (x :: xs).length + k = (xs.length + k) + 1 := by simp; omega
    rw [List.flatMap_cons, ← List.append_assoc] at ha
    rw [e, List.flatMap_cons, ← List.append_assoc]
    cases x with
    | failed f link =>
      simp only [readTryFits, Bool.and_eq_true] at hf
      simp only [readTryBeats, relinkBeats, ← List.append_assoc] at ha ⊢
      have a1 := answers_left ha
      have a2 := answers_left a1
      have a3 := answers_left a2
      simp only [readTally] at hl hd
      have hc : decide (rules.linkCap < (seqRead rules.pass s p l d).linkErr + 1) = false :=
        decide_eq_false (show ¬ rules.linkCap < l + 1 by omega)
      rw [readPage_fails B h2 hm f hf.1.1 (p := p) rfl _ a3, hc]
      simp only [Bool.false_eq_true, if_false]
      rw [bind_ok (tryOp_ok ((sets_linkRun link hf.1.2).inside B a2))]
      refine (bind_ok (settle_inside B)).trans ((bind_ok (setStep_inside _)).trans ?_)
      have := ih (l + 1) d b hf.2 (by omega) hd ha
      simp only [readTally, readTriesRbuf, ← Nat.add_assoc, Nat.add_right_comm l _ 1] at this ⊢
      exact this
    | rejected r =>
      simp only [readTryFits, Bool.and_eq_true, Bool.not_eq_true'] at hf
      simp only [readTryBeats, ← List.append_assoc] at ha ⊢
      have a1 := answers_left ha
      have a2 := answers_left a1
      simp only [readTally] at hl hd
      have hc : decide (rules.dataCap < (seqRead rules.pass s p l d).dataErr + 1) = false :=
        decide_eq_false (show ¬ rules.dataCap < d + 1 by omega)
      rw [readPage_reads B h2 hm hacc r hf.1.1 rfl _ a2, hf.1.2]
      simp only [Bool.false_eq_true, if_false]
      rw [bind_ok (countData_inside _), hc]
      simp only [Bool.false_eq_true, if_false]
      refine (bind_ok (settle_inside B)).trans ((bind_ok (setStep_inside _)).trans ?_)
      have := ih l (d + 1) r.bytes hf.2 hl (by omega) ha
      simp only [readTally, readTriesRbuf, ← Nat.add_assoc, Nat.add_right_comm d _ 1] at this ⊢
      exact this

include hacc in
/-- A page that is accepted (R126, R136). -/
theorem readPage_accepts (x : ReadPageRun) (hf : readPageFits s rules p x = true) {bs : List Beat} (b : List Byte)
    (ha : answers u (bs ++ readPageBeats s p x) = true) :
    readPage acc rules.linkCap rules.dataCap rules.linkCode rules.dataCode (readBound rules.linkCap rules.dataCap)
        (inside u bs true (seqIn rules.pass s p Tally.zero .attempt) b) =
      .ok none (inside u (bs ++ readPageBeats s p x) true (seqIn rules.pass s p (readTally x.tries) .success)
        x.last.bytes) := by
  simp only [readPageFits, Bool.and_eq_true] at hf
  obtain ⟨⟨h3, h4⟩, h5⟩ := hf
  obtain ⟨j, hj⟩ := readTries_fuel h3
  simp only [readTriesFit, Bool.and_eq_true, decide_eq_true_eq] at h3
  simp only [readPageBeats, ← List.append_assoc] at ha ⊢
  rw [hj]
  refine (readPage_tries B h2 hm hacc x.tries (j + 1) 0 0 b h3.1.1 (by omega) (by omega) (answers_left ha)).trans ?_
  rw [readPage_reads B h2 hm hacc x.last h4 rfl _ ha, h5, if_pos rfl, acceptPage_inside, Nat.zero_add, Nat.zero_add,
    (readTally_counts x.tries).2]
  rfl

include hacc in
/-- A page that ends its pass (R125, R126, R136). -/
theorem readPage_stops (tries : List ReadTry) (x : ReadStop) (ht : readTriesFit s rules p tries = true)
    (hf : readStopFits s rules p (readTally tries) x = true) {bs : List Beat} (b : List Byte)
    (ha : answers u (bs ++ tries.flatMap (readTryBeats s p) ++ readStopBeats s p x) = true) :
    readPage acc rules.linkCap rules.dataCap rules.linkCode rules.dataCode (readBound rules.linkCap rules.dataCap)
        (inside u bs true (seqIn rules.pass s p Tally.zero .attempt) b) =
      .ok (some (readStopCode rules x))
        (inside u (bs ++ tries.flatMap (readTryBeats s p) ++ readStopBeats s p x) (readStopMode x)
          (seqIn rules.pass s p (readStopTally (readTally tries) x) .abort) (readStopRbuf (readTriesRbuf b tries) x)) := by
  obtain ⟨j, hj⟩ := readTries_fuel ht
  simp only [readTriesFit, Bool.and_eq_true, decide_eq_true_eq] at ht
  rw [hj]
  refine (readPage_tries B h2 hm hacc tries (j + 1) 0 0 b ht.1.1 (by omega) (by omega) (answers_left ha)).trans ?_
  rw [Nat.zero_add, Nat.zero_add]
  have ht2 := (readTally_counts tries).2
  cases x with
  | failed f =>
    simp only [readStopFits, Bool.and_eq_true, beq_iff_eq] at hf
    rw [readPage_fails B h2 hm f hf.1 rfl _ ha, decide_eq_true
      (show rules.linkCap < (seqRead rules.pass s p (readTally tries).link (readTally tries).data).linkErr + 1 from
        (by rw [← hf.2]; exact Nat.lt_succ_self _)), if_pos rfl, abortPage_inside]
    simp only [readStopTally]
    rw [ht2]
    rfl
  | relinkFailed f fs =>
    simp only [readStopFits, Bool.and_eq_true, decide_eq_true_eq] at hf
    simp only [readStopBeats, ← List.append_assoc] at ha ⊢
    rw [readPage_fails B h2 hm f hf.1.1 rfl _ (answers_left ha), decide_eq_false
      (show ¬ rules.linkCap < (seqRead rules.pass s p (readTally tries).link (readTally tries).data).linkErr + 1 from
        (by have := hf.1.2; simp only [seqRead, seqIn, seqOver]; omega))]
    simp only [Bool.false_eq_true, if_false]
    rw [bind_ok (tryOp_error ((sets_linkFail fs hf.2).inside B ha))]
    simp only [readStopTally]
    rw [ht2]
    rfl
  | rejected r =>
    simp only [readStopFits, Bool.and_eq_true, beq_iff_eq, Bool.not_eq_true'] at hf
    rw [readPage_reads B h2 hm hacc r hf.1.1 rfl _ ha, hf.1.2]
    simp only [Bool.false_eq_true, if_false]
    rw [bind_ok (countData_inside _), decide_eq_true
      (show rules.dataCap < (seqRead rules.pass s p (readTally tries).link (readTally tries).data).dataErr + 1 from
        (by rw [← hf.2]; exact Nat.lt_succ_self _)), if_pos rfl]
    simp only [readStopTally]
    rw [ht2]
    rfl

end

/-! ## Program: one page (R130 to R135) -/

section
variable {s u : State} (B : Base s u) (h2 : 2 ≤ pageBytes s) (hm : pageBytes s ≤ s.prm.maxBurst) {p : Nat}
  {bs : List Beat} {t : Tally} {b : List Byte}
include B h2 hm

omit B h2 hm in
theorem imagePage_length : (imagePage s p).length = pageBytes s := by simp [imagePage]

/-- The registers of the Program pass while a page is worked on. -/
def seqProg (s : State) (p : Nat) (t : Tally) (step : PageStep) : Seq := seqIn .program s p t step

/-- The write of an attempt, done or skipped (R131). -/
theorem attemptWrite_writes (w : PageWriteRun) (hf : writeStepFits s p t w = true)
    (ha : answers u (bs ++ writeStepBeats s p t w) = true) :
    attemptWrite p (inside u bs true (seqProg s p t .attempt) b) =
      .ok false (inside u (bs ++ writeStepBeats s p t w) true (seqProg s p t .attempt) b) := by
  rw [attemptWrite, get_bind]
  cases hs : t.skip with
  | true =>
    have e : (inside u bs true (seqProg s p t .attempt) b).seq.skipWrite = true := hs
    rw [e, if_pos rfl]
    simp [writeStepBeats, hs]
  | false =>
    have e : (inside u bs true (seqProg s p t .attempt) b).seq.skipWrite = false := hs
    simp only [writeStepBeats, writeStepFits, hs, Bool.false_eq_true, if_false, Bool.false_or] at ha hf ⊢
    have hw := tells_pageWrite (pageAddr s p) (by rw [imagePage_length]; omega) (by rw [imagePage_length]; exact hm) w hf
    rw [e, if_neg (by simp), inside_imagePage B]
    exact bind_ok (tryOp_ok (hw.inside B ha))

theorem attemptWrite_fails (x : WriteFailRun) (hs : t.skip = false) (hf : writeFailFits s (imagePage s p) x = true)
    (ha : answers u (bs ++ writeFailBeats s (pageAddr s p) (imagePage s p) x) = true) :
    attemptWrite p (inside u bs true (seqProg s p t .attempt) b) =
      .ok true (inside u (bs ++ writeFailBeats s (pageAddr s p) (imagePage s p) x) true (seqProg s p t .attempt) b) := by
  have e : (inside u bs true (seqProg s p t .attempt) b).seq.skipWrite = false := hs
  have hw := tells_writeFail (pageAddr s p) (by rw [imagePage_length]; omega) (by rw [imagePage_length]; exact hm) x hf
  rw [attemptWrite, get_bind, e, if_neg (by simp), inside_imagePage B]
  exact bind_ok (tryOp_error (hw.inside B ha))

/-- An attempt whose write fails (R131). -/
theorem attempt_writeFails (x : WriteFailRun) (hs : t.skip = false) (hf : writeFailFits s (imagePage s p) x = true)
    (ha : answers u (bs ++ writeFailBeats s (pageAddr s p) (imagePage s p) x) = true) :
    attempt p (inside u bs true (seqProg s p t .attempt) b) =
      .ok .writeFail (inside u (bs ++ writeFailBeats s (pageAddr s p) (imagePage s p) x) true
        (seqProg s p t .attempt) b) := by
  rw [attempt, bind_ok (attemptWrite_fails B h2 hm x hs hf ha), if_pos rfl]
  rfl

/-- An attempt whose read fails (R131). -/
theorem attempt_readFails (w : PageWriteRun) (x : ReadFail) (hw : writeStepFits s p t w = true)
    (hf : readFailFits s (pageBytes s) x = true)
    (ha : answers u (bs ++ writeStepBeats s p t w ++ readFailBeats s (pageAddr s p) (pageBytes s) x) = true) :
    attempt p (inside u bs true (seqProg s p t .attempt) b) =
      .ok .readFail (inside u (bs ++ writeStepBeats s p t w ++ readFailBeats s (pageAddr s p) (pageBytes s) x) true
        (seqProg s p { t with skip := false } .attempt) b) := by
  rw [attempt, bind_ok (attemptWrite_writes B h2 hm w hw (answers_left ha)), if_neg (by simp)]
  refine (bind_ok (onSeq_inside _)).trans ?_
  rw [get_bind, inside_pageBytes B]
  exact bind_ok (tryOp_error ((tells_readRunFail (p := p) h2 hm x hf).inside B ha))

/-- An attempt whose read does not fail (R131). -/
theorem attempt_reads (w : PageWriteRun) (r : ReadRun) (hw : writeStepFits s p t w = true) (hf : readRunFits s r = true)
    (ha : answers u (bs ++ writeStepBeats s p t w ++ readRunBeats s p r) = true) :
    attempt p (inside u bs true (seqProg s p t .attempt) b) =
      .ok (if r.bytes == imagePage s p then .success else if isBlank s.prm r.bytes then .blank else .mismatch)
        (inside u (bs ++ writeStepBeats s p t w ++ readRunBeats s p r) true
          (seqProg s p { t with skip := false } .attempt) r.bytes) := by
  rw [attempt, bind_ok (attemptWrite_writes B h2 hm w hw (answers_left ha)), if_neg (by simp)]
  refine (bind_ok (onSeq_inside _)).trans ?_
  rw [get_bind, inside_pageBytes B]
  refine (bind_ok (tryOp_ok ((tells_readRun (p := p) h2 hm r hf).inside B ha))).trans ?_
  refine (bind_ok (setRbuf_inside _)).trans ?_
  rw [get_bind, classify, rbufIsPage, rbufBlank, inside_imagePage B, inside_prm B]
  rfl

omit h2 hm in
/-- The link set up after a failed attempt (R132). -/
theorem relink_inside (l : LinkRun) (hl : linkRunFits s l = true) {q : Seq} {b : List Byte}
    (ha : answers u (bs ++ relinkBeats s l) = true) :
    relink (inside u bs true q b) = .ok none (inside u (bs ++ relinkBeats s l) true q b) := by
  simp only [relinkBeats, ← List.append_assoc] at ha ⊢
  rw [relink, get_bind, bind_ok (tryOp_ok ((sets_linkRun l hl).inside B (answers_left ha)))]
  exact (bind_ok (settle_inside B)).trans rfl

omit h2 hm in
/-- The link not set up after a failed attempt (R132). -/
theorem relink_fails (fs : List AttemptFail) (hl : linkFailFits s fs = true) {q : Seq} {b : List Byte}
    (ha : answers u (bs ++ linkFailBeats s fs) = true) :
    relink (inside u bs true q b) = .ok (some s.prm.pgRelinkCode) (inside u (bs ++ linkFailBeats s fs) false q b) := by
  rw [relink, get_bind, bind_ok (tryOp_error ((sets_linkFail fs hl).inside B ha)), inside_prm B]
  rfl

omit h2 hm in
/-- The escalation (R133): one more counted, then the cap's test, then the erase. -/
theorem escalate_inside {step : PageStep} : escalate (inside u bs true (seqProg s p t step) b) =
    (if s.prm.pgEscCap < t.esc + 1 then pure (some s.prm.pgEscCode)
     else do
      let r ← tryOp (pageErase (pageAddr s p))
      match r with
      | .error _ => pure (some s.prm.pgEraseCode)
      | .ok _ => do
        onSeq fun q => { q with blankCnt := 0 }
        pure none : Op (Option Int)) (inside u bs true (seqProg s p { t with esc := t.esc + 1 } .eraseEscalate) b) := by
  rw [escalate]
  refine (bind_ok (setStep_inside _)).trans ((bind_ok (onSeq_inside _)).trans ?_)
  rw [get_bind, inside_prm B]
  rfl

omit h2 hm in
/-- A blank read-back (R133): one more counted, then the escalation where it is one too many. -/
theorem blankRecover_inside {step : PageStep} : recover .blank (inside u bs true (seqProg s p t step) b) =
    (if escalates s t then escalate >>= fun k =>
        match k with
        | some c => pure (some c)
        | none => relink
     else relink : Op (Option Int)) (inside u bs true (seqProg s p { t with blank := t.blank + 1 } .linkRetry) b) := by
  rw [recover, blankRecover]
  refine (bind_ok (setStep_inside _)).trans ((bind_ok (onSeq_inside _)).trans ?_)
  rw [get_bind, inside_prm B]
  cases hs : escalates s t with
  | false => exact congrFun (if_neg (show ¬ s.prm.pgBlankCap < t.blank + 1 by simpa [escalates] using hs)) _
  | true => exact congrFun (if_pos (show s.prm.pgBlankCap < t.blank + 1 by simpa [escalates] using hs)) _

/-- What a failed attempt's recovery does before it links (R132 to R135): the registers it leaves. -/
def recovered (s : State) (p : Nat) (t : Tally) (x : ProgFail) : Seq :=
  seqProg s p (progTally s t x)
    (match x with
      | .write _ => .linkRetry
      | .read _ _ => .linkRetry
      | .blank _ _ _ => if escalates s t then .eraseEscalate else .linkRetry
      | .mismatch _ _ => .dataRetry)

/-- What the loop does with the answer of a recovery (R130). -/
def goOn (p fuel : Nat) (k : Option Int) : Op (Option Int) :=
  match k with
  | some code => abortPage code
  | none => do
    setStep .attempt
    programPage p fuel

omit B h2 hm in
/-- An attempt that did not succeed is recovered from (R130). -/
theorem programPage_recovers {c : AttemptEnd} {w w' : State} (hc : c ≠ .success) (h : attempt p w = .ok c w')
    (fuel : Nat) : programPage p (fuel + 1) w = (recover c >>= goOn p fuel) w' := by
  rw [programPage, bind_ok h, if_neg hc]
  rfl

/-- A failed attempt within the caps: the page goes on, once the link is set up again, or ends where that fails
(R130 to R135). -/
theorem programPage_fails (x : ProgFail) (hf : progFailFits s p t x = true) (fuel : Nat)
    (ha : answers u (bs ++ progFailBeats s p t x) = true) :
    programPage p (fuel + 1) (inside u bs true (seqProg s p t .attempt) b) =
      (relink >>= goOn p fuel)
        (inside u (bs ++ progFailBeats s p t x) true (recovered s p t x) (progFailRbuf b x)) := by
  have go : ∀ {c : AttemptEnd} {w : State}, c ≠ .success →
      attempt p (inside u bs true (seqProg s p t .attempt) b) = .ok c w →
      recover c w = relink (inside u (bs ++ progFailBeats s p t x) true (recovered s p t x) (progFailRbuf b x)) →
      programPage p (fuel + 1) (inside u bs true (seqProg s p t .attempt) b) = (relink >>= goOn p fuel)
        (inside u (bs ++ progFailBeats s p t x) true (recovered s p t x) (progFailRbuf b x)) := by
    intro c w hc hat hr
    rw [programPage_recovers hc hat, bind_apply, hr, ← bind_apply]
  cases x with
  | write f =>
    simp only [progFailFits, Bool.and_eq_true, Bool.not_eq_true', decide_eq_true_eq] at hf
    refine go (by simp) (attempt_writeFails B h2 hm f hf.1.1 hf.1.2 ha) ?_
    rw [recover, linkRecover, get_bind, bind_ok (countLink_inside _), inside_prm B, decide_eq_false
      (show ¬ s.prm.pgLinkCap < (seqProg s p t .attempt).linkErr + 1 from (by
        have := hf.2; simp only [seqProg, seqIn, seqOver]; omega))]
    rfl
  | read w f =>
    simp only [progFailFits, Bool.and_eq_true, decide_eq_true_eq] at hf
    simp only [progFailBeats, ← List.append_assoc] at ha
    refine go (by simp) (attempt_readFails B h2 hm w f hf.1.1 hf.1.2 ha) ?_
    rw [recover, linkRecover, get_bind, bind_ok (countLink_inside _), inside_prm B, decide_eq_false
      (show ¬ s.prm.pgLinkCap < (seqProg s p { t with skip := false } .attempt).linkErr + 1 from (by
        have := hf.2; simp only [seqProg, seqIn, seqOver]; omega))]
    simp only [progFailBeats, ← List.append_assoc]
    rfl
  | blank w r e =>
    simp only [progFailFits, Bool.and_eq_true, bne_iff_ne, ne_eq, Bool.or_eq_true, Bool.not_eq_true',
      decide_eq_true_eq] at hf
    obtain ⟨⟨⟨⟨hw, hr⟩, hb⟩, hi⟩, he⟩ := hf
    simp only [progFailBeats, ← List.append_assoc] at ha
    have hat := attempt_reads B h2 hm (b := b) w r hw hr (answers_left ha)
    rw [beq_false_of_ne hi, hb] at hat
    refine go (by simp) hat ?_
    rw [if_neg (by simp), if_pos rfl, blankRecover_inside B]
    cases hs : escalates s t with
    | false =>
      have hs' : escalates s { t with skip := false } = false := hs
      simp only [progFailBeats, recovered, progTally, hs, hs', Bool.false_eq_true, if_false, List.append_nil,
        ← List.append_assoc]
      rfl
    | true =>
      have hs' : escalates s { t with skip := false } = true := hs
      simp only [hs, Bool.true_eq_false, false_or, if_true] at he ha
      have hk : escalate (inside u (bs ++ writeStepBeats s p t w ++ readRunBeats s p r) true
          (seqProg s p { t with blank := t.blank + 1, skip := false } .linkRetry) r.bytes) =
          .ok none (inside u (bs ++ progFailBeats s p t (.blank w r e)) true (recovered s p t (.blank w r e)) r.bytes) := by
        rw [escalate_inside B, if_neg (show ¬ s.prm.pgEscCap < t.esc + 1 by omega),
          bind_ok (tryOp_ok ((tells_pageErase (pageAddr s p) (by omega) hm e he.2).inside B ha))]
        simp only [progFailBeats, recovered, progTally, hs, ← List.append_assoc]
        rfl
      rw [hs', if_pos rfl]
      exact bind_ok hk
  | mismatch w r =>
    simp only [progFailFits, Bool.and_eq_true, bne_iff_ne, ne_eq, Bool.not_eq_true', decide_eq_true_eq] at hf
    obtain ⟨⟨⟨⟨hw, hr⟩, hb⟩, hi⟩, he⟩ := hf
    simp only [progFailBeats, ← List.append_assoc] at ha
    have hat := attempt_reads B h2 hm (b := b) w r hw hr ha
    rw [beq_false_of_ne hi, hb] at hat
    refine go (by simp) hat ?_
    rw [if_neg (by simp), if_neg (by simp), recover, dataRecover, get_bind, bind_ok (countData_inside _), inside_prm B,
      decide_eq_false (show ¬ s.prm.pgDataCap < (seqProg s p { t with skip := false } .attempt).dataErr + 1 from (by
        simp only [seqProg, seqIn, seqOver]; omega))]
    simp only [progFailBeats, ← List.append_assoc]
    rfl

/-- Failed attempts within the caps: the loop goes on with what they leave (R130 to R135). -/
theorem programPage_tries (tries : List ProgTry) (k : Nat) : ∀ {bs : List Beat} (t : Tally) (b : List Byte),
    progTriesFit s p t tries = true → answers u (bs ++ progTriesBeats s p t tries) = true →
    programPage p (tries.length + k) (inside u bs true (seqProg s p t .attempt) b) =
      programPage p k (inside u (bs ++ progTriesBeats s p t tries) true
        (seqProg s p (tries.foldl (fun t x => progTally s t x.fail) t) .attempt) (progTriesRbuf b tries)) := by
  induction tries with
  | nil => intro bs t b _ _; simp [progTriesBeats, progTriesRbuf]
  | cons x xs ih =>
    intro bs t b hf ha
    simp only [progTriesFit, Bool.and_eq_true] at hf
    simp only [progTriesBeats, ← List.append_assoc] at ha ⊢
    have a1 := answers_left ha
    have e : (x :: xs).length + k = (xs.length + k) + 1 := by simp; omega
    rw [e, programPage_fails B h2 hm x.fail hf.1.1 _ (answers_left a1), bind_ok (relink_inside B x.link hf.1.2 a1), goOn]
    refine (bind_ok (setStep_inside _)).trans ?_
    exact ih (progTally s t x.fail) (progFailRbuf b x.fail) hf.2 ha

omit B h2 hm in
/-- The attempts the counters of a page stand for, and that they are within the caps (R125, R133). -/
theorem progTries_count (tries : List ProgTry) : ∀ t : Tally, t.link ≤ s.prm.pgLinkCap → t.data ≤ s.prm.pgDataCap →
    t.blank ≤ s.prm.pgBlankCap → t.esc ≤ s.prm.pgEscCap → progTriesFit s p t tries = true → ∃ t' : Tally,
    tries.foldl (fun t x => progTally s t x.fail) t = t' ∧ t'.link ≤ s.prm.pgLinkCap ∧ t'.data ≤ s.prm.pgDataCap ∧
    t'.blank ≤ s.prm.pgBlankCap ∧ t'.esc ≤ s.prm.pgEscCap ∧
    t'.link + t'.data + t'.esc * (s.prm.pgBlankCap + 1) + t'.blank =
      t.link + t.data + t.esc * (s.prm.pgBlankCap + 1) + t.blank + tries.length := by
  induction tries with
  | nil => intro t h1 h2 h3 h4 _; exact ⟨t, rfl, h1, h2, h3, h4, rfl⟩
  | cons x xs ih =>
    intro t h1 h2 h3 h4 hf
    simp only [progTriesFit, Bool.and_eq_true] at hf
    have step : ∀ t1 : Tally, progTally s t x.fail = t1 → t1.link ≤ s.prm.pgLinkCap → t1.data ≤ s.prm.pgDataCap →
        t1.blank ≤ s.prm.pgBlankCap → t1.esc ≤ s.prm.pgEscCap →
        t1.link + t1.data + t1.esc * (s.prm.pgBlankCap + 1) + t1.blank =
          t.link + t.data + t.esc * (s.prm.pgBlankCap + 1) + t.blank + 1 → ∃ t' : Tally,
        (x :: xs).foldl (fun t x => progTally s t x.fail) t = t' ∧ t'.link ≤ s.prm.pgLinkCap ∧
        t'.data ≤ s.prm.pgDataCap ∧ t'.blank ≤ s.prm.pgBlankCap ∧ t'.esc ≤ s.prm.pgEscCap ∧
        t'.link + t'.data + t'.esc * (s.prm.pgBlankCap + 1) + t'.blank =
          t.link + t.data + t.esc * (s.prm.pgBlankCap + 1) + t.blank + (x :: xs).length := by
      intro t1 e k1 k2 k3 k4 k5
      obtain ⟨t', r0, r1, r2, r3, r4, r5⟩ := ih t1 k1 k2 k3 k4 (e ▸ hf.2)
      refine ⟨t', by rw [List.foldl_cons, e, r0], r1, r2, r3, r4, ?_⟩
      rw [r5, k5, List.length_cons]
      omega
    have hx := hf.1.1
    cases hx' : x.fail with
    | write f =>
      rw [hx'] at hx
      simp only [progFailFits, Bool.and_eq_true, decide_eq_true_eq] at hx
      refine step { t with link := t.link + 1, skip := false } (by rw [hx']; rfl) ?_ h2 h3 h4 ?_ <;> simp only <;> omega
    | read w f =>
      rw [hx'] at hx
      simp only [progFailFits, Bool.and_eq_true, decide_eq_true_eq] at hx
      refine step { t with link := t.link + 1, skip := true } (by rw [hx']; rfl) ?_ h2 h3 h4 ?_ <;> simp only <;> omega
    | mismatch w r =>
      rw [hx'] at hx
      simp only [progFailFits, Bool.and_eq_true, decide_eq_true_eq] at hx
      refine step { t with data := t.data + 1, skip := false } (by rw [hx']; rfl) h1 ?_ h3 h4 ?_ <;> simp only <;> omega
    | blank w r e =>
      rw [hx'] at hx
      simp only [progFailFits, Bool.and_eq_true, Bool.or_eq_true, Bool.not_eq_true', decide_eq_true_eq] at hx
      cases hs : escalates s t with
      | false =>
        have hn : ¬ s.prm.pgBlankCap < t.blank + 1 := by simpa [escalates] using hs
        refine step { t with blank := t.blank + 1, skip := false } (by rw [hx']; simp [progTally, hs]) h1 h2 ?_ h4 ?_ <;>
          simp only <;> omega
      | true =>
        have hn : s.prm.pgBlankCap < t.blank + 1 := by simpa [escalates] using hs
        have he : t.esc < s.prm.pgEscCap := by simpa [hs] using hx.2 |>.resolve_left (by simp [hs]) |>.1
        refine step { t with blank := 0, esc := t.esc + 1, skip := false } (by rw [hx']; simp [progTally, hs]) h1 h2
          (Nat.zero_le _) he ?_
        simp only [Nat.add_mul]
        omega

omit B h2 hm in
/-- After failed attempts within the caps there is one more (60_exceptions.md R156). -/
theorem progTries_fuel {tries : List ProgTry} (hf : progTriesFit s p Tally.zero tries = true) :
    ∃ j, programBound s.prm = tries.length + (j + 1) := by
  obtain ⟨t', _, h1, h2, h3, h4, h5⟩ := progTries_count tries Tally.zero (Nat.zero_le _) (Nat.zero_le _) (Nat.zero_le _)
    (Nat.zero_le _) hf
  refine ⟨programBound s.prm - tries.length - 1, ?_⟩
  have hmul : t'.esc * (s.prm.pgBlankCap + 1) ≤ s.prm.pgEscCap * (s.prm.pgBlankCap + 1) := Nat.mul_le_mul_right _ h4
  have e : programBound s.prm = s.prm.pgLinkCap + s.prm.pgDataCap + (s.prm.pgEscCap * (s.prm.pgBlankCap + 1) +
      (s.prm.pgBlankCap + 1)) := by rw [programBound, Nat.add_mul, Nat.one_mul]
  simp only [Tally.zero] at h5
  omega

/-- A page that is accepted (R130, R131). -/
theorem programPage_accepts (x : ProgPageRun) (hf : progPageFits s p x = true)
    (ha : answers u (bs ++ progPageBeats s p x) = true) :
    programPage p (programBound s.prm) (inside u bs true (seqProg s p Tally.zero .attempt) b) =
      .ok none (inside u (bs ++ progPageBeats s p x) true
        (seqProg s p { progTriesTally s x.tries with skip := false } .success) x.last.bytes) := by
  simp only [progPageFits, Bool.and_eq_true, beq_iff_eq] at hf
  obtain ⟨⟨h3, h4⟩, h5⟩ := hf
  obtain ⟨j, hj⟩ := progTries_fuel h3
  have hr : readRunFits s x.last = true := by
    have : x.last.bytes.length = pageBytes s := by rw [h5, imagePage_length]
    simpa [readRunFits, ReadRun.bytes] using this
  simp only [progPageBeats, ← List.append_assoc] at ha ⊢
  rw [hj]
  refine (programPage_tries B h2 hm x.tries (j + 1) Tally.zero b h3 (answers_left (answers_left ha))).trans ?_
  have hat := attempt_reads B h2 hm (b := progTriesRbuf b x.tries) x.write x.last h4 hr ha
  rw [h5, beq_self_eq_true, if_pos rfl, ← h5] at hat
  rw [programPage, progTriesTally]
  refine (bind_ok hat).trans ?_
  rw [if_pos rfl]
  rfl

/-- A page that ends its pass (R125, R132 to R135). -/
theorem programPage_stops (tries : List ProgTry) (x : ProgStop) (ht : progTriesFit s p Tally.zero tries = true)
    (hf : progStopFits s p (progTriesTally s tries) x = true)
    (ha : answers u (bs ++ progTriesBeats s p Tally.zero tries ++ progStopBeats s p (progTriesTally s tries) x) = true) :
    programPage p (programBound s.prm) (inside u bs true (seqProg s p Tally.zero .attempt) b) =
      .ok (some (progStopCode s.prm x))
        (inside u (bs ++ progTriesBeats s p Tally.zero tries ++ progStopBeats s p (progTriesTally s tries) x)
          (progStopMode x) (seqProg s p (progStopTally s (progTriesTally s tries) x) .abort)
          (progStopRbuf (progTriesRbuf b tries) x)) := by
  obtain ⟨j, hj⟩ := progTries_fuel ht
  obtain ⟨t, h0, h1, h3, h4, h5, _⟩ := progTries_count tries Tally.zero (Nat.zero_le _) (Nat.zero_le _) (Nat.zero_le _)
    (Nat.zero_le _) ht
  have h0' : progTriesTally s tries = t := h0
  rw [h0'] at hf ha ⊢
  rw [hj]
  refine (programPage_tries B h2 hm tries (j + 1) Tally.zero b ht (answers_left ha)).trans ?_
  rw [h0]
  cases x with
  | write f =>
    simp only [progStopFits, Bool.and_eq_true, Bool.not_eq_true', beq_iff_eq] at hf
    rw [programPage_recovers (by simp) (attempt_writeFails B h2 hm f hf.1.1 hf.1.2 ha), recover, linkRecover, bind_apply,
      get_bind, bind_ok (countLink_inside _), inside_prm B, decide_eq_true
      (show s.prm.pgLinkCap < (seqProg s p t .attempt).linkErr + 1 from (by rw [← hf.2]; exact Nat.lt_succ_self _))]
    have hs := hf.1.1
    simp only [progStopTally, ← hs]
    rfl
  | read w f =>
    simp only [progStopFits, Bool.and_eq_true, beq_iff_eq] at hf
    simp only [progStopBeats, ← List.append_assoc] at ha ⊢
    rw [programPage_recovers (by simp) (attempt_readFails B h2 hm w f hf.1.1 hf.1.2 ha), recover, linkRecover, bind_apply,
      get_bind, bind_ok (countLink_inside _), inside_prm B, decide_eq_true
      (show s.prm.pgLinkCap < (seqProg s p { t with skip := false } .attempt).linkErr + 1 from
        (by rw [← hf.2]; exact Nat.lt_succ_self _))]
    rfl
  | mismatch w r =>
    simp only [progStopFits, Bool.and_eq_true, bne_iff_ne, ne_eq, Bool.not_eq_true', beq_iff_eq] at hf
    obtain ⟨⟨⟨⟨hw, hr⟩, hb⟩, hi⟩, he⟩ := hf
    simp only [progStopBeats, ← List.append_assoc] at ha ⊢
    have hat := attempt_reads B h2 hm (b := progTriesRbuf b tries) w r hw hr ha
    rw [beq_false_of_ne hi, hb] at hat
    rw [programPage_recovers (by simp) hat, if_neg (by simp), if_neg (by simp), recover, dataRecover, bind_apply, get_bind,
      bind_ok (countData_inside _), inside_prm B, decide_eq_true
      (show s.prm.pgDataCap < (seqProg s p { t with skip := false } .attempt).dataErr + 1 from
        (by rw [← he]; exact Nat.lt_succ_self _))]
    rfl
  | exhausted w r =>
    simp only [progStopFits, Bool.and_eq_true, bne_iff_ne, ne_eq, beq_iff_eq] at hf
    obtain ⟨⟨⟨⟨⟨hw, hr⟩, hb⟩, hi⟩, hs⟩, he⟩ := hf
    simp only [progStopBeats, ← List.append_assoc] at ha ⊢
    have hat := attempt_reads B h2 hm (b := progTriesRbuf b tries) w r hw hr ha
    rw [beq_false_of_ne hi, hb] at hat
    have hs' : escalates s { t with skip := false } = true := hs
    rw [programPage_recovers (by simp) hat, if_neg (by simp), if_pos rfl, bind_apply, blankRecover_inside B, hs', if_pos rfl,
      bind_apply, escalate_inside B, if_pos (show s.prm.pgEscCap < t.esc + 1 by omega)]
    rfl
  | erase w r f =>
    simp only [progStopFits, Bool.and_eq_true, bne_iff_ne, ne_eq, decide_eq_true_eq] at hf
    obtain ⟨⟨⟨⟨⟨⟨hw, hr⟩, hb⟩, hi⟩, hs⟩, he⟩, hx⟩ := hf
    simp only [progStopBeats, ← List.append_assoc] at ha ⊢
    have hat := attempt_reads B h2 hm (b := progTriesRbuf b tries) w r hw hr (answers_left ha)
    rw [beq_false_of_ne hi, hb] at hat
    have hs' : escalates s { t with skip := false } = true := hs
    rw [programPage_recovers (by simp) hat, if_neg (by simp), if_pos rfl, bind_apply, blankRecover_inside B, hs', if_pos rfl,
      bind_apply, escalate_inside B, if_neg (show ¬ s.prm.pgEscCap < t.esc + 1 by omega),
      bind_ok (tryOp_error ((tells_eraseFail (pageAddr s p) (by omega) hm f hx).inside B ha))]
    rfl
  | relink x fs =>
    simp only [progStopFits, Bool.and_eq_true] at hf
    simp only [progStopBeats, ← List.append_assoc] at ha ⊢
    rw [programPage_fails B h2 hm x hf.1 _ (answers_left ha), bind_ok (relink_fails B fs hf.2 ha), goOn]
    rfl

end

/-! ## The walk over the pages (R122, R123, R138) -/

/-- Each of the first `m` pages is accepted with its trace, its counters and its last read-back. -/
def PagesRun (s u : State) (pass : Pass) (page : Nat → Op (Option Int)) (pb : Nat → List Beat) (tl : Nat → Tally)
    (last : Nat → List Byte) (m : Nat) : Prop :=
  ∀ p < m, ∀ (bs : List Beat) (b : List Byte), answers u (bs ++ pb p) = true →
    page p (inside u bs true (seqIn pass s p Tally.zero .attempt) b) =
      .ok none (inside u (bs ++ pb p) true (seqIn pass s p (tl p) .success) (last p))

section
variable {s u : State} (B : Base s u) {pass : Pass} {n : Nat} {page : Nat → Op (Option Int)} {pb : Nat → List Beat}
  {tl : Nat → Tally} {last : Nat → List Byte}
include B

omit B in
theorem pagesBeats_succ (m : Nat) :
    pagesBeats pass n (m + 1) pb = pagesBeats pass n m pb ++ pb m ++ [.event pass (m + 1) n] := by
  simp [pagesBeats, List.range_succ]

/-- The first `m` pages of a pass, each accepted. -/
theorem walkPages_accepted (m : Nat) (hm : m ≤ n) (h : PagesRun s u pass page pb tl last m) {bs : List Beat} {q : Seq}
    {b : List Byte} (hq : q.pass = pass) (ha : answers u (bs ++ pagesBeats pass n m pb) = true) :
    walkPages pass n page n 0 (inside u bs true q b) =
      walkPages pass n page (n - m) m (inside u (bs ++ pagesBeats pass n m pb) true
        (if m = 0 then q else seqIn pass s (m - 1) (tl (m - 1)) .success) (if m = 0 then b else last (m - 1))) := by
  induction m with
  | zero => simp [pagesBeats]
  | succ m ih =>
    rw [pagesBeats_succ] at ha ⊢
    simp only [← List.append_assoc] at ha ⊢
    have a1 := answers_left ha
    have e : n - m = (n - (m + 1)) + 1 := by omega
    rw [ih (by omega) (fun p hp => h p (by omega)) (answers_left a1), e, walkPages, bind_ok (startPage_inside B m)]
    have hp : (if m = 0 then q else seqIn pass s (m - 1) (tl (m - 1)) .success).pass = pass := by split <;> [exact hq; rfl]
    rw [hp, bind_ok (h m (Nat.lt_succ_self m) _ _ a1)]
    exact bind_ok (progress_inside _ _ _)

/-- Every page accepted: the pass returns 0. -/
theorem walkPages_done (h : PagesRun s u pass page pb tl last n) {bs : List Beat} {q : Seq} {b : List Byte}
    (hq : q.pass = pass) (ha : answers u (bs ++ pagesBeats pass n n pb) = true) :
    walkPages pass n page n 0 (inside u bs true q b) =
      .ok 0 (inside u (bs ++ pagesBeats pass n n pb) true
        (if n = 0 then { q with pass := .none } else seqOver s (n - 1) (tl (n - 1)) .success)
        (if n = 0 then b else last (n - 1))) := by
  rw [walkPages_accepted B n (Nat.le_refl n) h hq ha, Nat.sub_self, walkPages, endPass_inside]
  split <;> rfl

/-- A page that aborts ends the pass with its code. -/
theorem walkPages_aborts {m : Nat} (hm : m < n) (h : PagesRun s u pass page pb tl last m) {bs cs : List Beat} {q : Seq}
    {b b' : List Byte} (hq : q.pass = pass) {c : Int} {t : Tally} {v : Bool}
    (ha : answers u (bs ++ pagesBeats pass n m pb) = true)
    (hs : page m (inside u (bs ++ pagesBeats pass n m pb) true (seqIn pass s m Tally.zero .attempt)
      (if m = 0 then b else last (m - 1))) = .ok (some c) (inside u cs v (seqIn pass s m t .abort) b')) :
    walkPages pass n page n 0 (inside u bs true q b) = .ok c (inside u cs v (seqOver s m t .abort) b') := by
  have e : n - m = (n - m - 1) + 1 := by omega
  have hp : (if m = 0 then q else seqIn pass s (m - 1) (tl (m - 1)) .success).pass = pass := by split <;> [exact hq; rfl]
  rw [walkPages_accepted B m (by omega) h hq ha, e, walkPages, bind_ok (startPage_inside B m), hp, bind_ok hs]
  exact endPass_inside c

/-- The link at the start of a pass (R123). -/
theorem ensureLink_inside (lazy : Option LinkRun) (hl : lazyFits s lazy = true) {bs : List Beat} {q : Seq} {b : List Byte}
    (ha : answers u (bs ++ lazyBeats s lazy) = true) :
    ensureLink (inside u bs s.progMode q b) = .ok () (inside u (bs ++ lazyBeats s lazy) true q b) := by
  rw [ensureLink, get_bind]
  cases lazy with
  | none =>
    have hl' : s.progMode = true := hl
    simp [lazyBeats, hl', inside, withSession]
  | some l =>
    simp only [lazyFits, Bool.and_eq_true, Bool.not_eq_true'] at hl
    refine (congrFun (if_neg (show ¬ s.progMode = true by simp [hl.1])) _).trans ?_
    exact (sets_linkRun l hl.2).inside B ha

/-- A page-walking pass up to its first page, the link up or brought up. -/
theorem walkPass_linked (hu : u.progMode = s.progMode) (linkCode : Int) (lazy : Option LinkRun)
    (hl : lazyFits s lazy = true) (ha : answers u ([.event pass 0 n] ++ lazyBeats s lazy) = true) :
    walkPass pass linkCode n page u =
      walkPages pass n page n 0
        (inside u ([.event pass 0 n] ++ lazyBeats s lazy) true (seqBegun pass u) u.rbuf) := by
  rw [walkPass, bind_ok (beginPass_inside pass), hu]
  refine (bind_ok (progress_inside _ _ _)).trans ?_
  exact bind_ok (tryOp_ok (ensureLink_inside B lazy hl ha))

end

/-! ## The passes from the host port -/

section
variable {s : State}

/-- An accepted operation works with pages of a legal size (10_state.md R18). -/
theorem accepts_sizes {i : Instr} (h : accepts i s = true) : 2 ≤ pageBytes s ∧ pageBytes s ≤ s.prm.maxBurst := by
  simp only [accepts, Bool.and_eq_true] at h
  have := h.1.2
  simp only [Cfg.wf, Bool.and_eq_true, decide_eq_true_eq] at this
  simp only [pageBytes]
  omega

/-- An accepted pass that left a trace, session fields and a code. -/
theorem serve_inside {i : Instr} {m : Op Int} {c : Int} {bs : List Beat} {v : Bool} {q : Seq} {b : List Byte}
    (ha : accepts i s = true) (h : m (beginOp s) = .ok c (inside (beginOp s) bs v q b)) :
    serve i (codeValue m) s = .next { done s bs (.ok (.code c)) with progMode := v, seq := q, rbuf := b } := by
  simp [serve, ha, codeValue, h, endOp]
  rfl

variable (ho : s.phyOpen = true) (h2 : 2 ≤ pageBytes s) (hm : pageBytes s ≤ s.prm.maxBurst) {rules : ReadRules}
  {acc : Nat → State → Bool} (hacc : ∀ p bs v q b, acc p (inside (beginOp s) bs v q b) = rules.accept p b)
  {runs : Nat → ReadPageRun} {lazy : Option LinkRun}
include ho h2 hm hacc

theorem readPages_run {m : Nat} (hr : ∀ p < m, readPageFits s rules p (runs p) = true) :
    PagesRun s (beginOp s) rules.pass
      (fun p => readPage (acc p) rules.linkCap rules.dataCap rules.linkCode rules.dataCode
        (readBound rules.linkCap rules.dataCap))
      (fun p => readPageBeats s p (runs p)) (fun p => readTally (runs p).tries) (fun p => (runs p).last.bytes) m :=
  fun p hp _ b hb => readPage_accepts (base_beginOp ho) h2 hm (hacc p) (runs p) (hr p hp) b hb

/-- A reading pass whose pages are all accepted (R126, R136). -/
theorem readPass_done (hl : lazyFits s lazy = true)
    (hr : ∀ p < pagesOf s rules.pass, readPageFits s rules p (runs p) = true) (code : Int)
    (hb : answers s (readPassBeats s rules (pagesOf s rules.pass) lazy runs) = true) :
    walkPass rules.pass code (pagesOf s rules.pass)
        (fun p => readPage (acc p) rules.linkCap rules.dataCap rules.linkCode rules.dataCode
          (readBound rules.linkCap rules.dataCap)) (beginOp s) =
      .ok 0 (inside (beginOp s) (readPassBeats s rules (pagesOf s rules.pass) lazy runs) true
        (seqDone s (pagesOf s rules.pass) fun p => readTally (runs p).tries)
        (rbufAfter s (pagesOf s rules.pass) fun p => (runs p).last.bytes)) := by
  have B := base_beginOp ho
  rw [← answers_beginOp] at hb
  simp only [readPassBeats, walkBeats] at hb ⊢
  rw [walkPass_linked B rfl code lazy hl (answers_left hb),
    walkPages_done B (readPages_run ho h2 hm hacc hr) rfl hb]
  rfl

/-- A reading pass that a page ends (R125, R126, R136). -/
theorem readPass_stops (hl : lazyFits s lazy = true) {m : Nat} (hn : m < pagesOf s rules.pass)
    {tries : List ReadTry} {stop : ReadStop} (hr : ∀ p < m, readPageFits s rules p (runs p) = true)
    (ht : readTriesFit s rules m tries = true) (hs : readStopFits s rules m (readTally tries) stop = true) (code : Int)
    (hb : answers s (readPassBeats s rules m lazy runs ++ tries.flatMap (readTryBeats s m) ++ readStopBeats s m stop) =
      true) :
    walkPass rules.pass code (pagesOf s rules.pass)
        (fun p => readPage (acc p) rules.linkCap rules.dataCap rules.linkCode rules.dataCode
          (readBound rules.linkCap rules.dataCap)) (beginOp s) =
      .ok (readStopCode rules stop)
        (inside (beginOp s)
          (readPassBeats s rules m lazy runs ++ tries.flatMap (readTryBeats s m) ++ readStopBeats s m stop)
          (readStopMode stop) (seqOver s m (readStopTally (readTally tries) stop) .abort)
          (readStopRbuf (readTriesRbuf (rbufAfter s m fun p => (runs p).last.bytes) tries) stop)) := by
  have B := base_beginOp ho
  rw [← answers_beginOp] at hb
  have hw := answers_left (answers_left hb)
  simp only [readPassBeats, walkBeats] at hb hw ⊢
  rw [walkPass_linked B rfl code lazy hl (answers_left hw)]
  exact walkPages_aborts B hn (readPages_run ho h2 hm hacc hr) rfl hw
    (readPage_stops B h2 hm (hacc m) tries stop ht hs _ hb)

end

/-! ## A closed PHY with the flag true (60_exceptions.md R145) -/

section
variable {u : State}

/-- The flag is true, so the link is taken to be up (R123). -/
theorem ensureLink_flagged (h : u.progMode = true) : ensureLink u = .ok () u := by
  rw [ensureLink, get_bind, h]
  rfl

/-- A page-walking pass up to its first page, the flag true. -/
theorem walkPass_flagged (hu : u.progMode = true) (pass : Pass) (linkCode : Int) (n : Nat) (page : Nat → Op (Option Int)) :
    walkPass pass linkCode n page u =
      walkPages pass n page n 0 (inside u [.event pass 0 n] true (seqBegun pass u) u.rbuf) := by
  rw [walkPass, bind_ok (beginPass_inside pass), hu]
  exact (bind_ok (progress_inside _ _ _)).trans (bind_ok (tryOp_ok (ensureLink_flagged rfl)))

/-- A first page that aborts without a call ends the pass with its code. -/
theorem walkPages_abortsAtOnce {pass : Pass} {n : Nat} {page : Nat → Op (Option Int)} {bs : List Beat} {q : Seq}
    {b : List Byte} {c : Int} {t : Tally} {v : Bool} (hn : 0 < n) (hq : q.pass = pass)
    (h : page 0 (inside u bs true (seqIn pass u 0 Tally.zero .attempt) b) =
      .ok (some c) (inside u bs v (seqIn pass u 0 t .abort) b)) :
    walkPages pass n page n 0 (inside u bs true q b) = .ok c (inside u bs v (seqOver u 0 t .abort) b) := by
  obtain ⟨k, rfl⟩ : ∃ k, n = k + 1 := ⟨n - 1, by omega⟩
  have e : startPage 0 (inside u bs true q b) = .ok () (inside u bs true (seqIn pass u 0 Tally.zero .attempt) b) := by
    rw [startPage, update_apply, ← hq]
    simp only [inside, withSession, seqIn, seqOver, pageAddr, pageBytes, playAll_cfg]
    rfl
  rw [walkPages, bind_ok e, bind_ok h]
  exact endPass_inside c

variable (ho : u.phyOpen = false)
include ho

theorem linkInit_closed (hn : 0 < u.prm.linkInitAttempts) :
    linkInit u = .error (.ioError .closed) (setProgMode false u) := by
  obtain ⟨k, hk⟩ : ∃ k, u.prm.linkInitAttempts = k + 1 := ⟨u.prm.linkInitAttempts - 1, by omega⟩
  have h : tryLink (setProgMode false u) = .error (.ioError .closed) (setProgMode false u) :=
    bind_error (phyDoubleBreak_closed ho)
  rw [linkInit, get_bind, hk, linkAttempts, bind_ok (update_apply _ _), bind_ok (tryOp_error h)]
  rfl

theorem waitReady_closed : ∃ e, waitReady u = .error e u := by
  rw [waitReady, get_bind]
  cases u.prm.readyTimeoutMs / u.prm.readyPollMs with
  | zero => exact ⟨_, rfl⟩
  | succ k =>
    refine ⟨.ioError .closed, ?_⟩
    rw [pollReady, get_bind, lds]
    exact bind_error ((get_bind _).trans (bind_error (phySend_closed _ ho)))

theorem chipErase_closed : ∃ e, chipErase u = .error e u := by
  obtain ⟨e, he⟩ := waitReady_closed ho
  exact ⟨readyError e, bind_error (by simp [mapErr, he])⟩

theorem pageWrite_closed (addr : Addr) (data : List Byte) : ∃ e, pageWrite addr data u = .error e u := by
  obtain ⟨e, he⟩ := waitReady_closed ho
  by_cases h : 1 ≤ data.length ∧ data.length ≤ u.prm.maxBurst
  · exact ⟨e, (bind_ok (checkSize_ok h.1 h.2)).trans (bind_error he)⟩
  · exact ⟨_, bind_error (checkSize_error (by omega))⟩

theorem pageRead_closed (addr : Addr) (n : Nat) : ∃ e, pageRead addr n u = .error e u := by
  by_cases h : 2 ≤ n ∧ n ≤ u.prm.maxBurst
  · refine ⟨.ioError .closed, (bind_ok (checkSize_ok h.1 h.2)).trans ?_⟩
    rw [setPtr]
    exact bind_error ((get_bind _).trans (bind_error (phySend_closed _ ho)))
  · exact ⟨_, bind_error (checkSize_error (by omega))⟩

variable {bs : List Beat} {v : Bool} {q : Seq} {b : List Byte}

theorem inside_closed : (inside u bs v q b).phyOpen = false := (playAll_phyOpen bs u).trans ho

variable (hn : 0 < u.prm.linkInitAttempts)
include hn

theorem linkInit_insideClosed : linkInit (inside u bs v q b) = .error (.ioError .closed) (inside u bs false q b) :=
  linkInit_closed (inside_closed ho) (by rw [show (inside u bs v q b).prm = u.prm from playAll_prm bs u]; exact hn)

/-- A page of a reading pass ends at its first read: one link failure, and a failed `LINK_INIT` where the cap allows it. -/
theorem readPage_closed (acc : State → Bool) (linkCap dataCap : Nat) (linkCode dataCode : Int) (fuel : Nat) :
    readPage acc linkCap dataCap linkCode dataCode (fuel + 1) (inside u bs true q b) =
      .ok (some linkCode) (inside u bs (decide (linkCap < q.linkErr + 1))
        { q with linkErr := q.linkErr + 1, step := .abort } b) := by
  obtain ⟨x, hx⟩ := pageRead_closed (inside_closed ho (bs := bs) (v := true) (q := q) (b := b)) q.addr
    (pageBytes (inside u bs true q b))
  rw [readPage, get_bind]
  refine (bind_ok (tryOp_error hx)).trans ((bind_ok (countLink_inside _)).trans ?_)
  by_cases hc : linkCap < q.linkErr + 1
  · rw [decide_eq_true hc]
    rfl
  · rw [decide_eq_false hc]
    exact (bind_ok (tryOp_error (linkInit_insideClosed ho hn))).trans (abortPage_inside _)

/-- The recovery of a link failure (R135). -/
theorem linkRecover_closed (skip : Bool) (hs : q.skipWrite = skip) :
    linkRecover skip (inside u bs true q b) =
      .ok (some (if u.prm.pgLinkCap < q.linkErr + 1 then u.prm.pgLinkCode else u.prm.pgRelinkCode))
        (inside u bs (decide (u.prm.pgLinkCap < q.linkErr + 1))
          { q with linkErr := q.linkErr + 1, step := .linkRetry } b) := by
  have p : ∀ w r, (inside u bs w r b).prm = u.prm := fun _ _ => playAll_prm bs u
  rw [linkRecover, get_bind, p, bind_ok (countLink_inside _)]
  by_cases hc : u.prm.pgLinkCap < q.linkErr + 1
  · rw [decide_eq_true hc, if_pos hc]
    rfl
  · rw [decide_eq_false hc, if_neg hc, ← hs]
    refine (bind_ok (onSeq_inside _)).trans ?_
    rw [relink, get_bind, p]
    exact bind_ok (tryOp_error (linkInit_insideClosed ho hn))

/-- A page of Program ends at its first write (R131, R135). -/
theorem programPage_closed (p fuel : Nat) (hs : q.skipWrite = false) :
    programPage p (fuel + 1) (inside u bs true q b) =
      .ok (some (if u.prm.pgLinkCap < q.linkErr + 1 then u.prm.pgLinkCode else u.prm.pgRelinkCode))
        (inside u bs (decide (u.prm.pgLinkCap < q.linkErr + 1)) { q with linkErr := q.linkErr + 1, step := .abort } b) := by
  obtain ⟨x, hx⟩ := pageWrite_closed (inside_closed ho (bs := bs) (v := true) (q := q) (b := b)) q.addr
    (imagePage (inside u bs true q b) p)
  have hw : attemptWrite p (inside u bs true q b) = .ok true (inside u bs true q b) := by
    rw [attemptWrite, get_bind]
    refine (congrFun (if_neg (show ¬ q.skipWrite = true by simp [hs])) _).trans ?_
    exact bind_ok (tryOp_error hx)
  have ha : attempt p (inside u bs true q b) = .ok .writeFail (inside u bs true q b) := by
    rw [attempt, bind_ok hw]
    rfl
  rw [programPage]
  exact (bind_ok ha).trans (bind_ok (linkRecover_closed ho hn false hs))

end

end Sys2Proof.Machine
end

