-- ==== Sys2Proof/Laws/PerInstr.lean ====
section
/-! SUPPORT. Per-instruction laws. TableRow: the code byte of an instruction's word is the one its row of
spec/opcode_table.json fixes: under the row's mask it is the row's match (30_encoding.md R64 to R67, R74, R76). -/

namespace Sys2Proof.Laws.TableRow

open Sys2Proof

/-- The byte of a port word that the opcode table describes: the operation code, the byte after SYNC, the command. -/
def codeByte : PortWord → Option Byte
  | .op code _ => some (BitVec.ofNat 8 code)
  | .frame _ (_ :: op :: _) => some op
  | .frame _ _ => none
  | .nvm code => some code

/-- Mask and match of the instruction's row, copied from the table. -/
def row : Instr → Byte × Byte
  | .ldcsFrame _ => (0xF0#8, 0x80#8)
  | .stcsFrame _ _ => (0xF0#8, 0xC0#8)
  | .ldsFrame _ => (0xFF#8, 0x04#8)
  | .stsFrame _ _ => (0xFF#8, 0x44#8)
  | .stPtr _ => (0xFF#8, 0x69#8)
  | .stPtrInc _ => (0xFF#8, 0x64#8)
  | .ldPtrInc _ => (0xFF#8, 0x24#8)
  | .repeatFrame _ => (0xFF#8, 0xA0#8)
  | .keyFrame _ => (0xFF#8, 0xE0#8)
  | .cmdWp => (0xFF#8, 0x01#8)
  | .cmdEr => (0xFF#8, 0x02#8)
  | .cmdPbc => (0xFF#8, 0x04#8)
  | .cmdCher => (0xFF#8, 0x05#8)
  | .phyInit => (0xFF#8, 0x01#8)
  | .phySend _ => (0xFF#8, 0x02#8)
  | .phyRecv _ => (0xFF#8, 0x03#8)
  | .phyDoubleBreak => (0xFF#8, 0x04#8)
  | .phyClose => (0xFF#8, 0x05#8)
  | .ldcs _ => (0xFF#8, 0x10#8)
  | .stcs _ _ => (0xFF#8, 0x11#8)
  | .lds _ => (0xFF#8, 0x12#8)
  | .sts _ _ => (0xFF#8, 0x13#8)
  | .setPtr _ => (0xFF#8, 0x14#8)
  | .repeatN _ => (0xFF#8, 0x15#8)
  | .burstWrite _ => (0xFF#8, 0x16#8)
  | .burstRead _ => (0xFF#8, 0x17#8)
  | .key _ => (0xFF#8, 0x18#8)
  | .linkInit => (0xFF#8, 0x19#8)
  | .resetToggle => (0xFF#8, 0x20#8)
  | .enterProg => (0xFF#8, 0x21#8)
  | .exitProg => (0xFF#8, 0x22#8)
  | .waitReady => (0xFF#8, 0x23#8)
  | .execNvmCmd _ => (0xFF#8, 0x24#8)
  | .chipErase => (0xFF#8, 0x25#8)
  | .pageWrite _ _ => (0xFF#8, 0x26#8)
  | .pageRead _ _ => (0xFF#8, 0x27#8)
  | .pageErase _ => (0xFF#8, 0x28#8)
  | .setImage _ _ => (0xFF#8, 0x30#8)
  | .passChipErase => (0xFF#8, 0x31#8)
  | .passBlankCheck => (0xFF#8, 0x32#8)
  | .passProgram => (0xFF#8, 0x33#8)
  | .passVerify => (0xFF#8, 0x34#8)

/-- The word's code byte, under the row's mask, is the row's match. -/
def Statement (i : Instr) : Prop :=
  ∃ b : Byte, codeByte (encode defaultParams i) = some b ∧ b &&& (row i).1 = (row i).2

theorem ldcs_code : ∀ a : CsAddr, (opLdcs ||| a.setWidth 8) &&& 0xF0#8 = 0x80#8 := by decide
theorem stcs_code : ∀ a : CsAddr, (opStcs ||| a.setWidth 8) &&& 0xF0#8 = 0xC0#8 := by decide

theorem ldcsFrame (a : CsAddr) : Statement (.ldcsFrame a) := ⟨_, rfl, ldcs_code a⟩
theorem stcsFrame (a : CsAddr) (v : Byte) : Statement (.stcsFrame a v) := ⟨_, rfl, stcs_code a⟩
theorem ldsFrame (addr : Addr) : Statement (.ldsFrame addr) := ⟨_, rfl, by simp only [row]; decide⟩
theorem stsFrame (addr : Addr) (v : Byte) : Statement (.stsFrame addr v) := ⟨_, rfl, by simp only [row]; decide⟩
theorem stPtr (addr : Addr) : Statement (.stPtr addr) := ⟨_, rfl, by simp only [row]; decide⟩
theorem stPtrInc (data : List Byte) : Statement (.stPtrInc data) := ⟨_, rfl, by simp only [row]; decide⟩
theorem ldPtrInc (m : Nat) : Statement (.ldPtrInc m) := ⟨_, rfl, by simp only [row]; decide⟩
theorem repeatFrame (count : Byte) : Statement (.repeatFrame count) := ⟨_, rfl, by simp only [row]; decide⟩
theorem keyFrame (key : List Byte) : Statement (.keyFrame key) := ⟨_, rfl, by simp only [row]; decide⟩
theorem cmdWp : Statement .cmdWp := ⟨_, rfl, by simp only [row]; decide⟩
theorem cmdEr : Statement .cmdEr := ⟨_, rfl, by simp only [row]; decide⟩
theorem cmdPbc : Statement .cmdPbc := ⟨_, rfl, by simp only [row]; decide⟩
theorem cmdCher : Statement .cmdCher := ⟨_, rfl, by simp only [row]; decide⟩
theorem phyInit : Statement .phyInit := ⟨_, rfl, by simp only [row]; decide⟩
theorem phySend (bytes : List Byte) : Statement (.phySend bytes) := ⟨_, rfl, by simp only [row]; decide⟩
theorem phyRecv (n : Nat) : Statement (.phyRecv n) := ⟨_, rfl, by simp only [row]; decide⟩
theorem phyDoubleBreak : Statement .phyDoubleBreak := ⟨_, rfl, by simp only [row]; decide⟩
theorem phyClose : Statement .phyClose := ⟨_, rfl, by simp only [row]; decide⟩
theorem ldcs (a : CsAddr) : Statement (.ldcs a) := ⟨_, rfl, by simp only [row]; decide⟩
theorem stcs (a : CsAddr) (v : Byte) : Statement (.stcs a v) := ⟨_, rfl, by simp only [row]; decide⟩
theorem lds (addr : Addr) : Statement (.lds addr) := ⟨_, rfl, by simp only [row]; decide⟩
theorem sts (addr : Addr) (v : Byte) : Statement (.sts addr v) := ⟨_, rfl, by simp only [row]; decide⟩
theorem setPtr (addr : Addr) : Statement (.setPtr addr) := ⟨_, rfl, by simp only [row]; decide⟩
theorem repeatN (n : Nat) : Statement (.repeatN n) := ⟨_, rfl, by simp only [row]; decide⟩
theorem burstWrite (data : List Byte) : Statement (.burstWrite data) := ⟨_, rfl, by simp only [row]; decide⟩
theorem burstRead (n : Nat) : Statement (.burstRead n) := ⟨_, rfl, by simp only [row]; decide⟩
theorem key (key : List Byte) : Statement (.key key) := ⟨_, rfl, by simp only [row]; decide⟩
theorem linkInit : Statement .linkInit := ⟨_, rfl, by simp only [row]; decide⟩
theorem resetToggle : Statement .resetToggle := ⟨_, rfl, by simp only [row]; decide⟩
theorem enterProg : Statement .enterProg := ⟨_, rfl, by simp only [row]; decide⟩
theorem exitProg : Statement .exitProg := ⟨_, rfl, by simp only [row]; decide⟩
theorem waitReady : Statement .waitReady := ⟨_, rfl, by simp only [row]; decide⟩
theorem execNvmCmd (cmd : Byte) : Statement (.execNvmCmd cmd) := ⟨_, rfl, by simp only [row]; decide⟩
theorem chipErase : Statement .chipErase := ⟨_, rfl, by simp only [row]; decide⟩
theorem pageWrite (addr : Addr) (data : List Byte) : Statement (.pageWrite addr data) := ⟨_, rfl, by simp only [row]; decide⟩
theorem pageRead (addr : Addr) (n : Nat) : Statement (.pageRead addr n) := ⟨_, rfl, by simp only [row]; decide⟩
theorem pageErase (addr : Addr) : Statement (.pageErase addr) := ⟨_, rfl, by simp only [row]; decide⟩
theorem setImage (image : List Byte) (fuse : Option (List Byte)) : Statement (.setImage image fuse) := ⟨_, rfl, by simp only [row]; decide⟩
theorem passChipErase : Statement .passChipErase := ⟨_, rfl, by simp only [row]; decide⟩
theorem passBlankCheck : Statement .passBlankCheck := ⟨_, rfl, by simp only [row]; decide⟩
theorem passProgram : Statement .passProgram := ⟨_, rfl, by simp only [row]; decide⟩
theorem passVerify : Statement .passVerify := ⟨_, rfl, by simp only [row]; decide⟩

end Sys2Proof.Laws.TableRow
end

