-- ==== Sys2Proof/Tests/Slice0.lean ====
section
/-! SUPPORT. The model's own tests: words written out from the spec's encodings, one-step tests whose expected traces are
the vectors of 95_test_vectors.md, ill-formed terms that the checks refuse, and for every statement with hypotheses a
witness that meets them (`witness_<statement>`). -/

namespace Sys2Proof.Tests

open Sys2Proof Sys2Proof.Machine Sys2Proof.Safety

-- one theorem after the other: each waits for the kernel's evaluation of the one before, and a thread apiece would wait
set_option Elab.async false

/-! ## States and helpers -/

/-- Short waits, so that a silence is a few polls. -/
def shortPrm : Params := { defaultParams with rxPollLimit := 3, readyTimeoutMs := 3, unlockWaitMs := 2 }

/-- Two pages of two bytes. -/
def smallCfg : Cfg := { resetCfg with flashSize := 4#17, pageSize := 2#9, fuseCount := 1#8 }

/-- The reset state with short waits. -/
def closed : State := { State.reset with prm := shortPrm }

/-- The PHY opened. -/
def opened : State := { closed with phyOpen := true, pin := some 0, pinDir := .known .input }

/-- The PHY opened, two pages of two bytes, the link up. -/
def small : State := { opened with cfg := smallCfg, progMode := true }

/-- One page of two bytes. -/
def onePage : State := { small with cfg := { smallCfg with flashSize := 2#17 } }

/-- One page, its image 0x12 0x12. -/
def twelve : State := { onePage with flashImage := [(0, 0x12), (1, 0x12)], bytesUsed := 2 }

/-- Caps of one failure of each class, one attempt of LINK_INIT. -/
def tight : State :=
  { twelve with prm :=
    { shortPrm with linkInitAttempts := 1, bcLinkCap := 1, bcDataCap := 1, vfLinkCap := 1, vfDataCap := 1, pgLinkCap := 1
                    pgDataCap := 1, pgBlankCap := 0, pgEscCap := 1 } }

/-- A character heard at the first poll. -/
def at0 (b : Byte) : Heard := ⟨0, b⟩

/-- A character heard at the last poll the budget allows. -/
def at2 (b : Byte) : Heard := ⟨2, b⟩

/-- The answers a trace asks of the environment. -/
def answersOf (s : State) : List Beat → List Level
  | [] => []
  | .rx n heard :: bs => rxLevels s n heard ++ answersOf s bs
  | .tx _ :: bs => answersOf s bs
  | .db :: bs => answersOf s bs
  | .pause _ :: bs => answersOf s bs
  | .event _ _ _ :: bs => answersOf s bs

/-- The state whose environment answers a trace. -/
def hears (s : State) (beats : List Beat) : State := { s with levels := answersOf s beats }

/-- The operation is accepted on an open PHY and the environment answers as the trace says: what the statements assume. -/
def meets (i : Instr) (s : State) (f : State → List Beat) : Bool :=
  ready i (hears s (f s)) && answers (hears s (f s)) (f (hears s (f s)))

/-- The operation leaves exactly this trace and this result. -/
def shows (i : Instr) (s : State) (beats : List Beat) (r : Result) : Bool :=
  match exec i (hears s beats) with
  | .next t => t.obs == (playAll s beats).obs ++ [.result r]
  | .fault _ => false
  | .refused _ => false

/-- The operation is accepted and answers a next state. -/
def completes (i : Instr) (s : State) : Bool :=
  accepts i s &&
    match exec i s with
    | .next _ => true
    | .fault _ => false
    | .refused _ => false

/-- What a next state holds. -/
def leaves (i : Instr) (s : State) (p : State → Bool) : Bool :=
  match exec i s with
  | .next t => p t
  | .fault _ => false
  | .refused _ => false

/-- The traces of 95_test_vectors.md section 0: a ready status read, a command, a link-up of a target in programming
mode. -/
def wr : List Beat := [.tx [0x55, 0x04, 0x02, 0x10], .rx 1 [at0 0x00]]
def cmdTrace (c : Byte) : List Beat :=
  [.tx [0x55, 0x44, 0x00, 0x10], .rx 1 [at0 0x40], .tx [c], .rx 1 [at0 0x40]]
def li : List Beat :=
  [.db, .tx [0x55, 0xC3, 0x08], .tx [0x55, 0xC2, 0x80], .tx [0x55, 0x80], .rx 1 [at0 0x30], .tx [0x55, 0x8B],
   .rx 1 [at0 0x08]]

/-- A page write of `n` bytes, every wait ready at once and every acknowledge at the first poll. -/
def quietWrite (n : Nat) : PageWriteRun :=
  ⟨⟨[], at0 0x00⟩, (0, 0), ⟨[], at0 0x00⟩, 0, List.replicate n 0, (0, 0), ⟨[], at0 0x00⟩⟩

/-! ## Ill-formed terms (10_state.md R18, 30_encoding.md R79) -/

theorem test_configuration_wellFormed : resetCfg.wf defaultParams = true ∧ smallCfg.wf shortPrm = true := by decide
theorem test_bit_period_below_eight : ({ resetCfg with t := 7#32 } : Cfg).wf defaultParams = false := by decide
theorem test_page_of_one_byte : ({ resetCfg with pageSize := 1#9 } : Cfg).wf defaultParams = false := by decide
theorem test_page_above_burst :
    ({ resetCfg with pageSize := 257#9, flashSize := 257#17, flashBase := 0#16 } : Cfg).wf defaultParams = false := by
  decide
theorem test_flash_below_page : ({ resetCfg with flashSize := 0#17 } : Cfg).wf defaultParams = false := by decide
-- V-EXC-3
theorem test_flash_no_multiple : ({ resetCfg with pageSize := 48#9 } : Cfg).wf defaultParams = false := by decide
theorem test_base_unaligned : ({ resetCfg with flashBase := 0x8001#16 } : Cfg).wf defaultParams = false := by decide
theorem test_flash_past_space : ({ resetCfg with flashBase := 0xFFC0#16 } : Cfg).wf defaultParams = false := by decide
theorem test_nvm_past_space : ({ resetCfg with nvmBase := 0xFFFE#16 } : Cfg).wf defaultParams = false := by decide
-- V-LNK-9
theorem test_short_key : Instr.wf defaultParams (.key [0x73, 0x68, 0x6F, 0x72, 0x74]) = false ∧
    Instr.wf defaultParams (.keyFrame []) = false := by decide

/-! ## Decoding (30_encoding.md R63 to R67, R74, R76): every constructor's word, written out -/

theorem test_decode_frames :
    decode defaultParams (.frame 1 [0x55, 0x8B]) = .ok (.ldcsFrame 0xB#4) ∧
    decode defaultParams (.frame 1 [0x55, 0xC3, 0x08]) = .ok (.stcsFrame 0x3#4 0x08) ∧
    decode defaultParams (.frame 1 [0x55, 0x04, 0x02, 0x10]) = .ok (.ldsFrame 0x1002#16) ∧
    decode defaultParams (.frame 1 [0x55, 0x44, 0x34, 0x12, 0xAB]) = .ok (.stsFrame 0x1234#16 0xAB) ∧
    decode defaultParams (.frame 1 [0x55, 0x69, 0x40, 0x80]) = .ok (.stPtr 0x8040#16) ∧
    decode defaultParams (.frame 3 [0x55, 0x64, 0x11, 0x22, 0x33]) = .ok (.stPtrInc [0x11, 0x22, 0x33]) ∧
    decode defaultParams (.frame 2 [0x55, 0x24]) = .ok (.ldPtrInc 2) ∧
    decode defaultParams (.frame 1 [0x55, 0xA0, 0x3F]) = .ok (.repeatFrame 0x3F) ∧
    decode defaultParams (.frame 1 [0x55, 0xE0, 0x20, 0x67, 0x6F, 0x72, 0x50, 0x4D, 0x56, 0x4E]) =
      .ok (.keyFrame [0x4E, 0x56, 0x4D, 0x50, 0x72, 0x6F, 0x67, 0x20]) := by decide

theorem test_decode_commands :
    decode defaultParams (.nvm 0x01) = .ok .cmdWp ∧ decode defaultParams (.nvm 0x02) = .ok .cmdEr ∧
    decode defaultParams (.nvm 0x04) = .ok .cmdPbc ∧ decode defaultParams (.nvm 0x05) = .ok .cmdCher ∧
    decode defaultParams (.nvm 0x03) = .reject (.unknownCommand 0x03) := by decide

theorem test_decode_phy :
    decode defaultParams (.op 0x01 []) = .ok .phyInit ∧
    decode defaultParams (.op 0x02 [.bytes [0x55]]) = .ok (.phySend [0x55]) ∧
    decode defaultParams (.op 0x03 [.num 300]) = .ok (.phyRecv 300) ∧
    decode defaultParams (.op 0x04 []) = .ok .phyDoubleBreak ∧
    decode defaultParams (.op 0x05 []) = .ok .phyClose := by decide

theorem test_decode_link :
    decode defaultParams (.op 0x10 [.num 0xF]) = .ok (.ldcs 0xF#4) ∧
    decode defaultParams (.op 0x11 [.num 0x8, .num 0x59]) = .ok (.stcs 0x8#4 0x59) ∧
    decode defaultParams (.op 0x12 [.num 0xFFFF]) = .ok (.lds 0xFFFF#16) ∧
    decode defaultParams (.op 0x13 [.num 0x1000, .num 0x04]) = .ok (.sts 0x1000#16 0x04) ∧
    decode defaultParams (.op 0x14 [.num 0x8040]) = .ok (.setPtr 0x8040#16) ∧
    decode defaultParams (.op 0x15 [.num 257]) = .ok (.repeatN 257) ∧
    decode defaultParams (.op 0x16 [.bytes [0xAA, 0xBB]]) = .ok (.burstWrite [0xAA, 0xBB]) ∧
    decode defaultParams (.op 0x17 [.num 3]) = .ok (.burstRead 3) ∧
    decode defaultParams (.op 0x18 [.bytes [1, 2, 3, 4, 5, 6, 7, 8]]) = .ok (.key [1, 2, 3, 4, 5, 6, 7, 8]) ∧
    decode defaultParams (.op 0x19 []) = .ok .linkInit := by decide

theorem test_decode_device :
    decode defaultParams (.op 0x20 []) = .ok .resetToggle ∧ decode defaultParams (.op 0x21 []) = .ok .enterProg ∧
    decode defaultParams (.op 0x22 []) = .ok .exitProg ∧ decode defaultParams (.op 0x23 []) = .ok .waitReady ∧
    decode defaultParams (.op 0x24 [.num 0x77]) = .ok (.execNvmCmd 0x77) ∧
    decode defaultParams (.op 0x25 []) = .ok .chipErase ∧
    decode defaultParams (.op 0x26 [.num 0x8001, .bytes [0x11]]) = .ok (.pageWrite 0x8001#16 [0x11]) ∧
    decode defaultParams (.op 0x27 [.num 0x8040, .num 2]) = .ok (.pageRead 0x8040#16 2) ∧
    decode defaultParams (.op 0x28 [.num 0x8040]) = .ok (.pageErase 0x8040#16) := by decide

theorem test_decode_sequencer :
    decode defaultParams (.op 0x30 [.bytes [0x12], .absent]) = .ok (.setImage [0x12] none) ∧
    decode defaultParams (.op 0x30 [.bytes [], .bytes []]) = .ok (.setImage [] (some [])) ∧
    decode defaultParams (.op 0x31 []) = .ok .passChipErase ∧ decode defaultParams (.op 0x32 []) = .ok .passBlankCheck ∧
    decode defaultParams (.op 0x33 []) = .ok .passProgram ∧ decode defaultParams (.op 0x34 []) = .ok .passVerify := by
  decide

/-- V-LNK-2 and R79's other refusals. -/
theorem test_decode_refuses :
    decode defaultParams (.op 0x10 [.num 0x10]) = .reject (.csAddressRange 0x10) ∧
    decode defaultParams (.op 0x12 [.num 0x10000]) = .reject (.addressRange 0x10000) ∧
    decode defaultParams (.op 0x24 [.num 256]) = .reject (.byteRange 256) ∧
    decode defaultParams (.op 0x18 [.bytes [1, 2]]) = .reject (.keyLength 2) ∧
    decode defaultParams (.op 0x35 []) = .reject (.unknownCode 0x35) ∧
    decode defaultParams (.op 0x01 [.num 0]) = .reject .argumentCount ∧
    decode defaultParams (.op 0x03 [.bytes []]) = .reject .argumentType := by decide

/-- R73: a stream of frames, the burst's length from the REPEAT before it. -/
theorem test_wire_stream :
    decodeWire defaultParams [0x55, 0x69, 0x00, 0x80, 0x55, 0xA0, 0x01, 0x55, 0x64, 0x11, 0x22, 0x55, 0x8B] =
      .ok [.stPtr 0x8000#16, .repeatFrame 0x01, .stPtrInc [0x11, 0x22], .ldcsFrame 0xB#4] := by decide

/-- R77's example line, a fill, a quoted key, a comment. -/
theorem test_text_syntax :
    parseLine "STS 0x1000, 0x04".toList = .ok (some (.op 0x13 [.num 0x1000, .num 4])) ∧
    parseLine "PAGE_WRITE 0x8000, fill(0, 3) ; a page".toList =
      .ok (some (.op 0x26 [.num 0x8000, .bytes [0, 0, 0]])) ∧
    parseLine "SET_IMAGE [12, 0xFF], absent".toList = .ok (some (.op 0x30 [.bytes [12, 0xFF], .absent])) ∧
    parseLine "KEY \"NVMProg \"".toList =
      .ok (some (.op 0x18 [.bytes [0x4E, 0x56, 0x4D, 0x50, 0x72, 0x6F, 0x67, 0x20]])) ∧
    parseLine "; nothing".toList = .ok none ∧ parseLine "STS [1".toList = .reject .badLine := by decide +kernel

/-! ## The character (E1, V-PHY-4) -/

theorem test_parity : ([0x00, 0x03, 0x07, 0x55, 0x80, 0xFF] : List Byte).map parity =
    [false, false, true, false, true, false] := by decide

theorem test_character : charLevels 0x80 =
    [false, false, false, false, false, false, false, false, true, true, true, true] := by decide

/-! ## One step an operation: the vectors of 95_test_vectors.md -/

/-- V-PHY-1 and V-PHY-2. -/
theorem test_phyInit :
    leaves .phyInit { closed with capInits := [true] } (fun t =>
      t.phyOpen && t.pin == some 0 && t.obs == [.capInit true, .setDir (some 0) .input, .result (.ok .none)]) = true ∧
    leaves .phyInit { opened with capInits := [false] } (fun t =>
      !t.phyOpen && t.pin == none && t.obs == [.capInit false, .result (.err (.ioError .gpioInit))]) = true := by decide +kernel

/-- V-PHY-3, call by call. -/
def sendCalls : List Obs := List.flatten
  [[.setDir (some 0) .output, .writeLevel (some 0) true, .sleep 10000],
   [false, true, false, true, false, true, false, true, false, false, true, true].flatMap fun l =>
     [.writeLevel (some 0) l, .sleep 1000],
   [.result (.ok .none)]]

theorem test_phySend_calls : leaves (.phySend [0x55]) opened (fun t => t.obs == sendCalls) = true := by decide +kernel

/-- V-PHY-6, call by call. -/
def recvCalls : List Obs := List.flatten
  [[.setDir (some 0) .input, .readLevel (some 0) true, .sleep 125, .readLevel (some 0) false, .sleep 500],
   [false, false, false, false, false, false, true, false].flatMap fun l => [.sleep 1000, .readLevel (some 0) l],
   [.sleep 3000, .result (.ok (.bytes [0x40]))]]

theorem test_phyRecv_calls :
    leaves (.phyRecv 1) { opened with levels := [true, false, false, false, false, false, false, false, true, false] }
      (fun t => t.obs == recvCalls) = true := by decide +kernel

/-- V-PHY-8: a character, then silence. -/
theorem test_phyRecv_short : shows (.phyRecv 2) opened [.rx 2 [at0 0x30]] (.ok (.bytes [0x30])) = true := by
  decide +kernel

/-- E8. -/
theorem test_doubleBreak : leaves .phyDoubleBreak opened (fun t =>
    t.obs == [.setDir (some 0) .output, .writeLevel (some 0) false, .sleep 40000, .writeLevel (some 0) true, .sleep 50000,
      .writeLevel (some 0) false, .sleep 40000, .writeLevel (some 0) true, .sleep 10000, .result (.ok .none)]) = true := by
  decide +kernel

/-- V-PHY-13. -/
theorem test_phyClose :
    leaves .phyClose opened (fun t => !t.phyOpen && t.pin == none && t.obs == [.setDir (some 0) .input, .result (.ok .none)])
      = true ∧
    leaves .phyClose closed (fun t => t.obs == [.result (.ok .none)]) = true := by decide +kernel

/-- V-LNK-1, V-LNK-2. -/
theorem test_ldcs :
    shows (.ldcs 0x0#4) opened [.tx [0x55, 0x80], .rx 1 [at0 0x30]] (.ok (.byte 0x30)) = true ∧
    shows (.ldcsFrame 0xF#4) opened [.tx [0x55, 0x8F], .rx 1 []] (.err (.timeout (.shortRead 0))) = true := by
  decide +kernel

/-- V-LNK-3. -/
theorem test_stcs :
    shows (.stcs 0x3#4 0x08) opened [.tx [0x55, 0xC3, 0x08]] (.ok .none) = true ∧
    shows (.stcsFrame 0x8#4 0x59) opened [.tx [0x55, 0xC8, 0x59]] (.ok .none) = true := by decide +kernel

/-- V-LNK-4. -/
theorem test_lds :
    shows (.lds 0x1002#16) opened [.tx [0x55, 0x04, 0x02, 0x10], .rx 1 [at0 0x01]] (.ok (.byte 0x01)) = true := by
  decide +kernel

/-- E2, its second and third vectors: the value byte is not sent. -/
theorem test_sts :
    shows (.sts 0x1234#16 0xAB) opened [.tx [0x55, 0x44, 0x34, 0x12], .rx 1 [at0 0x00]] (.err (.nack 0x00)) = true ∧
    shows (.stsFrame 0x1234#16 0xAB) opened [.tx [0x55, 0x44, 0x34, 0x12], .rx 1 []] (.err (.timeout .noAck)) =
      true := by decide +kernel

/-- V-LNK-5. -/
theorem test_setPtr :
    shows (.setPtr 0x8040#16) opened [.tx [0x55, 0x69, 0x40, 0x80], .rx 1 [at0 0x40]] (.ok .none) = true ∧
    shows (.stPtr 0x8040#16) opened [.tx [0x55, 0x69, 0x40, 0x80], .rx 1 [at0 0xC0]] (.err (.nack 0xC0)) = true := by
  decide +kernel

/-- E9, V-LNK-6. -/
theorem test_repeat :
    shows (.repeatN 256) opened [.tx [0x55, 0xA0, 0xFF]] (.ok .none) = true ∧
    shows (.repeatN 257) closed [] (.err (.sizeError 257)) = true ∧
    shows (.repeatFrame 0x3F) opened [.tx [0x55, 0xA0, 0x3F]] (.ok .none) = true := by decide +kernel

/-- V-LNK-7 with two bytes, the second unacknowledged. -/
theorem test_burstWrite :
    shows (.burstWrite [0x11, 0x22]) opened [.tx [0x55, 0x64, 0x11], .rx 1 [at0 0x40], .tx [0x22], .rx 1 []]
      (.err (.timeout .noAck)) = true ∧
    shows (.stPtrInc []) closed [] (.err (.sizeError 0)) = true := by decide +kernel

/-- V-LNK-8. -/
theorem test_burstRead :
    shows (.burstRead 2) opened [.tx [0x55, 0x24], .rx 2 [at0 0xAA, at0 0xBB]] (.ok (.bytes [0xAA, 0xBB])) = true ∧
    shows (.ldPtrInc 2) opened [.tx [0x55, 0x24], .rx 2 [at0 0xAA]] (.err (.timeout (.shortRead 1))) = true := by
  decide +kernel

/-- V-APP-2, V-APP-5. -/
theorem test_enterProg :
    shows .enterProg opened [.tx [0x55, 0x8B], .rx 1 [at0 0x08]] (.ok .none) = true ∧
    shows .enterProg opened [.tx [0x55, 0x8B], .rx 1 []] (.err (.unlockFailed .initialStatus)) = true := by
  decide +kernel

/-- V-APP-8. -/
theorem test_waitReady :
    shows .waitReady opened [.tx [0x55, 0x04, 0x02, 0x10], .rx 1 [at0 0x05]] (.err (.writeError 0x05)) = true := by
  decide +kernel

/-- V-APP-11's failing acknowledge; a command row is EXEC_NVM_CMD of its code (R74). -/
theorem test_commands :
    shows (.execNvmCmd 0x05) opened [.tx [0x55, 0x44, 0x00, 0x10], .rx 1 [at0 0x00]] (.err (.nack 0x00)) = true := by
  decide +kernel
theorem test_command_rows :
    exec .cmdWp opened = exec (.execNvmCmd 0x01) opened ∧ exec .cmdEr opened = exec (.execNvmCmd 0x02) opened ∧
    exec .cmdPbc opened = exec (.execNvmCmd 0x04) opened ∧ exec .cmdCher opened = exec (.execNvmCmd 0x05) opened :=
  ⟨rfl, rfl, rfl, rfl⟩

/-- R111: a status read that times out is `NotReady`. -/
theorem test_chipErase :
    shows .chipErase opened [.tx [0x55, 0x04, 0x02, 0x10], .rx 1 []] (.err (.notReady (.shortRead 0))) = true := by
  decide +kernel

/-- E3, V-APP-12, V-APP-14: sizes, a write error before the page-buffer clear, no ready wait before a read. -/
theorem test_page_sizes :
    shows (.pageWrite 0x8000#16 (List.replicate 257 0)) closed [] (.err (.sizeError 257)) = true ∧
    shows (.pageRead 0x8000#16 257) closed [] (.err (.sizeError 257)) = true ∧
    shows (.pageRead 0x8000#16 1) closed [] (.err (.sizeError 1)) = true := by decide +kernel
theorem test_pageWrite :
    shows (.pageWrite 0x8000#16 [0x11]) opened [.tx [0x55, 0x04, 0x02, 0x10], .rx 1 [at0 0x04]]
      (.err (.writeError 0x04)) = true := by decide +kernel
theorem test_pageRead :
    shows (.pageRead 0x8040#16 2) opened [.tx [0x55, 0x69, 0x40, 0x80], .rx 1 [at0 0xC0]] (.err (.nack 0xC0)) =
      true := by decide +kernel
theorem test_pageErase :
    shows (.pageErase 0x8040#16) opened [.tx [0x55, 0x04, 0x02, 0x10], .rx 1 []] (.err (.timeout (.shortRead 0))) =
      true := by decide +kernel

/-- Closed PHY: V-LNK-13, V-EXC-4, R108's flag, a key, a reset toggle. -/
theorem test_closed :
    shows .linkInit closed [] (.err (.ioError .closed)) = true ∧
    shows .enterProg closed [] (.err (.ioError .closed)) = true ∧
    leaves .exitProg { closed with progMode := true } (fun t => !t.progMode) = true ∧
    shows (.key [1, 2, 3, 4, 5, 6, 7, 8]) closed [] (.err (.ioError .closed)) = true ∧
    shows .resetToggle closed [] (.err (.ioError .closed)) = true := by decide +kernel

/-! ## The scripts of the statements are the vectors' traces -/

/-- E2, V-LNK-5, E9, V-LNK-7, E10. -/
theorem test_script_link :
    stsBeats opened 0x1234#16 0xAB 0 0 =
      [.tx [0x55, 0x44, 0x34, 0x12], .rx 1 [at0 0x40], .tx [0xAB], .rx 1 [at0 0x40]] ∧
    setPtrBeats opened 0x8040#16 0 = [.tx [0x55, 0x69, 0x40, 0x80], .rx 1 [at0 0x40]] ∧
    repeatBeats opened 64 = [.tx [0x55, 0xA0, 0x3F]] ∧
    burstWriteBeats opened [(0x11, 0), (0x22, 0), (0x33, 0)] =
      [.tx [0x55, 0x64, 0x11], .rx 1 [at0 0x40], .tx [0x22], .rx 1 [at0 0x40], .tx [0x33], .rx 1 [at0 0x40]] ∧
    keyBeats opened [0x4E, 0x56, 0x4D, 0x50, 0x72, 0x6F, 0x67, 0x20] =
      [.tx [0x55, 0xE0], .tx [0x20, 0x67, 0x6F, 0x72, 0x50, 0x4D, 0x56, 0x4E]] := by decide +kernel

/-- V-APP-1, `LI`, V-LNK-10. -/
theorem test_script_enter :
    resetBeats opened = [.tx [0x55, 0xC8, 0x59], .tx [0x55, 0xC8, 0x00]] ∧
    linkBeats opened (at0 0x30) ++ enterBeats opened (at0 0x08) = li ∧
    linkBeats opened (at0 0x30) ++ unlockBeats opened ⟨at0 0x00, at0 0x10, ⟨[], at0 0x08⟩, at0 0x08⟩ =
      [.db, .tx [0x55, 0xC3, 0x08], .tx [0x55, 0xC2, 0x80], .tx [0x55, 0x80], .rx 1 [at0 0x30],
       .tx [0x55, 0x8B], .rx 1 [at0 0x00], .tx [0x55, 0xE0], .tx [0x20, 0x67, 0x6F, 0x72, 0x50, 0x4D, 0x56, 0x4E],
       .tx [0x55, 0x87], .rx 1 [at0 0x10], .tx [0x55, 0xC8, 0x59], .tx [0x55, 0xC8, 0x00],
       .tx [0x55, 0x8B], .rx 1 [at0 0x08], .tx [0x55, 0x8B], .rx 1 [at0 0x08]] := by decide +kernel

/-- V-APP-7, V-APP-12, V-APP-14, as the vectors write them. -/
def waitTrace : List Beat := List.flatten
  [[.tx [0x55, 0x04, 0x02, 0x10], .rx 1 [at0 0x03], .pause 1000, .tx [0x55, 0x04, 0x02, 0x10], .rx 1 [at0 0x01],
    .pause 1000], wr]
def writeTrace : List Beat := List.flatten
  [wr, cmdTrace 0x04, wr,
   [.tx [0x55, 0x69, 0x00, 0x80], .rx 1 [at0 0x40], .tx [0x55, 0xA0, 0x03], .tx [0x55, 0x64, 0x11], .rx 1 [at0 0x40],
    .tx [0x22], .rx 1 [at0 0x40], .tx [0x33], .rx 1 [at0 0x40], .tx [0x44], .rx 1 [at0 0x40]],
   cmdTrace 0x01, wr]
def readTrace : List Beat :=
  [.tx [0x55, 0x69, 0x40, 0x80], .rx 1 [at0 0x40], .tx [0x55, 0xA0, 0x01], .tx [0x55, 0x24],
   .rx 2 [at0 0xFF, at0 0xFF]]

theorem test_script_page :
    readyBeats opened ⟨[at0 0x03, at0 0x01], at0 0x00⟩ = waitTrace ∧
    cmdBeats opened 0x04 (0, 0) = cmdTrace 0x04 ∧
    pageWriteBeats opened 0x8000#16 [0x11, 0x22, 0x33, 0x44] (quietWrite 4) = writeTrace ∧
    pageReadBeats opened 0x8040#16 2 0 [at0 0xFF, at0 0xFF] = readTrace := by decide +kernel

/-- A link-up of a target in programming mode, `LI`. -/
def linked : LinkRun := ⟨[], at0 0x30, .already (at0 0x08)⟩

/-- V-SEQ-7's two attempts, of one page of two bytes: a short read, then a read without a write. -/
def skipTrace : List Beat := List.flatten
  [pageWriteBeats onePage 0x8000#16 [0xFF, 0xFF] (quietWrite 2),
   [.tx [0x55, 0x69, 0x00, 0x80], .rx 1 [at0 0x40], .tx [0x55, 0xA0, 0x01], .tx [0x55, 0x24], .rx 2 [at0 0xFF]],
   li, [.pause 5000],
   [.tx [0x55, 0x69, 0x00, 0x80], .rx 1 [at0 0x40], .tx [0x55, 0xA0, 0x01], .tx [0x55, 0x24],
    .rx 2 [at0 0xFF, at0 0xFF]]]

/-- Read-backs of one page of two bytes. -/
def readOf (bytes : List Byte) : ReadRun := ⟨0, bytes.map at0⟩
def quietErase : EraseRun := ⟨⟨[], at0 0x00⟩, 0, [0, 0], (0, 0), ⟨[], at0 0x00⟩⟩
def blankTry : ProgTry := ⟨.blank (quietWrite 2) (readOf [0xFF, 0xFF]) quietErase, linked⟩
def mismatchTry : ProgTry := ⟨.mismatch (quietWrite 2) (readOf [0x13, 0x12]), linked⟩
def readTry : ProgTry := ⟨.read (quietWrite 2) (.short 0 [at0 0xFF]), linked⟩
def unwritten : WriteFailRun := ⟨quietWrite 2, .wait1 (.unanswered [])⟩
def writeTry : ProgTry := ⟨.write unwritten, linked⟩

theorem test_script_retry :
    progPageBeats onePage 0 ⟨[readTry], quietWrite 2, readOf [0xFF, 0xFF]⟩ = skipTrace ∧
    readPageBeats onePage 0 ⟨[.failed (.pointer []) linked], readOf [0xFF, 0xFF]⟩ =
      List.flatten [[.tx [0x55, 0x69, 0x00, 0x80], .rx 1 []], li, [.pause 5000],
        readRunBeats onePage 0 (readOf [0xFF, 0xFF])] := by decide +kernel

/-- V-SEQ-8, V-SEQ-9, V-SEQ-10, V-SEQ-11: how many tries the caps allow, what is counted, the code. -/
theorem test_script_caps :
    progTriesFit twelve 0 Tally.zero (List.replicate 3 mismatchTry) = true ∧
    progTriesFit twelve 0 Tally.zero (List.replicate 4 mismatchTry) = false ∧
    progStopCode defaultParams (.mismatch (quietWrite 2) (readOf [0x13, 0x12])) = -5 ∧
    progTriesFit twelve 0 Tally.zero (List.replicate 3 writeTry) = true ∧
    progTriesFit twelve 0 Tally.zero (List.replicate 4 writeTry) = false ∧
    progStopCode defaultParams (.write unwritten) = -2 ∧
    progTriesFit twelve 0 Tally.zero (List.replicate 4 blankTry) = true ∧
    progTriesTally twelve (List.replicate 4 blankTry) = ⟨0, 0, 0, 1, false⟩ ∧
    progTriesTally twelve [blankTry, mismatchTry, readTry] = ⟨1, 1, 1, 0, true⟩ := by decide +kernel

/-- V-SEQ-3, V-SEQ-4, V-SEQ-12: the same of the reading passes. -/
theorem test_script_read_caps :
    readTriesFit twelve (verifyRules twelve) 0 (List.replicate 10 (.rejected (readOf [0xFF, 0xFF]))) = true ∧
    readTriesFit twelve (verifyRules twelve) 0 (List.replicate 11 (.rejected (readOf [0xFF, 0xFF]))) = false ∧
    readTriesFit twelve (blankRules twelve) 0 (List.replicate 3 (.failed (.pointer []) linked)) = true ∧
    readTriesFit twelve (blankRules twelve) 0 (List.replicate 4 (.failed (.pointer []) linked)) = false ∧
    readStopCode (blankRules twelve) (.failed (.pointer [])) = -1 ∧
    readStopCode (blankRules twelve) (.rejected (readOf [0x00, 0xFF])) = -2 ∧
    readStopCode (verifyRules twelve) (.rejected (readOf [0xFF, 0xFF])) = -1 := by decide +kernel

/-- E4 and the example of R121. -/
theorem test_setImage :
    leaves (.setImage [0x0C, 0x94, 0xFF, 0xFF] none) closed (fun t => t.bytesUsed == 2 && imageByte t 1 == 0x94) = true ∧
    leaves (.setImage [0xFF, 0x12, 0xFF] none) closed (fun t => t.bytesUsed == 2 && t.flashImage == [(1, 0x12)]) = true ∧
    leaves (.setImage [1, 2, 3, 4, 5] none) small (fun t => t.bytesUsed == 0 &&
      t.obs == [.result (.err (.sizeError 5))]) = true := by decide +kernel

/-- V-SEQ-14, V-EXC-5: passes on a closed PHY, the link flag false and true. -/
theorem test_pass_closed :
    shows .passChipErase closed [.event .chipErase 0 1] (.ok (.code (-1))) = true ∧
    shows .passVerify closed [.event .verify 0 4] (.ok (.code (-1))) = true ∧
    shows .passBlankCheck { closed with progMode := true } [.event .blankCheck 0 4] (.ok (.code (-1))) = true ∧
    leaves .passBlankCheck { closed with progMode := true } (fun t =>
      t.seq.linkErr == 1 && t.seq.step == .abort && t.seq.pass == .none) = true := by decide +kernel

/-- R24's table: page 0 and its address at the start of a pass, whatever the pass before left. -/
theorem test_pass_start :
    leaves .passChipErase { closed with seq := { closed.seq with page := 3, addr := 7 } } (fun t =>
      t.seq.page == 0 && t.seq.addr == 0x8000 && t.seq.pass == .none) = true ∧
    leaves .passVerify { closed with seq := { closed.seq with page := 3, addr := 7 } } (fun t =>
      t.seq.page == 0 && t.seq.addr == 0x8000) = true := by decide +kernel

/-- V-SEQ-6. -/
theorem test_passProgram_empty : shows .passProgram small [.event .program 0 0] (.ok (.code 0)) = true := by decide +kernel

/-- E11. -/
theorem test_page_counts : [0, 1, 64, 65, 256].map (fun n => pagesOf { State.reset with bytesUsed := n } .program) =
    [0, 1, 1, 2, 4] ∧ pagesOf State.reset .blankCheck = 4 ∧ pagesOf State.reset .verify = 4 := by decide

/-- R161, R90: from reset a send ends with `IOError`, an unknown operation is refused. -/
theorem test_step :
    (match step { State.reset with hostOps := [.op 0x02 [.bytes [0x55]]] } with
      | .next t => t.obs == [.result (.err (.ioError .closed))] && t.hostOps == []
      | .fault _ => false
      | .refused _ => false) = true ∧
    (match step { State.reset with hostOps := [.op 0x35 []] } with
      | .next t => t.refused && t.obs == []
      | .fault _ => false
      | .refused _ => false) = true := by decide +kernel

/-! ## Witnesses: states and operands that meet the hypotheses of each statement, clause by clause -/

def aKey : List Byte := [1, 2, 3, 4, 5, 6, 7, 8]

theorem witness_DecodeOfEncodeIsTheInstruction :
    Instr.wf defaultParams (.keyFrame aKey) = true ∧
    [defaultParams.cmdWp, defaultParams.cmdEr, defaultParams.cmdPbc, defaultParams.cmdCher].Nodup := by decide

theorem witness_EncodeOfDecodedHostWordIsTheWord :
    decode defaultParams (.op 0x11 [.num 0xF, .num 0xFF]) = .ok (.stcs 0xF#4 0xFF) := by decide

theorem witness_WireDecoderReadsBackEveryFrameSequence :
    chained defaultParams 1
      [.keyFrame aKey, .stPtr 0xFFFF#16, .repeatFrame 0x01, .stPtrInc [1, 2], .stPtrInc [3], .repeatFrame 0xFF,
       .ldPtrInc 256, .ldcsFrame 0xF#4] = true := by decide

theorem witness_UnemittedOpcodesAreRejected :
    (∀ op ∈ ([0x00, 0x05, 0x68, 0xA1, 0xE4, 0xFF] : List Byte), op.extractLsb' 4 4 ≠ 0x8#4 ∧ op.extractLsb' 4 4 ≠ 0xC#4 ∧
      op ∉ [0x04#8, 0x44#8, 0x69#8, 0x64#8, 0x24#8, 0xA0#8, 0xE0#8]) ∧
    (∀ op ∈ ([0x10, 0x90, 0xFF] : List Byte), op.getLsbD 4 = true) := by decide

theorem witness_StepRunsTheDecodedInstruction :
    decode State.reset.prm (.op 0x05 []) = .ok .phyClose ∧ State.reset.hostOps = [] := by decide

theorem witness_RefusedOperationSetsRefusedAlone :
    accepts .phyInit { closed with busy := true } = false ∧
    accepts .phyInit { closed with cfg := { resetCfg with pageSize := 48#9 } } = false ∧
    accepts (.key [1]) closed = false := by decide

theorem witness_IllTypedHostOperationsAreRefused :
    decode State.reset.prm (.op 0x35 []) = .reject (.unknownCode 0x35) ∧
    (legalHostWord defaultParams 0x13 [.num 0xFFFF, .num 0xFF] = true ∧
      legalHostWord defaultParams 0x13 [.num 0x10000, .num 0xFF] = false) ∧
    hostArgs 0x06 = none ∧ 0xF < 0x10 ∧ 0xFFFF < 0x10000 ∧ (0xFF < 0x100 ∧ 0xF ≤ 0xF ∧ 0xFFFF ≤ 0xFFFF) ∧
    (allBytes [0xFF] = true ∧ allBytes [] = true) ∧ (allBytes [0xFF] = true ∧ [0xFF].length ≠ defaultParams.keyLen) := by
  decide

theorem witness_AcceptedOperationDeliversExactlyOneResult : completes .phyClose State.reset = true := by decide

theorem witness_PhyInitOpensThePinOrFails :
    (accepts .phyInit { closed with capInits := [true] } = true ∧
      nextCapInit { closed with capInits := [true] } = true) ∧
    (accepts .phyInit { opened with capInits := [false] } = true ∧
      nextCapInit { opened with capInits := [false] } = false) := by decide

theorem witness_PhySendEmitsEveryCharacter :
    ready (.phySend []) opened = true ∧ ready (.phySend [0x55]) opened = true ∧
    (accepts (.phySend [0x55]) closed = true ∧ closed.phyOpen = false) := by decide

theorem witness_PhyRecvReturnsTheCharactersHeard :
    meets (.phyRecv 0) opened (fun _ => [.rx 0 []]) = true ∧
    meets (.phyRecv 2) opened (fun _ => [.rx 2 [at0 0x00, at2 0xFF]]) = true ∧
    meets (.phyRecv 2) opened (fun _ => [.rx 2 [at2 0x30]]) = true ∧
    (accepts (.phyRecv 1) closed = true ∧ closed.phyOpen = false) := by decide +kernel

theorem witness_PhyRecvResultsAreExactlyTheListsUpToN :
    ready (.phyRecv 2) opened = true ∧ 0 < opened.prm.rxPollLimit ∧ ([1, 2] : List Byte).length ≤ 2 ∧
    ([] : List Byte).length ≤ 2 := by decide

theorem witness_PhyDoubleBreakForcesIdle :
    ready .phyDoubleBreak opened = true ∧ (accepts .phyDoubleBreak closed = true ∧ closed.phyOpen = false) := by decide

theorem witness_PhyCloseReleasesThePinOnce :
    ready .phyClose opened = true ∧ (accepts .phyClose closed = true ∧ closed.phyOpen = false) := by decide

theorem witness_ClosedPhyEndsOperationsWithIOError :
    closed.phyOpen = false ∧
    (∀ i ∈ ([.phyDoubleBreak, .key aKey, .cmdCher, .repeatN 1, .repeatFrame 0xFF, .burstRead 256, .pageRead 0#16 2,
      .pageWrite 0#16 [1], .waitReady, .linkInit] : List Instr), accepts i closed = true) ∧
    (1 ≤ 256 ∧ 256 ≤ closed.prm.maxBurst ∧ 256 = (0xFF#8).toNat + 1) ∧
    0 < closed.prm.readyTimeoutMs / closed.prm.readyPollMs ∧ 0 < closed.prm.linkInitAttempts := by decide

theorem witness_SendAndBreakSleepTheirDurations :
    ready (.phySend [1]) { opened with prm := defaultParams } = true ∧
    ready .phyDoubleBreak { opened with prm := defaultParams } = true := by decide

theorem witness_LdcsReturnsTheByteHeard :
    meets (.ldcs 0xF#4) opened (fun s => ldcsBeats s 0xF#4 (at2 0xFF)) = true ∧
    meets (.ldcsFrame 0x0#4) opened (fun s => ldcsSilent s 0x0#4) = true ∧
    (accepts (.ldcs 0x0#4) closed = true ∧ closed.phyOpen = false) := by decide +kernel

theorem witness_StcsSendsItsThreeBytes :
    ready (.stcs 0xF#4 0xFF) opened = true ∧ ready (.stcsFrame 0xF#4 0xFF) opened = true ∧
    (accepts (.stcs 0x0#4 0) closed = true ∧ closed.phyOpen = false) := by decide

theorem witness_LdsReturnsTheByteHeard :
    meets (.lds 0xFFFF#16) opened (fun s => ldsBeats s 0xFFFF#16 (at2 0xFF)) = true ∧
    meets (.ldsFrame 0#16) opened (fun s => ldsSilent s 0#16) = true ∧
    (accepts (.lds 0#16) closed = true ∧ closed.phyOpen = false) := by decide +kernel

theorem witness_StsSendsAddressThenValue :
    meets (.sts 1#16 2) opened (fun s => stsBeats s 1#16 2 0 2) = true ∧
    (meets (.stsFrame 1#16 2) opened (fun s => stsAddrBeats s 1#16 [at0 0xC0]) = true ∧ (at0 0xC0).byte ≠ opened.prm.ack) ∧
    meets (.sts 1#16 2) opened (fun s => stsAddrBeats s 1#16 []) = true ∧
    meets (.sts 1#16 2) opened (fun s => stsAddrBeats s 1#16 [ackAfter s 2] ++ [.tx [2], .rx 1 [at0 0xC0]]) = true ∧
    meets (.sts 1#16 2) opened (fun s => stsAddrBeats s 1#16 [ackAfter s 2] ++ [.tx [2], .rx 1 []]) = true ∧
    (accepts (.sts 1#16 2) closed = true ∧ closed.phyOpen = false) := by decide +kernel

theorem witness_SetPtrSendsTheAddress :
    meets (.setPtr 0xFFFF#16) opened (fun s => setPtrBeats s 0xFFFF#16 2) = true ∧
    (meets (.stPtr 1#16) opened (fun s => setPtrHears s 1#16 [at0 0xC0]) = true ∧ (at0 0xC0).byte ≠ opened.prm.ack) ∧
    meets (.setPtr 1#16) opened (fun s => setPtrHears s 1#16 []) = true ∧
    (accepts (.setPtr 1#16) closed = true ∧ closed.phyOpen = false) := by decide +kernel

theorem witness_RepeatSendsOneLess :
    (accepts (.repeatN 0) closed = true ∧ 0 < 1) ∧ (accepts (.repeatN 257) closed = true ∧ closed.prm.maxBurst < 257) ∧
    (ready (.repeatN 1) opened = true ∧ 1 ≤ 1) ∧
    (ready (.repeatFrame 0xFF) opened = true ∧ (0xFF#8).toNat + 1 ≤ opened.prm.maxBurst) ∧
    (accepts (.repeatN 256) closed = true ∧ closed.phyOpen = false ∧ 256 ≤ closed.prm.maxBurst) := by decide

theorem witness_BurstWriteSendsEveryByte :
    (accepts (.burstWrite []) closed = true ∧ ([] : List Byte).length < 1) ∧
    meets (.burstWrite [1]) opened (fun s => burstWriteBeats s (([1] : List Byte).zip [0])) = true ∧
    meets (.stPtrInc [1, 2]) opened (fun s => burstWriteBeats s (([1, 2] : List Byte).zip [0, 2])) = true ∧
    meets (.burstWrite [1, 2]) opened (fun s => burstStops s [1, 2] [] [at0 0xC0]) = true ∧
    meets (.burstWrite [1, 2]) opened (fun s => burstStops s [1, 2] [1] []) = true ∧
    (accepts (.burstWrite [1]) closed = true ∧ closed.phyOpen = false) := by decide +kernel

theorem witness_BurstReadReturnsEveryByte :
    (accepts (.burstRead 0) closed = true ∧ accepts (.burstRead 257) closed = true ∧ closed.prm.maxBurst < 257) ∧
    meets (.burstRead 1) opened (fun s => burstReadBeats s 1 [at2 0xFF]) = true ∧
    meets (.ldPtrInc 2) opened (fun s => burstReadBeats s 2 [at2 0xFF]) = true ∧
    (accepts (.burstRead 256) closed = true ∧ closed.phyOpen = false ∧ 256 ≤ closed.prm.maxBurst) := by decide +kernel

theorem witness_KeyIsSentReversed :
    ready (.key aKey) opened = true ∧ ready (.keyFrame aKey) opened = true ∧
    (accepts (.key aKey) closed = true ∧ closed.phyOpen = false) := by decide

theorem witness_SizeErrorsMakeNoCall :
    accepts (.pageWrite 0#16 []) closed = true ∧ closed.prm.maxBurst < 257 ∧
    (accepts (.pageRead 0#16 1) closed = true ∧ accepts (.pageRead 0#16 257) closed = true) ∧
    (accepts (.setImage [1, 2, 3, 4, 5] none) small = true ∧ flashBytes small < 5) ∧
    (accepts (.setImage [1, 2, 3, 4] (some [])) small = true ∧ 4 ≤ flashBytes small ∧
      ([] : List Byte).length ≠ small.cfg.fuseCount.toNat) := by decide

/-- Waits that end at the last poll allowed. -/
def slowReady : Polls := ⟨[at0 0x01, at0 0x03], at0 0xF8⟩
def slowUnlock : UnlockRun := ⟨at0 0x01, at0 0x10, ⟨[at0 0x01], at0 0x08⟩, at0 0x08⟩

/-- A link-up at the second attempt, by unlocking. -/
def slowLink : LinkRun := ⟨[.silent], at0 0x30, .unlock slowUnlock⟩


/-- A link-up at the last attempt. -/
def lastLink : LinkRun :=
  ⟨[.zero (at0 0x00), .enter (at2 0x30) (.keyRejected (at0 0x01) (at0 0xEF))], at0 0x01, .already (at0 0x08)⟩

theorem witness_LinkInitBringsTheLinkUp :
    (∀ r ∈ [linked, slowLink, lastLink], linkRunFits opened r = true ∧ meets .linkInit opened (linkRunBeats · r) = true) ∧
    lastLink.failed.length + 1 = opened.prm.linkInitAttempts := by decide +kernel

/-- Every attempt fails: no status, a status of zero, an ENTER_PROG that fails. -/
def downAttempts : List AttemptFail := [.silent, .zero (at0 0x00), .enter (at0 0x30) .initialStatus]


theorem witness_LinkInitGivesUpAfterItsAttempts :
    (∀ fs ∈ [downAttempts, [.silent, .silent, .zero (at0 0x00)], [.zero (at0 0x00), .zero (at2 0x00), .silent]],
      linkFailFits opened fs = true ∧ meets .linkInit opened (linkFailBeats · fs) = true) ∧
    downAttempts.length = opened.prm.linkInitAttempts := by decide +kernel

theorem witness_ResetToggleAssertsThenReleases :
    ready .resetToggle opened = true ∧ (accepts .resetToggle closed = true ∧ closed.phyOpen = false) := by decide

theorem witness_EnterProgEntersProgrammingMode :
    (meets .enterProg opened (fun s => enterBeats s (at2 0x08)) = true ∧ inProgMode opened.prm 0x08 = true) ∧
    (meets .enterProg opened (fun s => unlockBeats s slowUnlock) = true ∧ unlocks opened slowUnlock = true) := by
  decide +kernel

theorem witness_EnterProgSetsTheFlagToItsOutcome :
    accepts .enterProg opened = true ∧ accepts .enterProg closed = true := by decide

theorem witness_EnterProgFailsAtItsSteps_key :
    meets .enterProg opened (fun s => ldcsSilent s s.prm.csAsiSysStatus) = true ∧
    inProgMode opened.prm 0x01 = false ∧
    meets .enterProg opened (fun s => keyStepBeats s (at0 0x01) ++ ldcsSilent s s.prm.csAsiKeyStatus) = true ∧
    keyAccepted opened.prm 0xEF = false ∧
    meets .enterProg opened (fun s => keyStepBeats s (at0 0x01) ++ ldcsBeats s s.prm.csAsiKeyStatus (at0 0xEF)) =
      true := by decide +kernel

theorem witness_EnterProgFailsAtItsSteps_lock :
    (keyAccepted opened.prm 0x10 = true ∧ isLocked opened.prm 0x01 = true ∧ isLocked opened.prm 0x08 = false ∧
      [at0 0x01, at0 0x01].length = opened.prm.unlockWaitMs / opened.prm.unlockPollMs ∧
      [at0 0x01].length < opened.prm.unlockWaitMs / opened.prm.unlockPollMs ∧ inProgMode opened.prm 0xF7 = false) ∧
    meets .enterProg opened (fun s => lockStepBeats s (at0 0) (at0 0x10) [at0 0x01, at0 0x01]) = true ∧
    meets .enterProg opened (fun s => lockStepBeats s (at0 0) (at0 0x10) [at0 0x01] ++
      ldcsSilent s s.prm.csAsiSysStatus) = true ∧
    meets .enterProg opened (fun s => lockStepBeats s (at0 0) (at0 0x10) [at0 0x01] ++
      ldcsBeats s s.prm.csAsiSysStatus (at0 0x08) ++ ldcsSilent s s.prm.csAsiSysStatus) = true ∧
    meets .enterProg opened (fun s => lockStepBeats s (at0 0) (at0 0x10) [at0 0x01] ++
      ldcsBeats s s.prm.csAsiSysStatus (at0 0x08) ++ ldcsBeats s s.prm.csAsiSysStatus (at0 0xF7)) = true := by
  decide +kernel

theorem witness_ExitProgDisablesTheInterface :
    ready .exitProg small = true ∧ (accepts .exitProg closed = true ∧ closed.phyOpen = false) := by decide

/-- Every poll busy. -/
def busyAnswers : List Heard := [at0 0x01, at0 0x02, at2 0x03]

theorem witness_WaitReadyEndsByItsStatusReads :
    (meets .waitReady opened (fun s => readyBeats s slowReady) = true ∧ endsReady opened slowReady = true) ∧
    (meets .waitReady opened (fun s => readyBeats s ⟨busyAnswers.take 2, at0 0x07⟩) = true ∧
      writeErrorFlag opened.prm 0x07 = true) ∧
    (meets .waitReady opened (fun s => busyBeats s busyAnswers) = true ∧
      busyAnswers.length = opened.prm.readyTimeoutMs / opened.prm.readyPollMs ∧
      ∀ h ∈ busyAnswers, writeErrorFlag opened.prm h.byte = false ∧ nvmBusy opened.prm h.byte = true) ∧
    meets .waitReady opened (fun s => busyBeats s (busyAnswers.take 2) ++ ldsSilent s (nvmStatusAddr s)) = true := by
  decide +kernel

theorem witness_NvmCommandsAreStoredToCtrla :
    meets (.execNvmCmd 0x77) opened (fun s => cmdBeats s 0x77 (0, 2)) = true ∧
    meets (.execNvmCmd 0x05) opened (fun s => cmdBeats s s.prm.cmdCher (0, 0)) = true := by decide +kernel

/-- Each way a ready wait fails, at the last poll it can. -/
def waitFails : List WaitFail :=
  [.writeError ⟨busyAnswers.take 2, at0 0x04⟩, .unanswered (busyAnswers.take 2), .deadline busyAnswers]

/-- A chip erase whose waits end at the last poll allowed. -/
def slowChip : ChipRun := ⟨slowReady, (0, 2), slowReady⟩

def chipStops : List ChipStop :=
  waitFails.map .wait1 ++ [.command (.address [at0 0xC0]), .command (.value 0 [])] ++ waitFails.map .wait2

theorem witness_ChipEraseWaitsCommandsWaits :
    (meets .chipErase opened (fun s => chipBeats s slowChip) = true ∧ chipFits opened slowChip = true) ∧
    (∀ x ∈ chipStops, meets .chipErase opened (fun s => chipFailBeats s ⟨slowChip, x⟩) = true ∧
      chipFailFits opened ⟨slowChip, x⟩ = true) := by decide +kernel

/-- Each way the loading of a page of two bytes fails. -/
def loadFails : List LoadFail := [.pointer [at0 0xC0], .byte 0 [] [], .byte 0 [2] [at0 0x41]]

/-- Each way an STS fails. -/
def stsFails : List StsFail := [.address [], .value 2 [at0 0x00]]

def writeStops : List WriteStop :=
  waitFails.map .wait1 ++ stsFails.map .clear ++ waitFails.map .wait2 ++ loadFails.map .load ++ stsFails.map .write ++
    waitFails.map .wait3

theorem witness_PageWriteRunsItsSequence :
    meets (.pageWrite 0x8001#16 [1]) opened (fun s => pageWriteBeats s 0x8001#16 [1] (quietWrite 1)) = true ∧
    pageWriteFits opened [1] (quietWrite 1) = true ∧ 1 ≤ ([1] : List Byte).length := by decide +kernel

theorem witness_PageWriteRunsItsSequence_fails :
    ∀ x ∈ writeStops, writeFailFits opened [1, 2] ⟨quietWrite 2, x⟩ = true ∧
      meets (.pageWrite 0#16 [1, 2]) opened (writeFailBeats · 0#16 [1, 2] ⟨quietWrite 2, x⟩) = true := by decide +kernel

theorem witness_PageReadReturnsThePage :
    (meets (.pageRead 0#16 2) opened (fun s => pageReadBeats s 0#16 2 2 [at0 0x00, at2 0xFF]) = true ∧
      2 ≤ opened.prm.maxBurst) ∧
    (∀ x ∈ [ReadFail.pointer [], .pointer [at0 0x41], .short 0 [], .short 2 [at0 0xFF]], readFailFits opened 2 x = true ∧
      meets (.pageRead 0#16 2) opened (readFailBeats · 0#16 2 x) = true) := by decide +kernel

/-- A page erase whose waits end at the last poll allowed. -/
def slowErase : EraseRun := ⟨slowReady, 0, [0, 2], (0, 0), slowReady⟩

def eraseStops : List EraseStop :=
  waitFails.map .wait1 ++ loadFails.map .load ++ stsFails.map .erase ++ waitFails.map .wait2

theorem witness_PageEraseOverwritesAndErases :
    (meets (.pageErase 1#16) small (eraseBeats · 1#16 slowErase) = true ∧ eraseFits small slowErase = true) ∧
    (∀ x ∈ eraseStops, eraseFailFits small ⟨quietErase, x⟩ = true ∧
      meets (.pageErase 1#16) small (eraseFailBeats · 1#16 ⟨quietErase, x⟩) = true) := by decide +kernel

theorem witness_ErrorClassesAreTheOperationsOwn :
    completes .linkInit closed = true ∧ completes .passVerify closed = true := by decide +kernel

theorem witness_SetImageStoresTheWholeImage :
    accepts (.setImage [1, 2, 0xFF, 4] (some [9])) small = true ∧ ([1, 2, 0xFF, 4] : List Byte).length ≤ flashBytes small ∧
    ([9] : List Byte).length = small.cfg.fuseCount.toNat := by decide

theorem witness_PassChipEraseErasesTheChip :
    lazyFits small none = true ∧ lazyFits opened (some slowLink) = true ∧ chipFits opened slowChip = true ∧
    meets .passChipErase small (fun s => [.event .chipErase 0 1] ++ lazyBeats s none ++ chipBeats s slowChip) = true ∧
    meets .passChipErase opened (fun s => [.event .chipErase 0 1] ++ lazyBeats s (some slowLink) ++ chipBeats s slowChip)
      = true ∧
    chipFailFits small ⟨slowChip, .command (.address [])⟩ = true ∧
    meets .passChipErase small (fun s => [.event .chipErase 0 1] ++ lazyBeats s none ++
      chipFailBeats s ⟨slowChip, .command (.address [])⟩) = true := by decide +kernel

/-- The PHY closed, the flag true. -/
def stale : State := { closed with progMode := true }

theorem witness_PassChipEraseErasesTheChip_closed :
    accepts .passChipErase stale = true ∧ stale.phyOpen = false ∧ stale.progMode = true := by decide

/-- A page that fails once in each class before it is accepted. -/
def reread (bad good : List Byte) : ReadPageRun :=
  ⟨[.failed (.pointer [at0 0xC0]) linked, .rejected (readOf bad)], readOf good⟩

theorem witness_PassBlankCheckAcceptsAnErasedFlash :
    lazyFits tight none = true ∧ pagesOf tight .blankCheck = 1 ∧
    readPageFits tight (blankRules tight) 0 (reread [0xFF, 0x00] [0xFF, 0xFF]) = true ∧
    meets .passBlankCheck tight (fun s => readPassBeats s (blankRules s) 1 none fun _ => reread [0xFF, 0x00] [0xFF, 0xFF])
      = true := by decide +kernel

theorem witness_PassProgramWritesEveryUsedPage_empty :
    lazyFits { small with progMode := false } (some linked) = true ∧ pagesOf small .program = 0 ∧
    small.bytesUsed ≤ flashBytes small ∧
    meets .passProgram { small with progMode := false }
      (fun s => progPassBeats s 0 (some linked) fun _ => ⟨[], quietWrite 2, readOf []⟩) = true := by decide +kernel

/-- A page whose attempts fail once in each class, the blank read-back escalated. -/
def reprogram : ProgPageRun := ⟨[mismatchTry, blankTry, readTry], quietWrite 2, readOf [0x12, 0x12]⟩

theorem witness_PassProgramWritesEveryUsedPage_closed :
    accepts .passProgram stale = true ∧ stale.bytesUsed = 0 ∧ stale.progMode = true := by decide

theorem witness_PassProgramWritesEveryUsedPage :
    lazyFits tight none = true ∧ pagesOf tight .program = 1 ∧ tight.bytesUsed ≤ flashBytes tight ∧
    progPageFits tight 0 reprogram = true ∧ meets .passProgram tight (fun s => progPassBeats s 1 none fun _ => reprogram) =
      true := by decide +kernel

theorem witness_PassVerifyAcceptsAnEqualFlash :
    lazyFits tight none = true ∧ pagesOf tight .verify = 1 ∧
    readPageFits tight (verifyRules tight) 0 (reread [0xFF, 0x12] [0x12, 0x12]) = true ∧
    meets .passVerify tight (fun s => readPassBeats s (verifyRules s) 1 none fun _ => reread [0xFF, 0x12] [0x12, 0x12])
      = true := by decide +kernel

theorem witness_PassProgramFaultsOnAWatermarkPastTheFlash :
    accepts .passProgram { small with bytesUsed := 5 } = true ∧ flashBytes small < 5 := by decide

theorem witness_PassesReturnTheirOwnCodes :
    passOf .passBlankCheck ≠ .none ∧ completes .passBlankCheck { closed with progMode := true } = true := by decide +kernel

theorem witness_LazyLinkFailureEndsThePassWithItsLinkCode_open :
    opened.progMode = false ∧ linkFailFits opened downAttempts = true ∧
    meets .passChipErase opened (fun s => [.event .chipErase 0 1] ++ linkFailBeats s downAttempts) = true ∧
    meets .passVerify opened (fun s => [.event .verify 0 (pagesOf s .verify)] ++ linkFailBeats s downAttempts) = true := by
  decide +kernel

theorem witness_LazyLinkFailureEndsThePassWithItsLinkCode :
    closed.phyOpen = false ∧ closed.progMode = false ∧ 0 < closed.prm.linkInitAttempts ∧
    accepts .passChipErase closed = true ∧ accepts .passProgram closed = true ∧ closed.bytesUsed ≤ flashBytes closed := by
  decide

/-- A try of each class and the failure of each class that ends the pass after it. -/
def readTries : List ReadTry := [.failed (.short 0 []) linked, .rejected (readOf [0x00, 0xFF])]

theorem witness_RecoveryEndsThePageAboveItsCaps_read :
    lazyFits tight none = true ∧ 0 < pagesOf tight .blankCheck ∧ 0 < pagesOf tight .verify ∧
    (∀ x ∈ [ReadStop.failed (.pointer []), .rejected (readOf [0x00, 0x00])],
      readTriesFit tight (blankRules tight) 0 readTries = true ∧
      readStopFits tight (blankRules tight) 0 (readTally readTries) x = true ∧
      meets .passBlankCheck tight (fun s => readPassBeats s (blankRules s) 0 none (fun _ => reread [] []) ++
        readTries.flatMap (readTryBeats s 0) ++ readStopBeats s 0 x) = true) ∧
    (readStopFits tight (verifyRules tight) 0 (readTally []) (.relinkFailed (.pointer []) [.silent]) = true ∧
      meets .passVerify tight (fun s => readPassBeats s (verifyRules s) 0 none (fun _ => reread [] []) ++
        [].flatMap (readTryBeats s 0) ++ readStopBeats s 0 (.relinkFailed (.pointer []) [.silent])) = true) := by
  decide +kernel

/-- Failures that end the Program pass after one try. -/
def progStops : List (ProgTry × ProgStop) :=
  [(writeTry, .write unwritten), (writeTry, .read (quietWrite 2) (.pointer [])),
   (mismatchTry, .mismatch (quietWrite 2) (readOf [0x00, 0xFF])), (blankTry, .exhausted (quietWrite 2) (readOf [0xFF, 0xFF])),
   (writeTry, .erase (quietWrite 2) (readOf [0xFF, 0xFF]) ⟨quietErase, .wait2 (.unanswered [])⟩),
   (mismatchTry, .relink (.write unwritten) [.silent])]

/-- Such a failure meets the hypotheses. -/
def progStopMeets (x : ProgTry × ProgStop) : Bool :=
  progTriesFit tight 0 Tally.zero [x.1] && progStopFits tight 0 (progTriesTally tight [x.1]) x.2 &&
  meets .passProgram tight (fun s => progPassBeats s 0 none (fun _ => reprogram) ++
    progTriesBeats s 0 Tally.zero [x.1] ++ progStopBeats s 0 (progTriesTally s [x.1]) x.2)

theorem witness_RecoveryEndsThePageAboveItsCaps_program :
    lazyFits tight none = true ∧ 0 < pagesOf tight .program ∧ tight.bytesUsed ≤ flashBytes tight ∧
    (progStops.take 3).all progStopMeets = true := by decide +kernel

theorem witness_RecoveryEndsThePageAboveItsCaps_erase : (progStops.drop 3).all progStopMeets = true := by decide +kernel

/-- Two pages, the second with an image byte. -/
def imaged : State := { tight with cfg := smallCfg, flashImage := [(3, 0x12)], bytesUsed := 4 }

theorem witness_RecoveryEndsThePageAboveItsCaps_second :
    1 < pagesOf imaged .verify ∧ readPageFits imaged (verifyRules imaged) 0 ⟨[], readOf [0xFF, 0xFF]⟩ = true ∧
    readTriesFit imaged (verifyRules imaged) 1 readTries = true ∧
    readStopFits imaged (verifyRules imaged) 1 (readTally readTries) (.rejected (readOf [0xFF, 0xFF])) = true ∧
    meets .passVerify imaged (fun s =>
      readPassBeats s (verifyRules s) 1 none (fun _ => ⟨[], readOf [0xFF, 0xFF]⟩) ++ readTries.flatMap (readTryBeats s 1) ++
        readStopBeats s 1 (.rejected (readOf [0xFF, 0xFF]))) = true := by decide +kernel

/-- The PHY closed, the flag true, a page to write. -/
def staleTwelve : State := { tight with phyOpen := false, pin := none }

theorem witness_RecoveryEndsThePageAboveItsCaps_closed :
    (∀ i ∈ [Instr.passBlankCheck, .passVerify, .passProgram], accepts i staleTwelve = true ∧
      0 < pagesOf staleTwelve (passOf i)) ∧
    staleTwelve.phyOpen = false ∧ staleTwelve.progMode = true ∧ 0 < staleTwelve.prm.linkInitAttempts ∧
    staleTwelve.bytesUsed ≤ flashBytes staleTwelve := by decide

theorem witness_RecoveryEndsThePageAboveItsCaps :
    closed.prm.pgLinkCap ≤ 3 ∧ closed.prm.pgDataCap ≤ 3 ∧ closed.prm.pgBlankCap ≤ 3 ∧ closed.prm.pgEscCap ≤ 3 := by decide

def zeroCode (i : Instr) (s : State) (n : Nat) (run : ReadRun) : Bool :=
  leaves i (hears s (walkBeats s (passOf i) n n none fun p => readRunBeats s p run)) fun t =>
    lastResult t.obs == some (.ok (.code 0))

theorem witness_PassReturningZeroReportedEveryPage :
    (∀ i ∈ [Instr.passBlankCheck, .passProgram, .passVerify], ∀ c ∈ abortCodes small.prm (passOf i), c ≠ 0) ∧
    zeroCode .passProgram small 0 (readOf []) = true ∧ pagesOf onePage .blankCheck = 1 ∧ pagesOf onePage .verify = 1 ∧
    zeroCode .passBlankCheck onePage 1 (readOf [0xFF, 0xFF]) = true ∧
    zeroCode .passVerify onePage 1 (readOf [0xFF, 0xFF]) = true := by decide +kernel

theorem witness_PageLoopsEndWithinTheirBounds :
    State.reset.seq.linkErr = 0 ∧ State.reset.seq.dataErr = 0 ∧ State.reset.seq.blankCnt = 0 ∧
    State.reset.seq.escCnt = 0 ∧ readBound 3 10 ≤ 14 ∧ programBound defaultParams ≤ 22 := by decide

theorem witness_EveryStepKeepsTheStateSound :
    sound closed = true ∧ step closed = .next closed ∧
    completes (.setImage [1] none) closed = true := ⟨by decide, rfl, by decide⟩

theorem witness_WireOperationsChangeNoSessionState :
    wireOnly (.lds 0#16) = true ∧ completes (.lds 0#16) closed = true ∧ wireOnly .chipErase = true ∧
    completes .chipErase closed = true := by decide +kernel

theorem witness_SessionOperationsChangeTheirOwnFieldsAlone :
    (writesProgMode .enterProg = true ∧ completes .enterProg closed = true) ∧
    (passOf .passChipErase = .chipErase ∧ completes .passChipErase closed = true) := by decide +kernel

theorem witness_NoStepRewritesConfigurationOrHistory :
    step closed = .next closed ∧ step { closed with refused := true } = .next { closed with refused := true } := ⟨rfl, rfl⟩

theorem witness_EveryOperationMakesBoundedlyManyCalls :
    State.reset.prm = defaultParams ∧ State.reset.cfg = resetCfg ∧ State.reset.bytesUsed = 0 ∧
    completes .phyClose State.reset = true := by decide

end Sys2Proof.Tests
end

section
/-! The host port (00_scope.md R6): what a step runs, and what an accepted operation delivers. -/

namespace Sys2Proof.Machine

open Sys2Proof.Safety

/-! ## The step -/

theorem step_of_decode {s : State} {w : PortWord} {rest : List PortWord} {i : Instr} (hops : s.hostOps = w :: rest)
    (hdec : decode s.prm w = .ok i) : step s = exec i { s with hostOps := rest } := by
  simp only [step, hops, hdec]

theorem step_of_idle {s : State} (hops : s.hostOps = []) : step s = .next s := by
  simp only [step, hops]

/-- Settles O6. -/
theorem stepRunsTheDecodedInstruction : Obligations.StepRunsTheDecodedInstruction :=
  ⟨fun _ _ _ _ hops hdec => step_of_decode hops hdec, fun _ hops => step_of_idle hops⟩

/-! ## The operation of an instruction -/

/-- The operation `exec` hands to the host port for each instruction. -/
def opOf (p : Params) : Instr → Op Value
  | .ldcsFrame a => byteValue (ldcs a)
  | .stcsFrame a v => unit (stcs a v)
  | .ldsFrame addr => byteValue (lds addr)
  | .stsFrame addr v => unit (sts addr v)
  | .stPtr addr => unit (setPtr addr)
  | .stPtrInc data => unit (burstWrite data)
  | .ldPtrInc m => bytesValue (burstRead m)
  | .repeatFrame count => unit (repeatOp (repeatCount count))
  | .keyFrame key => unit (sendKey key)
  | .cmdWp => unit (execCommand p.cmdWp)
  | .cmdEr => unit (execCommand p.cmdEr)
  | .cmdPbc => unit (execCommand p.cmdPbc)
  | .cmdCher => unit (execCommand p.cmdCher)
  | .phyInit => unit phyInit
  | .phySend bytes => unit (phySend bytes)
  | .phyRecv n => bytesValue (phyRecv n)
  | .phyDoubleBreak => unit phyDoubleBreak
  | .phyClose => unit phyClose
  | .ldcs a => byteValue (ldcs a)
  | .stcs a v => unit (stcs a v)
  | .lds addr => byteValue (lds addr)
  | .sts addr v => unit (sts addr v)
  | .setPtr addr => unit (setPtr addr)
  | .repeatN n => unit (repeatOp n)
  | .burstWrite data => unit (burstWrite data)
  | .burstRead n => bytesValue (burstRead n)
  | .key key => unit (sendKey key)
  | .linkInit => unit linkInit
  | .resetToggle => unit resetToggle
  | .enterProg => unit enterProg
  | .exitProg => unit exitProg
  | .waitReady => unit waitReady
  | .execNvmCmd cmd => unit (execCommand cmd)
  | .chipErase => unit chipErase
  | .pageWrite addr data => unit (pageWrite addr data)
  | .pageRead addr n => bytesValue (pageRead addr n)
  | .pageErase addr => unit (pageErase addr)
  | .setImage image fuse => unit (setImage image fuse)
  | .passChipErase => codeValue passChipErase
  | .passBlankCheck => codeValue passBlankCheck
  | .passProgram => codeValue passProgram
  | .passVerify => codeValue passVerify

/-- An instruction that answers a next state is its operation at the host port; PASS_PROGRAM's fault answers none. -/
theorem serve_opOf_of_exec {i : Instr} {s t : State} (h : exec i s = .next t) : serve i (opOf s.prm i) s = .next t := by
  cases i with
  | passProgram =>
    change execPassProgram s = .next t at h
    unfold execPassProgram at h
    split at h
    · cases h
    · exact h
  | _ => exact h

/-- The next state of an accepted instruction: its operation run from a busy port, its result delivered (R6). -/
theorem exec_accepted {i : Instr} {s t : State} (ha : accepts i s = true) (h : exec i s = .next t) :
    t = endOp (opOf s.prm i (beginOp s)) := by
  have hs := serve_opOf_of_exec h
  rw [serve, if_pos ha, Host.Outcome.next.injEq] at hs
  exact hs.symm

/-- However an operation ended, the port delivers one result on the state it left. -/
theorem exists_endOp_eq_deliver (r : EStateM.Result Err State Value) : ∃ x, endOp r = deliver x (endState r) := by
  cases r with
  | ok v s => exact ⟨.ok v, rfl⟩
  | error e s => exact ⟨.err e, rfl⟩

/-! ## Traces of the instructions -/

section
variable {ev : Bool}

theorem unit_traced {m : Op Unit} (hm : Keeps (Traced ev) m) : Keeps (Traced ev) (unit m) :=
  traced_bind hm fun _ => traced_pure _

theorem byteValue_traced {m : Op Byte} (hm : Keeps (Traced ev) m) : Keeps (Traced ev) (byteValue m) :=
  traced_bind hm fun _ => traced_pure _

theorem bytesValue_traced {m : Op (List Byte)} (hm : Keeps (Traced ev) m) : Keeps (Traced ev) (bytesValue m) :=
  traced_bind hm fun _ => traced_pure _

theorem codeValue_traced {m : Op Int} (hm : Keeps (Traced ev) m) : Keeps (Traced ev) (codeValue m) :=
  traced_bind hm fun _ => traced_pure _

end

/-- Every operation but PHY_INIT, PHY_CLOSE and SET_IMAGE leaves a trace and writes the session fields alone; only a pass
reports progress. -/
theorem opOf_traced (p : Params) (i : Instr) (hinit : i ≠ .phyInit) (hclose : i ≠ .phyClose)
    (himage : ∀ image fuse, i ≠ .setImage image fuse) : Keeps (Traced (passOf i != .none)) (opOf p i) := by
  cases i with
  | phyInit => exact absurd rfl hinit
  | phyClose => exact absurd rfl hclose
  | setImage image fuse => exact absurd rfl (himage image fuse)
  | ldcsFrame a | ldcs a => exact byteValue_traced (ldcs_traced a)
  | stcsFrame a v | stcs a v => exact unit_traced (stcs_traced a v)
  | ldsFrame addr | lds addr => exact byteValue_traced (lds_traced addr)
  | stsFrame addr v | sts addr v => exact unit_traced (sts_traced addr v)
  | stPtr addr | setPtr addr => exact unit_traced (setPtr_traced addr)
  | stPtrInc data | burstWrite data => exact unit_traced (burstWrite_traced data)
  | ldPtrInc n | burstRead n => exact bytesValue_traced (burstRead_traced n)
  | repeatFrame _ | repeatN _ => exact unit_traced (repeatOp_traced _)
  | keyFrame key | key key => exact unit_traced (sendKey_traced key)
  | cmdWp | cmdEr | cmdPbc | cmdCher | execNvmCmd _ => exact unit_traced (execCommand_traced _)
  | phySend bytes => exact unit_traced (phySend_traced bytes)
  | phyRecv n => exact bytesValue_traced (phyRecv_traced n)
  | phyDoubleBreak => exact unit_traced phyDoubleBreak_traced
  | linkInit => exact unit_traced linkInit_traced
  | resetToggle => exact unit_traced resetToggle_traced
  | enterProg => exact unit_traced enterProg_traced
  | exitProg => exact unit_traced exitProg_traced
  | waitReady => exact unit_traced waitReady_traced
  | chipErase => exact unit_traced chipErase_traced
  | pageWrite addr data => exact unit_traced (pageWrite_traced addr data)
  | pageRead addr n => exact bytesValue_traced (pageRead_traced addr n)
  | pageErase addr => exact unit_traced (pageErase_traced addr)
  | passChipErase => exact codeValue_traced passChipErase_traced
  | passBlankCheck => exact codeValue_traced passBlankCheck_traced
  | passProgram => exact codeValue_traced passProgram_traced
  | passVerify => exact codeValue_traced passVerify_traced

/-! ## No result before the end -/

/-- The observation is only extended, by items none of which is a result. -/
def AddsNoResult (s t : State) : Prop := ∃ o, t.obs = s.obs ++ o ∧ resultsOf o = []

theorem resultsOf_append (o o' : List Obs) : resultsOf (o ++ o') = resultsOf o ++ resultsOf o' := List.filter_append o o'

theorem resultsOf_eq_nil {o : List Obs} (h : ∀ r, Obs.result r ∉ o) : resultsOf o = [] := by
  refine List.filter_eq_nil_iff.2 fun x hx => ?_
  cases x with
  | result r => exact absurd hx (h r)
  | _ => exact Bool.false_ne_true

theorem addsNoResult_frame : Frame AddsNoResult where
  refl s := ⟨[], (List.append_nil _).symm, rfl⟩
  trans := by
    rintro s t u ⟨o, ho, hr⟩ ⟨o', ho', hr'⟩
    exact ⟨o ++ o', by rw [ho', ho, List.append_assoc], by rw [resultsOf_append, hr, hr']; rfl⟩

/-- A write that leaves the observation alone. -/
theorem addsNoResult_of_obs_eq {s t : State} (h : t.obs = s.obs) : AddsNoResult s t :=
  ⟨[], h.trans (List.append_nil _).symm, rfl⟩

theorem play_addsNoResult (s : State) (b : Beat) : AddsNoResult s (play s b) := by
  cases b with
  | tx bytes => exact ⟨_, rfl, resultsOf_eq_nil (by simp [txCalls, slotCalls])⟩
  | rx n heard =>
    refine ⟨_, rfl, resultsOf_eq_nil fun r => ?_⟩
    have hpoll : ∀ k, Obs.result r ∉ pollCalls s k := by simp [pollCalls]
    have hrest : Obs.result r ∉ if heard.length < n then pollCalls s s.prm.rxPollLimit else [] := by
      split
      · exact hpoll _
      · exact List.not_mem_nil
    simp [rxCalls, heardCalls, hpoll, hrest]
  | db => exact ⟨_, rfl, rfl⟩
  | pause us => exact ⟨_, rfl, rfl⟩
  | event pass i total => exact ⟨_, rfl, rfl⟩

theorem playAll_addsNoResult (bs : List Beat) : ∀ s : State, AddsNoResult s (playAll s bs) := by
  induction bs with
  | nil => exact addsNoResult_frame.refl
  | cons b bs ih => exact fun s => addsNoResult_frame.trans (play_addsNoResult s b) (ih _)

/-- An operation that leaves a trace delivers nothing itself. -/
theorem Traced.addsNoResult {ev : Bool} {s t : State} (h : Traced ev s t) (hr : s.rx = Rx.idle) (ht : s.tx = Tx.idle) :
    AddsNoResult s t := by
  obtain ⟨beats, -, -, e⟩ := h hr ht
  rw [e]
  exact playAll_addsNoResult beats s

theorem setDir_addsNoResult (d : Dir) : Keeps AddsNoResult (setDir d) := fun _ => ⟨_, rfl, rfl⟩

theorem phyInit_addsNoResult : Keeps AddsNoResult phyInit :=
  addsNoResult_frame.bind (fun _ => ⟨_, rfl, rfl⟩) fun _ => addsNoResult_frame.ite
    (addsNoResult_frame.bind (.update fun _ => addsNoResult_of_obs_eq rfl) fun _ =>
      addsNoResult_frame.bind (setDir_addsNoResult _) fun _ => .update fun _ => addsNoResult_of_obs_eq rfl)
    (addsNoResult_frame.bind (.update fun _ => addsNoResult_of_obs_eq rfl) fun _ => addsNoResult_frame.raise _)

theorem phyClose_addsNoResult : Keeps AddsNoResult phyClose :=
  addsNoResult_frame.bind addsNoResult_frame.get fun _ => addsNoResult_frame.ite
    (addsNoResult_frame.bind (setDir_addsNoResult _) fun _ => .update fun _ => addsNoResult_of_obs_eq rfl)
    (addsNoResult_frame.pure _)

theorem setImage_addsNoResult (image : List Byte) (fuse : Option (List Byte)) :
    Keeps AddsNoResult (setImage image fuse) :=
  addsNoResult_frame.bind addsNoResult_frame.get fun _ => addsNoResult_frame.ite (addsNoResult_frame.raise _)
    (addsNoResult_frame.ite (.update fun _ => addsNoResult_of_obs_eq rfl) (addsNoResult_frame.raise _))

theorem unit_addsNoResult {m : Op Unit} (hm : Keeps AddsNoResult m) : Keeps AddsNoResult (unit m) :=
  addsNoResult_frame.bind hm fun _ => addsNoResult_frame.pure _

/-- No operation, run from the port, records a result of its own. -/
theorem opOf_addsNoResult (p : Params) (i : Instr) (s : State) :
    AddsNoResult (beginOp s) (endState (opOf p i (beginOp s))) := by
  cases i with
  | phyInit => exact unit_addsNoResult phyInit_addsNoResult _
  | phyClose => exact unit_addsNoResult phyClose_addsNoResult _
  | setImage image fuse => exact unit_addsNoResult (setImage_addsNoResult image fuse) _
  | _ => exact Traced.addsNoResult (opOf_traced p _ (by nofun) (by nofun) (by nofun) (beginOp s)) rfl rfl

/-- Settles O9: the operation itself adds no result, and the port then delivers one (R6, R141). -/
theorem acceptedOperationDeliversExactlyOneResult : Obligations.AcceptedOperationDeliversExactlyOneResult := by
  intro i s t ha h
  obtain ⟨r, hr⟩ := exists_endOp_eq_deliver (opOf s.prm i (beginOp s))
  obtain ⟨o, ho, hno⟩ := opOf_addsNoResult s.prm i s
  rw [exec_accepted ha h, hr]
  exact ⟨rfl, o, r, by rw [deliver_obs, ho, beginOp_obs], hno⟩

end Sys2Proof.Machine
end

section
/-! Frames of the operations above the PHY (10_state.md R13, R26, 41_link.md R91): a relation that the PHY's own
operations keep is kept by every Link and device-control operation, and one that also allows a write of `S.prog_mode` by
the session operations. -/

namespace Sys2Proof.Machine

open Sys2Proof.Safety

/-! ## Link and device control -/

/-- A frame that sends, receives, double breaks and sleeps keep. -/
structure WireFrame (R : State → State → Prop) : Prop extends Frame R where
  send : ∀ bytes, Keeps R (phySend bytes)
  recv : ∀ n, Keeps R (phyRecv n)
  doubleBreak : Keeps R phyDoubleBreak
  pause : ∀ us, Keeps R (sleep us)

namespace WireFrame

variable {R : State → State → Prop} (W : WireFrame R)
include W

theorem getThen {α : Type} {f : State → Op α} (hf : ∀ s, Keeps R (f s)) : Keeps R (get >>= f) := W.bind W.get hf

theorem checkSize (lo n : Nat) : Keeps R (checkSize lo n) := by
  intro s
  unfold Machine.checkSize
  split
  · exact W.refl s
  · exact W.refl s

theorem readBytes (n : Nat) : Keeps R (readBytes n) := W.bind (W.recv n) fun _ => W.ite (W.raise _) (W.pure _)

theorem readByte : Keeps R readByte := W.bind (W.readBytes 1) fun _ => W.pure _

theorem expectAck : Keeps R expectAck := by
  refine W.bind (W.recv 1) fun r => W.getThen fun s => ?_
  cases r with
  | nil => exact W.raise _
  | cons b _ => exact W.ite (W.pure _) (W.raise _)

theorem ldcs (a : CsAddr) : Keeps R (ldcs a) := W.getThen fun _ => W.bind (W.send _) fun _ => W.readByte

theorem stcs (a : CsAddr) (v : Byte) : Keeps R (stcs a v) := W.getThen fun _ => W.send _

theorem lds (addr : Addr) : Keeps R (lds addr) := W.getThen fun _ => W.bind (W.send _) fun _ => W.readByte

theorem sts (addr : Addr) (v : Byte) : Keeps R (sts addr v) :=
  W.getThen fun _ => W.bind (W.send _) fun _ => W.bind W.expectAck fun _ => W.bind (W.send _) fun _ => W.expectAck

theorem setPtr (addr : Addr) : Keeps R (setPtr addr) := W.getThen fun _ => W.bind (W.send _) fun _ => W.expectAck

theorem repeatOp (n : Nat) : Keeps R (repeatOp n) := W.bind (W.checkSize 1 n) fun _ => W.getThen fun _ => W.send _

theorem burstRest (data : List Byte) : Keeps R (burstRest data) := by
  induction data with
  | nil => exact W.pure _
  | cons d ds ih => exact W.bind (W.send _) fun _ => W.bind W.expectAck fun _ => ih

theorem burstWrite (data : List Byte) : Keeps R (burstWrite data) :=
  W.bind (W.checkSize 1 _) fun _ => W.getThen fun _ => W.bind (W.send _) fun _ => W.bind W.expectAck fun _ =>
    W.burstRest _

theorem burstRead (n : Nat) : Keeps R (burstRead n) :=
  W.bind (W.checkSize 1 n) fun _ => W.getThen fun _ => W.bind (W.send _) fun _ => W.readBytes n

theorem sendKey (key : List Byte) : Keeps R (sendKey key) :=
  W.getThen fun _ => W.bind (W.send _) fun _ => W.send _

theorem resetToggle : Keeps R resetToggle := W.getThen fun _ => W.bind (W.stcs _ _) fun _ => W.stcs _ _

theorem progFlag : Keeps R progFlag := W.getThen fun _ => W.bind (W.ldcs _) fun _ => W.pure _

theorem pollUnlocked (k : Nat) : Keeps R (pollUnlocked k) := by
  induction k with
  | zero => exact W.pure _
  | succ k ih =>
    exact W.getThen fun _ => W.bind (W.ldcs _) fun _ => W.ite (W.bind (W.pause _) fun _ => ih) (W.pure _)

theorem waitUnlocked : Keeps R waitUnlocked := W.getThen fun _ => W.pollUnlocked _

theorem pollReady (k : Nat) : Keeps R (pollReady k) := by
  induction k with
  | zero => exact W.raise _
  | succ k ih =>
    exact W.getThen fun _ => W.bind (W.lds _) fun _ => W.ite (W.raise _)
      (W.ite (W.bind (W.pause _) fun _ => ih) (W.pure _))

theorem waitReady : Keeps R waitReady := W.getThen fun _ => W.pollReady _

theorem execCommand (cmd : Byte) : Keeps R (execCommand cmd) := W.getThen fun _ => W.sts _ _

theorem chipErase : Keeps R chipErase :=
  W.bind (W.waitReady.mapErr _) fun _ => W.getThen fun _ => W.bind (W.execCommand _) fun _ => W.waitReady.mapErr _

theorem burstTo (addr : Addr) (data : List Byte) : Keeps R (burstTo addr data) :=
  W.bind (W.setPtr _) fun _ => W.bind (W.repeatOp _) fun _ => W.burstWrite _

theorem pageWrite (addr : Addr) (data : List Byte) : Keeps R (pageWrite addr data) :=
  W.bind (W.checkSize 1 _) fun _ => W.bind W.waitReady fun _ => W.getThen fun _ => W.bind (W.execCommand _) fun _ =>
    W.bind W.waitReady fun _ => W.bind (W.burstTo _ _) fun _ => W.bind (W.execCommand _) fun _ => W.waitReady

theorem pageRead (addr : Addr) (n : Nat) : Keeps R (pageRead addr n) :=
  W.bind (W.checkSize 2 n) fun _ => W.bind (W.setPtr _) fun _ => W.bind (W.repeatOp _) fun _ => W.burstRead _

theorem pageErase (addr : Addr) : Keeps R (pageErase addr) :=
  W.bind W.waitReady fun _ => W.getThen fun _ => W.bind (W.burstTo _ _) fun _ => W.bind (W.execCommand _) fun _ =>
    W.waitReady

theorem settle : Keeps R settle := W.getThen fun _ => W.pause _

theorem unit {m : Op Unit} (hm : Keeps R m) : Keeps R (unit m) := W.bind hm fun _ => W.pure _

theorem byteValue {m : Op Byte} (hm : Keeps R m) : Keeps R (byteValue m) := W.bind hm fun _ => W.pure _

theorem bytesValue {m : Op (List Byte)} (hm : Keeps R m) : Keeps R (bytesValue m) := W.bind hm fun _ => W.pure _

/-- The frame of every operation that writes no session state (R91). -/
theorem opOf (p : Params) {i : Instr} (hi : wireOnly i = true) : Keeps R (opOf p i) := by
  cases i with
  | phyInit | phyClose | linkInit | enterProg | exitProg | setImage _ _ | passChipErase | passBlankCheck | passProgram
  | passVerify => cases hi
  | ldcsFrame a | ldcs a => exact W.byteValue (W.ldcs a)
  | stcsFrame a v | stcs a v => exact W.unit (W.stcs a v)
  | ldsFrame addr | lds addr => exact W.byteValue (W.lds addr)
  | stsFrame addr v | sts addr v => exact W.unit (W.sts addr v)
  | stPtr addr | setPtr addr => exact W.unit (W.setPtr addr)
  | stPtrInc data | burstWrite data => exact W.unit (W.burstWrite data)
  | ldPtrInc n | burstRead n => exact W.bytesValue (W.burstRead n)
  | repeatFrame _ | repeatN _ => exact W.unit (W.repeatOp _)
  | keyFrame key | key key => exact W.unit (W.sendKey key)
  | cmdWp | cmdEr | cmdPbc | cmdCher | execNvmCmd _ => exact W.unit (W.execCommand _)
  | phySend bytes => exact W.unit (W.send bytes)
  | phyRecv n => exact W.bytesValue (W.recv n)
  | phyDoubleBreak => exact W.unit W.doubleBreak
  | resetToggle => exact W.unit W.resetToggle
  | waitReady => exact W.unit W.waitReady
  | chipErase => exact W.unit W.chipErase
  | pageWrite addr data => exact W.unit (W.pageWrite addr data)
  | pageRead addr n => exact W.bytesValue (W.pageRead addr n)
  | pageErase addr => exact W.unit (W.pageErase addr)

end WireFrame

/-! ## The operations that write `S.prog_mode` (10_state.md R19) -/

/-- A wire frame that a write of `S.prog_mode` keeps. -/
structure SessionFrame (R : State → State → Prop) : Prop extends WireFrame R where
  progMode : ∀ v s, R s (setProgMode v s)

namespace SessionFrame

variable {R : State → State → Prop} (W : SessionFrame R)
include W

theorem unlockTarget : Keeps R unlockTarget :=
  W.getThen fun _ => W.bind ((W.sendKey _).mapErr _) fun _ => W.bind ((W.ldcs _).mapErr _) fun _ =>
    W.ite
      (W.bind (W.resetToggle.mapErr _) fun _ =>
        W.bind (W.waitUnlocked.mapErr _) fun _ =>
          W.ite (W.bind (W.progFlag.mapErr _) fun _ => W.ite (W.progMode true) (W.raise _)) (W.raise _))
      (W.raise _)

theorem enterProg : Keeps R enterProg :=
  W.onError (W.bind (W.progFlag.mapErr _) fun _ => W.ite (W.progMode true) W.unlockTarget) (W.progMode false)

theorem exitProg : Keeps R exitProg :=
  W.bind (W.progMode false) fun _ => W.bind W.resetToggle fun _ => W.getThen fun _ => W.stcs _ _

theorem tryLink : Keeps R tryLink :=
  W.bind W.doubleBreak fun _ => W.getThen fun _ => W.bind (W.stcs _ _) fun _ => W.bind (W.stcs _ _) fun _ =>
    W.bind (W.ldcs _) fun _ => W.ite (W.raise _) W.enterProg

theorem linkAttempts (k : Nat) : ∀ last, Keeps R (linkAttempts k last) := by
  induction k with
  | zero => exact fun last => W.raise _
  | succ k ih =>
    refine fun last => W.bind (W.progMode false) fun _ => W.bind W.tryLink.tryOp fun r => ?_
    cases r with
    | ok _ => exact W.pure _
    | error e =>
      cases e with
      | ioError why => exact W.raise _
      | _ => exact ih _

theorem linkInit : Keeps R linkInit := W.getThen fun _ => W.linkAttempts _ _

theorem ensureLink : Keeps R ensureLink := W.getThen fun _ => W.ite (W.pure _) W.linkInit

/-- The frame of every operation but PHY_INIT, PHY_CLOSE, SET_IMAGE and the passes. -/
theorem opOf (p : Params) {i : Instr} (hi : wireOnly i = true ∨ writesProgMode i = true) : Keeps R (opOf p i) := by
  rcases hi with hi | hi
  · exact W.toWireFrame.opOf p hi
  · cases i with
    | linkInit => exact W.unit W.linkInit
    | enterProg => exact W.unit W.enterProg
    | exitProg => exact W.unit W.exitProg
    | _ => cases hi

end SessionFrame

end Sys2Proof.Machine
end

section
/-! What an operation writes (10_state.md R13, R17, R22, R34): a traced operation writes the pin's direction and level,
its datapath registers, and the session's three fields; one outside the pages leaves `S.seq` and `S.rbuf`; none writes
the configuration, a parameter or `S.refused`. -/

namespace Sys2Proof.Machine

open Sys2Proof.Safety

/-- The receive and transmit registers hold nothing (R15, R16, R37). -/
structure Idle (s : State) : Prop where
  rx : s.rx = Rx.idle
  tx : s.tx = Tx.idle

theorem idle_beginOp (s : State) : Idle (beginOp s) := ⟨rfl, rfl⟩

/-! ## What a traced operation leaves -/

/-- All a trace leaves unchanged: every field but the pin's direction and level, the session's three, the answers of
`ReadLevel()` and the observation. -/
structure WritesSessionAlone (s t : State) : Prop where
  cfg : t.cfg = s.cfg
  prm : t.prm = s.prm
  phyOpen : t.phyOpen = s.phyOpen
  pin : t.pin = s.pin
  rx : t.rx = s.rx
  tx : t.tx = s.tx
  flashImage : t.flashImage = s.flashImage
  bytesUsed : t.bytesUsed = s.bytesUsed
  fuseImage : t.fuseImage = s.fuseImage
  busy : t.busy = s.busy
  refused : t.refused = s.refused
  capInits : t.capInits = s.capInits
  hostOps : t.hostOps = s.hostOps

theorem writesSessionAlone_playAll (s : State) (bs : List Beat) (m : Bool) (q : Seq) (r : List Byte) :
    WritesSessionAlone s (withSession (playAll s bs) m q r) where
  cfg := playAll_cfg bs s
  prm := playAll_prm bs s
  phyOpen := playAll_phyOpen bs s
  pin := playAll_pin bs s
  rx := playAll_rx bs s
  tx := playAll_tx bs s
  flashImage := playAll_flashImage bs s
  bytesUsed := playAll_bytesUsed bs s
  fuseImage := playAll_fuseImage bs s
  busy := playAll_busy bs s
  refused := playAll_refused bs s
  capInits := playAll_capInits bs s
  hostOps := playAll_hostOps bs s

theorem Traced.writesSessionAlone {ev : Bool} {s t : State} (h : Traced ev s t) (hs : Idle s) :
    WritesSessionAlone s t := by
  obtain ⟨bs, -, -, e⟩ := h hs.rx hs.tx
  rw [e]
  exact writesSessionAlone_playAll s bs _ _ _

theorem WritesSessionAlone.imageByte_eq {s t : State} (h : WritesSessionAlone s t) (o : Nat) :
    imageByte t o = imageByte s o := by
  simp only [imageByte, h.prm, h.flashImage]

/-! ## Operations outside the pages -/

/-- From idle datapath registers, whatever the outcome: they are idle again, and `P` relates the two states. -/
def FromIdle (P : State → State → Prop) (s t : State) : Prop := Idle s → Idle t ∧ P s t

theorem idle_play {s : State} (hs : Idle s) (b : Beat) : Idle (play s b) :=
  ⟨(play_rx s b).trans hs.rx, (play_tx s b).trans hs.tx⟩

section
variable {P : State → State → Prop} (hP : Frame P) (hplay : ∀ s b, P s (play s b))
include hP

theorem fromIdle_frame : Frame (FromIdle P) where
  refl s hs := ⟨hs, hP.refl s⟩
  trans := by
    intro s t u h1 h2 hs
    obtain ⟨ht, hst⟩ := h1 hs
    obtain ⟨hu, htu⟩ := h2 ht
    exact ⟨hu, hP.trans hst htu⟩

include hplay

omit hP in
theorem fromIdle_play (s : State) (b : Beat) : FromIdle P s (play s b) := fun hs => ⟨idle_play hs b, hplay s b⟩

theorem phySend_fromIdle (bytes : List Byte) : Keeps (FromIdle P) (phySend bytes) := by
  intro s hs
  cases ho : s.phyOpen with
  | true => rw [phySend_eq bytes ho hs.tx]; exact fromIdle_play hplay s (.tx bytes) hs
  | false => rw [phySend_closed bytes ho]; exact ⟨hs, hP.refl s⟩

theorem phyRecv_fromIdle (n : Nat) : Keeps (FromIdle P) (phyRecv n) := by
  intro s hs
  cases ho : s.phyOpen with
  | true =>
    obtain ⟨heard, -, h⟩ := phyRecv_total n ho hs.rx
    rw [h]
    exact fromIdle_play hplay s (.rx n heard) hs
  | false => rw [phyRecv_closed n ho]; exact ⟨hs, hP.refl s⟩

theorem phyDoubleBreak_fromIdle : Keeps (FromIdle P) phyDoubleBreak := by
  intro s hs
  cases ho : s.phyOpen with
  | true => rw [phyDoubleBreak_eq ho]; exact fromIdle_play hplay s .db hs
  | false => rw [phyDoubleBreak_closed ho]; exact ⟨hs, hP.refl s⟩

/-- What every item of a trace keeps, every operation above the PHY keeps, run from idle datapath registers. -/
theorem fromIdle_wire : WireFrame (FromIdle P) where
  toFrame := fromIdle_frame hP
  send := phySend_fromIdle hP hplay
  recv := phyRecv_fromIdle hP hplay
  doubleBreak := phyDoubleBreak_fromIdle hP hplay
  pause us s := fromIdle_play hplay s (.pause us)

end

/-- The configuration and the passes' own registers, `S.seq` and `S.rbuf`, are the same (R17, R21, R24). -/
structure SamePages (s t : State) : Prop where
  cfg : t.cfg = s.cfg
  seq : t.seq = s.seq
  rbuf : t.rbuf = s.rbuf

theorem samePages_frame : Frame SamePages where
  refl _ := ⟨rfl, rfl, rfl⟩
  trans h1 h2 := ⟨h2.cfg.trans h1.cfg, h2.seq.trans h1.seq, h2.rbuf.trans h1.rbuf⟩

theorem samePages_play (s : State) (b : Beat) : SamePages s (play s b) := ⟨play_cfg s b, play_seq s b, play_rbuf s b⟩

theorem samePages_session : SessionFrame (FromIdle SamePages) where
  toWireFrame := fromIdle_wire samePages_frame samePages_play
  progMode _ _ hs := ⟨⟨hs.rx, hs.tx⟩, rfl, rfl, rfl⟩

/-! ## Operations that always answer -/

/-- The operation ends with a value, and leaves a state in relation `R` to the one it started from. -/
def Answers {α : Type} (R : State → State → Prop) (m : Op α) : Prop := ∀ s, ∃ a t, m s = .ok a t ∧ R s t

section
variable {α β : Type} {R S T : State → State → Prop}

theorem answers_tryOp {m : Op α} (hm : Keeps R m) : Answers R (tryOp m) := by
  intro s
  have h := hm s
  cases hs : m s with
  | ok a t => rw [hs] at h; exact ⟨_, t, tryOp_ok hs, h⟩
  | error e t => rw [hs] at h; exact ⟨_, t, tryOp_error hs, h⟩

theorem answers_update {f : State → State} (h : ∀ s, R s (f s)) : Answers R (update f) := fun s => ⟨(), f s, rfl, h s⟩

theorem answers_getThen {f : State → Op α} (h : ∀ s, Answers R (f s)) : Answers R (get >>= f) := fun s => by
  rw [get_bind]
  exact h s s

/-- Two parts in sequence, each with a relation of its own. -/
theorem Answers.andThen {m : Op α} {f : α → Op β} (hm : Answers R m) (hf : ∀ a, Answers S (f a))
    (h : ∀ {s t u}, R s t → S t u → T s u) : Answers T (m >>= f) := by
  intro s
  obtain ⟨a, t, ht, hst⟩ := hm s
  obtain ⟨b, u, hu, htu⟩ := hf a t
  exact ⟨b, u, (bind_ok ht).trans hu, h hst htu⟩

theorem Answers.codeValue {m : Op Int} (hm : Answers R m) (s : State) : R s (endState (codeValue m s)) := by
  obtain ⟨c, t, ht, h⟩ := hm s
  rw [Machine.codeValue, bind_ok ht]
  exact h

end

theorem progress_samePages (pass : Pass) (i n : Nat) : Answers (FromIdle SamePages) (progress pass i n) :=
  answers_update fun s => fromIdle_play samePages_play s (.event pass i n)

/-! ## The chip-erase pass (43_page_sequencer.md R124) -/

/-- From idle datapath registers: no pass runs any more (R124), the rest of `S.seq` and `S.rbuf` as before. -/
def EndsPass (s t : State) : Prop := Idle s → t.seq = { s.seq with pass := .none } ∧ t.rbuf = s.rbuf

theorem endPass_endsPass (c : Int) : Answers EndsPass (endPass c) := fun _ => ⟨c, _, rfl, fun _ => ⟨rfl, rfl⟩⟩

theorem endsPass_after {s t u : State} (h : FromIdle SamePages s t) (h' : EndsPass t u) : EndsPass s u := by
  intro hs
  obtain ⟨ht, hst⟩ := h hs
  obtain ⟨hq, hr⟩ := h' ht
  exact ⟨by rw [hq, hst.seq], hr.trans hst.rbuf⟩

/-- What the chip-erase pass leaves in `S.seq` and `S.rbuf`, whatever the link and the erase did (R24, log 13). -/
theorem passChipErase_started : Answers (fun s t => Idle s → t.seq = seqStarted s ∧ t.rbuf = s.rbuf) passChipErase := by
  have hbegin : Answers (fun s t => t = { s with seq := seqBegun .chipErase s }) (beginPass .chipErase) :=
    answers_update fun _ => rfl
  refine answers_getThen fun _ => hbegin.andThen (S := EndsPass) (fun _ => ?_) ?_
  · refine (progress_samePages _ _ _).andThen (fun _ => ?_) endsPass_after
    refine (answers_tryOp samePages_session.ensureLink).andThen (fun link => ?_) endsPass_after
    cases link with
    | error _ => exact endPass_endsPass _
    | ok _ =>
      refine (answers_tryOp samePages_session.chipErase).andThen (fun r => ?_) endsPass_after
      cases r with
      | error _ => exact endPass_endsPass _
      | ok _ => exact endPass_endsPass _
  · rintro s t u rfl h hs
    exact h ⟨hs.rx, hs.tx⟩

/-! ## The frame of the session operations -/

/-- An accepted operation leaves the state its operation left, with its result delivered (R6). -/
theorem exists_deliver_of_exec {i : Instr} {s t : State} (ha : accepts i s = true) (h : exec i s = .next t) :
    ∃ r, t = deliver r (endState (opOf s.prm i (beginOp s))) := by
  obtain ⟨r, hr⟩ := exists_endOp_eq_deliver (opOf s.prm i (beginOp s))
  exact ⟨r, (exec_accepted ha h).trans hr⟩

theorem busy_of_accepts {i : Instr} {s : State} (ha : accepts i s = true) : s.busy = false := by
  simp only [accepts, Bool.and_eq_true, Bool.not_eq_true'] at ha
  obtain ⟨⟨hb, -⟩, -⟩ := ha
  exact hb

/-- The instructions by what they write: the PHY's opening and closing, the image, the session. -/
theorem instr_groups (i : Instr) :
    i = .phyInit ∨ i = .phyClose ∨ (∃ image fuse, i = .setImage image fuse) ∨
      wireOnly i = true ∨ writesProgMode i = true ∨ passOf i ≠ .none := by
  cases i with
  | phyInit => exact .inl rfl
  | phyClose => exact .inr (.inl rfl)
  | setImage image fuse => exact .inr (.inr (.inl ⟨image, fuse, rfl⟩))
  | linkInit | enterProg | exitProg => exact .inr (.inr (.inr (.inr (.inl rfl))))
  | passChipErase | passBlankCheck | passProgram | passVerify => exact .inr (.inr (.inr (.inr (.inr nofun))))
  | _ => exact .inr (.inr (.inr (.inl rfl)))

/-- The trace of an operation of the wire, of the session, of a pass, run from the port. -/
theorem opOf_traced_of_group (p : Params) {i : Instr} (s : State)
    (hi : wireOnly i = true ∨ writesProgMode i = true ∨ passOf i ≠ .none) :
    Traced (passOf i != .none) (beginOp s) (endState (opOf p i (beginOp s))) := by
  refine opOf_traced p i ?_ ?_ ?_ (beginOp s)
  · rintro rfl
    simp [wireOnly, writesProgMode, passOf] at hi
  · rintro rfl
    simp [wireOnly, writesProgMode, passOf] at hi
  · rintro image fuse rfl
    simp [wireOnly, writesProgMode, passOf] at hi

/-- Settles O58: the trace leaves the state around the session as it was; `S.seq` and `S.rbuf` are written in the passes
alone, and by the chip-erase pass only to start and to end. -/
theorem sessionOperationsChangeTheirOwnFieldsAlone : Obligations.SessionOperationsChangeTheirOwnFieldsAlone := by
  intro i s t hi ha h
  obtain ⟨r, rfl⟩ := exists_deliver_of_exec ha h
  have W : WritesSessionAlone (beginOp s) (endState (opOf s.prm i (beginOp s))) :=
    (opOf_traced_of_group s.prm s (.inr hi)).writesSessionAlone (idle_beginOp s)
  refine ⟨W.cfg, W.prm, W.phyOpen, W.pin, W.bytesUsed, W.fuseImage, (busy_of_accepts ha).symm, W.refused, W.capInits,
    W.hostOps, W.imageByte_eq, fun hm => ?_, fun hp => ?_⟩
  · obtain ⟨-, K⟩ := samePages_session.opOf s.prm (.inr hm) (beginOp s) (idle_beginOp s)
    exact ⟨K.seq, K.rbuf⟩
  · cases i with
    | passChipErase => exact passChipErase_started.codeValue (beginOp s) (idle_beginOp s)
    | _ => cases hp

/-! ## PHY_INIT, PHY_CLOSE, SET_IMAGE -/

/-- PHY_INIT where the pin is granted (40_phy.md R80). -/
theorem phyInit_granted {s : State} (h : nextCapInit s = true) :
    phyInit s = .ok ()
      { s with
        phyOpen := true, pin := some s.cfg.pin, pinDir := .known .input
        capInits := s.capInits.tail, draws := s.draws + 1
        obs := s.obs ++ [.capInit true] ++ [.setDir (some s.cfg.pin) .input] } := by
  simp [phyInit, capInit, setDir, h]

/-- PHY_INIT where it is not (R80). -/
theorem phyInit_denied {s : State} (h : nextCapInit s = false) :
    phyInit s = .error (.ioError .gpioInit)
      { s with
        phyOpen := false, pin := none
        capInits := s.capInits.tail, draws := s.draws + 1, obs := s.obs ++ [.capInit false] } := by
  simp [phyInit, capInit, h]

/-- PHY_CLOSE on an open PHY (R89). -/
theorem phyClose_open {s : State} (h : s.phyOpen = true) :
    phyClose s = .ok ()
      { s with phyOpen := false, pin := none, pinDir := .known .input, obs := s.obs ++ [.setDir s.pin .input] } := by
  simp [phyClose, setDir, h]

/-- PHY_CLOSE on a closed PHY (R89). -/
theorem phyClose_closed {s : State} (h : s.phyOpen = false) : phyClose s = .ok () s := by
  simp [phyClose, h]

/-- SET_IMAGE writes the whole image or nothing (43_page_sequencer.md R121). -/
theorem endState_setImage (image : List Byte) (fuse : Option (List Byte)) (s : State) :
    endState (setImage image fuse s) = s ∨
      image.length ≤ flashBytes s ∧ fuseFits s fuse = true ∧
        endState (setImage image fuse s) = storeImage image fuse s := by
  rw [setImage, get_bind]
  split
  · exact .inl rfl
  · split
    · exact .inr ⟨by omega, ‹_›, rfl⟩
    · exact .inl rfl

theorem endState_unit (m : Op Unit) (s : State) : endState (unit m s) = endState (m s) := by
  rw [unit, bind_apply]
  cases m s <;> rfl

/-! ## What a step can do -/

/-- A step waits, refuses, or runs the operation of an instruction it accepts (R6, R79, R161). -/
theorem step_cases {s t : State} (h : step s = .next t) :
    t = s ∨ ∃ rest, t = refuse { s with hostOps := rest } ∨
      ∃ i r, accepts i { s with hostOps := rest } = true ∧
        t = deliver r (endState (opOf s.prm i (beginOp { s with hostOps := rest }))) := by
  cases hops : s.hostOps with
  | nil =>
    rw [step_of_idle hops, Host.Outcome.next.injEq] at h
    exact .inl h.symm
  | cons w rest =>
    refine .inr ⟨rest, ?_⟩
    cases hdec : decode s.prm w with
    | reject _ =>
      simp only [step, hops, hdec, Host.Outcome.next.injEq] at h
      exact .inl h.symm
    | ok i =>
      rw [step_of_decode hops hdec] at h
      cases ha : accepts i { s with hostOps := rest } with
      | true =>
        obtain ⟨r, hr⟩ := exists_deliver_of_exec ha h
        exact .inr ⟨i, r, ha, hr⟩
      | false =>
        have hs := serve_opOf_of_exec h
        rw [serve, ha, if_neg Bool.false_ne_true, Host.Outcome.next.injEq] at hs
        exact .inl hs.symm

/-! ## What no step writes -/

/-- The configuration, the parameters and `S.refused` are the same (R17, R22, R34). -/
structure SameSettings (s t : State) : Prop where
  cfg : t.cfg = s.cfg
  prm : t.prm = s.prm
  refused : t.refused = s.refused

theorem phyInit_sameSettings (s : State) : SameSettings s (endState (phyInit s)) := by
  cases h : nextCapInit s with
  | true => rw [phyInit_granted h]; exact ⟨rfl, rfl, rfl⟩
  | false => rw [phyInit_denied h]; exact ⟨rfl, rfl, rfl⟩

theorem phyClose_sameSettings (s : State) : SameSettings s (endState (phyClose s)) := by
  cases h : s.phyOpen with
  | true => rw [phyClose_open h]; exact ⟨rfl, rfl, rfl⟩
  | false => rw [phyClose_closed h]; exact ⟨rfl, rfl, rfl⟩

theorem setImage_sameSettings (image : List Byte) (fuse : Option (List Byte)) (s : State) :
    SameSettings s (endState (setImage image fuse s)) := by
  rcases endState_setImage image fuse s with h | ⟨-, -, h⟩
  · rw [h]; exact ⟨rfl, rfl, rfl⟩
  · rw [h]; exact ⟨rfl, rfl, rfl⟩

theorem opOf_sameSettings (p : Params) (i : Instr) (s : State) :
    SameSettings (beginOp s) (endState (opOf p i (beginOp s))) := by
  rcases instr_groups i with rfl | rfl | ⟨image, fuse, rfl⟩ | hi
  · rw [opOf, endState_unit]
    exact phyInit_sameSettings _
  · rw [opOf, endState_unit]
    exact phyClose_sameSettings _
  · rw [opOf, endState_unit]
    exact setImage_sameSettings image fuse _
  · have W := (opOf_traced_of_group p s hi).writesSessionAlone (idle_beginOp s)
    exact ⟨W.cfg, W.prm, W.refused⟩

/-- Settles O59: a step waits, refuses, or runs an operation, which writes no setting and only adds observations. -/
theorem noStepRewritesConfigurationOrHistory : Obligations.NoStepRewritesConfigurationOrHistory := by
  intro s t h
  rcases step_cases h with rfl | ⟨rest, rfl | ⟨i, r, -, rfl⟩⟩
  · exact ⟨rfl, rfl, id, ⟨[], List.append_nil _⟩⟩
  · exact ⟨rfl, rfl, fun _ => rfl, ⟨[], List.append_nil _⟩⟩
  · have S := opOf_sameSettings s.prm i { s with hostOps := rest }
    obtain ⟨o, ho, -⟩ := opOf_addsNoResult s.prm i { s with hostOps := rest }
    refine ⟨S.cfg, S.prm, S.refused.trans, o ++ [.result r], ?_⟩
    rw [deliver_obs, ho, beginOp_obs, List.append_assoc]

end Sys2Proof.Machine
end

section
/-! The invariant of the states between operations (10_state.md R14, R20 to R24): the pin's record follows the calls
observed, the read-back buffer holds at most a page, and no pass runs; kept by every step. -/

namespace Sys2Proof.Machine

open Sys2Proof.Safety

/-! ## The pin's record (R14) -/

theorem lastDir_setDir (o : List Obs) (p : Option Nat) (d : Dir) : lastDir (o ++ [.setDir p d]) = .known d := by
  rw [lastDir, List.foldl_append]
  rfl

theorem lastOut_writeLevel (o : List Obs) (p : Option Nat) (l : Level) :
    lastOut (o ++ [.writeLevel p l]) = .known l := by
  rw [lastOut, List.foldl_append]
  rfl

/-- Calls that set no direction leave the last one set. -/
theorem lastDir_append (o l : List Obs) (h : ∀ p d, Obs.setDir p d ∉ l) : lastDir (o ++ l) = lastDir o := by
  induction l using List.reverseRecOn with
  | nil => rw [List.append_nil]
  | append_singleton l x ih =>
    rw [← ih fun p d hl => h p d (List.mem_append_left _ hl), ← List.append_assoc, lastDir, List.foldl_append]
    cases x with
    | setDir p d => exact absurd (List.mem_append_right l (List.mem_singleton_self _)) (h p d)
    | _ => rfl

/-- Calls that write no level leave the last one written. -/
theorem lastOut_append (o l : List Obs) (h : ∀ p v, Obs.writeLevel p v ∉ l) : lastOut (o ++ l) = lastOut o := by
  induction l using List.reverseRecOn with
  | nil => rw [List.append_nil]
  | append_singleton l x ih =>
    rw [← ih fun p v hl => h p v (List.mem_append_left _ hl), ← List.append_assoc, lastOut, List.foldl_append]
    cases x with
    | writeLevel p v => exact absurd (List.mem_append_right l (List.mem_singleton_self _)) (h p v)
    | _ => rfl

/-- A character ends in stop bits, which are high (30_encoding.md R58). -/
theorem lastOut_character (s : State) (o : List Obs) (b : Byte) :
    lastOut (o ++ (charLevels b).flatMap (slotCalls s)) = .known true := by
  have hlast : charLevels b = ([false] ++ (List.range 8).map (bitOf b) ++ [parity b] ++ [true]) ++ [true] := by
    simp [charLevels]
  have hslot : slotCalls s true = [.writeLevel s.pin true] ++ [.sleep (bitPeriod s)] := rfl
  rw [hlast, List.flatMap_append, List.flatMap_singleton, hslot, ← List.append_assoc, ← List.append_assoc,
    lastOut_append _ _ (by simp), lastOut_writeLevel]

theorem lastOut_characters (s : State) (bytes : List Byte) : ∀ o : List Obs, lastOut o = .known true →
    lastOut (o ++ bytes.flatMap fun b => (charLevels b).flatMap (slotCalls s)) = .known true := by
  induction bytes with
  | nil => exact fun o h => by rw [List.flatMap_nil, List.append_nil, h]
  | cons b bs ih =>
    intro o _
    rw [List.flatMap_cons, ← List.append_assoc]
    exact ih _ (lastOut_character s o b)

theorem lastDir_txCalls (s : State) (o : List Obs) (bytes : List Byte) :
    lastDir (o ++ txCalls s bytes) = .known .output := by
  rw [txCalls, List.cons_append, List.append_cons, lastDir_append _ _ (by simp [slotCalls]), lastDir_setDir]

theorem lastOut_txCalls (s : State) (o : List Obs) (bytes : List Byte) :
    lastOut (o ++ txCalls s bytes) = .known true := by
  rw [txCalls, ← List.append_assoc]
  refine lastOut_characters s bytes _ ?_
  rw [lastOut, List.foldl_append]
  rfl

theorem not_mem_pollCalls (s : State) (k : Nat) {x : Obs} (hr : x ≠ .readLevel s.pin true)
    (hs : x ≠ .sleep (bitPeriod s / s.prm.rxPollDiv)) : x ∉ pollCalls s k := by
  simp [pollCalls, hr, hs]

/-- After its first, the calls of a receive only read and sleep (R83). -/
theorem rxCalls_reads (s : State) (n : Nat) (heard : List Heard) : ∃ l, rxCalls s n heard = .setDir s.pin .input :: l ∧
    (∀ p d, Obs.setDir p d ∉ l) ∧ ∀ p v, Obs.writeLevel p v ∉ l := by
  refine ⟨heard.flatMap (heardCalls s) ++ (if heard.length < n then pollCalls s s.prm.rxPollLimit else []), rfl, ?_, ?_⟩
  · intro p d
    have hpoll : ∀ k, Obs.setDir p d ∉ pollCalls s k := fun k => not_mem_pollCalls s k nofun nofun
    split <;> simp [heardCalls, hpoll]
  · intro p v
    have hpoll : ∀ k, Obs.writeLevel p v ∉ pollCalls s k := fun k => not_mem_pollCalls s k nofun nofun
    split <;> simp [heardCalls, hpoll]

/-- The recorded direction and level are those last set and written (R14). -/
structure PinFollows (s : State) : Prop where
  dir : s.pinDir = lastDir s.obs
  out : s.pinOut = lastOut s.obs

theorem PinFollows.play {s : State} (h : PinFollows s) (b : Beat) : PinFollows (play s b) := by
  cases b with
  | tx bytes => exact ⟨(lastDir_txCalls s s.obs bytes).symm, (lastOut_txCalls s s.obs bytes).symm⟩
  | rx n heard =>
    obtain ⟨l, hl, hdir, hout⟩ := rxCalls_reads s n heard
    refine ⟨?_, ?_⟩
    · simp only [Safety.play]
      rw [hl, List.append_cons, lastDir_append _ _ hdir, lastDir_setDir]
    · simp only [Safety.play]
      rw [hl, lastOut_append _ _ (by simpa using hout)]
      exact h.out
  | db =>
    refine ⟨?_, ?_⟩
    · simp only [Safety.play, lastDir, List.foldl_append]
      rfl
    · simp only [Safety.play, lastOut, List.foldl_append]
      rfl
  | pause us => exact ⟨h.dir.trans (lastDir_append _ _ (by simp)).symm, h.out.trans (lastOut_append _ _ (by simp)).symm⟩
  | event pass i n =>
    exact ⟨h.dir.trans (lastDir_append _ _ (by simp)).symm, h.out.trans (lastOut_append _ _ (by simp)).symm⟩

theorem PinFollows.playAll (bs : List Beat) : ∀ {s : State}, PinFollows s → PinFollows (playAll s bs) := by
  induction bs with
  | nil => exact id
  | cons b bs ih => exact fun h => ih (h.play b)

theorem PinFollows.traced {ev : Bool} {s t : State} (h : PinFollows s) (hs : Idle s) (ht : Traced ev s t) :
    PinFollows t := by
  obtain ⟨bs, -, -, e⟩ := ht hs.rx hs.tx
  have hp := h.playAll bs
  rw [e]
  exact ⟨hp.dir, hp.out⟩

/-! ## The length of a read-back -/

/-- Run from idle datapath registers, a value the operation answers has the property. -/
def Yields {α : Type} (Q : α → Prop) (m : Op α) : Prop := ∀ {s t : State} {a : α}, Idle s → m s = .ok a t → Q a

theorem Yields.after {α β : Type} {Q : β → Prop} {m : Op α} {f : α → Op β} (hm : Keeps (FromIdle SamePages) m)
    (hf : ∀ a, Yields Q (f a)) : Yields Q (m >>= f) := by
  intro s u b hs h
  have hk := hm s hs
  rw [bind_apply] at h
  cases hms : m s with
  | ok a t =>
    rw [hms] at h hk
    exact hf a hk.1 h
  | error e t =>
    rw [hms] at h
    cases h

theorem phyRecv_length (n : Nat) : Yields (fun l => l.length ≤ n) (phyRecv n) := by
  intro s t l hs h
  cases ho : s.phyOpen with
  | true =>
    obtain ⟨heard, ha, e⟩ := phyRecv_total n ho hs.rx
    rw [e] at h
    simp only [answersBeat, rxFits, Bool.and_eq_true, decide_eq_true_eq] at ha
    obtain ⟨⟨hn, -⟩, -⟩ := ha
    cases h
    simpa using hn
  | false =>
    rw [phyRecv_closed n ho] at h
    cases h

theorem readBytes_length (n : Nat) : Yields (fun l => l.length ≤ n) (readBytes n) := by
  intro s t l hs h
  rw [readBytes, bind_apply] at h
  cases hr : phyRecv n s with
  | ok r u =>
    rw [hr] at h
    dsimp only at h
    split at h
    · cases h
    · cases h
      exact phyRecv_length n hs hr
  | error e u =>
    rw [hr] at h
    cases h

theorem burstRead_length (n : Nat) : Yields (fun l => l.length ≤ n) (burstRead n) :=
  have W := samePages_session
  Yields.after (W.checkSize 1 n) fun _ => Yields.after W.get fun _ => Yields.after (W.send _) fun _ =>
    readBytes_length n

/-- A page read back has at most the bytes asked for (R92, R114). -/
theorem pageRead_length (addr : Addr) (n : Nat) : Yields (fun l => l.length ≤ n) (pageRead addr n) :=
  have W := samePages_session
  Yields.after (W.checkSize 2 n) fun _ => Yields.after (W.setPtr _) fun _ => Yields.after (W.repeatOp _) fun _ =>
    burstRead_length n

/-! ## The read-back buffer holds at most a page (R21) -/

/-- The datapath registers are idle and the read-back buffer holds at most a page. -/
structure BufferFits (s : State) : Prop where
  idle : Idle s
  fits : s.rbuf.length ≤ pageBytes s

/-- Where the buffer fitted before, it fits after. -/
def KeepsBuffer (s t : State) : Prop := BufferFits s → BufferFits t

theorem keepsBuffer_frame : Frame KeepsBuffer where
  refl _ := id
  trans h1 h2 hs := h2 (h1 hs)

theorem SamePages.pageBytes_eq {s t : State} (h : SamePages s t) : pageBytes t = pageBytes s :=
  congrArg (fun c : Cfg => c.pageSize.toNat) h.cfg

theorem keepsBuffer_of_samePages {s t : State} (h : FromIdle SamePages s t) : KeepsBuffer s t := by
  intro hs
  obtain ⟨ht, hst⟩ := h hs.idle
  refine ⟨ht, ?_⟩
  rw [hst.rbuf, hst.pageBytes_eq]
  exact hs.fits

/-- A device operation whose failure the pass takes in. -/
theorem tryOp_keepsBuffer {α : Type} {m : Op α} (hm : Keeps (FromIdle SamePages) m) : Answers KeepsBuffer (tryOp m) :=
  answers_tryOp fun s => keepsBuffer_of_samePages (hm s)

section
variable {α β : Type}

theorem buffer_bind {m : Op α} {f : α → Op β} (hm : Answers KeepsBuffer m) (hf : ∀ a, Answers KeepsBuffer (f a)) :
    Answers KeepsBuffer (m >>= f) := hm.andThen hf keepsBuffer_frame.trans

theorem buffer_pure (a : α) : Answers KeepsBuffer (pure a : Op α) := fun s => ⟨a, s, rfl, id⟩

theorem buffer_ite {c : Prop} [Decidable c] {m n : Op α} (hm : Answers KeepsBuffer m) (hn : Answers KeepsBuffer n) :
    Answers KeepsBuffer (if c then m else n) := by
  split
  · exact hm
  · exact hn

/-- A page is read back into the buffer (R126, R131, R136). -/
theorem readBack_keepsBuffer {f : Except Err (List Byte) → Op α} {k : List Byte → Op α}
    (hok : ∀ bytes, f (.ok bytes) = setRbuf bytes >>= fun _ => k bytes)
    (herr : ∀ e, Answers KeepsBuffer (f (.error e))) (hk : ∀ bytes, Answers KeepsBuffer (k bytes)) :
    Answers KeepsBuffer (get >>= fun s => tryOp (pageRead s.seq.addr (pageBytes s)) >>= f) := by
  intro s
  have hread := samePages_session.pageRead s.seq.addr (pageBytes s) s
  rw [get_bind]
  cases hr : pageRead s.seq.addr (pageBytes s) s with
  | error e t =>
    rw [hr] at hread
    obtain ⟨a, u, hu, htu⟩ := herr e t
    exact ⟨a, u, (bind_ok (tryOp_error hr)).trans hu, fun hs => htu (keepsBuffer_of_samePages hread hs)⟩
  | ok bytes t =>
    rw [hr] at hread
    obtain ⟨a, u, hu, htu⟩ := hk bytes { t with rbuf := bytes }
    refine ⟨a, u, (bind_ok (tryOp_ok hr)).trans ?_, fun hs => htu ?_⟩
    · rw [hok]
      exact (bind_ok rfl).trans hu
    · obtain ⟨ht, hst⟩ := hread hs.idle
      exact ⟨⟨ht.rx, ht.tx⟩, (pageRead_length _ _ hs.idle hr).trans_eq hst.pageBytes_eq.symm⟩

end

theorem onSeq_keepsBuffer (f : Seq → Seq) : Answers KeepsBuffer (onSeq f) :=
  answers_update fun _ hs => ⟨⟨hs.idle.rx, hs.idle.tx⟩, hs.fits⟩

theorem setStep_keepsBuffer (step : PageStep) : Answers KeepsBuffer (setStep step) := onSeq_keepsBuffer _

theorem beginPass_keepsBuffer (pass : Pass) : Answers KeepsBuffer (beginPass pass) :=
  answers_update fun _ hs => ⟨⟨hs.idle.rx, hs.idle.tx⟩, hs.fits⟩

theorem startPage_keepsBuffer (p : Nat) : Answers KeepsBuffer (startPage p) :=
  answers_update fun _ hs => ⟨⟨hs.idle.rx, hs.idle.tx⟩, hs.fits⟩

theorem progress_keepsBuffer (pass : Pass) (i n : Nat) : Answers KeepsBuffer (progress pass i n) :=
  answers_update fun s => keepsBuffer_of_samePages (fromIdle_play samePages_play s (.event pass i n))

theorem settle_keepsBuffer : Answers KeepsBuffer settle :=
  answers_getThen fun _ => answers_update fun t =>
    keepsBuffer_of_samePages (fromIdle_play samePages_play t (.pause _))

theorem abortPage_keepsBuffer (c : Int) : Answers KeepsBuffer (abortPage c) :=
  buffer_bind (setStep_keepsBuffer _) fun _ => buffer_pure _

theorem acceptPage_keepsBuffer : Answers KeepsBuffer acceptPage :=
  buffer_bind (setStep_keepsBuffer _) fun _ => buffer_pure _

theorem countLink_keepsBuffer (cap : Nat) : Answers KeepsBuffer (countLink cap) :=
  buffer_bind (setStep_keepsBuffer _) fun _ => buffer_bind (onSeq_keepsBuffer _) fun _ =>
    answers_getThen fun _ => buffer_pure _

theorem countData_keepsBuffer (cap : Nat) : Answers KeepsBuffer (countData cap) :=
  buffer_bind (setStep_keepsBuffer _) fun _ => buffer_bind (onSeq_keepsBuffer _) fun _ =>
    answers_getThen fun _ => buffer_pure _

/-! ## Blank-Check and Verify -/

theorem readPage_keepsBuffer (accept : State → Bool) (linkCap dataCap : Nat) (linkCode dataCode : Int) (fuel : Nat) :
    Answers KeepsBuffer (readPage accept linkCap dataCap linkCode dataCode fuel) := by
  induction fuel with
  | zero => exact abortPage_keepsBuffer _
  | succ fuel ih =>
    have hretry : Answers KeepsBuffer (settle >>= fun _ => setStep .attempt >>= fun _ =>
        readPage accept linkCap dataCap linkCode dataCode fuel) :=
      buffer_bind settle_keepsBuffer fun _ => buffer_bind (setStep_keepsBuffer _) fun _ => ih
    refine readBack_keepsBuffer (fun _ => rfl) (fun _ => ?_) fun _ => ?_
    · refine buffer_bind (countLink_keepsBuffer _) fun _ => buffer_ite (abortPage_keepsBuffer _) ?_
      refine buffer_bind (tryOp_keepsBuffer samePages_session.linkInit) fun link => ?_
      cases link with
      | error _ => exact abortPage_keepsBuffer _
      | ok _ => exact hretry
    · exact answers_getThen fun _ => buffer_ite acceptPage_keepsBuffer
        (buffer_bind (countData_keepsBuffer _) fun _ => buffer_ite (abortPage_keepsBuffer _) hretry)

/-! ## Program -/

theorem attemptWrite_keepsBuffer (p : Nat) : Answers KeepsBuffer (attemptWrite p) := by
  refine answers_getThen fun _ => buffer_ite (buffer_pure _)
    (buffer_bind (tryOp_keepsBuffer (samePages_session.pageWrite _ _)) fun w => ?_)
  cases w with
  | error _ => exact buffer_pure _
  | ok _ => exact buffer_pure _

theorem attempt_keepsBuffer (p : Nat) : Answers KeepsBuffer (attempt p) :=
  buffer_bind (attemptWrite_keepsBuffer p) fun _ => buffer_ite (buffer_pure _)
    (buffer_bind (onSeq_keepsBuffer _) fun _ => readBack_keepsBuffer (fun _ => rfl) (fun _ => buffer_pure _) fun _ =>
      answers_getThen fun _ => buffer_pure _)

theorem relink_keepsBuffer : Answers KeepsBuffer relink := by
  refine answers_getThen fun _ => buffer_bind (tryOp_keepsBuffer samePages_session.linkInit) fun r => ?_
  cases r with
  | error _ => exact buffer_pure _
  | ok _ => exact buffer_bind settle_keepsBuffer fun _ => buffer_pure _

theorem linkRecover_keepsBuffer (skip : Bool) : Answers KeepsBuffer (linkRecover skip) :=
  answers_getThen fun _ => buffer_bind (countLink_keepsBuffer _) fun _ => buffer_ite (buffer_pure _)
    (buffer_bind (onSeq_keepsBuffer _) fun _ => relink_keepsBuffer)

theorem dataRecover_keepsBuffer : Answers KeepsBuffer dataRecover :=
  answers_getThen fun _ => buffer_bind (countData_keepsBuffer _) fun _ => buffer_ite (buffer_pure _) relink_keepsBuffer

theorem escalate_keepsBuffer : Answers KeepsBuffer escalate := by
  refine buffer_bind (setStep_keepsBuffer _) fun _ => buffer_bind (onSeq_keepsBuffer _) fun _ =>
    answers_getThen fun _ => buffer_ite (buffer_pure _)
      (buffer_bind (tryOp_keepsBuffer (samePages_session.pageErase _)) fun r => ?_)
  cases r with
  | error _ => exact buffer_pure _
  | ok _ => exact buffer_bind (onSeq_keepsBuffer _) fun _ => buffer_pure _

theorem blankRecover_keepsBuffer : Answers KeepsBuffer blankRecover := by
  refine buffer_bind (setStep_keepsBuffer _) fun _ => buffer_bind (onSeq_keepsBuffer _) fun _ =>
    answers_getThen fun _ => buffer_ite (buffer_bind escalate_keepsBuffer fun k => ?_) relink_keepsBuffer
  cases k with
  | some c => exact buffer_pure _
  | none => exact relink_keepsBuffer

theorem recover_keepsBuffer (c : AttemptEnd) : Answers KeepsBuffer (recover c) := by
  cases c with
  | success => exact buffer_pure _
  | writeFail => exact linkRecover_keepsBuffer _
  | readFail => exact linkRecover_keepsBuffer _
  | blank => exact blankRecover_keepsBuffer
  | mismatch => exact dataRecover_keepsBuffer

theorem programPage_keepsBuffer (p fuel : Nat) : Answers KeepsBuffer (programPage p fuel) := by
  induction fuel with
  | zero => exact answers_getThen fun _ => abortPage_keepsBuffer _
  | succ fuel ih =>
    refine buffer_bind (attempt_keepsBuffer p) fun _ => buffer_ite acceptPage_keepsBuffer
      (buffer_bind (recover_keepsBuffer _) fun k => ?_)
    cases k with
    | some c => exact abortPage_keepsBuffer c
    | none => exact buffer_bind (setStep_keepsBuffer _) fun _ => ih

/-! ## The walk over the pages: it ends, and no pass runs then (R122, R124) -/

/-- The buffer's invariant is kept and no pass runs. -/
structure WalkEnds (s t : State) : Prop where
  buffer : KeepsBuffer s t
  noPass : t.seq.pass = .none

theorem walkEnds_bind {α β : Type} {m : Op α} {f : α → Op β} (hm : Answers KeepsBuffer m)
    (hf : ∀ a, Answers WalkEnds (f a)) : Answers WalkEnds (m >>= f) :=
  hm.andThen hf fun h h' => ⟨keepsBuffer_frame.trans h h'.buffer, h'.noPass⟩

theorem endPass_walkEnds (c : Int) : Answers WalkEnds (endPass c) :=
  fun _ => ⟨c, _, rfl, fun hs => ⟨⟨hs.idle.rx, hs.idle.tx⟩, hs.fits⟩, rfl⟩

section
variable {page : Nat → Op (Option Int)} (hp : ∀ p, Answers KeepsBuffer (page p))
include hp

theorem walkPages_walkEnds (pass : Pass) (n k : Nat) : ∀ p, Answers WalkEnds (walkPages pass n page k p) := by
  induction k with
  | zero => exact fun p => endPass_walkEnds 0
  | succ k ih =>
    intro p
    refine walkEnds_bind (startPage_keepsBuffer p) fun _ => walkEnds_bind (hp p) fun r => ?_
    cases r with
    | some c => exact endPass_walkEnds c
    | none => exact walkEnds_bind (progress_keepsBuffer _ _ _) fun _ => ih _

theorem walkPass_walkEnds (pass : Pass) (linkCode : Int) (n : Nat) :
    Answers WalkEnds (walkPass pass linkCode n page) := by
  refine walkEnds_bind (beginPass_keepsBuffer pass) fun _ => walkEnds_bind (progress_keepsBuffer _ _ _) fun _ =>
    walkEnds_bind (tryOp_keepsBuffer samePages_session.ensureLink) fun link => ?_
  cases link with
  | error _ => exact endPass_walkEnds _
  | ok _ => exact walkPages_walkEnds hp pass n n 0

end

theorem passBlankCheck_walkEnds : Answers WalkEnds passBlankCheck :=
  answers_getThen fun _ => walkPass_walkEnds (fun _ => readPage_keepsBuffer _ _ _ _ _ _) _ _ _

theorem passVerify_walkEnds : Answers WalkEnds passVerify :=
  answers_getThen fun _ => walkPass_walkEnds (fun _ => readPage_keepsBuffer _ _ _ _ _ _) _ _ _

theorem passProgram_walkEnds : Answers WalkEnds passProgram :=
  answers_getThen fun _ => walkPass_walkEnds (fun _ => programPage_keepsBuffer _ _) _ _ _

theorem passChipErase_walkEnds : Answers WalkEnds passChipErase := by
  refine answers_getThen fun _ => walkEnds_bind (beginPass_keepsBuffer _) fun _ =>
    walkEnds_bind (progress_keepsBuffer _ _ _) fun _ =>
      walkEnds_bind (tryOp_keepsBuffer samePages_session.ensureLink) fun link => ?_
  cases link with
  | error _ => exact endPass_walkEnds _
  | ok _ =>
    refine walkEnds_bind (tryOp_keepsBuffer samePages_session.chipErase) fun r => ?_
    cases r with
    | error _ => exact endPass_walkEnds _
    | ok _ => exact endPass_walkEnds _

/-- Every pass ends (R122, R124, R144). -/
theorem opOf_walkEnds (p : Params) {i : Instr} (hi : passOf i ≠ .none) (s : State) :
    WalkEnds s (endState (opOf p i s)) := by
  cases i with
  | passChipErase => exact passChipErase_walkEnds.codeValue s
  | passBlankCheck => exact passBlankCheck_walkEnds.codeValue s
  | passProgram => exact passProgram_walkEnds.codeValue s
  | passVerify => exact passVerify_walkEnds.codeValue s
  | _ => exact absurd rfl hi

/-! ## The invariant -/

/-- What `sound` says of a state but that no operation runs: it holds before, within and after an operation. -/
structure Consistent (s : State) : Prop where
  pins : PinFollows s
  recorded : pinRecorded s = true
  image : imageSound s = true
  fuse : fuseSound s = true
  noPass : s.seq.pass = .none
  buffer : BufferFits s

theorem sound_iff (s : State) : sound s = true ↔ Consistent s ∧ s.busy = false := by
  simp only [sound, atRest, Bool.and_eq_true, beq_iff_eq, decide_eq_true_eq, Bool.not_eq_true']
  constructor
  · rintro ⟨⟨⟨⟨⟨⟨hdir, hout⟩, hpin⟩, himage⟩, hfuse⟩, ⟨⟨hbusy, hpass⟩, hrx⟩, htx⟩, hrbuf⟩
    exact ⟨⟨⟨hdir, hout⟩, hpin, himage, hfuse, hpass, ⟨hrx, htx⟩, hrbuf⟩, hbusy⟩
  · rintro ⟨⟨⟨hdir, hout⟩, hpin, himage, hfuse, hpass, ⟨hrx, htx⟩, hrbuf⟩, hbusy⟩
    exact ⟨⟨⟨⟨⟨⟨hdir, hout⟩, hpin⟩, himage⟩, hfuse⟩, ⟨⟨hbusy, hpass⟩, hrx⟩, htx⟩, hrbuf⟩

theorem consistent_beginOp {s : State} (C : Consistent s) : Consistent (beginOp s) :=
  ⟨⟨C.pins.dir, C.pins.out⟩, C.recorded, C.image, C.fuse, C.noPass, idle_beginOp s, C.buffer.fits⟩

/-- The host port delivers a result and is free again. -/
theorem Consistent.sound_deliver {s : State} (C : Consistent s) (r : Result) : sound (deliver r s) = true := by
  have hdir : lastDir (s.obs ++ [.result r]) = lastDir s.obs := lastDir_append _ _ (by simp)
  have hout : lastOut (s.obs ++ [.result r]) = lastOut s.obs := lastOut_append _ _ (by simp)
  exact (sound_iff _).2 ⟨⟨⟨C.pins.dir.trans hdir.symm, C.pins.out.trans hout.symm⟩, C.recorded, C.image, C.fuse,
    C.noPass, ⟨C.buffer.idle.rx, C.buffer.idle.tx⟩, C.buffer.fits⟩, rfl⟩

/-! ## Every operation keeps it -/

theorem imageSound_iff (s : State) : imageSound s = true ↔
    memoryWf s = true ∧ s.bytesUsed = (s.flashImage.getLast?.map fun c => c.1 + 1).getD 0 ∧
      s.bytesUsed ≤ flashBytes s := by
  simp only [imageSound, Bool.and_eq_true, beq_iff_eq, decide_eq_true_eq, and_assoc]

/-- What is around the session a traced operation leaves, and the pin's record it keeps. -/
theorem Consistent.traced {ev : Bool} {s t : State} (C : Consistent s) (h : Traced ev s t) (hq : t.seq.pass = .none)
    (hb : BufferFits t) : Consistent t := by
  have W := h.writesSessionAlone C.buffer.idle
  refine ⟨C.pins.traced C.buffer.idle h, ?_, ?_, ?_, hq, hb⟩
  · rw [← C.recorded, pinRecorded, W.pin, W.phyOpen, W.cfg, pinRecorded]
  · obtain ⟨hwf, hmark, hsize⟩ := (imageSound_iff s).1 C.image
    refine (imageSound_iff t).2 ⟨?_, ?_, ?_⟩
    · rw [h.memoryWf C.buffer.idle.rx C.buffer.idle.tx, hwf]
    · rw [W.bytesUsed, W.flashImage, hmark]
    · rw [W.bytesUsed, flashBytes, W.cfg]
      exact hsize
  · rw [← C.fuse]
    simp only [fuseSound, fuseFits, W.fuseImage, W.cfg]

theorem Consistent.phyInit {s : State} (C : Consistent s) : Consistent (endState (phyInit s)) := by
  cases h : nextCapInit s with
  | true =>
    rw [phyInit_granted h]
    refine ⟨⟨(lastDir_setDir _ _ _).symm, ?_⟩, ?_, C.image, C.fuse, C.noPass,
      ⟨C.buffer.idle.rx, C.buffer.idle.tx⟩, C.buffer.fits⟩
    · exact C.pins.out.trans ((lastOut_append _ _ (by simp)).trans (lastOut_append _ _ (by simp))).symm
    · simp [pinRecorded]
  | false =>
    rw [phyInit_denied h]
    refine ⟨⟨?_, ?_⟩, rfl, C.image, C.fuse, C.noPass, ⟨C.buffer.idle.rx, C.buffer.idle.tx⟩, C.buffer.fits⟩
    · exact C.pins.dir.trans (lastDir_append _ _ (by simp)).symm
    · exact C.pins.out.trans (lastOut_append _ _ (by simp)).symm

theorem Consistent.phyClose {s : State} (C : Consistent s) : Consistent (endState (phyClose s)) := by
  cases h : s.phyOpen with
  | true =>
    rw [phyClose_open h]
    exact ⟨⟨(lastDir_setDir _ _ _).symm, C.pins.out.trans (lastOut_append _ _ (by simp)).symm⟩, rfl, C.image, C.fuse,
      C.noPass, ⟨C.buffer.idle.rx, C.buffer.idle.tx⟩, C.buffer.fits⟩
  | false =>
    rw [phyClose_closed h]
    exact C

/-- A whole image within the flash is canonical, its watermark one past its last cell (R20, R121). -/
theorem imageSound_storeImage {image : List Byte} (fuse : Option (List Byte)) {s : State}
    (h : image.length ≤ flashBytes s) : imageSound (storeImage image fuse s) = true := by
  have hused : imageUsed (unlistedByte s.prm) 0 0 image ≤ 0 + image.length := imageUsed_le image 0 0 (Nat.zero_le _)
  rw [Nat.zero_add] at hused
  exact (imageSound_iff _).2 ⟨memoryWf_storeImage image fuse s, imageUsed_eq image 0 0, hused.trans h⟩

theorem Consistent.setImage {s : State} (C : Consistent s) (image : List Byte) (fuse : Option (List Byte)) :
    Consistent (endState (setImage image fuse s)) := by
  rcases endState_setImage image fuse s with h | ⟨hsize, hfuse, h⟩
  · rw [h]
    exact C
  · rw [h]
    exact ⟨⟨C.pins.dir, C.pins.out⟩, C.recorded, imageSound_storeImage fuse hsize, hfuse, C.noPass,
      ⟨C.buffer.idle.rx, C.buffer.idle.tx⟩, C.buffer.fits⟩

/-- The operation of every instruction, run from the port. -/
theorem Consistent.opOf {s : State} (C : Consistent (beginOp s)) (p : Params) (i : Instr) :
    Consistent (endState (opOf p i (beginOp s))) := by
  rcases instr_groups i with rfl | rfl | ⟨image, fuse, rfl⟩ | hi
  · rw [Machine.opOf, endState_unit]
    exact C.phyInit
  · rw [Machine.opOf, endState_unit]
    exact C.phyClose
  · rw [Machine.opOf, endState_unit]
    exact C.setImage image fuse
  · have htrace := opOf_traced_of_group p s hi
    rcases or_assoc.2 hi with hwire | hpass
    · have K := samePages_session.opOf p hwire (beginOp s)
      obtain ⟨-, hsame⟩ := K C.buffer.idle
      exact C.traced htrace (by rw [hsame.seq]; exact C.noPass) (keepsBuffer_of_samePages K C.buffer)
    · have E := opOf_walkEnds p hpass (beginOp s)
      exact C.traced htrace E.noPass (E.buffer C.buffer)

/-- Settles O54: a step waits, refuses, or runs an operation; none of them breaks the invariant. -/
theorem everyStepKeepsTheStateSound : Obligations.EveryStepKeepsTheStateSound := by
  intro s t hs h
  rcases step_cases h with rfl | ⟨rest, rfl | ⟨i, r, -, rfl⟩⟩
  · exact hs
  · exact hs
  · have hrest : sound { s with hostOps := rest } = true := hs
    obtain ⟨C, -⟩ := (sound_iff _).1 hrest
    exact ((consistent_beginOp C).opOf s.prm i).sound_deliver r

end Sys2Proof.Machine
end

section
/-! KEY, the host operation and its frame (41_link.md R102): on an open PHY its two sends, on a closed one the error of
the first. -/

namespace Sys2Proof.Machine

open Sys2Proof.Safety

/-- Both forms of KEY run the same operation at the host port. -/
theorem exec_of_isKey {i : Instr} {k : List Byte} (hi : i = .key k ∨ i = .keyFrame k) (s : State) :
    exec i s = serve i (unit (sendKey k)) s := by
  rcases hi with rfl | rfl
  · rfl
  · rfl

/-- On a closed PHY the first send fails, and nothing is written (R90, R102). -/
theorem sendKey_closed {s : State} (ho : s.phyOpen = false) (k : List Byte) :
    sendKey k s = .error (.ioError .closed) s := by
  rw [sendKey, get_bind]
  exact bind_error (phySend_closed _ ho)

/-- Settles O27: both forms of KEY are one operation, told by whether the PHY is open. -/
theorem keyIsSentReversed : Obligations.KeyIsSentReversed := by
  intro s k i hi ha
  rw [exec_of_isKey hi]
  refine ⟨fun ho => ?_, fun ho => ?_⟩
  · exact serve_ok ha (unit_ok (sendKey_eq (listening_beginOp ho) k))
  · exact serve_error ha (unit_error (sendKey_closed (s := beginOp s) ho k))

end Sys2Proof.Machine
end

section
/-! Host words (30_encoding.md R76, R79): what each argument reader accepts, row by row what the decoder reads, and what
it rejects by name. -/

namespace Sys2Proof

open Sys2Proof.Safety

/-! ## Sequencing -/

@[simp] theorem bind_decoded_ok {α β : Type} (a : α) (f : α → Decoded β) : (Decoded.ok a).bind f = f a := rfl

@[simp] theorem bind_decoded_reject {α β : Type} (r : Reject) (f : α → Decoded β) :
    (Decoded.reject r : Decoded α).bind f = .reject r := rfl

theorem bind_decoded_eq_ok {α β : Type} {d : Decoded α} {f : α → Decoded β} {b : β} :
    d.bind f = .ok b ↔ ∃ a, d = .ok a ∧ f a = .ok b := by
  cases d with
  | ok a => simp
  | reject r => simp

/-! ## Numbers and byte lists -/

/-- A number read into a word of `w` bits, `m` the word's largest value, is that word's value. -/
theorem ranged_eq_ok {w m n : Nat} {r : Reject} {a : BitVec w} (hm : m + 1 = 2 ^ w) :
    (if n ≤ m then Decoded.ok (BitVec.ofNat w n) else .reject r) = .ok a ↔ a.toNat = n := by
  have ha : a.toNat < 2 ^ w := a.isLt
  split
  case isTrue h =>
    rw [Decoded.ok.injEq, ← BitVec.toNat_inj, BitVec.toNat_ofNat, Nat.mod_eq_of_lt (by omega)]
    exact eq_comm
  case isFalse h => exact ⟨by simp, fun e => absurd e (by omega)⟩

theorem exists_ranged_eq_ok {w m n : Nat} {r : Reject} :
    (∃ a, (if n ≤ m then Decoded.ok (BitVec.ofNat w n) else .reject r) = .ok a) ↔ decide (n ≤ m) = true := by
  split
  case isTrue h => simp [h]
  case isFalse h => simp [h]

theorem toByte_eq_ok {n : Nat} {b : Byte} : toByte n = .ok b ↔ b.toNat = n := ranged_eq_ok rfl

theorem toByte_reject {n : Nat} (h : 0xFF < n) : toByte n = .reject (.byteRange n) := if_neg (by omega)

theorem toBytes_eq_ok {ns : List Nat} : ∀ {bs : List Byte}, toBytes ns = .ok bs ↔ bs.map BitVec.toNat = ns := by
  induction ns with
  | nil =>
    intro bs
    rw [toBytes, Decoded.ok.injEq, List.map_eq_nil_iff]
    exact eq_comm
  | cons n ns ih =>
    intro bs
    simp only [toBytes, bind_decoded_eq_ok, toByte_eq_ok, ih, Decoded.ok.injEq, List.map_eq_cons_iff]
    exact ⟨fun ⟨b, hb, l, hl, e⟩ => ⟨b, l, e.symm, hb, hl⟩, fun ⟨b, l, e, hb, hl⟩ => ⟨b, hb, l, hl, e.symm⟩⟩

theorem exists_toBytes_eq_ok (ns : List Nat) : (∃ bs, toBytes ns = .ok bs) ↔ allBytes ns = true := by
  induction ns with
  | nil => simp [toBytes, allBytes]
  | cons n ns ih =>
    have hn : (∃ b, toByte n = .ok b) ↔ decide (n ≤ 0xFF) = true := exists_ranged_eq_ok
    rw [allBytes, List.all_cons, Bool.and_eq_true, ← hn, ← allBytes, ← ih]
    simp only [toBytes, bind_decoded_eq_ok, Decoded.ok.injEq]
    exact ⟨fun ⟨_, b, hb, l, hl, _⟩ => ⟨⟨b, hb⟩, l, hl⟩, fun ⟨⟨b, hb⟩, l, hl⟩ => ⟨_, b, hb, l, hl, rfl⟩⟩

/-- The first number of a list that is no byte is the one named. -/
theorem toBytes_reject {pre : List Nat} (post : List Nat) {b : Nat} (hpre : allBytes pre = true) (hb : 0xFF < b) :
    toBytes (pre ++ b :: post) = .reject (.byteRange b) := by
  induction pre with
  | nil => simp [toBytes, toByte_reject hb]
  | cons n ns ih =>
    rw [allBytes, List.all_cons, Bool.and_eq_true, ← allBytes] at hpre
    obtain ⟨x, hx⟩ := exists_ranged_eq_ok.2 hpre.1
    rw [List.cons_append, toBytes, ih hpre.2, toByte, hx]
    rfl

/-! ## Arguments -/

/-- A reader `f` of one argument kind and the form `g` in which its values are written: what it reads is written back, and
it reads just what fits the kind. -/
structure Reads {α : Type} (p : Params) (kind : ArgKind) (f : Arg → Decoded α) (g : α → Arg) : Prop where
  written : ∀ {x a}, f x = .ok a → g a = x
  readable : ∀ x, (∃ a, f x = .ok a) ↔ argFits p kind x = true

variable {p : Params}

theorem argCs_eq_ok {x : Arg} {a : CsAddr} : argCs x = .ok a ↔ numArg a = x := by
  cases x with
  | num n => exact (ranged_eq_ok rfl).trans (by simp [numArg])
  | bytes l => simp [argCs, numArg]
  | absent => simp [argCs, numArg]

theorem argByte_eq_ok {x : Arg} {b : Byte} : argByte x = .ok b ↔ numArg b = x := by
  cases x with
  | num n => exact (ranged_eq_ok rfl).trans (by simp [numArg])
  | bytes l => simp [argByte, numArg]
  | absent => simp [argByte, numArg]

theorem argAddr_eq_ok {x : Arg} {a : Addr} : argAddr x = .ok a ↔ numArg a = x := by
  cases x with
  | num n => exact (ranged_eq_ok rfl).trans (by simp [numArg])
  | bytes l => simp [argAddr, numArg]
  | absent => simp [argAddr, numArg]

theorem argNat_eq_ok {x : Arg} {n : Nat} : argNat x = .ok n ↔ .num n = x := by
  cases x with
  | num m => simp [argNat, eq_comm]
  | bytes l => simp [argNat]
  | absent => simp [argNat]

theorem argBytes_eq_ok {x : Arg} {l : List Byte} : argBytes x = .ok l ↔ bytesArg l = x := by
  cases x with
  | num n => simp [argBytes, bytesArg]
  | bytes ns => exact toBytes_eq_ok.trans (by simp [bytesArg])
  | absent => simp [argBytes, bytesArg]

theorem argFuse_eq_ok {x : Arg} {fuse : Option (List Byte)} : argFuse x = .ok fuse ↔ fuseArg fuse = x := by
  cases x with
  | num n => cases fuse <;> simp [argFuse, fuseArg, bytesArg]
  | bytes ns => cases fuse <;> simp [argFuse, fuseArg, bytesArg, bind_decoded_eq_ok, toBytes_eq_ok]
  | absent => cases fuse <;> simp [argFuse, fuseArg, bytesArg]

/-- The reader of KEY's argument (R79). -/
def argKey (p : Params) (x : Arg) : Decoded (List Byte) := (argBytes x).bind (checkKey p)

theorem checkKey_eq_ok {k l : List Byte} : checkKey p k = .ok l ↔ k = l ∧ k.length = p.keyLen := by
  simp only [checkKey]
  split
  case isTrue h => simp [h]
  case isFalse h => simp [h]

theorem argKey_eq_ok {x : Arg} {k : List Byte} : argKey p x = .ok k ↔ bytesArg k = x ∧ k.length = p.keyLen := by
  simp only [argKey, bind_decoded_eq_ok, argBytes_eq_ok, checkKey_eq_ok]
  exact ⟨fun ⟨_, hx, e, hn⟩ => e ▸ ⟨hx, hn⟩, fun ⟨hx, hn⟩ => ⟨k, hx, rfl, hn⟩⟩

theorem reads_cs : Reads p .cs argCs numArg where
  written := argCs_eq_ok.1
  readable
    | .num _ => exists_ranged_eq_ok
    | .bytes _ => by simp [argCs, argFits]
    | .absent => by simp [argCs, argFits]

theorem reads_byte : Reads p .byte argByte numArg where
  written := argByte_eq_ok.1
  readable
    | .num _ => exists_ranged_eq_ok
    | .bytes _ => by simp [argByte, argFits]
    | .absent => by simp [argByte, argFits]

theorem reads_addr : Reads p .addr argAddr numArg where
  written := argAddr_eq_ok.1
  readable
    | .num _ => exists_ranged_eq_ok
    | .bytes _ => by simp [argAddr, argFits]
    | .absent => by simp [argAddr, argFits]

theorem reads_nat : Reads p .nat argNat .num where
  written := argNat_eq_ok.1
  readable
    | .num _ => by simp [argNat, argFits]
    | .bytes _ => by simp [argNat, argFits]
    | .absent => by simp [argNat, argFits]

theorem reads_bytes : Reads p .bytes argBytes bytesArg where
  written := argBytes_eq_ok.1
  readable
    | .num _ => by simp [argBytes, argFits]
    | .bytes l => exists_toBytes_eq_ok l
    | .absent => by simp [argBytes, argFits]

theorem reads_key : Reads p .key (argKey p) bytesArg where
  written h := (argKey_eq_ok.1 h).1
  readable
    | .num _ => by simp [argKey, argBytes, argFits]
    | .bytes ns => by
      simp only [argFits, Bool.and_eq_true, beq_iff_eq, argKey_eq_ok, ← exists_toBytes_eq_ok, toBytes_eq_ok, bytesArg,
        Arg.bytes.injEq]
      constructor
      · rintro ⟨k, rfl, hk⟩
        exact ⟨⟨k, rfl⟩, by simpa using hk⟩
      · rintro ⟨⟨k, rfl⟩, hk⟩
        exact ⟨k, rfl, by simpa using hk⟩
    | .absent => by simp [argKey, argBytes, argFits]

theorem reads_fuse : Reads p .fuse argFuse fuseArg where
  written := argFuse_eq_ok.1
  readable
    | .num _ => by simp [argFuse, argFits]
    | .bytes l => by
      simp only [argFuse, argFits, bind_decoded_eq_ok, Decoded.ok.injEq, ← exists_toBytes_eq_ok]
      exact ⟨fun ⟨_, bs, h, _⟩ => ⟨bs, h⟩, fun ⟨bs, h⟩ => ⟨some bs, bs, h, rfl⟩⟩
    | .absent => by simp [argFuse, argFits]

/-! ## Argument lists -/

section
variable {α β : Type} {f : Arg → Decoded α} {g : Arg → Decoded β} {x y : Arg} {a : α} {b : β} {r : Reject}

theorem args0_eq_ok {i j : Instr} {args : List Arg} : args0 i args = .ok j ↔ args = [] ∧ i = j := by
  cases args with
  | nil => simp [args0]
  | cons x xs => simp [args0]

theorem args1_eq_ok {mk : α → Instr} {args : List Arg} {i : Instr} :
    args1 f mk args = .ok i ↔ ∃ x a, args = [x] ∧ f x = .ok a ∧ mk a = i := by
  match args with
  | [] => simp [args1]
  | [x] => simp [args1, bind_decoded_eq_ok]
  | _ :: _ :: _ => simp [args1]

theorem args2_eq_ok {mk : α → β → Instr} {args : List Arg} {i : Instr} :
    args2 f g mk args = .ok i ↔ ∃ x y a b, args = [x, y] ∧ f x = .ok a ∧ g y = .ok b ∧ mk a b = i := by
  match args with
  | [] => simp [args2]
  | [_] => simp [args2]
  | [x, y] => simp [args2, bind_decoded_eq_ok]
  | _ :: _ :: _ :: _ => simp [args2]

theorem args1_ok (mk : α → Instr) (h : f x = .ok a) : args1 f mk [x] = .ok (mk a) := by
  rw [args1, h, bind_decoded_ok]

theorem args2_ok (mk : α → β → Instr) (hf : f x = .ok a) (hg : g y = .ok b) : args2 f g mk [x, y] = .ok (mk a b) := by
  rw [args2, hf, bind_decoded_ok, hg, bind_decoded_ok]

theorem args1_reject (mk : α → Instr) (h : f x = .reject r) : args1 f mk [x] = .reject r := by
  rw [args1, h, bind_decoded_reject]

/-- The first argument is read first. -/
theorem args2_reject_left (mk : α → β → Instr) (y : Arg) (h : f x = .reject r) : args2 f g mk [x, y] = .reject r := by
  rw [args2, h, bind_decoded_reject]

theorem args2_reject_right (mk : α → β → Instr) (hf : f x = .ok a) (hg : g y = .reject r) :
    args2 f g mk [x, y] = .reject r := by
  rw [args2, hf, bind_decoded_ok, hg, bind_decoded_reject]

end

/-! ## The rows of R76 -/

/-- A row of R76: what the decoder reads under its code is written back as the word read, and it reads just the legal
words. -/
structure HostRow (p : Params) (code : Nat) : Prop where
  written : ∀ {args i}, decode p (.op code args) = .ok i → encode p i = .op code args
  readable : ∀ args, (∃ i, decode p (.op code args) = .ok i) ↔ legalHostWord p code args = true

theorem legalHostWord_of_kinds {code : Nat} {kinds : List ArgKind} (h : hostArgs code = some kinds) (args : List Arg) :
    legalHostWord p code args = true ↔
      args.length = kinds.length ∧ ((kinds.zip args).all fun x => argFits p x.1 x.2) = true := by
  rw [legalHostWord, h]
  simp only [Bool.and_eq_true, beq_iff_eq]

/-- A row with no argument. -/
theorem hostRow0 {code : Nat} {i : Instr} (hkinds : hostArgs code = some [])
    (hread : ∀ args, decode p (.op code args) = args0 i args) (hwrite : encode p i = .op code []) : HostRow p code where
  written h := by
    rw [hread, args0_eq_ok] at h
    obtain ⟨rfl, rfl⟩ := h
    exact hwrite
  readable args := by
    simp only [hread, args0_eq_ok, legalHostWord_of_kinds hkinds]
    simp

/-- A row with one argument. -/
theorem hostRow1 {code : Nat} {α : Type} {kind : ArgKind} {f : Arg → Decoded α} {g : α → Arg} {mk : α → Instr}
    (F : Reads p kind f g) (hkinds : hostArgs code = some [kind])
    (hread : ∀ args, decode p (.op code args) = args1 f mk args) (hwrite : ∀ a, encode p (mk a) = .op code [g a]) :
    HostRow p code where
  written h := by
    rw [hread, args1_eq_ok] at h
    obtain ⟨x, a, rfl, hx, rfl⟩ := h
    rw [hwrite, F.written hx]
  readable args := by
    simp only [hread, args1_eq_ok, legalHostWord_of_kinds hkinds]
    constructor
    · rintro ⟨-, x, a, rfl, hx, -⟩
      simpa using (F.readable x).1 ⟨a, hx⟩
    · rintro ⟨hlen, hfit⟩
      obtain ⟨x, rfl⟩ := List.length_eq_one_iff.1 hlen
      obtain ⟨a, hx⟩ := (F.readable x).2 (by simpa using hfit)
      exact ⟨_, x, a, rfl, hx, rfl⟩

/-- A row with two arguments. -/
theorem hostRow2 {code : Nat} {α β : Type} {kind kind' : ArgKind} {f : Arg → Decoded α} {f' : Arg → Decoded β}
    {g : α → Arg} {g' : β → Arg} {mk : α → β → Instr} (F : Reads p kind f g) (F' : Reads p kind' f' g')
    (hkinds : hostArgs code = some [kind, kind']) (hread : ∀ args, decode p (.op code args) = args2 f f' mk args)
    (hwrite : ∀ a b, encode p (mk a b) = .op code [g a, g' b]) : HostRow p code where
  written h := by
    rw [hread, args2_eq_ok] at h
    obtain ⟨x, y, a, b, rfl, hx, hy, rfl⟩ := h
    rw [hwrite, F.written hx, F'.written hy]
  readable args := by
    simp only [hread, args2_eq_ok, legalHostWord_of_kinds hkinds]
    constructor
    · rintro ⟨-, x, y, a, b, rfl, hx, hy, -⟩
      simpa using And.intro ((F.readable x).1 ⟨a, hx⟩) ((F'.readable y).1 ⟨b, hy⟩)
    · rintro ⟨hlen, hfit⟩
      obtain ⟨x, y, rfl⟩ := List.length_eq_two.1 hlen
      have hfit' : argFits p kind x = true ∧ argFits p kind' y = true := by simpa using hfit
      obtain ⟨a, hx⟩ := (F.readable x).2 hfit'.1
      obtain ⟨b, hy⟩ := (F'.readable y).2 hfit'.2
      exact ⟨_, x, y, a, b, rfl, hx, hy, rfl⟩

/-- The table of R76. -/
theorem hostRow_of_hostArgs {code : Nat} {kinds : List ArgKind} (h : hostArgs code = some kinds) : HostRow p code := by
  unfold hostArgs at h
  split at h
  · exact hostRow0 (code := 0x01) rfl (fun _ => rfl) rfl
  · exact hostRow1 (code := 0x02) reads_bytes rfl (fun _ => rfl) fun _ => rfl
  · exact hostRow1 (code := 0x03) reads_nat rfl (fun _ => rfl) fun _ => rfl
  · exact hostRow0 (code := 0x04) rfl (fun _ => rfl) rfl
  · exact hostRow0 (code := 0x05) rfl (fun _ => rfl) rfl
  · exact hostRow1 (code := 0x10) reads_cs rfl (fun _ => rfl) fun _ => rfl
  · exact hostRow2 (code := 0x11) reads_cs reads_byte rfl (fun _ => rfl) fun _ _ => rfl
  · exact hostRow1 (code := 0x12) reads_addr rfl (fun _ => rfl) fun _ => rfl
  · exact hostRow2 (code := 0x13) reads_addr reads_byte rfl (fun _ => rfl) fun _ _ => rfl
  · exact hostRow1 (code := 0x14) reads_addr rfl (fun _ => rfl) fun _ => rfl
  · exact hostRow1 (code := 0x15) reads_nat rfl (fun _ => rfl) fun _ => rfl
  · exact hostRow1 (code := 0x16) reads_bytes rfl (fun _ => rfl) fun _ => rfl
  · exact hostRow1 (code := 0x17) reads_nat rfl (fun _ => rfl) fun _ => rfl
  · exact hostRow1 (code := 0x18) reads_key rfl (fun _ => rfl) fun _ => rfl
  · exact hostRow0 (code := 0x19) rfl (fun _ => rfl) rfl
  · exact hostRow0 (code := 0x20) rfl (fun _ => rfl) rfl
  · exact hostRow0 (code := 0x21) rfl (fun _ => rfl) rfl
  · exact hostRow0 (code := 0x22) rfl (fun _ => rfl) rfl
  · exact hostRow0 (code := 0x23) rfl (fun _ => rfl) rfl
  · exact hostRow1 (code := 0x24) reads_byte rfl (fun _ => rfl) fun _ => rfl
  · exact hostRow0 (code := 0x25) rfl (fun _ => rfl) rfl
  · exact hostRow2 (code := 0x26) reads_addr reads_bytes rfl (fun _ => rfl) fun _ _ => rfl
  · exact hostRow2 (code := 0x27) reads_addr reads_nat rfl (fun _ => rfl) fun _ _ => rfl
  · exact hostRow1 (code := 0x28) reads_addr rfl (fun _ => rfl) fun _ => rfl
  · exact hostRow2 (code := 0x30) reads_bytes reads_fuse rfl (fun _ => rfl) fun _ _ => rfl
  · exact hostRow0 (code := 0x31) rfl (fun _ => rfl) rfl
  · exact hostRow0 (code := 0x32) rfl (fun _ => rfl) rfl
  · exact hostRow0 (code := 0x33) rfl (fun _ => rfl) rfl
  · exact hostRow0 (code := 0x34) rfl (fun _ => rfl) rfl
  · cases h

/-- A code not in R76 is rejected whatever the arguments. -/
theorem decode_unknownCode {code : Nat} (h : hostArgs code = none) (args : List Arg) :
    decode p (.op code args) = .reject (.unknownCode code) := by
  rw [decode]
  unfold decodeHost
  split
  case h_30 => rfl
  all_goals cases h

/-- Settles O2: the code is one of R76, and its row writes back what it reads. -/
theorem encodeOfDecodedHostWordIsTheWord : Obligations.EncodeOfDecodedHostWordIsTheWord := by
  intro p code args i h
  cases hk : hostArgs code with
  | none =>
    rw [decode_unknownCode hk] at h
    cases h
  | some kinds => exact (hostRow_of_hostArgs hk).written h

theorem exists_decode_iff_legalHostWord (code : Nat) (args : List Arg) :
    (∃ i, decode p (.op code args) = .ok i) ↔ legalHostWord p code args = true := by
  cases hk : hostArgs code with
  | none => simp [decode_unknownCode hk, legalHostWord, hk]
  | some kinds => exact (hostRow_of_hostArgs hk).readable args

/-! ## Named rejections -/

theorem argCs_reject {a : Nat} (h : 0xF < a) : argCs (.num a) = .reject (.csAddressRange a) := if_neg (by omega)

theorem argAddr_reject {a : Nat} (h : 0xFFFF < a) : argAddr (.num a) = .reject (.addressRange a) := if_neg (by omega)

theorem argCs_ok {a : Nat} (h : a ≤ 0xF) : argCs (.num a) = .ok (BitVec.ofNat 4 a) := if_pos h

theorem argAddr_ok {a : Nat} (h : a ≤ 0xFFFF) : argAddr (.num a) = .ok (BitVec.ofNat 16 a) := if_pos h

theorem argKey_reject {k : List Nat} (hk : allBytes k = true) (hlen : k.length ≠ p.keyLen) :
    argKey p (.bytes k) = .reject (.keyLength k.length) := by
  obtain ⟨l, hl⟩ := (exists_toBytes_eq_ok k).2 hk
  have hn : l.length = k.length := by rw [← toBytes_eq_ok.1 hl, List.length_map]
  rw [argKey, argBytes, hl, bind_decoded_ok, checkKey, hn, if_neg hlen]

theorem decode_cs_reject {a : Nat} (h : 0xF < a) (x : Arg) :
    decode p (.op 0x10 [.num a]) = .reject (.csAddressRange a) ∧
      decode p (.op 0x11 [.num a, x]) = .reject (.csAddressRange a) :=
  ⟨args1_reject .ldcs (argCs_reject h), args2_reject_left .stcs x (argCs_reject h)⟩

theorem decode_addr_reject {a : Nat} (h : 0xFFFF < a) (x : Arg) :
    (∀ code ∈ [0x12, 0x14, 0x28], decode p (.op code [.num a]) = .reject (.addressRange a)) ∧
      ∀ code ∈ [0x13, 0x26, 0x27], decode p (.op code [.num a, x]) = .reject (.addressRange a) := by
  have ha := argAddr_reject h
  simp only [List.forall_mem_cons, List.not_mem_nil, false_implies, implies_true, and_true]
  exact ⟨⟨args1_reject .lds ha, args1_reject .setPtr ha, args1_reject .pageErase ha⟩,
    args2_reject_left .sts x ha, args2_reject_left .pageWrite x ha, args2_reject_left .pageRead x ha⟩

theorem decode_byte_reject {v : Nat} (h : 0xFF < v) (a : Nat) :
    decode p (.op 0x24 [.num v]) = .reject (.byteRange v) ∧
      (a ≤ 0xF → decode p (.op 0x11 [.num a, .num v]) = .reject (.byteRange v)) ∧
      (a ≤ 0xFFFF → decode p (.op 0x13 [.num a, .num v]) = .reject (.byteRange v)) :=
  ⟨args1_reject .execNvmCmd (toByte_reject h), fun ha => args2_reject_right .stcs (argCs_ok ha) (toByte_reject h),
    fun ha => args2_reject_right .sts (argAddr_ok ha) (toByte_reject h)⟩

/-- A list with a number that is no byte, for every operation that takes a list. -/
theorem decode_bytes_reject {l : List Nat} {r : Reject} (h : toBytes l = .reject r) :
    (∀ code ∈ [0x02, 0x16, 0x18], decode p (.op code [.bytes l]) = .reject r) ∧
      (∀ a, a ≤ 0xFFFF → decode p (.op 0x26 [.num a, .bytes l]) = .reject r) ∧
      (∀ x, decode p (.op 0x30 [.bytes l, x]) = .reject r) ∧
      ∀ image, allBytes image = true → decode p (.op 0x30 [.bytes image, .bytes l]) = .reject r := by
  have hkey : argKey p (.bytes l) = .reject r := by rw [argKey, argBytes, h, bind_decoded_reject]
  have hfuse : argFuse (.bytes l) = .reject r := by rw [argFuse, h, bind_decoded_reject]
  refine ⟨?_, fun a ha => args2_reject_right .pageWrite (argAddr_ok ha) h, fun x => args2_reject_left .setImage x h,
    fun image himage => ?_⟩
  · simp only [List.forall_mem_cons, List.not_mem_nil, false_implies, implies_true, and_true]
    exact ⟨args1_reject .phySend h, args1_reject .burstWrite h, args1_reject .key hkey⟩
  · obtain ⟨bs, hbs⟩ := (exists_toBytes_eq_ok image).2 himage
    exact args2_reject_right .setImage hbs hfuse

theorem step_of_reject {s : Machine.State} {w : PortWord} {rest : List PortWord} {r : Reject}
    (hops : s.hostOps = w :: rest) (hdec : decode s.prm w = .reject r) :
    Machine.step s = .next (Machine.refuse { s with hostOps := rest }) := by
  simp only [Machine.step, hops, hdec]

/-- Settles O8: a step refuses what the decoder rejects, the rows of R76 read just the legal words, and each reader names
what is out of its range. -/
theorem illTypedHostOperationsAreRefused : Obligations.IllTypedHostOperationsAreRefused :=
  ⟨fun _ _ _ _ hops hdec => step_of_reject hops hdec,
    fun _ code args => exists_decode_iff_legalHostWord code args,
    fun _ _ args h => decode_unknownCode h args,
    fun _ _ x h => decode_cs_reject h x,
    fun _ _ x h => decode_addr_reject h x,
    fun _ a _ h => decode_byte_reject h a,
    fun _ _ post _ hpre hb => decode_bytes_reject (toBytes_reject post hpre hb),
    fun _ _ hk hlen => args1_reject .key (argKey_reject hk hlen)⟩

end Sys2Proof
end

section
/-! Frames (30_encoding.md R61 to R73, R75): the decoder reads a frame back from its sends and leaves what follows, so a
stream of frames reads back whole, and an opcode the block never emits is rejected by name. -/

namespace Sys2Proof

open Sys2Proof.Safety

variable {p : Params}

/-! ## Opcode bytes -/

theorem addrOfBytes_addrBytes (addr : Addr) : addrOfBytes (addrLo addr) (addrHi addr) = addr :=
  BitVec.extractLsb'_append_extractLsb' (w := 8) (len := 8)

theorem setWidth_ldcsOpcode : ∀ a : CsAddr, (opLdcs ||| a.setWidth 8).setWidth 4 = a := by decide

theorem setWidth_stcsOpcode : ∀ a : CsAddr, (opStcs ||| a.setWidth 8).setWidth 4 = a := by decide

theorem decodeOpcode_ldcs {op : Byte} (h : opHigh op = opLdcs) (rep : Nat) (rest : List Byte) :
    decodeOpcode p rep op rest = .ok (.ldcsFrame (op.setWidth 4), rest) := if_pos h

theorem decodeOpcode_stcs {op : Byte} (h : opHigh op = opStcs) (rep : Nat) (v : Byte) (rest : List Byte) :
    decodeOpcode p rep op (v :: rest) = .ok (.stcsFrame (op.setWidth 4) v, rest) := by
  rw [decodeOpcode, h]
  rfl

theorem decodeOpcode_stPtrInc (data rest : List Byte) :
    decodeOpcode p data.length opStPtrInc (data ++ rest) = .ok (.stPtrInc data, rest) := by
  have hlen : ¬ (data ++ rest).length < data.length := by simp
  refine (if_neg hlen).trans ?_
  rw [List.take_left, List.drop_left]

theorem decodeOpcode_key {key : List Byte} (hlen : key.length = p.keyLen) (rep : Nat) (rest : List Byte) :
    decodeOpcode p rep opKey (key.reverse ++ rest) = .ok (.keyFrame key, rest) := by
  have hrev : key.reverse.length = p.keyLen := by rw [List.length_reverse, hlen]
  have hge : ¬ (key.reverse ++ rest).length < p.keyLen := by simp [hlen]
  refine (if_neg hge).trans ?_
  rw [← hrev, List.take_left, List.drop_left, List.reverse_reverse]

/-! ## One frame -/

/-- A burst has the length its REPEAT count fixes (R73). -/
def followsRepeat (rep : Nat) : Instr → Prop
  | .stPtrInc data => data.length = rep
  | .ldPtrInc m => m = rep
  | _ => True

theorem decodeFrame_sync (rep : Nat) (op : Byte) (rest : List Byte) :
    decodeFrame p rep (p.sync :: op :: rest) = decodeOpcode p rep op rest := if_pos rfl

/-- The sends of a burst in one row: the opcode, then every byte. -/
theorem frameSends_stPtrInc_flatten (data : List Byte) :
    (frameSends p (.stPtrInc data)).flatten = p.sync :: opStPtrInc :: data := by
  have hrest : ((data.drop 1).map fun d => [d]).flatten = data.drop 1 := List.flatMap_singleton' _
  rw [frameSends, List.flatten_cons, hrest, List.append_assoc, List.take_append_drop]
  rfl

/-- The key lemma: a well-formed frame reads back from its sends, whatever follows them. -/
theorem decodeFrame_frameSends {rep : Nat} {i : Instr} (hframe : isFrameRow i = true) (hwf : i.wf p = true)
    (hrep : followsRepeat rep i) (rest : List Byte) :
    decodeFrame p rep ((frameSends p i).flatten ++ rest) = .ok (i, rest) := by
  cases i with
  | ldcsFrame a =>
    have h := decodeOpcode_ldcs (p := p) (Laws.TableRow.ldcs_code a) rep rest
    rw [setWidth_ldcsOpcode] at h
    exact (decodeFrame_sync rep _ rest).trans h
  | stcsFrame a v =>
    have h := decodeOpcode_stcs (p := p) (Laws.TableRow.stcs_code a) rep v rest
    rw [setWidth_stcsOpcode] at h
    exact (decodeFrame_sync rep _ (v :: rest)).trans h
  | ldsFrame addr =>
    refine (decodeFrame_sync rep opLds (addrLo addr :: addrHi addr :: rest)).trans ?_
    change Decoded.ok (Instr.ldsFrame (addrOfBytes _ _), rest) = _
    rw [addrOfBytes_addrBytes]
  | stsFrame addr v =>
    refine (decodeFrame_sync rep opSts (addrLo addr :: addrHi addr :: v :: rest)).trans ?_
    change Decoded.ok (Instr.stsFrame (addrOfBytes _ _) v, rest) = _
    rw [addrOfBytes_addrBytes]
  | stPtr addr =>
    refine (decodeFrame_sync rep opStPtr (addrLo addr :: addrHi addr :: rest)).trans ?_
    change Decoded.ok (Instr.stPtr (addrOfBytes _ _), rest) = _
    rw [addrOfBytes_addrBytes]
  | stPtrInc data =>
    subst hrep
    rw [frameSends_stPtrInc_flatten]
    exact (decodeFrame_sync _ opStPtrInc (data ++ rest)).trans (decodeOpcode_stPtrInc data rest)
  | ldPtrInc m =>
    subst hrep
    exact decodeFrame_sync m opLdPtrInc rest
  | repeatFrame count => exact decodeFrame_sync rep opRepeat (count :: rest)
  | keyFrame key =>
    rw [frameSends, List.flatten_cons, List.flatten_singleton, List.append_assoc]
    exact (decodeFrame_sync rep opKey (key.reverse ++ rest)).trans (decodeOpcode_key (beq_iff_eq.1 hwf) rep rest)
  | _ => cases hframe

/-! ## Streams of frames (R73) -/

theorem chained_cons {rep : Nat} {i : Instr} {is : List Instr} (h : chained p rep (i :: is) = true) :
    isFrameRow i = true ∧ i.wf p = true ∧ followsRepeat rep i ∧ chained p (repAfter i) is = true := by
  unfold chained at h
  rw [Bool.and_eq_true, Bool.and_eq_true, Bool.and_eq_true] at h
  obtain ⟨⟨⟨hframe, hwf⟩, hrep⟩, hrest⟩ := h
  refine ⟨hframe, hwf, ?_, hrest⟩
  cases i with
  | stPtrInc data => exact beq_iff_eq.1 hrep
  | ldPtrInc m => exact beq_iff_eq.1 hrep
  | _ => trivial

/-- A stream that opens with a frame: that frame, then the rest under the REPEAT count it leaves. -/
theorem decodeStream_frame {fuel rep : Nat} {i : Instr} {bytes rest : List Byte}
    (h : decodeFrame p rep bytes = .ok (i, rest)) :
    decodeStream p (fuel + 1) rep bytes = (decodeStream p fuel (repAfter i) rest).bind fun is => .ok (i :: is) := by
  cases bytes with
  | nil => cases h
  | cons b bs => rw [decodeStream, h, bind_decoded_ok]

theorem frameSends_flatten_ne_nil {i : Instr} (hframe : isFrameRow i = true) : (frameSends p i).flatten ≠ [] := by
  cases i with
  | ldcsFrame _ | stcsFrame _ _ | ldsFrame _ | stsFrame _ _ | stPtr _ | stPtrInc _ | ldPtrInc _ | repeatFrame _
  | keyFrame _ => exact List.cons_ne_nil _ _
  | _ => cases hframe

/-- By induction on the frames: each is read back whole and takes a byte of fuel. -/
theorem decodeStream_frames (frames : List Instr) : ∀ {rep fuel : Nat}, chained p rep frames = true →
    (frames.flatMap fun i => (frameSends p i).flatten).length ≤ fuel →
    decodeStream p fuel rep (frames.flatMap fun i => (frameSends p i).flatten) = .ok frames := by
  induction frames with
  | nil =>
    intro rep fuel _ _
    cases fuel <;> rfl
  | cons i is ih =>
    intro rep fuel h hfuel
    obtain ⟨hframe, hwf, hrep, hrest⟩ := chained_cons h
    have hpos := List.length_pos_iff.2 (frameSends_flatten_ne_nil (p := p) hframe)
    rw [List.flatMap_cons, List.length_append] at hfuel
    obtain ⟨k, rfl⟩ : ∃ k, fuel = k + 1 := ⟨fuel - 1, by omega⟩
    rw [List.flatMap_cons, decodeStream_frame (decodeFrame_frameSends hframe hwf hrep _), ih hrest (by omega),
      bind_decoded_ok]

/-- Settles O3: the number of bytes is fuel enough. -/
theorem wireDecoderReadsBackEveryFrameSequence : Obligations.WireDecoderReadsBackEveryFrameSequence :=
  fun _ frames h => decodeStream_frames frames h le_rfl

/-! ## Opcodes the block never emits (R75) -/

theorem extract_of_opHigh {op h : Byte} (e : opHigh op = h) : op.extractLsb' 4 4 = h.extractLsb' 4 4 := by
  have keep : ∀ op : Byte, (opHigh op).extractLsb' 4 4 = op.extractLsb' 4 4 := by decide
  rw [← e, keep]

theorem decodeOpcode_unemitted {op : Byte} (hldcs : op.extractLsb' 4 4 ≠ 0x8#4) (hstcs : op.extractLsb' 4 4 ≠ 0xC#4)
    (hop : op ∉ [0x04#8, 0x44#8, 0x69#8, 0x64#8, 0x24#8, 0xA0#8, 0xE0#8]) (rep : Nat) (rest : List Byte) :
    decodeOpcode p rep op rest = .reject (.unemittedOpcode op) := by
  have hldcs' : opHigh op ≠ opLdcs := fun e => hldcs (extract_of_opHigh e)
  have hstcs' : opHigh op ≠ opStcs := fun e => hstcs (extract_of_opHigh e)
  simp only [List.mem_cons, List.not_mem_nil, or_false, not_or] at hop
  change ¬ op = opLds ∧ ¬ op = opSts ∧ ¬ op = opStPtr ∧ ¬ op = opStPtrInc ∧ ¬ op = opLdPtrInc ∧ ¬ op = opRepeat ∧
    ¬ op = opKey at hop
  obtain ⟨hlds, hsts, hptr, hst, hld, hrepeat, hkey⟩ := hop
  unfold decodeOpcode
  rw [if_neg hldcs', if_neg hstcs', if_neg hlds, if_neg hsts, if_neg hptr, if_neg hst, if_neg hld,
    if_neg hrepeat, if_neg hkey]

/-- Every opcode of R63 has `op[4] = 0`. -/
theorem emitted_bit4 : ∀ op : Byte, op.getLsbD 4 = true → op.extractLsb' 4 4 ≠ 0x8#4 ∧ op.extractLsb' 4 4 ≠ 0xC#4 ∧
    op ∉ [0x04#8, 0x44#8, 0x69#8, 0x64#8, 0x24#8, 0xA0#8, 0xE0#8] := by decide

/-- Settles O5: none of the decoder's opcodes matches, and no opcode with `op[4] = 1` is one of them. -/
theorem unemittedOpcodesAreRejected : Obligations.UnemittedOpcodesAreRejected := by
  refine ⟨fun p rep op rest hldcs hstcs hop => ?_, fun p rep op rest hbit => ?_⟩
  · rw [decodeFrame_sync]
    exact decodeOpcode_unemitted hldcs hstcs hop rep rest
  · obtain ⟨hldcs, hstcs, hop⟩ := emitted_bit4 op hbit
    rw [decodeFrame_sync]
    exact decodeOpcode_unemitted hldcs hstcs hop rep rest

end Sys2Proof
end

section
/-! Words (30_encoding.md R63 to R67, R74, R76): the word of a well-formed instruction reads back as that instruction, in
each of the three formats; the words written out from the spec. -/

namespace Sys2Proof

open Sys2Proof.Safety

variable {p : Params}

/-- The word of a frame carries its sends and, for a burst, its REPEAT count. -/
theorem encode_frameRow {i : Instr} (hframe : isFrameRow i = true) :
    ∃ rep, encode p i = .frame rep (frameSends p i).flatten ∧ followsRepeat rep i := by
  cases i with
  | stPtrInc data => exact ⟨data.length, rfl, rfl⟩
  | ldPtrInc m => exact ⟨m, rfl, rfl⟩
  | ldcsFrame _ | stcsFrame _ _ | ldsFrame _ | stsFrame _ _ | stPtr _ | repeatFrame _ | keyFrame _ =>
    exact ⟨1, rfl, trivial⟩
  | _ => cases hframe

theorem decode_encode_frameRow {i : Instr} (hframe : isFrameRow i = true) (hwf : i.wf p = true) :
    decode p (encode p i) = .ok i := by
  obtain ⟨rep, he, hrep⟩ := encode_frameRow (p := p) hframe
  have hdec := decodeFrame_frameSends hframe hwf hrep []
  rw [List.append_nil] at hdec
  rw [he, decode, hdec]
  rfl

/-- Command codes that differ are told apart in the decoder's order (R74). -/
theorem decodeNvm_codes (hcodes : [p.cmdWp, p.cmdEr, p.cmdPbc, p.cmdCher].Nodup) :
    decodeNvm p p.cmdWp = .ok .cmdWp ∧ decodeNvm p p.cmdEr = .ok .cmdEr ∧ decodeNvm p p.cmdPbc = .ok .cmdPbc ∧
      decodeNvm p p.cmdCher = .ok .cmdCher := by
  simp only [List.nodup_cons, List.mem_cons, List.not_mem_nil, or_false, not_or] at hcodes
  obtain ⟨⟨hwe, hwp, hwc⟩, ⟨hep, hec⟩, hpc, -⟩ := hcodes
  refine ⟨if_pos rfl, ?_, ?_, ?_⟩
  · rw [decodeNvm, if_neg (Ne.symm hwe), if_pos rfl]
  · rw [decodeNvm, if_neg (Ne.symm hwp), if_neg (Ne.symm hep), if_pos rfl]
  · rw [decodeNvm, if_neg (Ne.symm hwc), if_neg (Ne.symm hec), if_neg (Ne.symm hpc), if_pos rfl]

/-- Settles O1: frames by their sends, commands by their codes, host operations by their arguments. -/
theorem decodeOfEncodeIsTheInstruction : Obligations.DecodeOfEncodeIsTheInstruction := by
  intro p i hwf hcodes
  obtain ⟨hwp, her, hpbc, hcher⟩ := decodeNvm_codes hcodes
  cases i with
  | ldcsFrame _ | stcsFrame _ _ | ldsFrame _ | stsFrame _ _ | stPtr _ | stPtrInc _ | ldPtrInc _ | repeatFrame _
  | keyFrame _ => exact decode_encode_frameRow rfl hwf
  | cmdWp => exact hwp
  | cmdEr => exact her
  | cmdPbc => exact hpbc
  | cmdCher => exact hcher
  | phyInit | phyDoubleBreak | phyClose | linkInit | resetToggle | enterProg | exitProg | waitReady | chipErase
  | passChipErase | passBlankCheck | passProgram | passVerify => rfl
  | phyRecv _ | repeatN _ | burstRead _ => rfl
  | phySend l => exact args1_ok .phySend (argBytes_eq_ok.2 rfl)
  | ldcs a => exact args1_ok .ldcs (argCs_eq_ok.2 rfl)
  | stcs a v => exact args2_ok .stcs (argCs_eq_ok.2 rfl) (argByte_eq_ok.2 rfl)
  | lds addr => exact args1_ok .lds (argAddr_eq_ok.2 rfl)
  | sts addr v => exact args2_ok .sts (argAddr_eq_ok.2 rfl) (argByte_eq_ok.2 rfl)
  | setPtr addr => exact args1_ok .setPtr (argAddr_eq_ok.2 rfl)
  | burstWrite data => exact args1_ok .burstWrite (argBytes_eq_ok.2 rfl)
  | key k => exact args1_ok .key (argKey_eq_ok.2 ⟨rfl, beq_iff_eq.1 hwf⟩)
  | execNvmCmd cmd => exact args1_ok .execNvmCmd (argByte_eq_ok.2 rfl)
  | pageWrite addr data => exact args2_ok .pageWrite (argAddr_eq_ok.2 rfl) (argBytes_eq_ok.2 rfl)
  | pageRead addr n => exact args2_ok .pageRead (argAddr_eq_ok.2 rfl) (argNat_eq_ok.2 rfl)
  | pageErase addr => exact args1_ok .pageErase (argAddr_eq_ok.2 rfl)
  | setImage image fuse => exact args2_ok .setImage (argBytes_eq_ok.2 rfl) (argFuse_eq_ok.2 rfl)

/-- Settles O4, each word evaluated. -/
theorem specWordsDecode : Obligations.SpecWordsDecode := by
  unfold Obligations.SpecWordsDecode
  decide

end Sys2Proof
end

section
/-! The refusal of an operation (30_encoding.md R79), the slots of a character (R58 to R60), and REPEAT (41_link.md R99,
R70). -/

namespace Sys2Proof.Machine

open Sys2Proof.Safety

/-! ## Refusal -/

theorem serve_refused {i : Instr} {s : State} (ha : accepts i s = false) (m : Op Value) :
    serve i m s = .next (refuse s) := by
  rw [serve, ha, if_neg Bool.false_ne_true]

/-- Settles O7: every row goes to the host port, PASS_PROGRAM after a test that holds for an accepted operation alone. -/
theorem refusedOperationSetsRefusedAlone : Obligations.RefusedOperationSetsRefusedAlone := by
  intro i s ha
  cases i with
  | passProgram =>
    change execPassProgram s = _
    rw [execPassProgram, ha, Bool.false_and, if_neg Bool.false_ne_true]
    exact serve_refused ha _
  | _ => exact serve_refused ha _

/-! ## Characters -/

theorem popcountBelow_eq_count (b : Byte) (k : Nat) : popcountBelow b k = ((List.range k).map (bitOf b)).count true := by
  induction k with
  | zero => rfl
  | succ k ih =>
    rw [popcountBelow, ih, List.range_succ, List.map_append, List.count_append]
    cases h : bitOf b k <;> simp [h]

/-- The parity bit makes the number of ones even (R59). -/
theorem count_parity (b : Byte) : (popcount b + [parity b].count true) % 2 = 0 := by
  rcases Nat.mod_two_eq_zero_or_one (popcount b) with h | h
  · simp [parity, h]
  · simp [parity, h, Nat.add_mod]

/-- Settles O17: the nine bits are the data, whose ones `popcount` counts, and their parity. -/
theorem characterHasTwelveSlotsAndEvenParity : Obligations.CharacterHasTwelveSlotsAndEvenParity := by
  intro b
  refine ⟨parity b, rfl, ?_⟩
  have hbits : ((charLevels b).drop 1).take 9 = (List.range 8).map (bitOf b) ++ [parity b] := rfl
  rw [hbits, List.count_append, ← popcountBelow_eq_count]
  exact count_parity b

/-! ## REPEAT -/

/-- Both forms of REPEAT run the same operation at the host port. -/
theorem exec_of_isRepeat {i : Instr} {n : Nat} (hi : i = .repeatN n ∨ ∃ c : Byte, i = .repeatFrame c ∧ n = c.toNat + 1)
    (s : State) : exec i s = serve i (unit (repeatOp n)) s := by
  rcases hi with rfl | ⟨c, rfl, rfl⟩
  · rfl
  · rfl

/-- A count out of bounds ends it before the send (R99). -/
theorem repeatOp_size {s : State} {n : Nat} (hn : n < 1 ∨ s.prm.maxBurst < n) :
    repeatOp n s = .error (.sizeError n) s :=
  bind_error (checkSize_error hn)

/-- On a closed PHY the send fails, and nothing is written (R90, R99). -/
theorem repeatOp_closed {s : State} {n : Nat} (ho : s.phyOpen = false) (h1 : 1 ≤ n) (h2 : n ≤ s.prm.maxBurst) :
    repeatOp n s = .error (.ioError .closed) s := by
  rw [repeatOp, bind_ok (checkSize_ok h1 h2), get_bind]
  exact phySend_closed _ ho

/-- Settles O24: both forms of REPEAT are one operation, told by its count and by whether the PHY is open. -/
theorem repeatSendsOneLess : Obligations.RepeatSendsOneLess := by
  intro s n i hi ha
  rw [exec_of_isRepeat hi]
  refine ⟨fun hn => ?_, fun h1 h2 => ⟨fun ho => ?_, fun ho => ?_⟩⟩
  · exact serve_error ha (unit_error (repeatOp_size (s := beginOp s) hn))
  · exact serve_ok ha (unit_ok (repeatOp_eq (listening_beginOp ho) h1 h2))
  · exact serve_error ha (unit_error (repeatOp_closed (s := beginOp s) ho h1 h2))

end Sys2Proof.Machine
end

section
/-! The PHY from the host port (40_phy.md R80 to R90): its five operations on an open PHY, the operations that a closed
PHY ends before any call, what PHY_RECV can return, and what a send and a double break sleep. -/

namespace Sys2Proof.Machine

open Sys2Proof.Safety

/-! ## The operation at the host port -/

theorem serve_accepted {i : Instr} {s : State} (ha : accepts i s = true) (m : Op Value) :
    serve i m s = .next (endOp (m (beginOp s))) := by rw [serve, if_pos ha]

/-! ## Sends and receives -/

/-- Settles O11: PHY_SEND is one `tx` item, which `play` gives R81's call list. -/
theorem phySendEmitsEveryCharacter : Obligations.PhySendEmitsEveryCharacter := by
  intro s bytes ha
  refine ⟨fun ho => ?_, fun ho => ?_⟩
  · exact serve_ok ha (unit_ok (send_eq (listening_beginOp ho) bytes))
  · exact serve_error ha (unit_error (phySend_closed (s := beginOp s) bytes ho))

/-- PHY_RECV on an open PHY, for the characters the environment presents (R83). -/
theorem exec_phyRecv_heard {s : State} {n : Nat} {heard : List Heard} (ha : accepts (.phyRecv n) s = true)
    (ho : s.phyOpen = true) (hh : answers s [.rx n heard] = true) :
    exec (.phyRecv n) s = .next (done s [.rx n heard] (.ok (.bytes (heard.map Heard.byte)))) :=
  serve_ok ha (bytesValue_ok (recv_eq (listening_beginOp ho) ((answers_beginOp _ s).trans hh)))

/-- Settles O12: PHY_RECV is one `rx` item, whose value is the bytes of the characters heard. -/
theorem phyRecvReturnsTheCharactersHeard : Obligations.PhyRecvReturnsTheCharactersHeard := by
  intro s n ha
  refine ⟨fun heard ho hh => exec_phyRecv_heard ha ho hh, fun ho => ?_⟩
  exact serve_error ha (bytesValue_error (phyRecv_closed (s := beginOp s) n ho))

/-! ## What PHY_RECV can return -/

theorem ready_iff {i : Instr} {s : State} : ready i s = true ↔ accepts i s = true ∧ s.phyOpen = true := Bool.and_eq_true_iff

theorem getLast?_done_obs (s : State) (bs : List Beat) (r : Result) : (done s bs r).obs.getLast? = some (.result r) := by
  rw [done, deliver_obs, List.getLast?_concat]

/-- The settled answers come first (00_scope.md R7, log 1). -/
theorem upcoming_levels (ls : List Level) : ∀ s : State, s.levels = ls → upcoming ls.length s = ls := by
  induction ls with
  | nil => exact fun _ _ => rfl
  | cons l ls ih =>
    intro s hs
    rw [List.length_cons, upcoming, ih _ (by simp [hs]), nextLevel, hs]

/-- The environment that has settled the levels of some characters presents them. -/
theorem answers_of_levels {s : State} {n : Nat} {heard : List Heard} (hfit : rxFits s n heard = true)
    (hls : s.levels = rxLevels s n heard) : answers s [.rx n heard] = true := by
  simp [answers, answersBeat, hfit, upcoming_levels _ s hls]

/-- The characters of these bytes, each presented at the first poll. -/
def promptly (bytes : List Byte) : List Heard := bytes.map fun b => ⟨0, b⟩

@[simp] theorem promptly_byte (bytes : List Byte) : (promptly bytes).map Heard.byte = bytes := by
  simp [promptly, Function.comp_def]

theorem rxFits_promptly {s : State} {n : Nat} {bytes : List Byte} (hpoll : 0 < s.prm.rxPollLimit)
    (hlen : bytes.length ≤ n) : rxFits s n (promptly bytes) = true := by
  simp [rxFits, promptly, hlen, hpoll]

/-- Settles O13: whatever the environment answers, some characters are heard, at most `n` of them; and any list of at most
`n` bytes is heard from the environment that presents them promptly. -/
theorem phyRecvResultsAreExactlyTheListsUpToN : Obligations.PhyRecvResultsAreExactlyTheListsUpToN := by
  refine ⟨fun s n hr => ?_, fun s n bytes hr hpoll hlen => ?_⟩
  · obtain ⟨ha, ho⟩ := ready_iff.1 hr
    obtain ⟨heard, hn, hw, hu⟩ := exists_heard n s
    have hh : answers s [.rx n heard] = true := by
      simpa [answers, answersBeat, rxFits, hn, hu] using hw
    exact ⟨_, _, by rwa [List.length_map], exec_phyRecv_heard ha ho hh, getLast?_done_obs _ _ _⟩
  · obtain ⟨ha, ho⟩ := ready_iff.1 hr
    have hh : answers { s with levels := rxLevels s n (promptly bytes) } [.rx n (promptly bytes)] = true :=
      answers_of_levels (rxFits_promptly hpoll hlen) rfl
    have hx := exec_phyRecv_heard (s := { s with levels := rxLevels s n (promptly bytes) }) ha ho hh
    rw [promptly_byte] at hx
    exact ⟨_, _, hx, getLast?_done_obs _ _ _⟩

/-! ## A closed PHY (R90) -/

section
variable {α β : Type} {s : State}

/-- The operation makes no call, writes nothing and ends with `IOError("closed")`. -/
def EndsClosed (s : State) (m : Op α) : Prop := m s = .error (.ioError .closed) s

namespace EndsClosed

variable {m : Op α}

theorem bind (h : EndsClosed s m) (f : α → Op β) : EndsClosed s (m >>= f) := bind_error h

theorem get {f : State → Op β} (h : EndsClosed s (f s)) : EndsClosed s ((get : Op State) >>= f) := (get_bind f).trans h

/-- A size within its bounds is tested first, without a call. -/
theorem afterSize {lo n : Nat} {f : Unit → Op β} (h1 : lo ≤ n) (h2 : n ≤ s.prm.maxBurst) (h : EndsClosed s (f ())) :
    EndsClosed s (checkSize lo n >>= f) := (bind_ok (checkSize_ok h1 h2)).trans h

theorem mapErr {g : Err → Err} (h : EndsClosed s m) (hg : g (.ioError .closed) = .ioError .closed) :
    EndsClosed s (mapErr g m) := (mapErr_error h).trans (by rw [hg])

theorem unit {m : Op Unit} (h : EndsClosed s m) : EndsClosed s (unit m) := unit_error h

theorem byteValue {m : Op Byte} (h : EndsClosed s m) : EndsClosed s (byteValue m) := byteValue_error h

theorem bytesValue {m : Op (List Byte)} (h : EndsClosed s m) : EndsClosed s (bytesValue m) := bytesValue_error h

/-- What the host port makes of it. -/
theorem serve {i : Instr} {m : Op Value} (h : EndsClosed (beginOp s) m) (ha : accepts i s = true) :
    serve i m s = .next (done s [] (.err (.ioError .closed))) := serve_error ha h

end EndsClosed

variable (ho : s.phyOpen = false)
include ho

theorem endsClosed_send (bytes : List Byte) : EndsClosed s (phySend bytes) := phySend_closed bytes ho

theorem endsClosed_ldcs (a : CsAddr) : EndsClosed s (ldcs a) := .get (.bind (endsClosed_send ho _) _)

theorem endsClosed_stcs (a : CsAddr) (v : Byte) : EndsClosed s (stcs a v) := .get (endsClosed_send ho _)

theorem endsClosed_lds (addr : Addr) : EndsClosed s (lds addr) := .get (.bind (endsClosed_send ho _) _)

theorem endsClosed_sts (addr : Addr) (v : Byte) : EndsClosed s (sts addr v) := .get (.bind (endsClosed_send ho _) _)

theorem endsClosed_setPtr (addr : Addr) : EndsClosed s (setPtr addr) := .get (.bind (endsClosed_send ho _) _)

theorem endsClosed_resetToggle : EndsClosed s resetToggle := .get (.bind (endsClosed_stcs ho _ _) _)

theorem endsClosed_execCommand (cmd : Byte) : EndsClosed s (execCommand cmd) := .get (endsClosed_sts ho _ _)

theorem endsClosed_burstWrite {data : List Byte} (h1 : 1 ≤ data.length) (h2 : data.length ≤ s.prm.maxBurst) :
    EndsClosed s (burstWrite data) := .afterSize h1 h2 (.get (.bind (endsClosed_send ho _) _))

theorem endsClosed_burstRead {n : Nat} (h1 : 1 ≤ n) (h2 : n ≤ s.prm.maxBurst) : EndsClosed s (burstRead n) :=
  .afterSize h1 h2 (.get (.bind (endsClosed_send ho _) _))

theorem endsClosed_pageRead (addr : Addr) {n : Nat} (h1 : 2 ≤ n) (h2 : n ≤ s.prm.maxBurst) :
    EndsClosed s (pageRead addr n) := .afterSize h1 h2 (.bind (endsClosed_setPtr ho addr) _)

/-- A wait that polls at all ends at its first poll (42_device_control.md R109). -/
theorem endsClosed_waitReady (hp : 0 < s.prm.readyTimeoutMs / s.prm.readyPollMs) : EndsClosed s waitReady := by
  obtain ⟨k, hk⟩ := Nat.exists_eq_add_one.2 hp
  refine .get ?_
  rw [hk]
  exact .get (.bind (endsClosed_lds ho _) _)

theorem endsClosed_chipErase (hp : 0 < s.prm.readyTimeoutMs / s.prm.readyPollMs) : EndsClosed s chipErase :=
  .bind (.mapErr (endsClosed_waitReady ho hp) rfl) _

theorem endsClosed_pageErase (hp : 0 < s.prm.readyTimeoutMs / s.prm.readyPollMs) (addr : Addr) :
    EndsClosed s (pageErase addr) := .bind (endsClosed_waitReady ho hp) _

theorem endsClosed_pageWrite (hp : 0 < s.prm.readyTimeoutMs / s.prm.readyPollMs) (addr : Addr) {data : List Byte}
    (h1 : 1 ≤ data.length) (h2 : data.length ≤ s.prm.maxBurst) : EndsClosed s (pageWrite addr data) :=
  .afterSize h1 h2 (.bind (endsClosed_waitReady ho hp) _)

/-- ENTER_PROG fails at its first read and clears the flag (R106). -/
theorem enterProg_closed : enterProg s = .error (.ioError .closed) (setProgMode false s) := by
  have hflag : EndsClosed s progFlag := .get (.bind (endsClosed_ldcs ho _) _)
  rw [enterProg, onError_apply, bind_error (orUnlock_error hflag)]
  rfl

/-- EXIT_PROG clears the flag before its first send (R108). -/
theorem exitProg_closed : exitProg s = .error (.ioError .closed) (setProgMode false s) :=
  (bind_ok (update_apply _ _)).trans (bind_error (endsClosed_resetToggle (s := setProgMode false s) ho))

end

/-- The host port on an operation that wrote the flag of programming mode and failed on the closed PHY. -/
theorem serve_closed_cleared {s : State} {i : Instr} {m : Op Unit} (ha : accepts i s = true)
    (h : m (beginOp s) = .error (.ioError .closed) (setProgMode false (beginOp s))) :
    serve i (unit m) s = .next { done s [] (.err (.ioError .closed)) with progMode := false } := by
  rw [serve_accepted ha, unit_error h]
  rfl

/-- Settles O16: each operation ends at its first send or double break, after the sizes it tests and the flag it clears. -/
theorem closedPhyEndsOperationsWithIOError : Obligations.ClosedPhyEndsOperationsWithIOError := by
  intro i s ha hs
  have ho : (beginOp s).phyOpen = false := hs
  refine ⟨fun bytes n hi => ?_, fun a v addr k hi => ?_, fun n c addr data h1 h2 hi => ?_, fun hp addr data hi => ?_,
    fun hi => ?_⟩
  · rcases hi with rfl | rfl | rfl
    · exact (endsClosed_send ho bytes).unit.serve ha
    · exact EndsClosed.serve (.bytesValue (phyRecv_closed n ho)) ha
    · exact EndsClosed.serve (.unit (phyDoubleBreak_closed ho)) ha
  · rcases hi with rfl | rfl | rfl | rfl | rfl | rfl | rfl | rfl | rfl | rfl | rfl | rfl | rfl | rfl | rfl | rfl | rfl | rfl
    · exact (endsClosed_ldcs ho a).byteValue.serve ha
    · exact (endsClosed_stcs ho a v).unit.serve ha
    · exact (endsClosed_lds ho addr).byteValue.serve ha
    · exact (endsClosed_sts ho addr v).unit.serve ha
    · exact (endsClosed_setPtr ho addr).unit.serve ha
    · exact EndsClosed.serve (.unit (sendKey_closed ho k)) ha
    · exact (endsClosed_ldcs ho a).byteValue.serve ha
    · exact (endsClosed_stcs ho a v).unit.serve ha
    · exact (endsClosed_lds ho addr).byteValue.serve ha
    · exact (endsClosed_sts ho addr v).unit.serve ha
    · exact (endsClosed_setPtr ho addr).unit.serve ha
    · exact EndsClosed.serve (.unit (sendKey_closed ho k)) ha
    · exact (endsClosed_resetToggle ho).unit.serve ha
    · exact (endsClosed_execCommand ho v).unit.serve ha
    · exact (endsClosed_execCommand ho s.prm.cmdWp).unit.serve ha
    · exact (endsClosed_execCommand ho s.prm.cmdEr).unit.serve ha
    · exact (endsClosed_execCommand ho s.prm.cmdPbc).unit.serve ha
    · exact (endsClosed_execCommand ho s.prm.cmdCher).unit.serve ha
  · rcases hi with rfl | ⟨rfl, rfl⟩ | rfl | rfl | ⟨rfl, rfl⟩ | ⟨rfl, rfl⟩ | ⟨rfl, h2'⟩
    · exact EndsClosed.serve (.unit (repeatOp_closed ho h1 h2)) ha
    · exact EndsClosed.serve (.unit (repeatOp_closed ho h1 h2)) ha
    · exact (endsClosed_burstRead ho h1 h2).bytesValue.serve ha
    · exact (endsClosed_burstRead ho h1 h2).bytesValue.serve ha
    · exact (endsClosed_burstWrite ho h1 h2).unit.serve ha
    · exact (endsClosed_burstWrite ho h1 h2).unit.serve ha
    · exact (endsClosed_pageRead ho addr h2' h2).bytesValue.serve ha
  · rcases hi with rfl | rfl | rfl | ⟨rfl, h1, h2⟩
    · exact (endsClosed_waitReady ho hp).unit.serve ha
    · exact (endsClosed_chipErase ho hp).unit.serve ha
    · exact (endsClosed_pageErase ho hp addr).unit.serve ha
    · exact (endsClosed_pageWrite ho hp addr h1 h2).unit.serve ha
  · rcases hi with rfl | rfl | ⟨rfl, hn⟩
    · exact serve_closed_cleared ha (enterProg_closed ho)
    · exact serve_closed_cleared ha (exitProg_closed ho)
    · exact serve_closed_cleared ha (linkInit_closed ho hn)

/-! ## Opening, closing, double break -/

/-- Settles O10: the pin is opened or not as `CapInit()` answers. -/
theorem phyInitOpensThePinOrFails : Obligations.PhyInitOpensThePinOrFails := by
  intro s ha
  have hb := busy_of_accepts ha
  refine ⟨fun h => ?_, fun h => ?_⟩
  · refine (serve_accepted ha _).trans ?_
    rw [unit_ok (phyInit_granted (s := beginOp s) h)]
    simp [endOp, deliver, beginOp, hb]
  · refine (serve_accepted ha _).trans ?_
    rw [unit_error (phyInit_denied (s := beginOp s) h)]
    simp [endOp, deliver, beginOp, hb]

/-- PHY_DOUBLE_BREAK on an open PHY is one `db` item (R86). -/
theorem exec_phyDoubleBreak_open {s : State} (ha : accepts .phyDoubleBreak s = true) (ho : s.phyOpen = true) :
    exec .phyDoubleBreak s = .next (done s [.db] (.ok .none)) :=
  serve_ok ha (unit_ok (phyDoubleBreak_eq (s := beginOp s) ho))

/-- Settles O14: the `db` item written out. -/
theorem phyDoubleBreakForcesIdle : Obligations.PhyDoubleBreakForcesIdle := by
  intro s ha
  have hb := busy_of_accepts ha
  refine ⟨fun ho => ?_, fun ho => ?_⟩
  · rw [exec_phyDoubleBreak_open ha ho]
    simp [done, deliver, play, dbCalls, beginOp, hb]
  · exact serve_error ha (unit_error (phyDoubleBreak_closed (s := beginOp s) ho))

/-- Settles O15: an open pin is released; a closed PHY has only the result to deliver. -/
theorem phyCloseReleasesThePinOnce : Obligations.PhyCloseReleasesThePinOnce := by
  intro s ha
  have hb := busy_of_accepts ha
  refine ⟨fun ho => ?_, fun ho => ?_⟩
  · refine (serve_accepted ha _).trans ?_
    rw [unit_ok (phyClose_open (s := beginOp s) ho)]
    simp [endOp, deliver, beginOp, hb]
  · refine (serve_accepted ha _).trans ?_
    rw [unit_ok (phyClose_closed (s := beginOp s) ho)]
    simp [endOp, deliver, beginOp, hb]

/-! ## Sums of sleeps (70_reset_and_hazards.md R176) -/

theorem sleepTotal_append (o o' : List Obs) : sleepTotal (o ++ o') = sleepTotal o + sleepTotal o' := by
  simp [sleepTotal]

/-- Each slot sleeps one bit period (R82). -/
theorem sleepTotal_slots (s : State) (ls : List Level) :
    sleepTotal (ls.flatMap (slotCalls s)) = ls.length * bitPeriod s := by
  induction ls with
  | nil => simp [sleepTotal]
  | cons l ls ih =>
    have hslot : sleepTotal (slotCalls s l) = bitPeriod s := by simp [sleepTotal, slotCalls, sleepOf]
    rw [List.flatMap_cons, sleepTotal_append, hslot, ih, List.length_cons, Nat.succ_mul, Nat.add_comm]

/-- Each character has twelve slots (R58, R82). -/
theorem sleepTotal_chars (s : State) (bytes : List Byte) :
    sleepTotal (bytes.flatMap fun b => (charLevels b).flatMap (slotCalls s)) = 12 * bitPeriod s * bytes.length := by
  induction bytes with
  | nil => simp [sleepTotal]
  | cons b bs ih =>
    have hlen : (charLevels b).length = 12 := rfl
    rw [List.flatMap_cons, sleepTotal_append, sleepTotal_slots, hlen, ih, List.length_cons, Nat.mul_succ, Nat.add_comm]

theorem sleepTotal_txCalls (s : State) (bytes : List Byte) :
    sleepTotal (txCalls s bytes) = s.prm.idleSettleBits * bitPeriod s + 12 * bitPeriod s * bytes.length := by
  rw [txCalls, sleepTotal_append, sleepTotal_chars]
  simp [sleepTotal, sleepOf]

theorem sleepTotal_dbCalls (s : State) :
    sleepTotal (dbCalls s) = s.prm.dbrkLow1Us + s.prm.dbrkHigh1Us + s.prm.dbrkLow2Us + s.prm.dbrkHigh2Us := by
  simp [sleepTotal, sleepOf, dbCalls, Nat.add_assoc]

/-- The result of an operation sleeps nothing. -/
theorem sleepTotal_done (s : State) (bs : List Beat) (r : Result) :
    sleepTotal (done s bs r).obs = sleepTotal (playAll (beginOp s) bs).obs := by
  rw [done, deliver_obs, sleepTotal_append]
  rfl

/-- Settles O18: the sums of R81's and R86's call lists at the default parameters. -/
theorem sendAndBreakSleepTheirDurations : Obligations.SendAndBreakSleepTheirDurations := by
  refine ⟨fun s bytes hr hp => ?_, fun s hr hp => ?_⟩
  · obtain ⟨ha, ho⟩ := ready_iff.1 hr
    refine ⟨_, (phySendEmitsEveryCharacter s bytes ha).1 ho, ?_⟩
    have hobs : (playAll (beginOp s) [.tx bytes]).obs = s.obs ++ txCalls s bytes := rfl
    rw [sleepTotal_done, hobs, sleepTotal_append, sleepTotal_txCalls, hp]
    rfl
  · obtain ⟨ha, ho⟩ := ready_iff.1 hr
    refine ⟨_, exec_phyDoubleBreak_open ha ho, ?_⟩
    have hobs : (playAll (beginOp s) [.db]).obs = s.obs ++ dbCalls s := rfl
    rw [sleepTotal_done, hobs, sleepTotal_append, sleepTotal_dbCalls, hp]
    rfl

end Sys2Proof.Machine
end

section
/-! The Link family from the host port (41_link.md R91 to R103): each frame operation for every way its answers can go,
LINK_INIT for every run of its attempts, and what the operations of the wire leave unchanged. -/

namespace Sys2Proof.Machine

open Sys2Proof.Safety

/-! ## Scripts at the host port -/

section
variable {α : Type} {s : State} {i : Instr} {bs : List Beat}

/-- The environment answers an operation that the port begins. -/
theorem answers_fromPort (hh : answers s bs = true) : answers (beginOp s) bs = true := (answers_beginOp bs s).trans hh

/-- A script run from the port. -/
theorem Tells.fromPort {m : Op α} {r : Except Err α} (h : Tells s m bs r) (ho : s.phyOpen = true)
    (hh : answers s bs = true) : m (beginOp s) = ended r (playAll (beginOp s) bs) :=
  h (beginOp s) rfl rfl (listening_beginOp ho) (answers_fromPort hh)

/-- The host port on an operation that wrote the flag of programming mode and succeeded. -/
theorem Sets.serve_ok {m : Op Unit} {v : Bool} (h : Sets s m bs v (.ok ())) (ha : accepts i s = true)
    (ho : s.phyOpen = true) (hh : answers s bs = true) :
    serve i (unit m) s = .next { done s bs (.ok .none) with progMode := v } := by
  rw [serve_accepted ha, unit_ok (h (beginOp s) rfl rfl (listening_beginOp ho) (answers_fromPort hh))]
  rfl

/-- The host port on an operation that wrote the flag of programming mode and failed. -/
theorem Sets.serve_error {m : Op Unit} {v : Bool} {e : Err} (h : Sets s m bs v (.error e)) (ha : accepts i s = true)
    (ho : s.phyOpen = true) (hh : answers s bs = true) :
    serve i (unit m) s = .next { done s bs (.err e) with progMode := v } := by
  rw [serve_accepted ha, unit_error (h (beginOp s) rfl rfl (listening_beginOp ho) (answers_fromPort hh))]
  rfl

end

/-- The two forms of an operation, host operation and frame, run the same at the host port (log 8). -/
theorem exec_of_forms {s : State} {i host frame : Instr} {m : Op Value} (hi : i = host ∨ i = frame)
    (hhost : exec host s = serve host m s) (hframe : exec frame s = serve frame m s) : exec i s = serve i m s := by
  rcases hi with rfl | rfl
  · exact hhost
  · exact hframe

/-- A byte that is not the acknowledge (R93). -/
theorem ackFails_wrongByte {p : Params} {h : Heard} (hb : h.byte ≠ p.ack) : ackFails p [h] = true := bne_iff_ne.2 hb

/-! ## LDCS, STCS, LDS (R94 to R96) -/

/-- Settles O19: one script for the byte heard, one for silence, and the closed PHY. -/
theorem ldcsReturnsTheByteHeard : Obligations.LdcsReturnsTheByteHeard := by
  intro s a i hi ha
  rw [exec_of_forms hi rfl rfl]
  refine ⟨fun h ho hh => ?_, fun ho hh => ?_, fun ho => ?_⟩
  · exact serve_ok ha (byteValue_ok ((tells_ldcs a h).fromPort ho hh))
  · exact serve_error ha (byteValue_error ((tells_ldcsSilent a).fromPort ho hh))
  · exact (endsClosed_ldcs (s := beginOp s) ho a).byteValue.serve ha

/-- Settles O20: one send, to which the environment answers nothing. -/
theorem stcsSendsItsThreeBytes : Obligations.StcsSendsItsThreeBytes := by
  intro s a v i hi ha
  rw [exec_of_forms hi rfl rfl]
  refine ⟨fun ho => ?_, fun ho => ?_⟩
  · exact serve_ok ha (unit_ok (stcs_eq (listening_beginOp ho) a v))
  · exact (endsClosed_stcs (s := beginOp s) ho a v).unit.serve ha

/-- Settles O21: the byte heard, silence, and the closed PHY. -/
theorem ldsReturnsTheByteHeard : Obligations.LdsReturnsTheByteHeard := by
  intro s addr i hi ha
  rw [exec_of_forms hi rfl rfl]
  refine ⟨fun h ho hh => ?_, fun ho hh => ?_, fun ho => ?_⟩
  · exact serve_ok ha (byteValue_ok (lds_eq (listening_beginOp ho) addr (answers_fromPort hh)))
  · exact serve_error ha (byteValue_error (lds_silent (listening_beginOp ho) addr (answers_fromPort hh)))
  · exact (endsClosed_lds (s := beginOp s) ho addr).byteValue.serve ha

/-! ## STS, SET_PTR (R97, R98) -/

/-- An STS that one of its acknowledges ends (R97). -/
theorem serve_stsFail {i : Instr} {s : State} {addr : Addr} {v : Byte} (ha : accepts i s = true) (ho : s.phyOpen = true)
    (x : StsFail) (hf : ackFails s.prm (stsFailHeard x) = true) (hh : answers s (stsFailBeats s addr v x) = true) :
    serve i (unit (sts addr v)) s = .next (done s (stsFailBeats s addr v x) (.err (ackError (stsFailHeard x)))) :=
  serve_error ha (unit_error ((tells_stsFail addr v x hf).fromPort ho hh))

/-- Settles O22: each failure is an `StsFail`, at the address or at the value, by a wrong byte or by silence. -/
theorem stsSendsAddressThenValue : Obligations.StsSendsAddressThenValue := by
  intro s addr v i hi ha
  rw [exec_of_forms hi rfl rfl]
  refine ⟨fun ho => ?_, fun k1 k2 ho hh => ?_, fun h ho hb hh => ?_, fun ho hh => ?_, fun k h ho hb hh => ?_,
    fun k ho hh => ?_⟩
  · exact (endsClosed_sts (s := beginOp s) ho addr v).unit.serve ha
  · exact serve_ok ha (unit_ok ((tells_sts addr v k1 k2).fromPort ho hh))
  · exact serve_stsFail ha ho (.address [h]) (ackFails_wrongByte hb) hh
  · exact serve_stsFail ha ho (.address []) rfl hh
  · exact serve_stsFail ha ho (.value k [h]) (ackFails_wrongByte hb) hh
  · exact serve_stsFail ha ho (.value k []) rfl hh

/-- Settles O23: the acknowledge given, a wrong byte, silence, and the closed PHY. -/
theorem setPtrSendsTheAddress : Obligations.SetPtrSendsTheAddress := by
  intro s addr i hi ha
  rw [exec_of_forms hi rfl rfl]
  refine ⟨fun k ho hh => ?_, fun h ho hb hh => ?_, fun ho hh => ?_, fun ho => ?_⟩
  · exact serve_ok ha (unit_ok ((tells_setPtr addr k).fromPort ho hh))
  · exact serve_error ha (unit_error ((tells_setPtrFail addr (ackFails_wrongByte hb)).fromPort ho hh))
  · exact serve_error ha (unit_error ((tells_setPtrFail addr rfl).fromPort ho hh))
  · exact (endsClosed_setPtr (s := beginOp s) ho addr).unit.serve ha

/-! ## BURST_WRITE, BURST_READ (R100, R101) -/

/-- A size out of bounds ends it before the first send (R100). -/
theorem burstWrite_size {s : State} {data : List Byte} (hn : data.length < 1 ∨ s.prm.maxBurst < data.length) :
    burstWrite data s = .error (.sizeError data.length) s :=
  bind_error (checkSize_error hn)

/-- One acknowledge a byte (R100). -/
theorem tells_burstAcked {s : State} {data : List Byte} {acks : List Nat} (h1 : 1 ≤ data.length)
    (h2 : data.length ≤ s.prm.maxBurst) (hn : acks.length = data.length) :
    Tells s (burstWrite data) (burstWriteBeats s (data.zip acks)) (.ok ()) := by
  have hlen : (data.zip acks).length = data.length := by simp [hn]
  have hfst : (data.zip acks).map Prod.fst = data := List.map_fst_zip hn.ge
  have h := tells_burstWrite (s := s) (data.zip acks) (by omega) (by omega)
  rwa [hfst] at h

/-- Settles O25: the size, every byte acknowledged, the byte that is not, and the closed PHY. -/
theorem burstWriteSendsEveryByte : Obligations.BurstWriteSendsEveryByte := by
  intro s data i hi ha
  rw [exec_of_forms hi rfl rfl]
  refine ⟨fun hn => ?_, fun h1 h2 => ⟨fun acks ho hn hh => ?_, fun acks h ho hn hb hh => ?_, fun acks ho hn hh => ?_,
    fun ho => ?_⟩⟩
  · exact serve_error ha (unit_error (burstWrite_size (s := beginOp s) hn))
  · exact serve_ok ha (unit_ok ((tells_burstAcked h1 h2 hn).fromPort ho hh))
  · exact serve_error ha (unit_error ((tells_burstFail h2 hn (ackFails_wrongByte hb)).fromPort ho hh))
  · exact serve_error ha (unit_error ((tells_burstFail h2 hn rfl).fromPort ho hh))
  · exact (endsClosed_burstWrite (s := beginOp s) ho h1 h2).unit.serve ha

/-- A size out of bounds ends it before the send (R101). -/
theorem burstRead_size {s : State} {n : Nat} (hn : n < 1 ∨ s.prm.maxBurst < n) :
    burstRead n s = .error (.sizeError n) s :=
  bind_error (checkSize_error hn)

/-- Settles O26: the size, all the bytes, fewer of them, and the closed PHY. -/
theorem burstReadReturnsEveryByte : Obligations.BurstReadReturnsEveryByte := by
  intro s n i hi ha
  rw [exec_of_forms hi rfl rfl]
  refine ⟨fun hn => ?_, fun h1 h2 => ⟨fun heard ho hn hh => ?_, fun heard ho hn hh => ?_, fun ho => ?_⟩⟩
  · exact serve_error ha (bytesValue_error (burstRead_size (s := beginOp s) hn))
  · exact serve_ok ha (bytesValue_ok (burstRead_eq (listening_beginOp ho) h1 h2 hn (answers_fromPort hh)))
  · exact serve_error ha (bytesValue_error (burstRead_short (listening_beginOp ho) h2 hn (answers_fromPort hh)))
  · exact (endsClosed_burstRead (s := beginOp s) ho h1 h2).bytesValue.serve ha

/-! ## LINK_INIT (R103) -/

/-- Settles O29: the failed attempts use up their share, and the next one enters programming mode. -/
theorem linkInitBringsTheLinkUp : Obligations.LinkInitBringsTheLinkUp := by
  intro s r hr hf hh
  obtain ⟨ha, ho⟩ := ready_iff.1 hr
  exact (sets_linkRun r hf).serve_ok ha ho hh

/-- Settles O30: the failed attempts use up all there are. -/
theorem linkInitGivesUpAfterItsAttempts : Obligations.LinkInitGivesUpAfterItsAttempts := by
  intro s fs hr hf hh
  obtain ⟨ha, ho⟩ := ready_iff.1 hr
  exact (sets_linkFail fs hf).serve_error ha ho hh

/-! ## The frame of the wire operations (R91) -/

/-- The flag of programming mode is the same (10_state.md R19). -/
def SameProgMode (s t : State) : Prop := t.progMode = s.progMode

theorem sameProgMode_frame : Frame SameProgMode where
  refl _ := rfl
  trans h1 h2 := h2.trans h1

theorem sameProgMode_wire : WireFrame (FromIdle SameProgMode) := fromIdle_wire sameProgMode_frame play_progMode

/-- Settles O57: a trace leaves the state around the session as it was, and no operation of the wire writes `S.prog_mode`,
`S.seq` or `S.rbuf`. -/
theorem wireOperationsChangeNoSessionState : Obligations.WireOperationsChangeNoSessionState := by
  intro i s t hi ha h
  obtain ⟨r, rfl⟩ := exists_deliver_of_exec ha h
  have W : WritesSessionAlone (beginOp s) (endState (opOf s.prm i (beginOp s))) :=
    (opOf_traced_of_group s.prm s (.inl hi)).writesSessionAlone (idle_beginOp s)
  obtain ⟨-, hflag⟩ := sameProgMode_wire.opOf s.prm hi (beginOp s) (idle_beginOp s)
  obtain ⟨-, K⟩ := samePages_session.opOf s.prm (.inl hi) (beginOp s) (idle_beginOp s)
  exact ⟨W.cfg, W.prm, W.phyOpen, W.pin, hflag, W.bytesUsed, W.fuseImage, K.rbuf, (busy_of_accepts ha).symm, W.refused,
    K.seq, W.capInits, W.hostOps, W.imageByte_eq⟩

end Sys2Proof.Machine
end

section
/-! Device control from the host port (42_device_control.md R105 to R115), with the sizes that it and SET_IMAGE test before
any call (R112, 43_page_sequencer.md R121): each operation for every way its answers can go. -/

namespace Sys2Proof.Machine

open Sys2Proof.Safety

/-! ## Sizes out of bounds (R112, R121) -/

theorem pageWrite_size {s : State} {addr : Addr} {data : List Byte}
    (hn : data.length < 1 ∨ s.prm.maxBurst < data.length) :
    pageWrite addr data s = .error (.sizeError data.length) s :=
  bind_error (checkSize_error hn)

theorem pageRead_size {s : State} {addr : Addr} {n : Nat} (hn : n < 2 ∨ s.prm.maxBurst < n) :
    pageRead addr n s = .error (.sizeError n) s :=
  bind_error (checkSize_error hn)

/-- The image's length is tested before the fuse operand's (R121). -/
theorem setImage_imageSize {s : State} {image : List Byte} {fuse : Option (List Byte)} (h : flashBytes s < image.length) :
    setImage image fuse s = .error (.sizeError image.length) s := by
  rw [setImage, get_bind, if_pos h]
  rfl

theorem setImage_fuseSize {s : State} {image l : List Byte} (h : image.length ≤ flashBytes s)
    (hl : l.length ≠ s.cfg.fuseCount.toNat) : setImage image (some l) s = .error (.sizeError l.length) s := by
  have hfit : ¬ fuseFits s (some l) = true := fun hf => hl (beq_iff_eq.1 hf)
  rw [setImage, get_bind, if_neg h.not_gt, if_neg hfit]
  rfl

/-- Settles O28: each size is tested before anything is called or written. -/
theorem sizeErrorsMakeNoCall : Obligations.SizeErrorsMakeNoCall := by
  refine ⟨fun s addr data hn ha => ?_, fun s addr n hn ha => ?_, fun s image fuse ha => ⟨fun h => ?_, ?_⟩⟩
  · exact serve_error ha (unit_error (pageWrite_size (s := beginOp s) hn))
  · exact serve_error ha (bytesValue_error (pageRead_size (s := beginOp s) hn))
  · exact serve_error ha (unit_error (setImage_imageSize (s := beginOp s) h))
  · rintro l h rfl hl
    exact serve_error ha (unit_error (setImage_fuseSize (s := beginOp s) h hl))

/-! ## Scripts of operations without a value at the host port -/

section
variable {s : State} {i : Instr} {m : Op Unit} {bs : List Beat}

theorem Tells.serve_ok (h : Tells s m bs (.ok ())) (hr : ready i s = true) (hh : answers s bs = true) :
    serve i (unit m) s = .next (done s bs (.ok .none)) := by
  obtain ⟨ha, ho⟩ := ready_iff.1 hr
  exact Machine.serve_ok ha (unit_ok (h.fromPort ho hh))

theorem Tells.serve_error {e : Err} (h : Tells s m bs (.error e)) (hr : ready i s = true) (hh : answers s bs = true) :
    serve i (unit m) s = .next (done s bs (.err e)) := by
  obtain ⟨ha, ho⟩ := ready_iff.1 hr
  exact Machine.serve_error ha (unit_error (h.fromPort ho hh))

/-- A write of the flag before a script is the flag at its end: no trace reads or writes it. -/
theorem Tells.afterFlag {v : Bool} {r : Except Err Unit} (h : Tells s m bs r) :
    Sets s (update (setProgMode v) >>= fun _ => m) bs v r := by
  intro t hp hc L ha
  have L' : Listening (setProgMode v t) := L.withSession v t.seq t.rbuf
  rw [bind_ok (update_apply _ _), h (setProgMode v t) hp hc L' ((answers_setProgMode bs v).trans ha), playAll_setProgMode]

end

/-! ## RESET_TOGGLE, EXIT_PROG (R105, R108) -/

/-- A trace of sends alone asks nothing of the environment. -/
theorem answers_resetBeats (s : State) : answers s (resetBeats s) = true := rfl

/-- Settles O31: two sends on an open PHY, the error of the first on a closed one. -/
theorem resetToggleAssertsThenReleases : Obligations.ResetToggleAssertsThenReleases := by
  intro s ha
  refine ⟨fun ho => ?_, fun ho => ?_⟩
  · exact tells_reset.serve_ok (ready_iff.2 ⟨ha, ho⟩) (answers_resetBeats s)
  · exact (endsClosed_resetToggle (s := beginOp s) ho).unit.serve ha

theorem sets_exitProg (s : State) :
    Sets s exitProg (resetBeats s ++ stcsBeats s s.prm.csCtrlb
      (BitVec.ofNat 8 (2 ^ s.prm.ctrlbUpdidis) ||| BitVec.ofNat 8 (2 ^ s.prm.ctrlbCcdetdis))) false (.ok ()) := by
  refine Tells.afterFlag (tells_reset.bind (Tells.get fun t hp _ => ?_))
  rw [hp]
  exact tells_stcs _ _

/-- Settles O35: the flag is cleared before the first send, which a closed PHY fails. -/
theorem exitProgDisablesTheInterface : Obligations.ExitProgDisablesTheInterface := by
  intro s ha
  refine ⟨fun ho => ?_, fun ho => ?_⟩
  · exact (sets_exitProg s).serve_ok ha ho rfl
  · exact serve_closed_cleared ha (exitProg_closed (s := beginOp s) ho)

/-! ## ENTER_PROG (R106, R107) -/

theorem enterProg_succeeds {s : State} (hr : ready .enterProg s = true) (x : EnterRun) (hf : enterRunFits s x = true)
    (hh : answers s (enterRunBeats s x) = true) :
    exec .enterProg s = .next { done s (enterRunBeats s x) (.ok .none) with progMode := true } := by
  obtain ⟨ha, ho⟩ := ready_iff.1 hr
  exact (sets_enter x hf).serve_ok ha ho hh

theorem enterProg_fails {s : State} (hr : ready .enterProg s = true) (x : EnterFail) (hf : enterFailFits s x = true)
    (hh : answers s (enterFailBeats s x) = true) :
    exec .enterProg s =
      .next { done s (enterFailBeats s x) (.err (.unlockFailed (enterFailStep x))) with progMode := false } := by
  obtain ⟨ha, ho⟩ := ready_iff.1 hr
  exact (sets_enterFail x hf).serve_error ha ho hh

/-- Settles O32: the two ways an `EnterRun` goes. -/
theorem enterProgEntersProgrammingMode : Obligations.EnterProgEntersProgrammingMode := by
  intro s hr
  refine ⟨fun h hp hh => ?_, fun r hu hh => ?_⟩
  · exact enterProg_succeeds hr (.already h) hp hh
  · exact enterProg_succeeds hr (.unlock r) hu hh

/-- Settles O34: each clause is one way an `EnterFail` goes. -/
theorem enterProgFailsAtItsSteps : Obligations.EnterProgFailsAtItsSteps := by
  intro s hr
  refine ⟨fun hh => ?_, fun h hp => ⟨fun hh => ?_, fun ks hk hh => ?_, fun ks hk hs hl => ?_⟩⟩
  · exact enterProg_fails hr .initialStatus rfl hh
  · exact enterProg_fails hr (.keyStatus h) (by simp [enterFailFits, hp]) hh
  · exact enterProg_fails hr (.keyRejected h ks) (by simp [enterFailFits, hp, hk]) hh
  have htaken : keyTaken s.prm h ks = true := by simp [keyTaken, hp, hk]
  have hlocked : allLocked s.prm hs = true := List.all_eq_true.2 hl
  refine ⟨fun hn hh => ?_, fun hn hh => ?_, fun hn last hu => ⟨fun hh => ?_, fun final hq hh => ?_⟩⟩
  · exact enterProg_fails hr (.stillLocked h ks hs) (by simp [enterFailFits, lockPolls, htaken, hlocked, hn]) hh
  · exact enterProg_fails hr (.lockStatus h ks hs) (by simp [enterFailFits, lockPolls, htaken, hlocked, hn]) hh
  · exact enterProg_fails hr (.finalStatus h ks ⟨hs, last⟩)
      (by simp [enterFailFits, lockPolls, htaken, hlocked, hn, hu]) hh
  · exact enterProg_fails hr (.notInProgrammingMode h ks ⟨hs, last⟩ final)
      (by simp [enterFailFits, lockPolls, htaken, hlocked, hn, hu, hq]) hh

/-! ## The flag after ENTER_PROG (R106, R19) -/

section
variable {α β : Type} {P Q : State → Prop} {cs : List ErrClass}

/-- A success leaves a state with `Q`; a failure has a class of `cs`. -/
def EndsWithin (Q : State → Prop) (cs : List ErrClass) : EStateM.Result Err State α → Prop
  | .ok _ t => Q t
  | .error e _ => errClass e ∈ cs

/-- From every state the operation ends so. -/
def AlwaysEnds (Q : State → Prop) (cs : List ErrClass) (m : Op α) : Prop := ∀ s, EndsWithin Q cs (m s)

theorem AlwaysEnds.bind {m : Op α} {f : α → Op β} (hm : AlwaysEnds P cs m) (hf : ∀ a, AlwaysEnds Q cs (f a)) :
    AlwaysEnds Q cs (m >>= f) := by
  intro s
  have h := hm s
  rw [bind_apply]
  cases hs : m s with
  | ok a t => exact hf a t
  | error e t => rw [hs] at h; exact h

theorem AlwaysEnds.getThen {f : State → Op β} (hf : ∀ s, AlwaysEnds Q cs (f s)) : AlwaysEnds Q cs (get >>= f) :=
  fun s => hf s s

theorem AlwaysEnds.ite {c : Prop} [Decidable c] {m n : Op α} (hm : AlwaysEnds Q cs m) (hn : AlwaysEnds Q cs n) :
    AlwaysEnds Q cs (if c then m else n) := by
  split
  · exact hm
  · exact hn

theorem AlwaysEnds.raise {e : Err} (h : errClass e ∈ cs) : AlwaysEnds Q cs (raise e : Op α) := fun _ => h

/-- The write on every exit by error comes after the failure. -/
theorem AlwaysEnds.onError {m : Op α} (hm : AlwaysEnds Q cs m) (g : State → State) (s : State) :
    (∃ a t, Machine.onError g m s = .ok a t ∧ Q t) ∨
      ∃ e t, Machine.onError g m s = .error e (g t) ∧ errClass e ∈ cs := by
  have h := hm s
  rw [onError_apply]
  cases hs : m s with
  | ok a t => rw [hs] at h; exact .inl ⟨a, t, rfl, h⟩
  | error e t => rw [hs] at h; exact .inr ⟨e, t, rfl, h⟩

end

/-- The classes of a failed ENTER_PROG (R106). -/
def enterClasses : List ErrClass := [.ioError, .unlockFailed]

theorem errClass_unlockError (step : UnlockStep) (e : Err) : errClass (unlockError step e) ∈ enterClasses := by
  cases e <;> simp [unlockError, errClass, enterClasses]

theorem orUnlock_ends {α : Type} (step : UnlockStep) (m : Op α) :
    AlwaysEnds (fun _ => True) enterClasses (orUnlock step m) := by
  intro s
  cases hs : m s with
  | ok a t => rw [orUnlock_ok hs]; trivial
  | error e t => rw [orUnlock_error hs]; exact errClass_unlockError step e

theorem unlockFailed_ends {α : Type} {Q : State → Prop} (step : UnlockStep) :
    AlwaysEnds Q enterClasses (raise (.unlockFailed step) : Op α) :=
  .raise (by simp [errClass, enterClasses])

theorem setProgMode_ends : AlwaysEnds (fun t => t.progMode = true) enterClasses (update (setProgMode true)) :=
  fun _ => rfl

theorem unlockTarget_ends : AlwaysEnds (fun t => t.progMode = true) enterClasses unlockTarget :=
  .getThen fun _ => (orUnlock_ends _ _).bind fun _ => (orUnlock_ends _ _).bind fun _ =>
    .ite
      ((orUnlock_ends _ _).bind fun _ => (orUnlock_ends _ _).bind fun _ =>
        .ite ((orUnlock_ends _ _).bind fun _ => .ite setProgMode_ends (unlockFailed_ends _)) (unlockFailed_ends _))
      (unlockFailed_ends _)

/-- ENTER_PROG leaves the flag at its outcome (R106). -/
theorem enterProg_cases (s : State) :
    (∃ t, enterProg s = .ok () t ∧ t.progMode = true) ∨
      ∃ e t, enterProg s = .error e t ∧ errClass e ∈ enterClasses ∧ t.progMode = false := by
  have hbody : AlwaysEnds (fun t => t.progMode = true) enterClasses
      (orUnlock .initialStatus progFlag >>= fun p => if p = true then update (setProgMode true) else unlockTarget) :=
    (orUnlock_ends _ _).bind fun _ => .ite setProgMode_ends unlockTarget_ends
  rcases hbody.onError (setProgMode false) s with ⟨_, t, ht, hflag⟩ | ⟨e, t, ht, hclass⟩
  · exact .inl ⟨t, ht, hflag⟩
  · exact .inr ⟨e, setProgMode false t, ht, hclass, rfl⟩

theorem lastResult_deliver (r : Result) (s : State) : lastResult (deliver r s).obs = some r := by
  rw [deliver_obs, lastResult, List.foldl_append]
  rfl

/-- Settles O33: the port delivers the outcome on the flag it left. -/
theorem enterProgSetsTheFlagToItsOutcome : Obligations.EnterProgSetsTheFlagToItsOutcome := by
  intro s ha
  refine ⟨_, serve_accepted ha (unit enterProg), ?_⟩
  rcases enterProg_cases (beginOp s) with ⟨t, ht, hflag⟩ | ⟨e, t, ht, hclass, hflag⟩
  · rw [unit_ok ht]
    exact .inl ⟨hflag, lastResult_deliver _ t⟩
  · rw [unit_error ht]
    exact .inr ⟨hflag, e, lastResult_deliver _ t, by simpa [enterClasses] using hclass⟩

/-! ## WAIT_READY (R109) -/

theorem allBusy_of_forall {p : Params} {hs : List Heard}
    (h : ∀ x ∈ hs, writeErrorFlag p x.byte = false ∧ nvmBusy p x.byte = true) : allBusy p hs = true := by
  simpa [allBusy] using h

theorem waitReady_fails {s : State} (hr : ready .waitReady s = true) (x : WaitFail) (hf : waitFailFits s x = true)
    (hh : answers s (waitFailBeats s x) = true) :
    exec .waitReady s = .next (done s (waitFailBeats s x) (.err (waitFailError x))) :=
  (tells_waitFail x hf).serve_error hr hh

/-- Settles O36: the wait that ends ready, and the three ways a `WaitFail` goes. -/
theorem waitReadyEndsByItsStatusReads : Obligations.WaitReadyEndsByItsStatusReads := by
  intro s hr
  refine ⟨rfl, fun p hp hh => ?_, fun p hn hb hw hh => ?_, fun hs hn hb hh => ?_, fun hs hn hb hh => ?_⟩
  · exact (tells_ready p hp).serve_ok hr hh
  · exact waitReady_fails hr (.writeError p) (by simp [waitFailFits, readyPolls, hn, allBusy_of_forall hb, hw]) hh
  · exact waitReady_fails hr (.deadline hs) (by simp [waitFailFits, readyPolls, hn, allBusy_of_forall hb]) hh
  · exact waitReady_fails hr (.unanswered hs) (by simp [waitFailFits, readyPolls, hn, allBusy_of_forall hb]) hh

/-! ## NVM commands (R110, R74) -/

/-- The host port runs two instructions alike that are accepted alike and whose operations do the same. -/
theorem serve_congr {s : State} {i j : Instr} {m n : Op Value} (ha : accepts i s = accepts j s)
    (hm : m (beginOp s) = n (beginOp s)) : serve i m s = serve j n s := by
  rw [serve, serve, ha, hm]

theorem execCommand_apply (cmd : Byte) (s : State) : execCommand cmd s = sts (nvmCtrlaAddr s) cmd s := get_bind _

/-- A command is its STS, whatever the outcome (R110). -/
theorem exec_execNvmCmd (s : State) (cmd : Byte) : exec (.execNvmCmd cmd) s = exec (.sts (nvmCtrlaAddr s) cmd) s := by
  refine serve_congr rfl ?_
  rw [unit, bind_apply, execCommand_apply, unit, bind_apply]
  rfl

/-- Settles O37: a command row is the host operation of its code. -/
theorem nvmCommandsAreStoredToCtrla : Obligations.NvmCommandsAreStoredToCtrla := by
  refine ⟨exec_execNvmCmd, fun s cmd k hr hh => ?_⟩
  have hcmd : exec (.execNvmCmd cmd) s = .next (done s (cmdBeats s cmd k) (.ok .none)) :=
    (tells_cmd cmd k).serve_ok hr hh
  refine ⟨hcmd, ?_, ?_, ?_, ?_⟩
  all_goals
    rintro rfl
    exact (serve_congr rfl rfl).trans hcmd

/-! ## CHIP_ERASE, PAGE_WRITE, PAGE_READ, PAGE_ERASE (R111 to R115) -/

/-- Settles O38: the erase that ends, and each stop of a `ChipFailRun`. -/
theorem chipEraseWaitsCommandsWaits : Obligations.ChipEraseWaitsCommandsWaits := by
  intro s hr
  refine ⟨fun r hf hh => ?_, fun f hf hh => ?_⟩
  · exact (tells_chipErase r hf).serve_ok hr hh
  · exact (tells_chipFail f hf).serve_error hr hh

/-- Settles O39: the write that ends, and each stop of a `WriteFailRun`. -/
theorem pageWriteRunsItsSequence : Obligations.PageWriteRunsItsSequence := by
  intro s addr data hr h1 h2
  refine ⟨fun r hf hh => ?_, fun f hf hh => ?_⟩
  · exact (tells_pageWrite addr h1 h2 r hf).serve_ok hr hh
  · exact (tells_writeFail addr h1 h2 f hf).serve_error hr hh

/-- Settles O40: the bytes read, and the two ways a `ReadFail` goes. -/
theorem pageReadReturnsThePage : Obligations.PageReadReturnsThePage := by
  intro s addr n hr h1 h2
  obtain ⟨ha, ho⟩ := ready_iff.1 hr
  refine ⟨fun k heard hn hh => ?_, fun f hf hh => ?_⟩
  · exact serve_ok ha (bytesValue_ok ((tells_pageRead addr k h1 h2 hn).fromPort ho hh))
  · exact serve_error ha (bytesValue_error ((tells_readFail addr h1 h2 f hf).fromPort ho hh))

/-- Settles O41: an accepted operation has a page of a legal size (10_state.md R18). -/
theorem pageEraseOverwritesAndErases : Obligations.PageEraseOverwritesAndErases := by
  intro s addr hr
  obtain ⟨ha, -⟩ := ready_iff.1 hr
  obtain ⟨h2, hmax⟩ := accepts_sizes ha
  have h1 : 1 ≤ pageBytes s := Nat.le_of_succ_le h2
  refine ⟨fun r hf hh => ?_, fun f hf hh => ?_⟩
  · exact (tells_pageErase addr h1 hmax r hf).serve_ok hr hh
  · exact (tells_eraseFail addr h1 hmax f hf).serve_error hr hh

end Sys2Proof.Machine
end

section
/-! A bound on the capability calls of every operation (43_page_sequencer.md R125, 60_exceptions.md R156): sends and
receives make boundedly many, every wait is bounded by a count, and every loop runs on fuel or over the pages. -/

namespace Sys2Proof.Machine

open Sys2Proof.Safety

/-! ## Counting calls -/

/-- The capability calls observed so far. -/
def callCount (s : State) : Nat := (callsOf s.obs).length

/-- Observations added are at least the calls added. -/
theorem callCount_le_of_obs {s t : State} {o : List Obs} (h : t.obs = s.obs ++ o) :
    callCount t ≤ callCount s + o.length := by
  have hfilter : (callsOf o).length ≤ o.length := List.length_filter_le _ _
  have happ : callsOf (s.obs ++ o) = callsOf s.obs ++ callsOf o := List.filter_append ..
  rw [callCount, h, happ, List.length_append]
  exact Nat.add_le_add_left hfilter _

theorem callCount_deliver (r : Result) (s : State) : callCount (deliver r s) = callCount s := by
  have happ : callsOf (s.obs ++ [.result r]) = callsOf s.obs ++ [] := List.filter_append ..
  rw [callCount, deliver_obs, happ, List.append_nil]
  rfl

/-- The calls of a send of `n` bytes: idle settle, then the twelve slots of each character (R81, R82). -/
def sendCalls (n : Nat) : Nat := 3 + 24 * n

/-- The most calls a receive of `n` bytes makes: each byte its polls, its samples and its three other sleeps (R83). -/
def recvCalls (p : Params) (n : Nat) : Nat := 1 + n * (2 * p.rxPollLimit + 19)

theorem length_txCalls (s : State) (bytes : List Byte) : (txCalls s bytes).length = sendCalls bytes.length := by
  have hchar : ∀ b : Byte, ((charLevels b).flatMap (slotCalls s)).length = 24 := fun _ => rfl
  simp [txCalls, sendCalls, List.length_flatMap, hchar, Nat.mul_comm]
  omega

theorem length_pollCalls (s : State) (k : Nat) : (pollCalls s k).length = 2 * k := by
  simp [pollCalls, Nat.mul_comm]

theorem length_heardCalls (s : State) (h : Heard) : (heardCalls s h).length = 2 * h.wait + 19 := by
  simp [heardCalls, length_pollCalls]

theorem length_rxCalls {s : State} {n : Nat} {heard : List Heard} (hf : rxFits s n heard = true) :
    (rxCalls s n heard).length ≤ recvCalls s.prm n := by
  simp only [rxFits, Bool.and_eq_true, decide_eq_true_eq, List.all_eq_true] at hf
  obtain ⟨hn, hw⟩ := hf
  have hheard : (heard.flatMap (heardCalls s)).length ≤ heard.length * (2 * s.prm.rxPollLimit + 19) := by
    rw [List.length_flatMap, ← smul_eq_mul, ← List.length_map (f := fun h => (heardCalls s h).length)]
    refine List.sum_le_card_nsmul _ _ fun k hk => ?_
    obtain ⟨h, hh, rfl⟩ := List.mem_map.1 hk
    have := hw h hh
    rw [length_heardCalls]
    omega
  have hmul : heard.length * (2 * s.prm.rxPollLimit + 19) ≤ n * (2 * s.prm.rxPollLimit + 19) := Nat.mul_le_mul_right _ hn
  rw [rxCalls, recvCalls, List.length_append, List.length_append, List.length_singleton]
  split
  · have hmore : (heard.length + 1) * (2 * s.prm.rxPollLimit + 19) ≤ n * (2 * s.prm.rxPollLimit + 19) :=
      Nat.mul_le_mul_right _ ‹_›
    rw [Nat.succ_mul] at hmore
    rw [length_pollCalls]
    omega
  · rw [List.length_nil]
    omega

/-! ## Operations within a bound -/

/-- What the bound of an operation depends on: the parameters, the configuration, the watermark. -/
structure Setting where
  prm : Params
  cfg : Cfg
  used : Nat

/-- A state with this setting, its datapath registers idle. -/
structure SetUp (x : Setting) (s : State) : Prop where
  prm : s.prm = x.prm
  cfg : s.cfg = x.cfg
  used : s.bytesUsed = x.used
  idle : Idle s

/-- From every state with the setting: however it ends, at most `b` calls, and the setting is kept. -/
def Within {α : Type} (x : Setting) (b : Nat) (m : Op α) : Prop :=
  ∀ s, SetUp x s → SetUp x (endState (m s)) ∧ callCount (endState (m s)) ≤ callCount s + b

section
variable {α β : Type} {x : Setting} {b b' : Nat} {m n : Op α} {f : α → Op β}

theorem Within.mono (h : Within x b m) (hb : b ≤ b') : Within x b' m :=
  fun s hs => ⟨(h s hs).1, (h s hs).2.trans (Nat.add_le_add_left hb _)⟩

/-- An operation that only writes fields outside the setting and the observation. -/
theorem within_quiet (h : ∀ s, SetUp x s → SetUp x (endState (m s))) (ho : ∀ s, (endState (m s)).obs = s.obs) :
    Within x 0 m := fun s hs => ⟨h s hs, (congrArg (fun o => (callsOf o).length) (ho s)).le⟩

theorem within_pure (a : α) : Within x 0 (pure a : Op α) := within_quiet (fun _ hs => hs) fun _ => rfl

theorem within_raise (e : Err) : Within x 0 (raise e : Op α) := within_quiet (fun _ hs => hs) fun _ => rfl

theorem Within.bind (hm : Within x b m) (hf : ∀ a, Within x b' (f a)) : Within x (b + b') (m >>= f) := by
  intro s hs
  obtain ⟨ht, hcalls⟩ := hm s hs
  rw [bind_apply]
  cases hms : m s with
  | ok a t =>
    rw [hms] at ht hcalls
    obtain ⟨hu, hcalls'⟩ := hf a t ht
    exact ⟨hu, hcalls'.trans ((Nat.add_le_add_right hcalls b').trans_eq (Nat.add_assoc _ _ _))⟩
  | error e t =>
    rw [hms] at ht hcalls
    exact ⟨ht, hcalls.trans (Nat.add_le_add_left (Nat.le_add_right b b') _)⟩

theorem Within.getThen {g : State → Op α} (hg : ∀ s, SetUp x s → Within x b (g s)) :
    Within x b ((get : Op State) >>= g) := fun s hs => by
  rw [get_bind]
  exact hg s hs s hs

theorem Within.ite {c : Prop} [Decidable c] (hm : Within x b m) (hn : Within x b' n) :
    Within x (max b b') (if c then m else n) := by
  split
  · exact hm.mono (Nat.le_max_left _ _)
  · exact hn.mono (Nat.le_max_right _ _)

theorem Within.except {g : Except Err α → Op β} (herr : ∀ e, Within x b (g (.error e)))
    (hok : ∀ a, Within x b' (g (.ok a))) : ∀ r, Within x (max b b') (g r)
  | .error e => (herr e).mono (Nat.le_max_left _ _)
  | .ok a => (hok a).mono (Nat.le_max_right _ _)

theorem Within.option {g : Option α → Op β} (hsome : ∀ a, Within x b (g (some a))) (hnone : Within x b' (g none)) :
    ∀ r, Within x (max b b') (g r)
  | some a => (hsome a).mono (Nat.le_max_left _ _)
  | none => hnone.mono (Nat.le_max_right _ _)

theorem endState_tryOp (m : Op α) (s : State) : endState (tryOp m s) = endState (m s) := by
  rw [tryOp_apply]
  cases m s <;> rfl

theorem endState_mapErr (g : Err → Err) (m : Op α) (s : State) : endState (mapErr g m s) = endState (m s) := by
  rw [mapErr_apply]
  cases m s <;> rfl

theorem Within.tryOp (hm : Within x b m) : Within x b (tryOp m) := fun s hs => by
  rw [endState_tryOp]
  exact hm s hs

theorem Within.mapErr (hm : Within x b m) (g : Err → Err) : Within x b (mapErr g m) := fun s hs => by
  rw [endState_mapErr]
  exact hm s hs

theorem Within.onProgError (hm : Within x b m) (v : Bool) : Within x b (onError (setProgMode v) m) := by
  intro s hs
  obtain ⟨ht, hcalls⟩ := hm s hs
  rw [onError_apply]
  cases hms : m s with
  | ok a t => rw [hms] at ht hcalls; exact ⟨ht, hcalls⟩
  | error e t =>
    rw [hms] at ht hcalls
    exact ⟨⟨ht.prm, ht.cfg, ht.used, ht.idle.rx, ht.idle.tx⟩, hcalls⟩

end

section
variable {x : Setting}

/-! ## The PHY -/

theorem SetUp.play {s : State} (hs : SetUp x s) (b : Beat) : SetUp x (play s b) :=
  ⟨(play_prm s b).trans hs.prm, (play_cfg s b).trans hs.cfg, (play_bytesUsed s b).trans hs.used, idle_play hs.idle b⟩

theorem phySend_within {bytes : List Byte} {n : Nat} (hn : bytes.length ≤ n) : Within x (sendCalls n) (phySend bytes) := by
  intro s hs
  cases ho : s.phyOpen with
  | true =>
    rw [phySend_eq bytes ho hs.idle.tx]
    refine ⟨hs.play (.tx bytes), (callCount_le_of_obs rfl).trans ?_⟩
    rw [length_txCalls, sendCalls, sendCalls]
    omega
  | false => rw [phySend_closed bytes ho]; exact ⟨hs, Nat.le_add_right _ _⟩

theorem phyRecv_within (n : Nat) : Within x (recvCalls x.prm n) (phyRecv n) := by
  intro s hs
  cases ho : s.phyOpen with
  | true =>
    obtain ⟨heard, ha, h⟩ := phyRecv_total n ho hs.idle.rx
    rw [answersBeat, Bool.and_eq_true] at ha
    have hlen := length_rxCalls ha.1
    rw [hs.prm] at hlen
    rw [h]
    exact ⟨hs.play (.rx n heard), (callCount_le_of_obs rfl).trans (Nat.add_le_add_left hlen _)⟩
  | false => rw [phyRecv_closed n ho]; exact ⟨hs, Nat.le_add_right _ _⟩

theorem phyDoubleBreak_within : Within x 9 phyDoubleBreak := by
  intro s hs
  cases ho : s.phyOpen with
  | true => rw [phyDoubleBreak_eq ho]; exact ⟨hs.play .db, callCount_le_of_obs (o := dbCalls s) rfl⟩
  | false => rw [phyDoubleBreak_closed ho]; exact ⟨hs, Nat.le_add_right _ _⟩

theorem sleep_within (us : Nat) : Within x 1 (sleep us) :=
  fun _ hs => ⟨hs.play (.pause us), callCount_le_of_obs (o := [.sleep us]) rfl⟩

theorem progress_within (pass : Pass) (i n : Nat) : Within x 1 (progress pass i n) :=
  fun _ hs => ⟨hs.play (.event pass i n), callCount_le_of_obs (o := [.progress pass i n]) rfl⟩

/-! ## Writes without a call -/

theorem setProgMode_within (v : Bool) : Within x 0 (update (setProgMode v)) :=
  within_quiet (fun _ hs => ⟨hs.prm, hs.cfg, hs.used, hs.idle.rx, hs.idle.tx⟩) fun _ => rfl

theorem onSeq_within (f : Seq → Seq) : Within x 0 (onSeq f) :=
  within_quiet (fun _ hs => ⟨hs.prm, hs.cfg, hs.used, hs.idle.rx, hs.idle.tx⟩) fun _ => rfl

theorem setRbuf_within (r : List Byte) : Within x 0 (setRbuf r) :=
  within_quiet (fun _ hs => ⟨hs.prm, hs.cfg, hs.used, hs.idle.rx, hs.idle.tx⟩) fun _ => rfl

theorem beginPass_within (pass : Pass) : Within x 0 (beginPass pass) :=
  within_quiet (fun _ hs => ⟨hs.prm, hs.cfg, hs.used, hs.idle.rx, hs.idle.tx⟩) fun _ => rfl

theorem startPage_within (p : Nat) : Within x 0 (startPage p) :=
  within_quiet (fun _ hs => ⟨hs.prm, hs.cfg, hs.used, hs.idle.rx, hs.idle.tx⟩) fun _ => rfl

theorem checkSize_within (lo n : Nat) : Within x 0 (checkSize lo n) := by
  have hstay : ∀ s, endState (checkSize lo n s) = s := fun s => by
    unfold checkSize
    split
    · rfl
    · rfl
  exact within_quiet (fun s hs => by rwa [hstay]) fun s => by rw [hstay]

/-! ## Link -/

theorem readBytes_bounded (n : Nat) : ∃ b, Within x b (readBytes n) :=
  ⟨_, (phyRecv_within n).bind fun _ => .ite (within_raise _) (within_pure _)⟩

theorem readByte_bounded : ∃ b, Within x b readByte := by
  obtain ⟨_, hread⟩ := readBytes_bounded (x := x) 1
  exact ⟨_, hread.bind fun _ => within_pure _⟩

theorem expectAck_within : Within x (recvCalls x.prm 1) expectAck := by
  refine (phyRecv_within 1).bind (b' := 0) fun r => .getThen fun s _ => ?_
  cases r with
  | nil => exact within_raise _
  | cons b _ => exact .ite (within_pure _) (within_raise _)

theorem ldcs_bounded : ∃ b, ∀ a, Within x b (ldcs a) := by
  obtain ⟨_, hread⟩ := readByte_bounded (x := x)
  exact ⟨_, fun _ => .getThen fun _ _ => (phySend_within (n := 2) le_rfl).bind fun _ => hread⟩

theorem stcs_within (a : CsAddr) (v : Byte) : Within x (sendCalls 3) (stcs a v) :=
  .getThen fun _ _ => phySend_within le_rfl

theorem lds_bounded : ∃ b, ∀ addr, Within x b (lds addr) := by
  obtain ⟨_, hread⟩ := readByte_bounded (x := x)
  exact ⟨_, fun _ => .getThen fun _ _ => (phySend_within (n := 4) le_rfl).bind fun _ => hread⟩

theorem sts_bounded : ∃ b, ∀ addr v, Within x b (sts addr v) :=
  ⟨_, fun _ _ => .getThen fun _ _ => (phySend_within (n := 4) le_rfl).bind fun _ => expectAck_within.bind fun _ =>
    (phySend_within (n := 1) le_rfl).bind fun _ => expectAck_within⟩

theorem setPtr_bounded : ∃ b, ∀ addr, Within x b (setPtr addr) :=
  ⟨_, fun _ => .getThen fun _ _ => (phySend_within (n := 4) le_rfl).bind fun _ => expectAck_within⟩

theorem repeatOp_bounded : ∃ b, ∀ n, Within x b (repeatOp n) :=
  ⟨_, fun n => (checkSize_within 1 n).bind fun _ => .getThen fun _ _ => phySend_within (n := 3) le_rfl⟩

/-- Each byte is a send and an acknowledge wait (R100). -/
theorem burstRest_within (data : List Byte) :
    Within x (data.length * (sendCalls 1 + recvCalls x.prm 1)) (burstRest data) := by
  induction data with
  | nil => exact (within_pure _).mono (Nat.zero_le _)
  | cons d ds ih =>
    have h := (phySend_within (x := x) (bytes := [d]) (n := 1) le_rfl).bind fun _ => expectAck_within.bind fun _ => ih
    rw [List.length_cons, Nat.succ_mul, Nat.add_comm, Nat.add_assoc]
    exact h

theorem burstWrite_bounded (n : Nat) : ∃ b, ∀ data : List Byte, data.length ≤ n → Within x b (burstWrite data) := by
  refine ⟨_, fun data hn => (checkSize_within 1 _).bind fun _ => .getThen fun s _ =>
    (phySend_within (n := 3) ?_).bind fun _ => expectAck_within.bind fun _ =>
      (burstRest_within (data.drop 1)).mono (b' := n * (sendCalls 1 + recvCalls x.prm 1)) ?_⟩
  · rw [List.length_append, List.length_take]
    exact Nat.add_le_add_left (Nat.min_le_left _ _) _
  · exact Nat.mul_le_mul_right _ (by rw [List.length_drop]; omega)

theorem burstRead_bounded (n : Nat) : ∃ b, Within x b (burstRead n) := by
  obtain ⟨_, hread⟩ := readBytes_bounded (x := x) n
  exact ⟨_, (checkSize_within 1 n).bind fun _ => .getThen fun _ _ => (phySend_within (n := 2) le_rfl).bind fun _ => hread⟩

theorem sendKey_bounded (key : List Byte) : ∃ b, Within x b (sendKey key) :=
  ⟨_, .getThen fun _ _ => (phySend_within (n := 2) le_rfl).bind fun _ => phySend_within (n := key.length) (by simp)⟩

/-! ## Device control -/

theorem resetToggle_bounded : ∃ b, Within x b resetToggle :=
  ⟨_, .getThen fun _ _ => (stcs_within _ _).bind fun _ => stcs_within _ _⟩

theorem progFlag_bounded : ∃ b, Within x b progFlag := by
  obtain ⟨_, hldcs⟩ := ldcs_bounded (x := x)
  exact ⟨_, .getThen fun _ _ => (hldcs _).bind fun _ => within_pure _⟩

theorem pollUnlocked_bounded (k : Nat) : ∃ b, Within x b (pollUnlocked k) := by
  induction k with
  | zero => exact ⟨0, within_pure _⟩
  | succ k ih =>
    obtain ⟨_, ih⟩ := ih
    obtain ⟨_, hldcs⟩ := ldcs_bounded (x := x)
    exact ⟨_, .getThen fun _ _ => (hldcs _).bind fun _ => .ite ((sleep_within _).bind fun _ => ih) (within_pure _)⟩

theorem waitUnlocked_bounded : ∃ b, Within x b waitUnlocked := by
  obtain ⟨_, hpoll⟩ := pollUnlocked_bounded (x := x) (x.prm.unlockWaitMs / x.prm.unlockPollMs)
  exact ⟨_, .getThen fun s hs => by rw [hs.prm]; exact hpoll⟩

theorem unlockTarget_bounded : ∃ b, Within x b unlockTarget := by
  obtain ⟨_, hkey⟩ := sendKey_bounded (x := x) x.prm.keyNvmprog
  obtain ⟨_, hldcs⟩ := ldcs_bounded (x := x)
  obtain ⟨_, hreset⟩ := resetToggle_bounded (x := x)
  obtain ⟨_, hwait⟩ := waitUnlocked_bounded (x := x)
  obtain ⟨_, hflag⟩ := progFlag_bounded (x := x)
  exact ⟨_, .getThen fun s hs => .bind (.mapErr (by rw [hs.prm]; exact hkey) _) fun _ => .bind ((hldcs _).mapErr _) fun _ =>
    .ite
      (.bind (hreset.mapErr _) fun _ => .bind (hwait.mapErr _) fun _ =>
        .ite (.bind (hflag.mapErr _) fun _ => .ite (setProgMode_within true) (within_raise _)) (within_raise _))
      (within_raise _)⟩

theorem enterProg_bounded : ∃ b, Within x b enterProg := by
  obtain ⟨_, hflag⟩ := progFlag_bounded (x := x)
  obtain ⟨_, hunlock⟩ := unlockTarget_bounded (x := x)
  exact ⟨_, .onProgError (.bind (hflag.mapErr _) fun _ => .ite (setProgMode_within true) hunlock) false⟩

theorem exitProg_bounded : ∃ b, Within x b exitProg := by
  obtain ⟨_, hreset⟩ := resetToggle_bounded (x := x)
  exact ⟨_, (setProgMode_within false).bind fun _ => hreset.bind fun _ => .getThen fun _ _ => stcs_within _ _⟩

theorem pollReady_bounded (k : Nat) : ∃ b, Within x b (pollReady k) := by
  induction k with
  | zero => exact ⟨0, within_raise _⟩
  | succ k ih =>
    obtain ⟨_, ih⟩ := ih
    obtain ⟨_, hlds⟩ := lds_bounded (x := x)
    exact ⟨_, .getThen fun _ _ => (hlds _).bind fun _ => .ite (within_raise _)
      (.ite ((sleep_within _).bind fun _ => ih) (within_pure _))⟩

theorem waitReady_bounded : ∃ b, Within x b waitReady := by
  obtain ⟨_, hpoll⟩ := pollReady_bounded (x := x) (x.prm.readyTimeoutMs / x.prm.readyPollMs)
  exact ⟨_, .getThen fun s hs => by rw [hs.prm]; exact hpoll⟩

theorem execCommand_bounded : ∃ b, ∀ cmd, Within x b (execCommand cmd) := by
  obtain ⟨_, hsts⟩ := sts_bounded (x := x)
  exact ⟨_, fun _ => .getThen fun _ _ => hsts _ _⟩

theorem chipErase_bounded : ∃ b, Within x b chipErase := by
  obtain ⟨_, hwait⟩ := waitReady_bounded (x := x)
  obtain ⟨_, hcmd⟩ := execCommand_bounded (x := x)
  exact ⟨_, (hwait.mapErr _).bind fun _ => .getThen fun _ _ => (hcmd _).bind fun _ => hwait.mapErr _⟩

theorem burstTo_bounded (n : Nat) : ∃ b, ∀ addr (data : List Byte), data.length ≤ n → Within x b (burstTo addr data) := by
  obtain ⟨_, hptr⟩ := setPtr_bounded (x := x)
  obtain ⟨_, hrep⟩ := repeatOp_bounded (x := x)
  obtain ⟨_, hburst⟩ := burstWrite_bounded (x := x) n
  exact ⟨_, fun _ data hn => (hptr _).bind fun _ => (hrep _).bind fun _ => hburst data hn⟩

theorem pageWrite_bounded (n : Nat) : ∃ b, ∀ addr (data : List Byte), data.length ≤ n → Within x b (pageWrite addr data) := by
  obtain ⟨_, hwait⟩ := waitReady_bounded (x := x)
  obtain ⟨_, hcmd⟩ := execCommand_bounded (x := x)
  obtain ⟨_, hburst⟩ := burstTo_bounded (x := x) n
  exact ⟨_, fun addr data hn => (checkSize_within 1 _).bind fun _ => hwait.bind fun _ => .getThen fun _ _ =>
    (hcmd _).bind fun _ => hwait.bind fun _ => (hburst addr data hn).bind fun _ => (hcmd _).bind fun _ => hwait⟩

theorem pageRead_bounded (n : Nat) : ∃ b, ∀ addr, Within x b (pageRead addr n) := by
  obtain ⟨_, hptr⟩ := setPtr_bounded (x := x)
  obtain ⟨_, hrep⟩ := repeatOp_bounded (x := x)
  obtain ⟨_, hburst⟩ := burstRead_bounded (x := x) n
  exact ⟨_, fun _ => (checkSize_within 2 n).bind fun _ => (hptr _).bind fun _ => (hrep _).bind fun _ => hburst⟩

theorem pageErase_bounded : ∃ b, ∀ addr, Within x b (pageErase addr) := by
  obtain ⟨_, hwait⟩ := waitReady_bounded (x := x)
  obtain ⟨_, hcmd⟩ := execCommand_bounded (x := x)
  obtain ⟨_, hburst⟩ := burstTo_bounded (x := x) x.cfg.pageSize.toNat
  exact ⟨_, fun addr => hwait.bind fun _ => .getThen fun s hs =>
    (hburst addr _ (by rw [List.length_replicate, pageBytes, hs.cfg])).bind fun _ => (hcmd _).bind fun _ => hwait⟩

theorem tryLink_bounded : ∃ b, Within x b tryLink := by
  obtain ⟨_, hldcs⟩ := ldcs_bounded (x := x)
  obtain ⟨_, henter⟩ := enterProg_bounded (x := x)
  exact ⟨_, phyDoubleBreak_within.bind fun _ => .getThen fun _ _ => (stcs_within _ _).bind fun _ =>
    (stcs_within _ _).bind fun _ => (hldcs _).bind fun _ => .ite (within_raise _) henter⟩

theorem linkAttempts_bounded (k : Nat) : ∃ b, ∀ last, Within x b (linkAttempts k last) := by
  induction k with
  | zero => exact ⟨0, fun _ => within_raise _⟩
  | succ k ih =>
    obtain ⟨b, ih⟩ := ih
    obtain ⟨_, htry⟩ := tryLink_bounded (x := x)
    refine ⟨_, fun _ => (setProgMode_within false).bind fun _ => htry.tryOp.bind
      (.except (b := b) (fun e => ?_) fun _ => within_pure _)⟩
    cases e with
    | ioError why => exact (within_raise _).mono (Nat.zero_le _)
    | _ => exact ih _

theorem linkInit_bounded : ∃ b, Within x b linkInit := by
  obtain ⟨_, hlink⟩ := linkAttempts_bounded (x := x) x.prm.linkInitAttempts
  exact ⟨_, .getThen fun s hs => by rw [hs.prm]; exact hlink _⟩

theorem ensureLink_bounded : ∃ b, Within x b ensureLink := by
  obtain ⟨_, hlink⟩ := linkInit_bounded (x := x)
  exact ⟨_, .getThen fun _ _ => .ite (within_pure _) hlink⟩

/-! ## One page of a pass -/

theorem SetUp.pageBytes {s : State} (hs : SetUp x s) : pageBytes s = x.cfg.pageSize.toNat := by
  rw [Machine.pageBytes, hs.cfg]

theorem SetUp.flashBytes {s : State} (hs : SetUp x s) : flashBytes s = x.cfg.flashSize.toNat := by
  rw [Machine.flashBytes, hs.cfg]

theorem settle_within : Within x 1 settle := .getThen fun _ _ => sleep_within _

theorem setStep_within (step : PageStep) : Within x 0 (setStep step) := onSeq_within _

theorem abortPage_within (c : Int) : Within x 0 (abortPage c) := (setStep_within _).bind fun _ => within_pure _

theorem acceptPage_within : Within x 0 acceptPage := (setStep_within _).bind fun _ => within_pure _

theorem endPass_within (c : Int) : Within x 0 (endPass c) := (onSeq_within _).bind fun _ => within_pure _

theorem countLink_within (cap : Nat) : Within x 0 (countLink cap) :=
  (setStep_within _).bind fun _ => (onSeq_within _).bind fun _ => .getThen fun _ _ => within_pure _

theorem countData_within (cap : Nat) : Within x 0 (countData cap) :=
  (setStep_within _).bind fun _ => (onSeq_within _).bind fun _ => .getThen fun _ _ => within_pure _

theorem readPage_bounded (linkCap dataCap : Nat) (linkCode dataCode : Int) (fuel : Nat) :
    ∃ b, ∀ accept, Within x b (readPage accept linkCap dataCap linkCode dataCode fuel) := by
  induction fuel with
  | zero => exact ⟨0, fun _ => abortPage_within _⟩
  | succ fuel ih =>
    obtain ⟨_, ih⟩ := ih
    obtain ⟨_, hread⟩ := pageRead_bounded (x := x) x.cfg.pageSize.toNat
    obtain ⟨_, hlink⟩ := linkInit_bounded (x := x)
    have hretry := fun accept => settle_within.bind fun _ => (setStep_within .attempt).bind fun _ => ih accept
    exact ⟨_, fun accept => .getThen fun s hs => .bind (.tryOp (by rw [hs.pageBytes]; exact hread _)) <| .except
      (fun _ => (countLink_within _).bind fun _ => .ite (abortPage_within _)
        (hlink.tryOp.bind (.except (fun _ => abortPage_within _) fun _ => hretry accept)))
      fun _ => (setRbuf_within _).bind fun _ => .getThen fun _ _ => .ite acceptPage_within
        ((countData_within _).bind fun _ => .ite (abortPage_within _) (hretry accept))⟩

theorem attemptWrite_bounded : ∃ b, ∀ p, Within x b (attemptWrite p) := by
  obtain ⟨_, hwrite⟩ := pageWrite_bounded (x := x) x.cfg.pageSize.toNat
  exact ⟨_, fun p => .getThen fun s hs => .ite (within_pure _) <| .bind
    (.tryOp (hwrite _ _ (by rw [imagePage_length, hs.pageBytes]))) <|
      .except (fun _ => within_pure _) fun _ => within_pure _⟩

theorem attempt_bounded : ∃ b, ∀ p, Within x b (attempt p) := by
  obtain ⟨_, hwrite⟩ := attemptWrite_bounded (x := x)
  obtain ⟨_, hread⟩ := pageRead_bounded (x := x) x.cfg.pageSize.toNat
  exact ⟨_, fun p => (hwrite p).bind fun _ => .ite (within_pure _) <| (onSeq_within _).bind fun _ =>
    .getThen fun s hs => .bind (.tryOp (by rw [hs.pageBytes]; exact hread _)) <| .except (fun _ => within_pure _)
      fun _ => (setRbuf_within _).bind fun _ => .getThen fun _ _ => within_pure _⟩

theorem relink_bounded : ∃ b, Within x b relink := by
  obtain ⟨_, hlink⟩ := linkInit_bounded (x := x)
  exact ⟨_, .getThen fun _ _ => hlink.tryOp.bind <| .except (fun _ => within_pure _)
    fun _ => settle_within.bind fun _ => within_pure _⟩

theorem linkRecover_bounded : ∃ b, ∀ skip, Within x b (linkRecover skip) := by
  obtain ⟨_, hrelink⟩ := relink_bounded (x := x)
  exact ⟨_, fun _ => .getThen fun _ _ => (countLink_within _).bind fun _ => .ite (within_pure _)
    ((onSeq_within _).bind fun _ => hrelink)⟩

theorem dataRecover_bounded : ∃ b, Within x b dataRecover := by
  obtain ⟨_, hrelink⟩ := relink_bounded (x := x)
  exact ⟨_, .getThen fun _ _ => (countData_within _).bind fun _ => .ite (within_pure _) hrelink⟩

theorem escalate_bounded : ∃ b, Within x b escalate := by
  obtain ⟨_, herase⟩ := pageErase_bounded (x := x)
  exact ⟨_, (setStep_within _).bind fun _ => (onSeq_within _).bind fun _ => .getThen fun _ _ => .ite (within_pure _) <|
    (herase _).tryOp.bind <| .except (fun _ => within_pure _) fun _ => (onSeq_within _).bind fun _ => within_pure _⟩

theorem blankRecover_bounded : ∃ b, Within x b blankRecover := by
  obtain ⟨_, hescalate⟩ := escalate_bounded (x := x)
  obtain ⟨_, hrelink⟩ := relink_bounded (x := x)
  exact ⟨_, (setStep_within _).bind fun _ => (onSeq_within _).bind fun _ => .getThen fun _ _ =>
    .ite (hescalate.bind <| .option (fun _ => within_pure _) hrelink) hrelink⟩

theorem recover_bounded : ∃ b, ∀ c, Within x b (recover c) := by
  obtain ⟨bl, hlink⟩ := linkRecover_bounded (x := x)
  obtain ⟨bb, hblank⟩ := blankRecover_bounded (x := x)
  obtain ⟨bd, hdata⟩ := dataRecover_bounded (x := x)
  refine ⟨bl + bb + bd, fun c => ?_⟩
  cases c with
  | success => exact (within_pure _).mono (Nat.zero_le _)
  | writeFail => exact (hlink _).mono (by omega)
  | readFail => exact (hlink _).mono (by omega)
  | blank => exact hblank.mono (by omega)
  | mismatch => exact hdata.mono (by omega)

theorem programPage_bounded (fuel : Nat) : ∃ b, ∀ p, Within x b (programPage p fuel) := by
  induction fuel with
  | zero => exact ⟨_, fun _ => .getThen fun _ _ => abortPage_within _⟩
  | succ fuel ih =>
    obtain ⟨_, ih⟩ := ih
    obtain ⟨_, hattempt⟩ := attempt_bounded (x := x)
    obtain ⟨_, hrecover⟩ := recover_bounded (x := x)
    exact ⟨_, fun p => (hattempt p).bind fun _ => .ite acceptPage_within <| (hrecover _).bind <|
      .option (fun _ => abortPage_within _) ((setStep_within _).bind fun _ => ih p)⟩

/-! ## The passes -/

section
variable {page : Nat → Op (Option Int)} {b : Nat} (hpage : ∀ p, Within x b (page p))
include hpage

theorem walkPages_bounded (pass : Pass) (n k : Nat) : ∃ b, ∀ p, Within x b (walkPages pass n page k p) := by
  induction k with
  | zero => exact ⟨_, fun _ => endPass_within 0⟩
  | succ k ih =>
    obtain ⟨_, ih⟩ := ih
    exact ⟨_, fun p => (startPage_within p).bind fun _ => (hpage p).bind <| .option (fun _ => endPass_within _)
      ((progress_within _ _ _).bind fun _ => ih _)⟩

theorem walkPass_bounded (pass : Pass) (linkCode : Int) (n : Nat) : ∃ b, Within x b (walkPass pass linkCode n page) := by
  obtain ⟨_, hlink⟩ := ensureLink_bounded (x := x)
  obtain ⟨_, hpages⟩ := walkPages_bounded hpage pass n n
  exact ⟨_, (beginPass_within _).bind fun _ => (progress_within _ _ _).bind fun _ => hlink.tryOp.bind <|
    .except (fun _ => endPass_within _) fun _ => hpages 0⟩

end

theorem passChipErase_bounded : ∃ b, Within x b passChipErase := by
  obtain ⟨_, hlink⟩ := ensureLink_bounded (x := x)
  obtain ⟨_, herase⟩ := chipErase_bounded (x := x)
  exact ⟨_, .getThen fun _ _ => (beginPass_within _).bind fun _ => (progress_within _ _ _).bind fun _ =>
    hlink.tryOp.bind <| .except (fun _ => endPass_within _) fun _ => herase.tryOp.bind <|
      .except (fun _ => endPass_within _) fun _ => endPass_within _⟩

theorem passBlankCheck_bounded : ∃ b, Within x b passBlankCheck := by
  obtain ⟨_, hpage⟩ := readPage_bounded (x := x) x.prm.bcLinkCap x.prm.bcDataCap x.prm.bcLinkCode
    x.prm.bcDataCode (readBound x.prm.bcLinkCap x.prm.bcDataCap)
  obtain ⟨_, hwalk⟩ := walkPass_bounded (fun _ => hpage rbufBlank) .blankCheck x.prm.bcLinkCode
    (x.cfg.flashSize.toNat / x.cfg.pageSize.toNat)
  exact ⟨_, .getThen fun s hs => by rw [hs.prm, hs.flashBytes, hs.pageBytes]; exact hwalk⟩

theorem passVerify_bounded : ∃ b, Within x b passVerify := by
  obtain ⟨_, hpage⟩ := readPage_bounded (x := x) x.prm.vfLinkCap x.prm.vfDataCap x.prm.vfLinkCode x.prm.vfDataCode
    (readBound x.prm.vfLinkCap x.prm.vfDataCap)
  obtain ⟨_, hwalk⟩ := walkPass_bounded (fun p => hpage (rbufIsPage p)) .verify x.prm.vfLinkCode
    (x.cfg.flashSize.toNat / x.cfg.pageSize.toNat)
  exact ⟨_, .getThen fun s hs => by rw [hs.prm, hs.flashBytes, hs.pageBytes]; exact hwalk⟩

theorem passProgram_bounded : ∃ b, Within x b passProgram := by
  obtain ⟨_, hpage⟩ := programPage_bounded (x := x) (programBound x.prm)
  obtain ⟨_, hwalk⟩ := walkPass_bounded hpage .program x.prm.pgRelinkCode (ceilDiv x.used x.cfg.pageSize.toNat)
  exact ⟨_, .getThen fun s hs => by rw [hs.prm, hs.used, hs.pageBytes]; exact hwalk⟩

/-! ## Every instruction -/

/-- The value the host port is given makes no call. -/
theorem valued_bounded {α : Type} {m : Op α} {f : α → Value} (h : ∃ b, Within x b m) :
    ∃ b, Within x b (m >>= fun a => pure (f a)) := by
  obtain ⟨_, h⟩ := h
  exact ⟨_, h.bind fun _ => within_pure _⟩

/-- A bound for one operation from one for all its operands. -/
theorem bounded_at {ι α : Type} {F : ι → Op α} (h : ∃ b, ∀ i, Within x b (F i)) (i : ι) : ∃ b, Within x b (F i) := by
  obtain ⟨b, h⟩ := h
  exact ⟨b, h i⟩

/-- A bound for every operation of the wire, of the session, of a pass. -/
theorem opOf_bounded {i : Instr} (hi : wireOnly i = true ∨ writesProgMode i = true ∨ passOf i ≠ .none) :
    ∃ b, Within x b (opOf x.prm i) := by
  cases i with
  | phyInit | phyClose | setImage _ _ => simp [wireOnly, writesProgMode, passOf] at hi
  | ldcsFrame a | ldcs a => exact valued_bounded (bounded_at ldcs_bounded a)
  | stcsFrame a v | stcs a v => exact valued_bounded ⟨_, stcs_within a v⟩
  | ldsFrame addr | lds addr => exact valued_bounded (bounded_at lds_bounded addr)
  | stsFrame addr v | sts addr v =>
    obtain ⟨b, h⟩ := sts_bounded (x := x)
    exact valued_bounded ⟨b, h addr v⟩
  | stPtr addr | setPtr addr => exact valued_bounded (bounded_at setPtr_bounded addr)
  | stPtrInc data | burstWrite data =>
    obtain ⟨b, h⟩ := burstWrite_bounded (x := x) data.length
    exact valued_bounded ⟨b, h data le_rfl⟩
  | ldPtrInc n | burstRead n => exact valued_bounded (burstRead_bounded n)
  | repeatFrame _ | repeatN _ => exact valued_bounded (bounded_at repeatOp_bounded _)
  | keyFrame key | key key => exact valued_bounded (sendKey_bounded key)
  | cmdWp | cmdEr | cmdPbc | cmdCher | execNvmCmd _ => exact valued_bounded (bounded_at execCommand_bounded _)
  | phySend bytes => exact valued_bounded ⟨_, phySend_within le_rfl⟩
  | phyRecv n => exact valued_bounded ⟨_, phyRecv_within n⟩
  | phyDoubleBreak => exact valued_bounded ⟨_, phyDoubleBreak_within⟩
  | linkInit => exact valued_bounded linkInit_bounded
  | resetToggle => exact valued_bounded resetToggle_bounded
  | enterProg => exact valued_bounded enterProg_bounded
  | exitProg => exact valued_bounded exitProg_bounded
  | waitReady => exact valued_bounded waitReady_bounded
  | chipErase => exact valued_bounded chipErase_bounded
  | pageWrite addr data =>
    obtain ⟨b, h⟩ := pageWrite_bounded (x := x) data.length
    exact valued_bounded ⟨b, h addr data le_rfl⟩
  | pageRead addr n => exact valued_bounded (bounded_at (pageRead_bounded n) addr)
  | pageErase addr => exact valued_bounded (bounded_at pageErase_bounded addr)
  | passChipErase => exact valued_bounded passChipErase_bounded
  | passBlankCheck => exact valued_bounded passBlankCheck_bounded
  | passProgram => exact valued_bounded passProgram_bounded
  | passVerify => exact valued_bounded passVerify_bounded

/-- PHY_INIT makes at most two calls (40_phy.md R80). -/
theorem phyInit_calls (s : State) : callCount (endState (phyInit s)) ≤ callCount s + 2 := by
  cases h : nextCapInit s with
  | true =>
    rw [phyInit_granted h]
    exact callCount_le_of_obs (o := [.capInit true, .setDir (some s.cfg.pin) .input]) (List.append_assoc _ _ _)
  | false =>
    rw [phyInit_denied h]
    exact (callCount_le_of_obs (o := [.capInit false]) rfl).trans (Nat.le_succ _)

/-- PHY_CLOSE makes at most one (R89). -/
theorem phyClose_calls (s : State) : callCount (endState (phyClose s)) ≤ callCount s + 1 := by
  cases h : s.phyOpen with
  | true =>
    rw [phyClose_open h]
    exact callCount_le_of_obs (o := [.setDir s.pin .input]) rfl
  | false =>
    rw [phyClose_closed h]
    exact Nat.le_succ _

/-- SET_IMAGE makes none (43_page_sequencer.md R121). -/
theorem setImage_calls (image : List Byte) (fuse : Option (List Byte)) (s : State) :
    callCount (endState (setImage image fuse s)) = callCount s := by
  rcases endState_setImage image fuse s with h | ⟨-, -, h⟩
  · rw [h]
  · rw [h]
    rfl

end

/-- One bound for an instruction, whatever the environment answers. -/
theorem opOf_calls (x : Setting) (i : Instr) : ∃ b, ∀ s : State, SetUp x (beginOp s) →
    callCount (endState (opOf x.prm i (beginOp s))) ≤ callCount s + b := by
  rcases instr_groups i with rfl | rfl | ⟨image, fuse, rfl⟩ | hi
  · exact ⟨2, fun s _ => by rw [opOf, endState_unit]; exact phyInit_calls (beginOp s)⟩
  · exact ⟨1, fun s _ => by rw [opOf, endState_unit]; exact phyClose_calls (beginOp s)⟩
  · exact ⟨0, fun s _ => by rw [opOf, endState_unit]; exact (setImage_calls image fuse (beginOp s)).le⟩
  · obtain ⟨b, h⟩ := opOf_bounded (x := x) hi
    exact ⟨b, fun s hs => (h (beginOp s) hs).2⟩

/-- Settles O60: a refused operation makes no call, an accepted one those of its operation, run from the port. -/
theorem everyOperationMakesBoundedlyManyCalls : Obligations.EveryOperationMakesBoundedlyManyCalls := by
  intro i p c used
  obtain ⟨b, hb⟩ := opOf_calls ⟨p, c, used⟩ i
  refine ⟨b, fun s t hp hc hu h => ?_⟩
  cases ha : accepts i s with
  | true =>
    obtain ⟨r, rfl⟩ := exists_deliver_of_exec ha h
    rw [hp]
    exact (callCount_deliver r _).trans_le (hb s ⟨hp, hc, hu, idle_beginOp s⟩)
  | false =>
    rw [refusedOperationSetsRefusedAlone i s ha, Host.Outcome.next.injEq] at h
    rw [← h]
    exact Nat.le_add_right _ _

end Sys2Proof.Machine
end

section
/-! The sequencer from the host port (43_page_sequencer.md R121 to R136): SET_IMAGE, the chip-erase pass, and the
page-walking passes for every way their pages can go, on an open PHY and on a closed one. -/

namespace Sys2Proof.Machine

open Sys2Proof.Safety

/-! ## SET_IMAGE (R121) -/

theorem le_imageUsed {d : Byte} (bs : List Byte) : ∀ {o used : Nat}, used ≤ o → used ≤ imageUsed d o used bs := by
  induction bs with
  | nil => exact fun _ => le_rfl
  | cons b bs ih =>
    intro o used h
    rw [imageUsed]
    split
    · exact ih (h.trans (Nat.le_succ o))
    · exact (h.trans (Nat.le_succ o)).trans (ih le_rfl)

/-- At and above the watermark every byte is the unlisted one. -/
theorem getD_of_imageUsed_le {d : Byte} (bs : List Byte) : ∀ {o used k : Nat}, imageUsed d o used bs ≤ o + k →
    (bs[k]?).getD d = d := by
  induction bs with
  | nil => exact fun _ => rfl
  | cons b bs ih =>
    intro o used k h
    rw [imageUsed] at h
    cases k with
    | zero =>
      by_cases hb : b = d
      · exact hb
      · rw [if_neg hb] at h
        exact absurd ((le_imageUsed bs le_rfl).trans h) (Nat.not_succ_le_self o)
    | succ k =>
      refine ih (h.trans_eq ?_)
      omega

/-- The watermark is where it was, or one past a byte that is not the unlisted one. -/
theorem imageUsed_cases {d : Byte} (bs : List Byte) : ∀ o used : Nat, imageUsed d o used bs = used ∨
    ∃ k, imageUsed d o used bs = o + k + 1 ∧ (bs[k]?).getD d ≠ d := by
  induction bs with
  | nil => exact fun _ _ => .inl rfl
  | cons b bs ih =>
    intro o used
    rw [imageUsed]
    rcases ih (o + 1) (if b = d then used else o + 1) with h | ⟨k, h, hk⟩
    · by_cases hb : b = d
      · exact .inl (h.trans (if_pos hb))
      · exact .inr ⟨0, h.trans (if_neg hb), hb⟩
    · exact .inr ⟨k + 1, by omega, hk⟩

theorem setImage_stores {s : State} {image : List Byte} {fuse : Option (List Byte)} (h : image.length ≤ flashBytes s)
    (hf : fuseFits s fuse = true) : setImage image fuse s = .ok () (storeImage image fuse s) := by
  rw [setImage, get_bind, if_neg h.not_gt, if_pos hf]
  rfl

/-- Settles O43: the image memory's own law gives each byte, and the watermark is one past the last that is listed. -/
theorem setImageStoresTheWholeImage : Obligations.SetImageStoresTheWholeImage := by
  intro s image fuse ha hlen hfuse
  have hfit : fuseFits (beginOp s) fuse = true := by
    cases fuse with
    | none => rfl
    | some l => exact beq_iff_eq.2 (hfuse l rfl)
  have hbyte := imageByte_storeImage image fuse (beginOp s)
  have hexec : exec (.setImage image fuse) s = .next (deliver (.ok .none) (storeImage image fuse (beginOp s))) := by
    refine (serve_accepted ha _).trans ?_
    rw [unit_ok (setImage_stores (s := beginOp s) hlen hfit)]
    rfl
  refine ⟨_, hexec, ?_, hbyte, fun o ho => (hbyte o).trans ?_, fun hu => ?_⟩
  · have hbusy := busy_of_accepts ha
    simp [deliver, storeImage, beginOp, hbusy]
  · refine getD_of_imageUsed_le (o := 0) (used := 0) image ?_
    rwa [Nat.zero_add]
  · rcases imageUsed_cases (d := s.prm.eraseValue) image 0 0 with h | ⟨k, h, hk⟩
    · exact absurd h hu
    · have hlast : imageUsed s.prm.eraseValue 0 0 image - 1 = k := by omega
      exact (congrArg (· ≠ s.prm.eraseValue) ((hbyte _).trans (by rw [← hlast]; rfl))).mpr hk

/-! ## A pass at the host port -/

section
variable {s : State} {i : Instr} {m : Op Int} {c : Int} {bs : List Beat} {v : Bool} {q : Seq}

theorem done_rbuf (s : State) (bs : List Beat) (r : Result) : (done s bs r).rbuf = s.rbuf := playAll_rbuf bs (beginOp s)

theorem done_progMode (s : State) (bs : List Beat) (r : Result) : (done s bs r).progMode = s.progMode :=
  playAll_progMode bs (beginOp s)

/-- An accepted pass that read no page back. -/
theorem serve_insideUnread (ha : accepts i s = true)
    (h : m (beginOp s) = .ok c (inside (beginOp s) bs v q s.rbuf)) :
    serve i (codeValue m) s = .next { done s bs (.ok (.code c)) with progMode := v, seq := q } := by
  rw [serve_inside ha h, ← done_rbuf s bs (.ok (.code c))]

/-- An accepted pass that read no page back and left the flag. -/
theorem serve_insideSeq (ha : accepts i s = true)
    (h : m (beginOp s) = .ok c (inside (beginOp s) bs s.progMode q s.rbuf)) :
    serve i (codeValue m) s = .next { done s bs (.ok (.code c)) with seq := q } := by
  rw [serve_insideUnread ha h, ← done_progMode s bs (.ok (.code c))]

end

/-! ## The start of a pass (R122, R123) -/

section
variable {s u : State} {pass : Pass} {n : Nat}

/-- Every pass begins, reports its start and tries the link. -/
theorem beginPass_then (k : Except Err Unit → Op Int) :
    (beginPass pass >>= fun _ => progress pass 0 n >>= fun _ => tryOp ensureLink >>= k) u =
      (tryOp ensureLink >>= k) (inside u [.event pass 0 n] u.progMode (seqBegun pass u) u.rbuf) := by
  rw [bind_ok (beginPass_inside pass)]
  exact bind_ok (progress_inside _ _ _)

/-- With the flag false the link is set up (R123). -/
theorem ensureLink_down (h : u.progMode = false) : ensureLink u = linkInit u := by
  rw [ensureLink, get_bind, h]
  rfl

/-- What every pass does with a link that is not to be had. -/
theorem tryLink_ends {k : Except Err Unit → Op Int} {code : Int} (hk : ∀ e, k (.error e) = endPass code) {e : Err}
    {bs : List Beat} (h : linkInit (inside u [.event pass 0 n] false (seqBegun pass u) u.rbuf) =
      .error e (inside u bs false (seqBegun pass u) u.rbuf)) :
    (tryOp ensureLink >>= k) (inside u [.event pass 0 n] false (seqBegun pass u) u.rbuf) =
      .ok code (inside u bs false (seqStarted u) u.rbuf) := by
  rw [bind_ok (tryOp_error ((ensureLink_down rfl).trans h)), hk]
  exact endPass_inside code

end

/-- What a page-walking pass does once the link was tried. -/
def walkLinked (pass : Pass) (linkCode : Int) (n : Nat) (page : Nat → Op (Option Int)) (link : Except Err Unit) :
    Op Int :=
  match link with
  | .error _ => endPass linkCode
  | .ok _ => walkPages pass n page n 0

theorem walkPass_begins (pass : Pass) (linkCode : Int) (n : Nat) (page : Nat → Op (Option Int)) (u : State) :
    walkPass pass linkCode n page u = (tryOp ensureLink >>= walkLinked pass linkCode n page)
      (inside u [.event pass 0 n] u.progMode (seqBegun pass u) u.rbuf) := beginPass_then _

/-! ## PASS_CHIP_ERASE (R124) -/

/-- What the chip-erase pass does once the link was tried. -/
def eraseLinked (p : Params) (link : Except Err Unit) : Op Int :=
  match link with
  | .error _ => endPass p.ceLinkCode
  | .ok _ => do
    let r ← tryOp chipErase
    match r with
    | .error _ => endPass p.ceEraseCode
    | .ok _ => endPass 0

theorem passChipErase_begins (u : State) : passChipErase u = (tryOp ensureLink >>= eraseLinked u.prm)
    (inside u [.event .chipErase 0 1] u.progMode (seqBegun .chipErase u) u.rbuf) := by
  rw [passChipErase, get_bind]
  exact beginPass_then _

section
variable {s : State} (hr : ready .passChipErase s = true) {lazy : Option LinkRun} (hl : lazyFits s lazy = true)
  {bs : List Beat}
include hr hl

/-- The chip-erase pass whose erase tells a trace, the link up or brought up. -/
theorem exec_passChipErase_linked {r : Except Err Unit} {code : Int} (h : Tells s chipErase bs r)
    (hcode : code = match r with | .error _ => s.prm.ceEraseCode | .ok _ => 0)
    (hh : answers s ([.event .chipErase 0 1] ++ lazyBeats s lazy ++ bs) = true) :
    exec .passChipErase s = .next
      { done s ([.event .chipErase 0 1] ++ lazyBeats s lazy ++ bs) (.ok (.code code)) with
        progMode := true, seq := seqStarted s } := by
  obtain ⟨ha, ho⟩ := ready_iff.1 hr
  have B := base_beginOp ho
  have hb := answers_fromPort hh
  refine serve_insideUnread ha ?_
  rw [passChipErase_begins]
  refine (bind_ok (tryOp_ok (ensureLink_inside B lazy hl (answers_left hb)))).trans ?_
  have herase := h.inside B (v := true) (q := seqBegun .chipErase (beginOp s)) (b := s.rbuf) hb
  cases r with
  | ok _ =>
    rw [hcode]
    exact (bind_ok (tryOp_ok herase)).trans (endPass_inside _)
  | error _ =>
    rw [hcode]
    exact (bind_ok (tryOp_error herase)).trans (endPass_inside _)

end

/-- Settles O44: the link up or brought up, then the erase's own script; on a closed PHY the erase fails at once. -/
theorem passChipEraseErasesTheChip : Obligations.PassChipEraseErasesTheChip := by
  intro s
  refine ⟨fun lazy hr hl => ⟨fun r hf hh => ?_, fun f hf hh => ?_⟩, fun ha ho hm => ?_⟩
  · exact exec_passChipErase_linked hr hl (tells_chipErase r hf) rfl hh
  · exact exec_passChipErase_linked hr hl (tells_chipFail f hf) rfl hh
  · obtain ⟨e, he⟩ := chipErase_closed (inside_closed (u := beginOp s) ho (bs := [.event .chipErase 0 1])
      (v := s.progMode) (q := seqBegun .chipErase (beginOp s)) (b := s.rbuf))
    refine serve_insideSeq ha ?_
    rw [passChipErase_begins]
    refine (bind_ok (tryOp_ok (ensureLink_flagged (u := inside (beginOp s) [.event .chipErase 0 1] s.progMode
      (seqBegun .chipErase (beginOp s)) s.rbuf) hm))).trans ?_
    exact (bind_ok (tryOp_error he)).trans (endPass_inside _)

/-! ## The page-walking passes as walks -/

section
variable {s : State}

theorem exec_passProgram (hu : s.bytesUsed ≤ flashBytes s) :
    exec .passProgram s = serve .passProgram (codeValue passProgram) s := by
  change execPassProgram s = _
  rw [execPassProgram, decide_eq_false hu.not_gt, Bool.and_false, if_neg Bool.false_ne_true]

theorem passProgram_walks (u : State) : passProgram u =
    walkPass .program u.prm.pgRelinkCode (pagesOf u .program) (fun p => programPage p (programBound u.prm)) u :=
  get_bind _

/-- The page-walking passes are walks over their pages, which a link that is not to be had ends with their link code. -/
theorem exec_walks {i : Instr} (hi : i = .passBlankCheck ∨ i = .passVerify ∨ (i = .passProgram ∧ s.bytesUsed ≤ flashBytes s)) :
    ∃ m page, exec i s = serve i (codeValue m) s ∧
      m (beginOp s) = walkPass (passOf i) (lazyCode s.prm (passOf i)) (pagesOf s (passOf i)) page (beginOp s) := by
  rcases hi with rfl | rfl | ⟨rfl, hu⟩
  · exact ⟨passBlankCheck, _, rfl, get_bind _⟩
  · exact ⟨passVerify, _, rfl, get_bind _⟩
  · exact ⟨passProgram, _, exec_passProgram hu, get_bind _⟩

/-- The page loop of a reading pass (R126, R136). -/
def readLoop (rules : ReadRules) (acc : Nat → State → Bool) (p : Nat) : Op (Option Int) :=
  readPage (acc p) rules.linkCap rules.dataCap rules.linkCode rules.dataCode (readBound rules.linkCap rules.dataCap)

theorem imagePage_inside (u : State) (bs : List Beat) (v : Bool) (q : Seq) (b : List Byte) (p : Nat) :
    imagePage (inside u bs v q b) p = imagePage u p := by
  simp [imagePage, imageByte, pageBytes, inside, withSession, playAll_cfg, playAll_prm, playAll_flashImage]

/-- Blank-Check and Verify are walks by their rules. -/
theorem exec_reads {i : Instr} {rules : ReadRules}
    (hi : (i = .passBlankCheck ∧ rules = blankRules s) ∨ (i = .passVerify ∧ rules = verifyRules s)) :
    ∃ m acc, exec i s = serve i (codeValue m) s ∧
      m (beginOp s) = walkPass rules.pass rules.linkCode (pagesOf s rules.pass) (readLoop rules acc) (beginOp s) ∧
      ∀ p bs v q b, acc p (inside (beginOp s) bs v q b) = rules.accept p b := by
  rcases hi with ⟨rfl, rfl⟩ | ⟨rfl, rfl⟩
  · refine ⟨passBlankCheck, fun _ => rbufBlank, rfl, get_bind _, fun p bs v q b => ?_⟩
    exact congrArg (isBlank · b) (playAll_prm bs (beginOp s))
  · refine ⟨passVerify, rbufIsPage, rfl, get_bind _, fun p bs v q b => ?_⟩
    rw [rbufIsPage, imagePage_inside]
    rfl

end

/-! ## Every page accepted -/

/-- A reading pass whose pages are all accepted returns 0 (R126, R136). -/
theorem exec_reads_done {s : State} {i : Instr} {rules : ReadRules}
    (hi : (i = .passBlankCheck ∧ rules = blankRules s) ∨ (i = .passVerify ∧ rules = verifyRules s))
    {lazy : Option LinkRun} {runs : Nat → ReadPageRun} (hr : ready i s = true) (hl : lazyFits s lazy = true)
    (hp : ∀ p < pagesOf s rules.pass, readPageFits s rules p (runs p) = true)
    (hh : answers s (readPassBeats s rules (pagesOf s rules.pass) lazy runs) = true) :
    exec i s = .next
      { done s (readPassBeats s rules (pagesOf s rules.pass) lazy runs) (.ok (.code 0)) with
        progMode := true
        seq := seqDone s (pagesOf s rules.pass) fun p => readTally (runs p).tries
        rbuf := rbufAfter s (pagesOf s rules.pass) fun p => (runs p).last.bytes } := by
  obtain ⟨ha, ho⟩ := ready_iff.1 hr
  obtain ⟨h2, hmax⟩ := accepts_sizes ha
  obtain ⟨m, acc, hexec, hm, hacc⟩ := exec_reads hi
  rw [hexec]
  exact serve_inside ha (hm.trans (readPass_done ho h2 hmax hacc hl hp _ hh))

/-- Settles O45, by the rules of Blank-Check. -/
theorem passBlankCheckAcceptsAnErasedFlash : Obligations.PassBlankCheckAcceptsAnErasedFlash :=
  fun _ _ _ hr hl hp hh => exec_reads_done (.inl ⟨rfl, rfl⟩) hr hl hp hh

/-- Settles O47, by the rules of Verify. -/
theorem passVerifyAcceptsAnEqualFlash : Obligations.PassVerifyAcceptsAnEqualFlash :=
  fun _ _ _ hr hl hp hh => exec_reads_done (.inr ⟨rfl, rfl⟩) hr hl hp hh

section
variable {s : State} (ho : s.phyOpen = true) (h2 : 2 ≤ pageBytes s) (hmax : pageBytes s ≤ s.prm.maxBurst)
  {runs : Nat → ProgPageRun} {lazy : Option LinkRun}
include ho h2 hmax

theorem programPages_run {m : Nat} (hp : ∀ p < m, progPageFits s p (runs p) = true) :
    PagesRun s (beginOp s) .program (fun p => programPage p (programBound s.prm)) (fun p => progPageBeats s p (runs p))
      (fun p => { progTriesTally s (runs p).tries with skip := false }) (fun p => (runs p).last.bytes) m :=
  fun p h _ _ hb => programPage_accepts (base_beginOp ho) h2 hmax (runs p) (hp p h) hb

/-- A Program pass whose pages are all accepted (R130). -/
theorem passProgram_done (hl : lazyFits s lazy = true) (hp : ∀ p < pagesOf s .program, progPageFits s p (runs p) = true)
    (hh : answers s (progPassBeats s (pagesOf s .program) lazy runs) = true) :
    passProgram (beginOp s) =
      .ok 0 (inside (beginOp s) (progPassBeats s (pagesOf s .program) lazy runs) true
        (seqDone s (pagesOf s .program) fun p => { progTriesTally s (runs p).tries with skip := false })
        (rbufAfter s (pagesOf s .program) fun p => (runs p).last.bytes)) := by
  have B := base_beginOp ho
  have hb := answers_fromPort hh
  rw [passProgram_walks]
  refine (walkPass_linked B rfl _ lazy hl (answers_left hb)).trans ?_
  exact walkPages_done B (programPages_run ho h2 hmax hp) rfl hb

/-- A Program pass that a page ends (R125, R132 to R135). -/
theorem passProgram_stops (hl : lazyFits s lazy = true) {m : Nat} (hm : m < pagesOf s .program) {tries : List ProgTry}
    {stop : ProgStop} (hp : ∀ p < m, progPageFits s p (runs p) = true) (ht : progTriesFit s m Tally.zero tries = true)
    (hs : progStopFits s m (progTriesTally s tries) stop = true)
    (hh : answers s (progPassBeats s m lazy runs ++ progTriesBeats s m Tally.zero tries ++
      progStopBeats s m (progTriesTally s tries) stop) = true) :
    passProgram (beginOp s) =
      .ok (progStopCode s.prm stop)
        (inside (beginOp s) (progPassBeats s m lazy runs ++ progTriesBeats s m Tally.zero tries ++
            progStopBeats s m (progTriesTally s tries) stop) (progStopMode stop)
          (seqOver s m (progStopTally s (progTriesTally s tries) stop) .abort)
          (progStopRbuf (progTriesRbuf (rbufAfter s m fun p => (runs p).last.bytes) tries) stop)) := by
  have B := base_beginOp ho
  have hb := answers_fromPort hh
  have hw := answers_left (answers_left hb)
  rw [passProgram_walks]
  refine (walkPass_linked B rfl _ lazy hl (answers_left hw)).trans ?_
  exact walkPages_aborts B hm (programPages_run ho h2 hmax hp) rfl hw (programPage_stops B h2 hmax tries stop ht hs hb)

end

/-- With nothing to write there is no page (R130). -/
theorem pagesOf_program_unused {s : State} (hu : s.bytesUsed = 0) (h2 : 2 ≤ pageBytes s) : pagesOf s .program = 0 := by
  rw [pagesOf, ceilDiv, hu]
  exact Nat.div_eq_of_lt (by omega)

/-- Settles O46: every used page accepted; with none, the pass begins and ends. -/
theorem passProgramWritesEveryUsedPage : Obligations.PassProgramWritesEveryUsedPage := by
  intro s
  refine ⟨fun lazy runs hr hu hl hp hh => ?_, fun ha hu hm => ?_⟩
  · obtain ⟨ha, ho⟩ := ready_iff.1 hr
    obtain ⟨h2, hmax⟩ := accepts_sizes ha
    rw [exec_passProgram hu]
    exact serve_inside ha (passProgram_done ho h2 hmax hl hp hh)
  · obtain ⟨h2, -⟩ := accepts_sizes ha
    have hn : pagesOf (beginOp s) .program = 0 := pagesOf_program_unused (s := beginOp s) hu h2
    rw [exec_passProgram (hu.trans_le (Nat.zero_le _))]
    refine serve_insideSeq ha ?_
    rw [passProgram_walks, hn, hm]
    exact (walkPass_flagged (u := beginOp s) hm _ _ _ _).trans (endPass_inside 0)

/-! ## No link to be had (R123, R144) -/

/-- LINK_INIT fails after the start event of a pass over `n` pages, leaving the trace `bs`. -/
def FailsAtStart (s : State) (pass : Pass) (n : Nat) (bs : List Beat) : Prop :=
  ∃ e, linkInit (inside (beginOp s) [.event pass 0 n] false (seqBegun pass (beginOp s)) s.rbuf) =
    .error e (inside (beginOp s) bs false (seqBegun pass (beginOp s)) s.rbuf)

section
variable {s : State} {pass : Pass} {n : Nat}

theorem failsAtStart_closed (hc : s.phyOpen = false) (hn : 0 < s.prm.linkInitAttempts) :
    FailsAtStart s pass n [.event pass 0 n] :=
  ⟨_, linkInit_insideClosed (u := beginOp s) hc hn⟩

theorem failsAtStart_open (ho : s.phyOpen = true) {fs : List AttemptFail} (hf : linkFailFits s fs = true)
    (hh : answers s ([.event pass 0 n] ++ linkFailBeats s fs) = true) :
    FailsAtStart s pass n ([.event pass 0 n] ++ linkFailBeats s fs) :=
  ⟨_, (sets_linkFail fs hf).inside (base_beginOp ho) (answers_fromPort hh)⟩

variable (hm : s.progMode = false) {bs : List Beat}
include hm

theorem exec_passChipErase_unlinked (ha : accepts .passChipErase s = true) (h : FailsAtStart s .chipErase 1 bs) :
    exec .passChipErase s = .next { done s bs (.ok (.code s.prm.ceLinkCode)) with seq := seqStarted s } := by
  obtain ⟨e, he⟩ := h
  refine serve_insideSeq ha ?_
  rw [passChipErase_begins, show (beginOp s).progMode = false from hm, hm]
  exact tryLink_ends (fun _ => rfl) he

theorem exec_walk_unlinked {i : Instr}
    (hi : i = .passBlankCheck ∨ i = .passVerify ∨ (i = .passProgram ∧ s.bytesUsed ≤ flashBytes s))
    (ha : accepts i s = true) (h : FailsAtStart s (passOf i) (pagesOf s (passOf i)) bs) :
    exec i s = .next { done s bs (.ok (.code (lazyCode s.prm (passOf i)))) with seq := seqStarted s } := by
  obtain ⟨e, he⟩ := h
  obtain ⟨m, page, hexec, hwalk⟩ := exec_walks hi
  rw [hexec]
  refine serve_insideSeq ha (hwalk.trans ?_)
  rw [walkPass_begins, show (beginOp s).progMode = false from hm, hm]
  exact tryLink_ends (fun _ => rfl) he

end

/-- Settles O50: every pass tries the link after its start event; on a closed PHY that fails at once. -/
theorem lazyLinkFailureEndsThePassWithItsLinkCode : Obligations.LazyLinkFailureEndsThePassWithItsLinkCode := by
  intro s hm hn
  refine ⟨fun ha => ⟨fun hc => ?_, fun fs ho hf hh => ?_⟩, fun i hi ha => ⟨fun hc => ?_, fun fs ho hf hh => ?_⟩⟩
  · exact exec_passChipErase_unlinked hm ha (failsAtStart_closed hc hn)
  · exact exec_passChipErase_unlinked hm ha (failsAtStart_open ho hf hh)
  · exact exec_walk_unlinked hm hi ha (failsAtStart_closed hc hn)
  · exact exec_walk_unlinked hm hi ha (failsAtStart_open ho hf hh)

/-! ## A page that ends its pass (R125, R133 to R136) -/

theorem countLink_counts (cap : Nat) (s : State) : countLink cap s = .ok (decide (cap < s.seq.linkErr + 1))
    { s with seq := { s.seq with step := .linkRetry, linkErr := s.seq.linkErr + 1 } } := rfl

theorem countData_counts (cap : Nat) (s : State) : countData cap s = .ok (decide (cap < s.seq.dataErr + 1))
    { s with seq := { s.seq with step := .dataRetry, dataErr := s.seq.dataErr + 1 } } := rfl

/-- The session fields after an escalation that its cap forbids (R133). -/
def seqEscalated (q : Seq) : Seq := { q with step := .eraseEscalate, blankCnt := q.blankCnt + 1, escCnt := q.escCnt + 1 }

theorem linkRecover_aboveCap {s : State} (skip : Bool) (h : s.prm.pgLinkCap ≤ s.seq.linkErr) :
    linkRecover skip s = .ok (some s.prm.pgLinkCode)
      { s with seq := { s.seq with step := .linkRetry, linkErr := s.seq.linkErr + 1 } } := by
  rw [linkRecover, get_bind, bind_ok (countLink_counts _ _), decide_eq_true (Nat.lt_succ_of_le h)]
  rfl

theorem dataRecover_aboveCap {s : State} (h : s.prm.pgDataCap ≤ s.seq.dataErr) :
    dataRecover s = .ok (some s.prm.pgDataCode)
      { s with seq := { s.seq with step := .dataRetry, dataErr := s.seq.dataErr + 1 } } := by
  rw [dataRecover, get_bind, bind_ok (countData_counts _ _), decide_eq_true (Nat.lt_succ_of_le h)]
  rfl

theorem escalate_aboveCap {s : State} (h : s.prm.pgEscCap ≤ s.seq.escCnt) :
    escalate s = .ok (some s.prm.pgEscCode)
      { s with seq := { s.seq with step := .eraseEscalate, escCnt := s.seq.escCnt + 1 } } :=
  congrFun (if_pos (Nat.lt_succ_of_le h)) _

theorem blankRecover_aboveCap {s : State} (hb : s.prm.pgBlankCap ≤ s.seq.blankCnt) (he : s.prm.pgEscCap ≤ s.seq.escCnt) :
    blankRecover s = .ok (some s.prm.pgEscCode) { s with seq := seqEscalated s.seq } := by
  refine (congrFun (if_pos (Nat.lt_succ_of_le hb)) _).trans ?_
  exact bind_ok (escalate_aboveCap (s := { s with seq := { s.seq with
    step := .linkRetry, blankCnt := s.seq.blankCnt + 1 } }) he)

section
variable {s : State} (hc : s.phyOpen = false) (hm : s.progMode = true) (hn : 0 < s.prm.linkInitAttempts)
include hc hm hn

/-- A reading pass on a closed PHY ends at its first page's read (R145). -/
theorem exec_reads_closed {i : Instr} {rules : ReadRules}
    (hi : (i = .passBlankCheck ∧ rules = blankRules s) ∨ (i = .passVerify ∧ rules = verifyRules s))
    (ha : accepts i s = true) (hp : 0 < pagesOf s rules.pass) :
    exec i s = .next
      { done s [.event rules.pass 0 (pagesOf s rules.pass)] (.ok (.code rules.linkCode)) with
        progMode := rules.linkCap == 0
        seq := seqOver s 0 { Tally.zero with link := 1 } .abort } := by
  obtain ⟨m, acc, hexec, hwalk, -⟩ := exec_reads hi
  rw [hexec]
  refine serve_insideUnread ha (hwalk.trans ?_)
  refine (walkPass_flagged (u := beginOp s) hm _ _ _ _).trans ?_
  refine walkPages_abortsAtOnce (u := beginOp s) (t := { Tally.zero with link := 1 }) hp rfl ?_
  have hcap : (rules.linkCap == 0) = decide (rules.linkCap < 0 + 1) := by
    rw [Bool.eq_iff_iff, beq_iff_eq, decide_eq_true_eq]
    omega
  rw [hcap]
  exact readPage_closed (u := beginOp s) hc hn _ _ _ _ _ _

/-- Program on a closed PHY ends at its first page's write (R145). -/
theorem exec_passProgram_closed (ha : accepts .passProgram s = true) (hu : s.bytesUsed ≤ flashBytes s)
    (hp : 0 < pagesOf s .program) :
    exec .passProgram s = .next
      { done s [.event .program 0 (pagesOf s .program)]
          (.ok (.code (if s.prm.pgLinkCap = 0 then s.prm.pgLinkCode else s.prm.pgRelinkCode))) with
        progMode := s.prm.pgLinkCap == 0
        seq := seqOver s 0 { Tally.zero with link := 1 } .abort } := by
  rw [exec_passProgram hu]
  refine serve_insideUnread ha ((passProgram_walks _).trans ?_)
  refine (walkPass_flagged (u := beginOp s) hm _ _ _ _).trans ?_
  refine walkPages_abortsAtOnce (u := beginOp s) (t := { Tally.zero with link := 1 }) hp rfl ?_
  have hcap : s.prm.pgLinkCap = 0 ↔ s.prm.pgLinkCap < 0 + 1 := by omega
  have hmode : (s.prm.pgLinkCap == 0) = decide (s.prm.pgLinkCap < 0 + 1) := by
    rw [Bool.eq_iff_iff, beq_iff_eq, decide_eq_true_eq, hcap]
  obtain ⟨k, hk⟩ : ∃ k, programBound s.prm = k + 1 := by
    refine ⟨programBound s.prm - 1, (Nat.succ_pred_eq_of_pos ?_).symm⟩
    exact Nat.add_pos_right _ (Nat.mul_pos (Nat.succ_pos _) (Nat.succ_pos _))
  rw [show programBound (beginOp s).prm = k + 1 from hk, hmode, if_congr hcap rfl rfl]
  exact programPage_closed (u := beginOp s) hc hn 0 k rfl

end

/-- Settles O51: the pages before, the tries within the caps and the stop are the page walk's own script; above a cap each
recovery ends at its count; on a closed PHY the first page ends at once. -/
theorem recoveryEndsThePageAboveItsCaps : Obligations.RecoveryEndsThePageAboveItsCaps := by
  intro s
  refine ⟨fun i rules hi lazy runs m tries stop hr hl hm hp ht hs hh => ?_,
    fun lazy runs m tries stop hr hu hl hm hp ht hs hh => ?_,
    fun skip h => ⟨_, linkRecover_aboveCap skip h, rfl, rfl, rfl⟩,
    fun h => ⟨_, dataRecover_aboveCap h, rfl, rfl⟩,
    fun hb he => ⟨_, blankRecover_aboveCap hb he, rfl, rfl, rfl⟩,
    fun i rules hi ha hc hm hn hp => exec_reads_closed hc hm hn hi ha hp,
    fun ha hc hm hn hu hp => exec_passProgram_closed hc hm hn ha hu hp⟩
  · obtain ⟨ha, ho⟩ := ready_iff.1 hr
    obtain ⟨h2, hmax⟩ := accepts_sizes ha
    obtain ⟨m', acc, hexec, hwalk, hacc⟩ := exec_reads hi
    rw [hexec]
    exact serve_inside ha (hwalk.trans (readPass_stops ho h2 hmax hacc hl hm hp ht hs _ hh))
  · obtain ⟨ha, ho⟩ := ready_iff.1 hr
    obtain ⟨h2, hmax⟩ := accepts_sizes ha
    rw [exec_passProgram hu]
    exact serve_inside ha (passProgram_stops ho h2 hmax hl hm hp ht hs hh)

end Sys2Proof.Machine
end

section
/-! The page loops' bounds on reads and attempts (60_exceptions.md R156): each retry spends one unit of what the caps
leave, so a loop with more fuel than that never runs out of it. -/

namespace Sys2Proof.Machine

open Sys2Proof.Safety

/-! ## What an operation ends with, where it ends with a value -/

/-- From `s`, a value the operation answers and the state it leaves have the property. -/
def Ensures {α : Type} (m : Op α) (s : State) (Q : α → State → Prop) : Prop := ∀ ⦃a : α⦄ ⦃t : State⦄, m s = .ok a t → Q a t

section
variable {α β : Type} {P Q : α → State → Prop} {T : β → State → Prop} {R : State → State → Prop} {s : State}

theorem ensures_pure {a : α} (h : Q a s) : Ensures (pure a : Op α) s Q := by
  intro b t e
  obtain ⟨rfl, rfl⟩ : a = b ∧ s = t := by simpa using e
  exact h

theorem ensures_raise (e : Err) : Ensures (raise e : Op α) s Q := by
  intro a t h
  simp at h

theorem Ensures.bind {m : Op α} {f : α → Op β} (hm : Ensures m s P) (hf : ∀ a t, P a t → Ensures (f a) t T) :
    Ensures (m >>= f) s T := by
  intro b u e
  rw [bind_apply] at e
  cases h : m s with
  | ok a t =>
    rw [h] at e
    exact hf a t (hm h) e
  | error x t =>
    rw [h] at e
    cases e

theorem Ensures.getThen {f : State → Op β} (h : Ensures (f s) s T) : Ensures (get >>= f) s T := h

theorem Ensures.onSeq {g : Seq → Seq} {f : Unit → Op β} (h : Ensures (f ()) { s with seq := g s.seq } T) :
    Ensures (onSeq g >>= f) s T := h

theorem Ensures.mono {m : Op α} (hm : Ensures m s P) (h : ∀ a t, P a t → Q a t) : Ensures m s Q :=
  fun _ _ e => h _ _ (hm e)

theorem ensures_ite {c : Prop} [Decidable c] {m n : Op α} (hm : c → Ensures m s Q) (hn : ¬ c → Ensures n s Q) :
    Ensures (if c then m else n) s Q := by
  split
  · exact hm ‹_›
  · exact hn ‹_›

theorem Keeps.ensures {m : Op α} (hm : Keeps R m) : Ensures m s fun _ t => R s t := by
  intro a t e
  have h := hm s
  rw [e] at h
  exact h

/-- Two continuations that agree on all that the first part can leave. -/
theorem bind_agree_of_ensures {m : Op α} {f g : α → Op β} (hm : Ensures m s P) (h : ∀ a t, P a t → f a t = g a t) :
    (m >>= f) s = (m >>= g) s := by
  rw [bind_apply, bind_apply]
  cases e : m s with
  | ok a t => exact h a t (hm e)
  | error x t => rfl

theorem bind_agree {m : Op α} {f g : α → Op β} (hm : Keeps R m) (h : ∀ a t, R s t → f a t = g a t) :
    (m >>= f) s = (m >>= g) s := bind_agree_of_ensures hm.ensures h

end

/-! ## The counters of the retries (10_state.md R24) -/

/-- The parameters and the counters of failures are the same. -/
structure SameCounts (s t : State) : Prop where
  prm : t.prm = s.prm
  linkErr : t.seq.linkErr = s.seq.linkErr
  dataErr : t.seq.dataErr = s.seq.dataErr
  blankCnt : t.seq.blankCnt = s.seq.blankCnt
  escCnt : t.seq.escCnt = s.seq.escCnt

theorem sameCounts_frame : Frame SameCounts where
  refl _ := ⟨rfl, rfl, rfl, rfl, rfl⟩
  trans h1 h2 := ⟨h2.prm.trans h1.prm, h2.linkErr.trans h1.linkErr, h2.dataErr.trans h1.dataErr,
    h2.blankCnt.trans h1.blankCnt, h2.escCnt.trans h1.escCnt⟩

theorem sameCounts_of_seq {s t : State} (hp : t.prm = s.prm) (hq : t.seq = s.seq) : SameCounts s t :=
  ⟨hp, by rw [hq], by rw [hq], by rw [hq], by rw [hq]⟩

theorem sameCounts_play (s : State) (b : Beat) : SameCounts s (play s b) := sameCounts_of_seq (play_prm s b) (play_seq s b)

theorem phySend_sameCounts (bytes : List Byte) : Keeps SameCounts (phySend bytes) := by
  intro s
  cases ho : s.phyOpen with
  | true =>
    obtain ⟨t, h⟩ := sendChars_eq bytes 0 (settled s) rfl
    rw [phySend_settled bytes ho, bind_ok h]
    exact ⟨rfl, rfl, rfl, rfl, rfl⟩
  | false => rw [phySend_closed bytes ho]; exact sameCounts_frame.refl s

/-- A receive clears the receive register before it polls (R83). -/
theorem phyRecv_clears {s : State} (n : Nat) (ho : s.phyOpen = true) : phyRecv n s = phyRecv n { s with rx := Rx.idle } := by
  have ho' : ({ s with rx := Rx.idle } : State).phyOpen = true := ho
  rw [phyRecv, bind_apply, bind_apply, requireOpen_open ho, requireOpen_open ho']
  rfl

theorem phyRecv_sameCounts (n : Nat) : Keeps SameCounts (phyRecv n) := by
  intro s
  cases ho : s.phyOpen with
  | true =>
    obtain ⟨heard, -, h⟩ := phyRecv_total (s := { s with rx := Rx.idle }) n ho rfl
    rw [phyRecv_clears n ho, h]
    exact sameCounts_frame.trans (t := { s with rx := Rx.idle }) ⟨rfl, rfl, rfl, rfl, rfl⟩ (sameCounts_play _ (.rx n heard))
  | false => rw [phyRecv_closed n ho]; exact sameCounts_frame.refl s

theorem phyDoubleBreak_sameCounts : Keeps SameCounts phyDoubleBreak := by
  intro s
  cases ho : s.phyOpen with
  | true => rw [phyDoubleBreak_eq ho]; exact sameCounts_play s .db
  | false => rw [phyDoubleBreak_closed ho]; exact sameCounts_frame.refl s

theorem sameCounts_session : SessionFrame SameCounts where
  toFrame := sameCounts_frame
  send := phySend_sameCounts
  recv := phyRecv_sameCounts
  doubleBreak := phyDoubleBreak_sameCounts
  pause us s := sameCounts_play s (.pause us)
  progMode _ _ := ⟨rfl, rfl, rfl, rfl, rfl⟩

theorem setStep_sameCounts (step : PageStep) : Keeps SameCounts (setStep step) := fun _ => ⟨rfl, rfl, rfl, rfl, rfl⟩

theorem setSkip_sameCounts (skip : Bool) : Keeps SameCounts (onSeq fun q => { q with skipWrite := skip }) :=
  fun _ => ⟨rfl, rfl, rfl, rfl, rfl⟩

theorem setRbuf_sameCounts (l : List Byte) : Keeps SameCounts (setRbuf l) := fun _ => ⟨rfl, rfl, rfl, rfl, rfl⟩

/-! ## Reads (R125, R126, R136) -/

/-- The retries the caps leave a reading pass. -/
def readsLeft (linkCap dataCap : Nat) (s : State) : Nat := (linkCap - s.seq.linkErr) + (dataCap - s.seq.dataErr)

theorem SameCounts.readsLeft_eq {s t : State} (h : SameCounts s t) (linkCap dataCap : Nat) :
    readsLeft linkCap dataCap t = readsLeft linkCap dataCap s := by
  rw [readsLeft, h.linkErr, h.dataErr, readsLeft]

/-- A retry from a state with fewer retries left. -/
theorem retry_agree {again again' : Op (Option Int)} {s : State} (h : ∀ t, SameCounts s t → again t = again' t) :
    (settle >>= fun _ => setStep .attempt >>= fun _ => again) s =
      (settle >>= fun _ => setStep .attempt >>= fun _ => again') s :=
  bind_agree sameCounts_session.settle fun _ _ h1 => bind_agree (setStep_sameCounts _) fun _ _ h2 =>
    h _ (sameCounts_frame.trans h1 h2)

/-- Any two fuels above the retries left do the same. -/
theorem readPage_moreFuel (accept : State → Bool) (linkCap dataCap : Nat) (linkCode dataCode : Int) (m : Nat) :
    ∀ (n : Nat) (s : State), readsLeft linkCap dataCap s < m → readsLeft linkCap dataCap s < n →
      readPage accept linkCap dataCap linkCode dataCode m s = readPage accept linkCap dataCap linkCode dataCode n s := by
  induction m with
  | zero => exact fun _ _ h => absurd h (Nat.not_lt_zero _)
  | succ m ih =>
    intro n s hm hn
    obtain ⟨n, rfl⟩ : ∃ k, n = k + 1 := ⟨n - 1, by omega⟩
    have hagain : ∀ t, readsLeft linkCap dataCap t < readsLeft linkCap dataCap s → ∀ u, SameCounts t u →
        readPage accept linkCap dataCap linkCode dataCode m u = readPage accept linkCap dataCap linkCode dataCode n u :=
      fun t ht u hu => ih n u (by rw [hu.readsLeft_eq]; omega) (by rw [hu.readsLeft_eq]; omega)
    rw [readPage, readPage, get_bind, get_bind]
    refine bind_agree (sameCounts_session.pageRead _ _).tryOp fun r t hr => ?_
    cases r with
    | error e =>
      dsimp only
      rw [bind_ok (countLink_counts _ _), bind_ok (countLink_counts _ _)]
      by_cases hc : linkCap < t.seq.linkErr + 1
      · rw [if_pos (decide_eq_true hc), if_pos (decide_eq_true hc)]
      · rw [if_neg (by simpa using hc), if_neg (by simpa using hc)]
        refine bind_agree sameCounts_session.linkInit.tryOp fun link u hu => ?_
        cases link with
        | error e => rfl
        | ok _ =>
          refine retry_agree fun v hv => hagain _ ?_ v (sameCounts_frame.trans hu hv)
          rw [← hr.readsLeft_eq]
          simp only [readsLeft]
          omega
    | ok bytes =>
      refine bind_agree (setRbuf_sameCounts _) fun _ u hu => ?_
      rw [get_bind, get_bind]
      have hu := sameCounts_frame.trans hr hu
      split
      · rfl
      · rw [bind_ok (countData_counts _ _), bind_ok (countData_counts _ _)]
        by_cases hc : dataCap < u.seq.dataErr + 1
        · rw [if_pos (decide_eq_true hc), if_pos (decide_eq_true hc)]
        · rw [if_neg (by simpa using hc), if_neg (by simpa using hc)]
          refine retry_agree fun v hv => hagain _ ?_ v hv
          rw [← hu.readsLeft_eq]
          simp only [readsLeft]
          omega

/-! ## Attempts (R125, R130 to R135) -/

/-- The attempts the caps leave a page of Program after this one. -/
def attemptsLeft (s : State) : Nat :=
  (s.prm.pgLinkCap - s.seq.linkErr) + (s.prm.pgDataCap - s.seq.dataErr) +
    (s.prm.pgEscCap - s.seq.escCnt) * (s.prm.pgBlankCap + 1) + (s.prm.pgBlankCap - s.seq.blankCnt)

theorem SameCounts.attemptsLeft_eq {s t : State} (h : SameCounts s t) : attemptsLeft t = attemptsLeft s := by
  rw [attemptsLeft, h.prm, h.linkErr, h.dataErr, h.blankCnt, h.escCnt, attemptsLeft]

theorem attemptWrite_sameCounts (p : Nat) : Keeps SameCounts (attemptWrite p) := by
  have W := sameCounts_session
  refine W.getThen fun _ => W.ite (W.pure _) (W.bind (W.pageWrite _ _).tryOp fun w => ?_)
  cases w with
  | error _ => exact W.pure _
  | ok _ => exact W.pure _

theorem attempt_sameCounts (p : Nat) : Keeps SameCounts (attempt p) := by
  have W := sameCounts_session
  refine W.bind (attemptWrite_sameCounts p) fun _ => W.ite (W.pure _) (W.bind (setSkip_sameCounts _) fun _ =>
    W.getThen fun _ => W.bind (W.pageRead _ _).tryOp fun r => ?_)
  cases r with
  | error _ => exact W.pure _
  | ok _ => exact W.bind (setRbuf_sameCounts _) fun _ => W.getThen fun _ => W.pure _

theorem relink_sameCounts : Keeps SameCounts relink := by
  have W := sameCounts_session
  refine W.getThen fun _ => W.bind W.linkInit.tryOp fun r => ?_
  cases r with
  | error _ => exact W.pure _
  | ok _ => exact W.bind W.settle fun _ => W.pure _

/-- A recovery that goes on has spent an attempt. -/
def Spends (s : State) (k : Option Int) (t : State) : Prop := k = none → attemptsLeft t < attemptsLeft s

theorem spends_some {s t : State} (c : Int) : Spends s (some c) t := nofun

theorem relink_spends {s t : State} (h : attemptsLeft t < attemptsLeft s) : Ensures relink t (Spends s) :=
  relink_sameCounts.ensures.mono fun _ _ hu _ => hu.attemptsLeft_eq.trans_lt h

theorem linkRecover_spends (skip : Bool) (s : State) : Ensures (linkRecover skip) s (Spends s) := by
  intro k t e
  rw [linkRecover, get_bind, bind_ok (countLink_counts _ _)] at e
  refine ensures_ite (fun _ => ensures_pure (spends_some _)) (fun hc => ?_) e
  refine Ensures.bind (setSkip_sameCounts skip).ensures fun _ u hu => relink_spends (hu.attemptsLeft_eq.trans_lt ?_)
  simp only [decide_eq_true_eq] at hc
  simp only [attemptsLeft]
  omega

theorem dataRecover_spends (s : State) : Ensures dataRecover s (Spends s) := by
  intro k t e
  rw [dataRecover, get_bind, bind_ok (countData_counts _ _)] at e
  refine ensures_ite (fun _ => ensures_pure (spends_some _)) (fun hc => relink_spends ?_) e
  simp only [decide_eq_true_eq] at hc
  simp only [attemptsLeft]
  omega

/-- An escalation that goes on gives back the blank read-backs of one escalation (R133). -/
theorem escalate_spends {s : State} (hb : s.prm.pgBlankCap ≤ s.seq.blankCnt) : Ensures escalate s (Spends s) := by
  refine Ensures.onSeq (Ensures.onSeq (Ensures.getThen (ensures_ite (fun _ => ensures_pure (spends_some _)) fun hc => ?_)))
  refine Ensures.bind (sameCounts_session.pageErase _).tryOp.ensures fun r t ht => ?_
  cases r with
  | error _ => exact ensures_pure (spends_some _)
  | ok _ =>
    refine Ensures.onSeq (ensures_pure fun _ => ?_)
    obtain ⟨hp, hl, hd, -, he⟩ := ht
    have hone : s.prm.pgEscCap - s.seq.escCnt = (s.prm.pgEscCap - (s.seq.escCnt + 1)) + 1 := by
      dsimp only at hc
      omega
    simp only [attemptsLeft, hp, hl, hd, he, hone, Nat.succ_mul]
    omega

theorem blankRecover_spends (s : State) : Ensures blankRecover s (Spends s) := by
  refine Ensures.onSeq (Ensures.onSeq (Ensures.getThen (ensures_ite (fun hb => ?_) fun hb => relink_spends ?_)))
  · refine Ensures.bind (escalate_spends hb.le) fun k t hk => ?_
    cases k with
    | some c => exact ensures_pure (spends_some _)
    | none =>
      refine relink_spends ((hk rfl).trans_le ?_)
      simp only [attemptsLeft]
      omega
  · dsimp only at hb
    simp only [attemptsLeft]
    omega

theorem recover_spends {c : AttemptEnd} (hc : c ≠ .success) (s : State) : Ensures (recover c) s (Spends s) := by
  cases c with
  | success => exact absurd rfl hc
  | writeFail => exact linkRecover_spends false s
  | readFail => exact linkRecover_spends true s
  | blank => exact blankRecover_spends s
  | mismatch => exact dataRecover_spends s

/-- Any two fuels above the attempts left do the same. -/
theorem programPage_moreFuel (p m : Nat) : ∀ (n : Nat) (s : State), attemptsLeft s < m → attemptsLeft s < n →
    programPage p m s = programPage p n s := by
  induction m with
  | zero => exact fun _ _ h => absurd h (Nat.not_lt_zero _)
  | succ m ih =>
    intro n s hm hn
    obtain ⟨n, rfl⟩ : ∃ k, n = k + 1 := ⟨n - 1, by omega⟩
    rw [programPage, programPage]
    refine bind_agree (attempt_sameCounts p) fun c t ht => ?_
    by_cases hc : c = .success
    · rw [if_pos hc, if_pos hc]
    · rw [if_neg hc, if_neg hc]
      refine bind_agree_of_ensures (recover_spends hc t) fun k u hk => ?_
      cases k with
      | some code => rfl
      | none =>
        refine bind_agree (setStep_sameCounts _) fun _ v hv => ?_
        have hless : attemptsLeft v < attemptsLeft s := by
          rw [hv.attemptsLeft_eq, ← ht.attemptsLeft_eq]
          exact hk rfl
        exact ih n v (by omega) (by omega)

/-- Settles O53: R156's bound is above the retries the caps leave with the counters at zero. -/
theorem pageLoopsEndWithinTheirBounds : Obligations.PageLoopsEndWithinTheirBounds := by
  refine ⟨fun accept linkCap dataCap fuel linkCode dataCode s hl hd hf => ?_, fun p fuel s hl hd hb he hf => ?_⟩
  · have h : readsLeft linkCap dataCap s < readBound linkCap dataCap := by
      simp only [readsLeft, readBound, hl, hd]
      omega
    exact readPage_moreFuel accept linkCap dataCap linkCode dataCode fuel _ s (h.trans_le hf) h
  · have h : attemptsLeft s < programBound s.prm := by
      simp only [attemptsLeft, programBound, hl, hd, hb, he, Nat.sub_zero, Nat.succ_mul]
      omega
    exact programPage_moreFuel p fuel _ s (h.trans_le hf) h

end Sys2Proof.Machine
end

section
/-! What a page-walking pass that returned 0 has done (43_page_sequencer.md R122, R138): every page ended without a code,
so each read back what the pass accepts, and each was reported when it had. -/

namespace Sys2Proof.Machine

open Sys2Proof.Safety

/-! ## What a trace without progress events adds -/

theorem eventsOf_append (o o' : List Obs) : eventsOf (o ++ o') = eventsOf o ++ eventsOf o' := List.filter_append o o'

theorem eventsOf_eq_nil {o : List Obs} (h : ∀ pass i n, Obs.progress pass i n ∉ o) : eventsOf o = [] := by
  refine List.filter_eq_nil_iff.2 fun x hx => ?_
  cases x with
  | progress pass i n => exact absurd hx (h pass i n)
  | _ => exact Bool.false_ne_true

theorem eventsOf_addEventless {s t : State} {o : List Obs} (h : t.obs = s.obs ++ o) (ho : eventsOf o = []) :
    eventsOf t.obs = eventsOf s.obs := by
  rw [h, eventsOf_append, ho, List.append_nil]

theorem eventsOf_rxCalls (s : State) (n : Nat) (heard : List Heard) : eventsOf (rxCalls s n heard) = [] := by
  refine eventsOf_eq_nil fun pass i m => ?_
  have hpoll : ∀ k, Obs.progress pass i m ∉ pollCalls s k := by simp [pollCalls]
  have hrest : Obs.progress pass i m ∉ if heard.length < n then pollCalls s s.prm.rxPollLimit else [] := by
    split
    · exact hpoll _
    · exact List.not_mem_nil
  simp [rxCalls, heardCalls, hpoll, hrest]

theorem eventsOf_play {b : Beat} (hb : isEvent b = false) (s : State) : eventsOf (play s b).obs = eventsOf s.obs := by
  cases b with
  | tx bytes => exact eventsOf_addEventless rfl (eventsOf_eq_nil (by simp [txCalls, slotCalls]))
  | rx n heard => exact eventsOf_addEventless rfl (eventsOf_rxCalls s n heard)
  | db => exact eventsOf_addEventless rfl rfl
  | pause us => exact eventsOf_addEventless rfl rfl
  | event pass i n => cases hb

theorem eventsOf_playAll {bs : List Beat} (hb : ∀ b ∈ bs, isEvent b = false) :
    ∀ s : State, eventsOf (playAll s bs).obs = eventsOf s.obs := by
  induction bs with
  | nil => exact fun _ => rfl
  | cons b bs ih =>
    intro s
    rw [List.forall_mem_cons] at hb
    exact (ih hb.2 (play s b)).trans (eventsOf_play hb.1 s)

/-! ## Inside a pass -/

/-- A state inside an operation that began in `s₀`: the datapath registers idle, what the image pages depend on the same. -/
structure InPass (s₀ s : State) : Prop where
  idle : Idle s
  cfg : s.cfg = s₀.cfg
  prm : s.prm = s₀.prm
  flashImage : s.flashImage = s₀.flashImage

section
variable {s₀ s t : State} {ev : Bool} {α β : Type} {T : β → State → Prop}

theorem InPass.traced (h : InPass s₀ s) (ht : Traced ev s t) : InPass s₀ t := by
  have W := ht.writesSessionAlone h.idle
  exact ⟨⟨W.rx.trans h.idle.rx, W.tx.trans h.idle.tx⟩, W.cfg.trans h.cfg, W.prm.trans h.prm,
    W.flashImage.trans h.flashImage⟩

theorem InPass.eventsOf_eq (h : InPass s₀ s) (ht : Traced false s t) : eventsOf t.obs = eventsOf s.obs := by
  obtain ⟨bs, hb, -, e⟩ := ht h.idle.rx h.idle.tx
  rw [e]
  exact eventsOf_playAll (fun b hm => Bool.eq_false_iff.2 fun hev => Bool.false_ne_true (hb b hm hev)) s

theorem InPass.pageBytes_eq (h : InPass s₀ s) : pageBytes s = pageBytes s₀ := by rw [pageBytes, h.cfg, pageBytes]

theorem InPass.imagePage_eq (h : InPass s₀ s) (p : Nat) : imagePage s p = imagePage s₀ p := by
  simp only [imagePage, imageByte, h.pageBytes_eq, h.prm, h.flashImage]

theorem InPass.setSeq (h : InPass s₀ s) (q : Seq) : InPass s₀ { s with seq := q } :=
  ⟨⟨h.idle.rx, h.idle.tx⟩, h.cfg, h.prm, h.flashImage⟩

theorem InPass.setRbuf (h : InPass s₀ s) (l : List Byte) : InPass s₀ { s with rbuf := l } :=
  ⟨⟨h.idle.rx, h.idle.tx⟩, h.cfg, h.prm, h.flashImage⟩

theorem Ensures.setRbuf {l : List Byte} {f : Unit → Op β} (h : Ensures (f ()) { s with rbuf := l } T) :
    Ensures (setRbuf l >>= f) s T := h

theorem Ensures.progress {pass : Pass} {i n : Nat} {f : Unit → Op β}
    (h : Ensures (f ()) { s with obs := s.obs ++ [.progress pass i n] } T) : Ensures (progress pass i n >>= f) s T := h

theorem InPass.after {m : Op α} {f : α → Op β} (hs : InPass s₀ s) (hm : Keeps (Traced false) m)
    (hf : ∀ a t, InPass s₀ t → Ensures (f a) t T) : Ensures (m >>= f) s T :=
  Ensures.bind hm.ensures fun a t ht => hf a t (hs.traced ht)

/-- The first part's own property, carried along. -/
theorem InPass.afterWith {m : Op α} {f : α → Op β} {P : α → State → Prop} (hs : InPass s₀ s) (hm : Keeps (Traced false) m)
    (hP : Ensures m s P) (hf : ∀ a t, InPass s₀ t → P a t → Ensures (f a) t T) : Ensures (m >>= f) s T :=
  Ensures.bind (P := fun a t => InPass s₀ t ∧ P a t) (fun _ _ e => ⟨hs.traced (hm.ensures e), hP e⟩) fun a t h =>
    hf a t h.1 h.2

end

/-! ## A page's end -/

/-- A page ends its pass with one of these codes, or leaves a read-back of this kind. -/
def PageEnds (codes : List Int) (good : List Byte → Prop) (r : Option Int) (t : State) : Prop :=
  match r with
  | some c => c ∈ codes
  | none => good t.rbuf

section
variable {codes : List Int} {good : List Byte → Prop} {s s₀ : State}

theorem abortPage_ends {c : Int} (hc : c ∈ codes) : Ensures (abortPage c) s (PageEnds codes good) :=
  Ensures.onSeq (ensures_pure hc)

theorem acceptPage_ends (h : good s.rbuf) : Ensures acceptPage s (PageEnds codes good) := Ensures.onSeq (ensures_pure h)

/-! ## Blank-Check and Verify -/

theorem ensures_after {α β : Type} {m : Op α} {f : α → Op β} {T : β → State → Prop}
    (hf : ∀ a t, Ensures (f a) t T) : Ensures (m >>= f) s T :=
  Ensures.bind (P := fun _ _ => True) (fun _ _ _ => trivial) fun a t _ => hf a t

theorem readBytes_atLeast (n : Nat) : Ensures (readBytes n) s fun l _ => n ≤ l.length := by
  refine ensures_after fun r t => ?_
  exact ensures_ite (fun _ => ensures_raise _) fun h => ensures_pure (Nat.le_of_not_lt h)

theorem pageRead_atLeast (addr : Addr) (n : Nat) : Ensures (pageRead addr n) s fun l _ => n ≤ l.length :=
  ensures_after fun _ _ => ensures_after fun _ _ => ensures_after fun _ _ => ensures_after fun _ _ =>
    ensures_after fun _ _ => ensures_after fun _ _ => readBytes_atLeast n

/-- A page read back has the bytes asked for (R92, R114). -/
theorem tryPageRead_length (hs : Idle s) (addr : Addr) (n : Nat) :
    Ensures (tryOp (pageRead addr n)) s fun r _ => ∀ l, r = .ok l → l.length = n := by
  rintro r t e l rfl
  rw [tryOp_apply] at e
  cases h : pageRead addr n s with
  | ok l' u =>
    rw [h] at e
    cases e
    exact le_antisymm (pageRead_length addr n hs h) (pageRead_atLeast addr n h)
  | error x u =>
    rw [h] at e
    cases e

/-- A page of a reading pass aborts with one of its two codes, or leaves a read-back its test accepts. -/
theorem readPage_ends {accept : State → Bool} {linkCode dataCode : Int} (hl : linkCode ∈ codes) (hd : dataCode ∈ codes)
    (hacc : ∀ t, InPass s₀ t → t.rbuf.length = pageBytes s₀ → accept t = true → good t.rbuf) (linkCap dataCap fuel : Nat) :
    ∀ s, InPass s₀ s → Ensures (readPage accept linkCap dataCap linkCode dataCode fuel) s (PageEnds codes good) := by
  induction fuel with
  | zero => exact fun _ _ => abortPage_ends hl
  | succ fuel ih =>
    intro s hs
    have hretry : ∀ t, InPass s₀ t → Ensures (settle >>= fun _ => setStep .attempt >>= fun _ =>
        readPage accept linkCap dataCap linkCode dataCode fuel) t (PageEnds codes good) := fun t ht =>
      ht.after settle_traced fun _ _ hu => hu.after (setStep_traced _) fun _ v hv => ih v hv
    refine Ensures.getThen (hs.afterWith (pageRead_traced _ _).tryOp (tryPageRead_length hs.idle _ _) ?_)
    intro r t ht hlen
    cases r with
    | error e =>
      refine ht.after (countLink_traced _) fun _ u hu => ensures_ite (fun _ => abortPage_ends hl) fun _ => ?_
      refine hu.after linkInit_traced.tryOp fun link v hv => ?_
      cases link with
      | error _ => exact abortPage_ends hl
      | ok _ => exact hretry v hv
    | ok bytes =>
      have hb : bytes.length = pageBytes s₀ := (hlen bytes rfl).trans hs.pageBytes_eq
      have hu := ht.setRbuf bytes
      refine Ensures.setRbuf (Ensures.getThen (ensures_ite (fun h => acceptPage_ends (hacc _ hu hb h)) fun _ => ?_))
      exact hu.after (countData_traced _) fun _ v hv =>
        ensures_ite (fun _ => abortPage_ends hd) fun _ => hretry v hv

end

/-! ## Program -/

/-- What a recovery ends a page with, if it does, is one of these codes. -/
def EndsIn (codes : List Int) (k : Option Int) (_ : State) : Prop := ∀ c, k = some c → c ∈ codes

section
variable {codes : List Int} {s s₀ : State}

theorem endsIn_some {c : Int} (hc : c ∈ codes) (t : State) : EndsIn codes (some c) t := by
  rintro _ ⟨⟩
  exact hc

theorem endsIn_none (t : State) : EndsIn codes none t := nofun

theorem attempt_readsPage (p : Nat) (hs : InPass s₀ s) :
    Ensures (attempt p) s fun c t => c = .success → t.rbuf = imagePage s₀ p := by
  refine hs.after (attemptWrite_traced p) fun failed t ht => ?_
  refine ensures_ite (fun _ => ensures_pure nofun) fun _ => ?_
  refine ht.after (onSeq_traced _) fun _ u hu => Ensures.getThen ?_
  refine hu.after (pageRead_traced _ _).tryOp fun r v hv => ?_
  cases r with
  | error _ => exact ensures_pure nofun
  | ok bytes =>
    refine hv.after (setRbuf_traced _) fun _ w hw => Ensures.getThen (ensures_pure fun h => ?_)
    rw [← hw.imagePage_eq p]
    by_contra hne
    have hb : rbufIsPage p w = false := beq_eq_false_iff_ne.2 hne
    rw [classify, hb, if_neg Bool.false_ne_true] at h
    split at h <;> cases h

theorem relink_endsIn (hs : InPass s₀ s) (hp : s₀.prm.pgRelinkCode ∈ codes) : Ensures relink s (EndsIn codes) := by
  refine Ensures.getThen (hs.after linkInit_traced.tryOp fun r t ht => ?_)
  cases r with
  | error _ => exact ensures_pure (endsIn_some (by rwa [hs.prm]) t)
  | ok _ => exact ht.after settle_traced fun _ u _ => ensures_pure (endsIn_none u)

theorem linkRecover_endsIn (skip : Bool) (hs : InPass s₀ s) :
    Ensures (linkRecover skip) s (EndsIn (abortCodes s₀.prm .program)) := by
  refine Ensures.getThen (hs.after (countLink_traced _) fun _ t ht => ensures_ite (fun _ => ?_) fun _ => ?_)
  · exact ensures_pure (endsIn_some (by simp [abortCodes, hs.prm]) t)
  · exact ht.after (onSeq_traced _) fun _ u hu => relink_endsIn hu (by simp [abortCodes])

theorem dataRecover_endsIn (hs : InPass s₀ s) : Ensures dataRecover s (EndsIn (abortCodes s₀.prm .program)) := by
  refine Ensures.getThen (hs.after (countData_traced _) fun _ t ht => ensures_ite (fun _ => ?_) fun _ => ?_)
  · exact ensures_pure (endsIn_some (by simp [abortCodes, hs.prm]) t)
  · exact relink_endsIn ht (by simp [abortCodes])

theorem escalate_endsIn (hs : InPass s₀ s) : Ensures escalate s (EndsIn (abortCodes s₀.prm .program)) := by
  refine hs.after (setStep_traced _) fun _ t ht => ht.after (onSeq_traced _) fun _ u hu =>
    Ensures.getThen (ensures_ite (fun _ => ensures_pure (endsIn_some (by simp [abortCodes, hu.prm]) u)) fun _ => ?_)
  refine hu.after (pageErase_traced _).tryOp fun r v hv => ?_
  cases r with
  | error _ => exact ensures_pure (endsIn_some (by simp [abortCodes, hu.prm]) v)
  | ok _ => exact hv.after (onSeq_traced _) fun _ w _ => ensures_pure (endsIn_none w)

theorem blankRecover_endsIn (hs : InPass s₀ s) : Ensures blankRecover s (EndsIn (abortCodes s₀.prm .program)) := by
  have hrelink : ∀ t, InPass s₀ t → Ensures relink t (EndsIn (abortCodes s₀.prm .program)) :=
    fun t ht => relink_endsIn ht (by simp [abortCodes])
  refine hs.after (setStep_traced _) fun _ t ht => ht.after (onSeq_traced _) fun _ u hu =>
    Ensures.getThen (ensures_ite (fun _ => ?_) fun _ => hrelink u hu)
  refine hu.afterWith escalate_traced (escalate_endsIn hu) fun k v hv hk => ?_
  cases k with
  | some c => exact ensures_pure hk
  | none => exact hrelink v hv

theorem recover_endsIn (c : AttemptEnd) (hs : InPass s₀ s) :
    Ensures (recover c) s (EndsIn (abortCodes s₀.prm .program)) := by
  cases c with
  | success => exact ensures_pure (endsIn_none s)
  | writeFail => exact linkRecover_endsIn false hs
  | readFail => exact linkRecover_endsIn true hs
  | blank => exact blankRecover_endsIn hs
  | mismatch => exact dataRecover_endsIn hs

/-- A page of Program aborts with one of its codes, or leaves the image's page read back. -/
theorem programPage_ends (p fuel : Nat) : ∀ s, InPass s₀ s →
    Ensures (programPage p fuel) s (PageEnds (abortCodes s₀.prm .program) (· = imagePage s₀ p)) := by
  induction fuel with
  | zero => exact fun s hs => Ensures.getThen (abortPage_ends (by simp [abortCodes, hs.prm]))
  | succ fuel ih =>
    intro s hs
    refine hs.afterWith (attempt_traced p) (attempt_readsPage p hs) fun c t ht hc => ?_
    refine ensures_ite (fun h => acceptPage_ends (hc h)) fun _ => ?_
    refine ht.afterWith (recover_traced c) (recover_endsIn c ht) fun k u hu hk => ?_
    cases k with
    | some code => exact abortPage_ends (hk code rfl)
    | none => exact hu.after (setStep_traced _) fun _ v hv => ih v hv

end

/-! ## The walk over the pages -/

/-- The first `p` pages of a pass over `n` that began in `s₀` were read back well, the last of them is in the buffer,
and each was reported. -/
structure Walked (s₀ : State) (pass : Pass) (n : Nat) (good : Nat → List Byte → Prop) (p : Nat) (s : State) : Prop where
  inPass : InPass s₀ s
  events : eventsOf s.obs = eventsOf s₀.obs ++ (List.range (p + 1)).map fun k => .progress pass k n
  last : 0 < p → good (p - 1) s.rbuf

section
variable {s₀ s : State} {pass : Pass} {n : Nat} {good : Nat → List Byte → Prop} {codes : List Int}
  {page : Nat → Op (Option Int)} (htr : ∀ p, Keeps (Traced false) (page p))
  (hpage : ∀ p s, InPass s₀ s → Ensures (page p) s (PageEnds codes (good p))) (hcodes : ∀ c ∈ codes, c ≠ 0)
include htr hpage hcodes

/-- A walk that ends with 0 has walked every page. -/
theorem walkPages_walked (k : Nat) : ∀ p s, p + k = n → Walked s₀ pass n good p s →
    Ensures (walkPages pass n page k p) s fun c t => c = 0 → Walked s₀ pass n good n t := by
  induction k with
  | zero =>
    rintro p s rfl hs
    exact Ensures.onSeq (ensures_pure fun _ => ⟨hs.inPass.setSeq _, hs.events, hs.last⟩)
  | succ k ih =>
    intro p s hn hs
    refine Ensures.bind (startPage_traced (ev := false) p).ensures fun _ t ht => ?_
    have htp := hs.inPass.traced ht
    refine Ensures.bind (P := fun r u => Traced false t u ∧ PageEnds codes (good p) r u)
      (fun _ _ e => ⟨(htr p).ensures e, hpage p t htp e⟩) fun r u hu => ?_
    obtain ⟨hu, hr⟩ := hu
    cases r with
    | some c => exact Ensures.onSeq (ensures_pure fun h0 => absurd h0 (hcodes c hr))
    | none =>
      have hev : eventsOf u.obs = eventsOf s.obs := (htp.eventsOf_eq hu).trans (hs.inPass.eventsOf_eq ht)
      have hreport := (htp.traced hu).traced (progress_traced pass (p + 1) n u)
      refine Ensures.progress (ih (p + 1) _ (by omega) ⟨hreport, ?_, fun _ => hr⟩)
      rw [eventsOf_append, hev, hs.events, List.range_succ (n := p + 1), List.map_append, List.append_assoc]
      rfl

/-- A pass that ends with 0 has walked every page. -/
theorem walkPass_walked {linkCode : Int} (hl : linkCode ∈ codes) (hs : Idle s₀) :
    Ensures (walkPass pass linkCode n page) s₀ fun c t => c = 0 → Walked s₀ pass n good n t := by
  have h₀ : InPass s₀ s₀ := ⟨hs, rfl, rfl, rfl⟩
  refine Ensures.bind (beginPass_traced (ev := false) pass).ensures fun _ t ht => ?_
  have htp := h₀.traced ht
  have hsp := htp.traced (progress_traced pass 0 n t)
  refine Ensures.progress (Ensures.bind (ensureLink_traced (ev := false)).tryOp.ensures fun link u hu => ?_)
  cases link with
  | error e => exact Ensures.onSeq (ensures_pure fun h0 => absurd h0 (hcodes _ hl))
  | ok _ =>
    refine walkPages_walked htr hpage hcodes n 0 u (Nat.zero_add n) ⟨hsp.traced hu, ?_, fun h => absurd h (lt_irrefl 0)⟩
    refine (hsp.eventsOf_eq hu).trans ?_
    rw [← h₀.eventsOf_eq ht]
    exact eventsOf_append t.obs _

end

/-! ## At the host port -/

/-- An accepted pass that delivered 0 returned 0. -/
theorem pass_of_lastResult {i : Instr} {s t : State} {m : Op Int} (ha : accepts i s = true)
    (h : serve i (codeValue m) s = .next t) (hr : lastResult t.obs = some (.ok (.code 0))) :
    ∃ u, m (beginOp s) = .ok 0 u ∧ t = deliver (.ok (.code 0)) u := by
  rw [serve_accepted ha, Host.Outcome.next.injEq, codeValue, bind_apply] at h
  subst h
  cases hm : m (beginOp s) with
  | ok c u =>
    rw [hm] at hr
    have hc : c = 0 := by simpa using (lastResult_deliver _ u).symm.trans hr
    exact ⟨u, by rw [hc], by rw [hc]; rfl⟩
  | error e u =>
    rw [hm] at hr
    cases (lastResult_deliver _ u).symm.trans hr

/-- An accepted pass that delivered 0 has walked every page. -/
theorem walked_of_lastResult {i : Instr} {s t : State} {m : Op Int} {good : Nat → List Byte → Prop}
    {page : Nat → Op (Option Int)} (ha : accepts i s = true) (h : serve i (codeValue m) s = .next t)
    (hr : lastResult t.obs = some (.ok (.code 0))) {n : Nat} {linkCode : Int}
    (hm : m (beginOp s) = walkPass (passOf i) linkCode n page (beginOp s))
    (htr : ∀ p, Keeps (Traced false) (page p)) (hcodes : ∀ c ∈ abortCodes s.prm (passOf i), c ≠ 0)
    (hl : linkCode ∈ abortCodes s.prm (passOf i))
    (hpage : ∀ p u, InPass (beginOp s) u → Ensures (page p) u (PageEnds (abortCodes s.prm (passOf i)) (good p))) :
    eventsOf t.obs = eventsOf s.obs ++ (List.range (n + 1)).map (fun k => .progress (passOf i) k n) ∧
      (0 < n → good (n - 1) t.rbuf) := by
  obtain ⟨u, hu, rfl⟩ := pass_of_lastResult ha h hr
  rw [hm] at hu
  have W := walkPass_walked htr hpage hcodes hl (idle_beginOp s) hu rfl
  refine ⟨?_, W.last⟩
  rw [deliver_obs, eventsOf_append, W.events]
  exact List.append_nil _

/-- A Program pass the machine runs has its watermark inside the flash (log 11). -/
theorem bytesUsed_le_of_exec {s t : State} (ha : accepts .passProgram s = true) (h : exec .passProgram s = .next t) :
    s.bytesUsed ≤ flashBytes s := by
  by_contra hu
  have hf : exec .passProgram s = .fault .imageRange := by
    change execPassProgram s = _
    rw [execPassProgram, ha, decide_eq_true (Nat.lt_of_not_le hu)]
    rfl
  rw [hf] at h
  cases h

/-- Settles O52, by the walk: a page ends with a code that is not 0, or with a read-back its pass accepts. -/
theorem passReturningZeroReportedEveryPage : Obligations.PassReturningZeroReportedEveryPage := by
  rintro i s t (rfl | rfl | rfl) ha hcodes h hr
  · obtain ⟨hev, hlast⟩ := walked_of_lastResult (m := passBlankCheck)
      (good := fun _ b => isBlank s.prm b = true ∧ b.length = pageBytes s)
      ha h hr (get_bind _) (fun _ => readPage_traced _ _ _ _ _ _) hcodes (by simp [abortCodes, passOf, beginOp])
      fun p u hu => readPage_ends (by simp [abortCodes, passOf, beginOp]) (by simp [abortCodes, passOf, beginOp])
        (fun v hv hlen hb => ⟨by rw [rbufBlank, hv.prm] at hb; exact hb, hlen⟩) _ _ _ u hu
    exact ⟨hev, fun hp => ⟨fun _ => hlast hp, fun hne => absurd rfl hne⟩⟩
  · rw [exec_passProgram (bytesUsed_le_of_exec ha h)] at h
    obtain ⟨hev, hlast⟩ := walked_of_lastResult (m := passProgram) (good := fun p b => b = imagePage (beginOp s) p)
      ha h hr (passProgram_walks _) (fun _ => programPage_traced _ _) hcodes (by simp [abortCodes, passOf, beginOp])
      fun p u hu => programPage_ends (s₀ := beginOp s) p _ u hu
    exact ⟨hev, fun hp => ⟨nofun, fun _ => hlast hp⟩⟩
  · obtain ⟨hev, hlast⟩ := walked_of_lastResult (m := passVerify) (good := fun p b => b = imagePage (beginOp s) p)
      ha h hr (get_bind _) (fun _ => readPage_traced _ _ _ _ _ _) hcodes (by simp [abortCodes, passOf, beginOp])
      fun p u hu => readPage_ends (by simp [abortCodes, passOf, beginOp]) (by simp [abortCodes, passOf, beginOp])
        (fun v hv _ hb => (eq_of_beq hb).trans (hv.imagePage_eq p)) _ _ _ u hu
    exact ⟨hev, fun hp => ⟨nofun, fun _ => hlast hp⟩⟩

end Sys2Proof.Machine
end

section
/-! How a pass ends (43_page_sequencer.md R122, R124, 60_exceptions.md R144): whatever its pages and its link did, with 0 or
a code of its own, and with no pass running. -/

namespace Sys2Proof.Machine

open Sys2Proof.Safety

/-! ## The code of a pass -/

/-- A pass ends with 0 or with one of these codes. -/
def EndsWithCode (codes : List Int) (c : Int) (_ : State) : Prop := c = 0 ∨ c ∈ codes

theorem endPass_code {codes : List Int} {c : Int} {s : State} (hc : c = 0 ∨ c ∈ codes) :
    Ensures (endPass c) s (EndsWithCode codes) := Ensures.onSeq (ensures_pure hc)

section
variable {s₀ : State} {pass : Pass} {n : Nat} {good : Nat → List Byte → Prop} {codes : List Int}
  {page : Nat → Op (Option Int)} (htr : ∀ p, Keeps (Traced false) (page p))
  (hpage : ∀ p s, InPass s₀ s → Ensures (page p) s (PageEnds codes (good p)))
include htr hpage

/-- A walk whose pages abort with these codes ends with one of them or with 0. -/
theorem walkPages_code (k : Nat) : ∀ p s, InPass s₀ s → Ensures (walkPages pass n page k p) s (EndsWithCode codes) := by
  induction k with
  | zero => exact fun _ _ _ => endPass_code (.inl rfl)
  | succ k ih =>
    refine fun p s hs => hs.after (startPage_traced p) fun _ t ht => ?_
    refine ht.afterWith (htr p) (hpage p t ht) fun r u hu hr => ?_
    cases r with
    | some c => exact endPass_code (.inr hr)
    | none => exact Ensures.progress (ih (p + 1) _ (hu.traced (progress_traced pass (p + 1) n u)))

theorem walkPass_code {linkCode : Int} (hl : linkCode ∈ codes) (hs : Idle s₀) :
    Ensures (walkPass pass linkCode n page) s₀ (EndsWithCode codes) := by
  have h₀ : InPass s₀ s₀ := ⟨hs, rfl, rfl, rfl⟩
  refine h₀.after (beginPass_traced pass) fun _ t ht => Ensures.progress ?_
  refine (ht.traced (progress_traced pass 0 n t)).after ensureLink_traced.tryOp fun link u hu => ?_
  cases link with
  | error _ => exact endPass_code (.inr hl)
  | ok _ => exact walkPages_code htr hpage n 0 u hu

end

/-! ## The four passes -/

section
variable {s : State}

theorem passChipErase_code : Ensures passChipErase s (EndsWithCode (abortCodes s.prm .chipErase)) := by
  refine Ensures.getThen (ensures_after fun _ _ => ensures_after fun _ _ => ensures_after fun link _ => ?_)
  cases link with
  | error _ => exact endPass_code (by simp [abortCodes])
  | ok _ =>
    refine ensures_after fun r _ => ?_
    cases r with
    | error _ => exact endPass_code (by simp [abortCodes])
    | ok _ => exact endPass_code (.inl rfl)

/-- A walk that reads its pages ends with its link code, its data code or 0 (R125). -/
theorem readWalk_code {pass : Pass} {n linkCap dataCap fuel : Nat} {linkCode dataCode : Int} {accept : Nat → State → Bool}
    (hs : Idle s) :
    Ensures (walkPass pass linkCode n fun p => readPage (accept p) linkCap dataCap linkCode dataCode fuel) s
      (EndsWithCode [linkCode, dataCode]) :=
  walkPass_code (good := fun _ _ => True) (fun _ => readPage_traced _ _ _ _ _ _)
    (fun _ => readPage_ends (by simp) (by simp) (fun _ _ _ _ => trivial) _ _ _) (by simp) hs

theorem passBlankCheck_code (hs : Idle s) : Ensures passBlankCheck s (EndsWithCode (abortCodes s.prm .blankCheck)) :=
  Ensures.getThen (readWalk_code hs)

theorem passVerify_code (hs : Idle s) : Ensures passVerify s (EndsWithCode (abortCodes s.prm .verify)) :=
  Ensures.getThen (readWalk_code hs)

theorem passProgram_code (hs : Idle s) : Ensures passProgram s (EndsWithCode (abortCodes s.prm .program)) :=
  Ensures.getThen <| walkPass_code (fun _ => programPage_traced _ _) (fun p => programPage_ends p _)
    (by simp [abortCodes]) hs

end

/-! ## At the host port -/

/-- A pass that always answers delivers its code, and no pass runs then. -/
theorem code_delivered {s t : State} {m : Op Int} {codes : List Int} (ht : t = endOp (codeValue m (beginOp s)))
    (hm : Answers WalkEnds m) (hc : Ensures m (beginOp s) (EndsWithCode codes)) :
    t.seq.pass = .none ∧ ∃ c, lastResult t.obs = some (.ok (.code c)) ∧ (c = 0 ∨ c ∈ codes) := by
  obtain ⟨c, u, hu, hw⟩ := hm (beginOp s)
  have hend : endOp (codeValue m (beginOp s)) = deliver (.ok (.code c)) u := by
    rw [codeValue, bind_ok hu]
    rfl
  rw [ht, hend]
  exact ⟨hw.noPass, c, lastResult_deliver _ u, hc hu⟩

/-- Settles O49: each pass always answers, and its code is 0, its link code or what a page of it aborts with. -/
theorem passesReturnTheirOwnCodes : Obligations.PassesReturnTheirOwnCodes := by
  intro i s t hi ha h
  have ht := exec_accepted ha h
  have hs := idle_beginOp s
  cases i with
  | passChipErase => exact code_delivered ht passChipErase_walkEnds passChipErase_code
  | passBlankCheck => exact code_delivered ht passBlankCheck_walkEnds (passBlankCheck_code hs)
  | passProgram => exact code_delivered ht passProgram_walkEnds (passProgram_code hs)
  | passVerify => exact code_delivered ht passVerify_walkEnds (passVerify_code hs)
  | _ => exact absurd rfl hi

end Sys2Proof.Machine
end


section
/-! The error classes of every operation (40_phy.md to 43_page_sequencer.md, 60_exceptions.md R141): the classes an operation
fails with are those its PHY operations, its acknowledges, its status reads and its size tests give it, renamed where its
rule renames them. PAGE_ERASE alone needs the configuration for its list: a page is always a legal burst (R18). -/

namespace Sys2Proof.Machine

open Sys2Proof.Safety

/-! ## Classes of a sequence -/

section
variable {α β : Type} {P Q : State → Prop} {cs cs' : List ErrClass} {s s₀ : State}

theorem EndsWithin.mono {r : EStateM.Result Err State α} (h : EndsWithin Q cs r) (hcs : cs ⊆ cs' := by decide) :
    EndsWithin Q cs' r := by
  cases r with
  | ok _ _ => exact h
  | error _ _ => exact hcs h

theorem EndsWithin.bind {m : Op α} {f : α → Op β} (hm : EndsWithin P cs (m s))
    (hf : ∀ a t, P t → EndsWithin Q cs (f a t)) : EndsWithin Q cs ((m >>= f) s) := by
  rw [bind_apply]
  cases hs : m s with
  | ok a t => rw [hs] at hm; exact hf a t hm
  | error e t => rw [hs] at hm; exact hm

/-- The value the host port is given adds no failure. -/
theorem EndsWithin.valued {m : Op α} {f : α → Value} (h : EndsWithin Q cs (m s)) :
    EndsWithin Q cs ((m >>= fun a => pure (f a)) s) := h.bind fun _ _ ht => ht

/-- An operation that leaves a trace stays inside the operation it is part of. -/
theorem EndsWithin.inside {m : Op α} (h : EndsWithin P cs (m s)) (hm : Keeps (Traced false) m) (hs : InPass s₀ s) :
    EndsWithin (InPass s₀) cs (m s) := by
  have ht := hm s
  cases e : m s with
  | ok a t => rw [e] at ht; exact hs.traced ht
  | error x t => rw [e] at h; exact h

/-- From every state, the operation fails with these classes alone. -/
abbrev RaisesOnly (cs : List ErrClass) (m : Op α) : Prop := AlwaysEnds (fun _ => True) cs m

theorem RaisesOnly.mono {m : Op α} (h : RaisesOnly cs m) (hcs : cs ⊆ cs' := by decide) : RaisesOnly cs' m :=
  fun s => (h s).mono hcs

/-- A first part with fewer classes than the whole. -/
theorem RaisesOnly.andThen {m : Op α} {f : α → Op β} (hm : RaisesOnly cs m) (hf : ∀ a, RaisesOnly cs' (f a))
    (hcs : cs ⊆ cs' := by decide) : RaisesOnly cs' (m >>= f) := (hm.mono hcs).bind hf

theorem raisesOnly_pure (a : α) : RaisesOnly cs (pure a : Op α) := fun _ => trivial

theorem raisesOnly_update (f : State → State) : RaisesOnly cs (update f) := fun _ => trivial

theorem raisesOnly_tryOp (m : Op α) : RaisesOnly cs (tryOp m) := by
  intro s
  rw [tryOp_apply]
  cases m s <;> trivial

theorem RaisesOnly.mapErr {m : Op α} {g : Err → Err} (hm : RaisesOnly cs m)
    (hg : ∀ e, errClass e ∈ cs → errClass (g e) ∈ cs') : RaisesOnly cs' (mapErr g m) := by
  intro s
  have h := hm s
  rw [mapErr_apply]
  cases e : m s with
  | ok _ _ => trivial
  | error x _ => rw [e] at h; exact hg x h

end

/-! ## The PHY (R80 to R90) -/

theorem phySend_raises (bytes : List Byte) : RaisesOnly [.ioError] (phySend bytes) := by
  intro s
  cases ho : s.phyOpen with
  | true =>
    obtain ⟨t, h⟩ := sendChars_eq bytes 0 (settled s) rfl
    rw [phySend_settled bytes ho, bind_ok h]
    trivial
  | false => rw [phySend_closed bytes ho]; exact List.mem_singleton_self _

theorem phyRecv_raises (n : Nat) : RaisesOnly [.ioError] (phyRecv n) := by
  intro s
  cases ho : s.phyOpen with
  | true =>
    obtain ⟨heard, -, h⟩ := phyRecv_total (s := { s with rx := Rx.idle }) n ho rfl
    rw [phyRecv_clears n ho, h]
    trivial
  | false => rw [phyRecv_closed n ho]; exact List.mem_singleton_self _

theorem phyDoubleBreak_raises : RaisesOnly [.ioError] phyDoubleBreak := by
  intro s
  cases ho : s.phyOpen with
  | true => rw [phyDoubleBreak_eq ho]; trivial
  | false => rw [phyDoubleBreak_closed ho]; exact List.mem_singleton_self _

theorem phyInit_raises : RaisesOnly [.ioError] phyInit := by
  intro s
  cases h : nextCapInit s with
  | true => rw [phyInit_granted h]; trivial
  | false => rw [phyInit_denied h]; exact List.mem_singleton_self _

theorem phyClose_raises : RaisesOnly [] phyClose := by
  intro s
  cases h : s.phyOpen with
  | true => rw [phyClose_open h]; trivial
  | false => rw [phyClose_closed h]; trivial

/-! ## Link (R92 to R102) -/

theorem readBytes_raises (n : Nat) : RaisesOnly [.ioError, .timeout] (readBytes n) :=
  (phyRecv_raises n).andThen fun _ => .ite (.raise (by simp [errClass])) (raisesOnly_pure _)

theorem readByte_raises : RaisesOnly [.ioError, .timeout] readByte :=
  (readBytes_raises 1).andThen fun _ => raisesOnly_pure _

theorem expectAck_raises : RaisesOnly [.ioError, .timeout, .nack] expectAck := by
  refine (phyRecv_raises 1).andThen fun r => .getThen fun _ => ?_
  cases r with
  | nil => exact .raise (by decide)
  | cons b _ => exact .ite (raisesOnly_pure _) (.raise (by simp [errClass]))

theorem ldcs_raises (a : CsAddr) : RaisesOnly [.ioError, .timeout] (ldcs a) :=
  .getThen fun _ => (phySend_raises _).andThen fun _ => readByte_raises

theorem stcs_raises (a : CsAddr) (v : Byte) : RaisesOnly [.ioError] (stcs a v) := .getThen fun _ => phySend_raises _

theorem lds_raises (addr : Addr) : RaisesOnly [.ioError, .timeout] (lds addr) :=
  .getThen fun _ => (phySend_raises _).andThen fun _ => readByte_raises

theorem sts_raises (addr : Addr) (v : Byte) : RaisesOnly [.ioError, .timeout, .nack] (sts addr v) :=
  .getThen fun _ => (phySend_raises _).andThen fun _ => expectAck_raises.andThen fun _ =>
    (phySend_raises _).andThen fun _ => expectAck_raises

theorem setPtr_raises (addr : Addr) : RaisesOnly [.ioError, .timeout, .nack] (setPtr addr) :=
  .getThen fun _ => (phySend_raises _).andThen fun _ => expectAck_raises

theorem sendKey_raises (key : List Byte) : RaisesOnly [.ioError] (sendKey key) :=
  .getThen fun _ => (phySend_raises _).andThen fun _ => phySend_raises _

theorem burstRest_raises (data : List Byte) : RaisesOnly [.ioError, .timeout, .nack] (burstRest data) := by
  induction data with
  | nil => exact raisesOnly_pure _
  | cons d ds ih => exact (phySend_raises _).andThen fun _ => expectAck_raises.andThen fun _ => ih

/-! ## Operations that test a size first (R99 to R101, R112) -/

theorem checkSize_raises (lo n : Nat) : RaisesOnly [.sizeError] (checkSize lo n) := by
  intro s
  rw [checkSize]
  split
  · exact List.mem_singleton_self _
  · trivial

/-- With a legal size the rest of the operation says what it fails with. -/
theorem sized_endsWithin {β : Type} {f : Unit → Op β} {cs : List ErrClass} {s : State} {lo n : Nat} (h1 : lo ≤ n)
    (h2 : n ≤ s.prm.maxBurst) (hf : RaisesOnly cs (f ())) :
    EndsWithin (fun _ => True) cs ((checkSize lo n >>= f) s) := by
  rw [bind_ok (checkSize_ok h1 h2)]
  exact hf s

theorem repeatSend_raises (n : Nat) :
    RaisesOnly [.ioError] (get >>= fun s => phySend [s.prm.sync, opRepeat, repeatOperand n]) :=
  .getThen fun _ => phySend_raises _

theorem repeatOp_raises (n : Nat) : RaisesOnly [.sizeError, .ioError] (repeatOp n) :=
  (checkSize_raises 1 n).andThen fun _ => (repeatSend_raises n).mono

theorem burstSends_raises (data : List Byte) : RaisesOnly [.ioError, .timeout, .nack]
    (get >>= fun s => phySend ([s.prm.sync, opStPtrInc] ++ data.take 1) >>= fun _ => expectAck >>= fun _ =>
      burstRest (data.drop 1)) :=
  .getThen fun _ => (phySend_raises _).andThen fun _ => expectAck_raises.andThen fun _ => burstRest_raises _

theorem burstWrite_raises (data : List Byte) : RaisesOnly [.sizeError, .ioError, .timeout, .nack] (burstWrite data) :=
  (checkSize_raises 1 _).andThen fun _ => (burstSends_raises data).mono

theorem burstRead_raises (n : Nat) : RaisesOnly [.sizeError, .ioError, .timeout] (burstRead n) :=
  (checkSize_raises 1 n).andThen fun _ => .getThen fun _ => (phySend_raises _).andThen fun _ => (readBytes_raises n).mono

theorem burstTo_raises (addr : Addr) (data : List Byte) :
    RaisesOnly [.sizeError, .ioError, .timeout, .nack] (burstTo addr data) :=
  (setPtr_raises addr).andThen fun _ => (repeatOp_raises _).andThen fun _ => burstWrite_raises data

/-- A burst of a legal length fails with no `SizeError`. -/
theorem burstTo_endsWithin {s₀ s : State} (hs : InPass s₀ s) (addr : Addr) {data : List Byte} (h1 : 1 ≤ data.length)
    (h2 : data.length ≤ s₀.prm.maxBurst) :
    EndsWithin (fun _ => True) [.ioError, .timeout, .nack] (burstTo addr data s) := by
  refine ((setPtr_raises addr s).inside (setPtr_traced addr) hs).bind fun _ t ht => ?_
  have hrepeat : EndsWithin (fun _ => True) [.ioError] (repeatOp data.length t) :=
    sized_endsWithin h1 (by rwa [ht.prm]) (repeatSend_raises _)
  refine (hrepeat.mono.inside (repeatOp_traced _) ht).bind fun _ u hu => ?_
  exact sized_endsWithin h1 (by rwa [hu.prm]) (burstSends_raises data)

/-! ## Device control (R105 to R115) -/

theorem resetToggle_raises : RaisesOnly [.ioError] resetToggle :=
  .getThen fun _ => (stcs_raises _ _).andThen fun _ => stcs_raises _ _

theorem enterProg_raises : RaisesOnly enterClasses enterProg := by
  intro s
  rcases enterProg_cases s with ⟨t, ht, -⟩ | ⟨e, t, ht, hclass, -⟩
  · rw [ht]; trivial
  · rw [ht]; exact hclass

theorem exitProg_raises : RaisesOnly [.ioError] exitProg :=
  .bind (raisesOnly_update _) fun _ => resetToggle_raises.andThen fun _ => .getThen fun _ => stcs_raises _ _

theorem pollReady_raises (k : Nat) : RaisesOnly [.ioError, .timeout, .writeError] (pollReady k) := by
  induction k with
  | zero => exact .raise (by decide)
  | succ k ih =>
    exact .getThen fun _ => (lds_raises _).andThen fun _ => .ite (.raise (by simp [errClass]))
      (.ite (.bind (raisesOnly_update _) fun _ => ih) (raisesOnly_pure _))

theorem waitReady_raises : RaisesOnly [.ioError, .timeout, .writeError] waitReady := .getThen fun _ => pollReady_raises _

theorem execCommand_raises (cmd : Byte) : RaisesOnly [.ioError, .timeout, .nack] (execCommand cmd) :=
  .getThen fun _ => sts_raises _ _

theorem errClass_readyError (e : Err) :
    errClass (readyError e) = if errClass e = .timeout then .notReady else errClass e := by
  cases e <;> rfl

/-- A ready wait of CHIP_ERASE turns a `Timeout` into `NotReady` (R111). -/
theorem readyWait_raises : RaisesOnly [.ioError, .writeError, .notReady] (mapErr readyError waitReady) := by
  refine waitReady_raises.mapErr fun e he => ?_
  rw [errClass_readyError]
  split
  · decide
  · simp only [List.mem_cons] at he ⊢
    tauto

theorem chipErase_raises : RaisesOnly [.ioError, .timeout, .nack, .writeError, .notReady] chipErase :=
  readyWait_raises.andThen fun _ => .getThen fun _ => (execCommand_raises _).andThen fun _ => readyWait_raises.mono

theorem pageWrite_raises (addr : Addr) (data : List Byte) :
    RaisesOnly [.ioError, .timeout, .nack, .writeError, .sizeError] (pageWrite addr data) :=
  (checkSize_raises 1 _).andThen fun _ => waitReady_raises.andThen fun _ => .getThen fun _ =>
    (execCommand_raises _).andThen fun _ => waitReady_raises.andThen fun _ => (burstTo_raises addr data).andThen fun _ =>
      (execCommand_raises _).andThen fun _ => waitReady_raises.mono

theorem pageRead_raises (addr : Addr) (n : Nat) : RaisesOnly [.ioError, .timeout, .nack, .sizeError] (pageRead addr n) :=
  (checkSize_raises 2 n).andThen fun _ => (setPtr_raises addr).andThen fun _ => (repeatOp_raises n).andThen fun _ =>
    (burstRead_raises n).mono

/-- PAGE_ERASE writes a page, whose size a well-formed configuration makes a legal burst (R18, R115). -/
theorem pageErase_endsWithin {s : State} (hs : Idle s) (h1 : 1 ≤ pageBytes s) (h2 : pageBytes s ≤ s.prm.maxBurst)
    (addr : Addr) : EndsWithin (fun _ => True) [.ioError, .timeout, .nack, .writeError] (pageErase addr s) := by
  have h₀ : InPass s s := ⟨hs, rfl, rfl, rfl⟩
  refine ((waitReady_raises s).mono.inside waitReady_traced h₀).bind fun _ t ht => ?_
  have hlen : (List.replicate (pageBytes t) t.prm.eraseValue).length = pageBytes s :=
    List.length_replicate.trans ht.pageBytes_eq
  have hburst := burstTo_endsWithin ht addr (h1.trans_eq hlen.symm) (hlen.trans_le h2)
  exact hburst.mono.bind fun _ u _ => ((execCommand_raises _).andThen fun _ => waitReady_raises.mono) u

/-! ## LINK_INIT, SET_IMAGE (R103, R121) -/

theorem linkAttempts_raises (k : Nat) : ∀ last, RaisesOnly [.linkDown, .ioError] (linkAttempts k last) := by
  induction k with
  | zero =>
    intro last
    cases last with
    | none => exact .raise (by decide)
    | some e => exact .raise (by simp [linkDownAfter, errClass])
  | succ k ih =>
    refine fun _ => .bind (raisesOnly_update _) fun _ => .bind (raisesOnly_tryOp _) fun r => ?_
    cases r with
    | ok _ => exact raisesOnly_pure _
    | error e =>
      cases e with
      | ioError why => exact .raise (by simp [errClass])
      | _ => exact ih _

theorem linkInit_raises : RaisesOnly [.linkDown, .ioError] linkInit := .getThen fun _ => linkAttempts_raises _ _

theorem setImage_raises (image : List Byte) (fuse : Option (List Byte)) : RaisesOnly [.sizeError] (setImage image fuse) :=
  .getThen fun _ => .ite (.raise (by simp [errClass])) (.ite (raisesOnly_update _) (.raise (by simp [errClass])))

/-! ## Every instruction -/

/-- An accepted operation but a pass fails with the classes of its rule alone. -/
theorem opOf_endsWithin {i : Instr} {s : State} (ha : accepts i s = true) (hi : passOf i = .none) :
    EndsWithin (fun _ => True) (errorClasses i) (opOf s.prm i (beginOp s)) := by
  cases i with
  | ldcsFrame a | ldcs a => exact (ldcs_raises a _).valued
  | stcsFrame a v | stcs a v => exact (stcs_raises a v _).valued
  | ldsFrame addr | lds addr => exact (lds_raises addr _).valued
  | stsFrame addr v | sts addr v => exact (sts_raises addr v _).valued
  | stPtr addr | setPtr addr => exact (setPtr_raises addr _).valued
  | stPtrInc data | burstWrite data => exact (burstWrite_raises data _).valued
  | ldPtrInc n | burstRead n => exact (burstRead_raises n _).valued
  | repeatFrame _ | repeatN _ => exact (repeatOp_raises _ _).valued
  | keyFrame key | key key => exact (sendKey_raises key _).valued
  | cmdWp | cmdEr | cmdPbc | cmdCher | execNvmCmd _ => exact (execCommand_raises _ _).valued
  | phyInit => exact (phyInit_raises _).valued
  | phySend bytes => exact (phySend_raises bytes _).valued
  | phyRecv n => exact (phyRecv_raises n _).valued
  | phyDoubleBreak => exact (phyDoubleBreak_raises _).valued
  | phyClose => exact (phyClose_raises _).valued
  | linkInit => exact (linkInit_raises _).valued
  | resetToggle => exact (resetToggle_raises _).valued
  | enterProg => exact (enterProg_raises _).valued
  | exitProg => exact (exitProg_raises _).valued
  | waitReady => exact (waitReady_raises _).valued
  | chipErase => exact (chipErase_raises _).valued
  | pageWrite addr data => exact (pageWrite_raises addr data _).valued
  | pageRead addr n => exact (pageRead_raises addr n _).valued
  | pageErase addr =>
    obtain ⟨h2, hmax⟩ := accepts_sizes ha
    exact (pageErase_endsWithin (idle_beginOp s) (Nat.le_of_succ_le h2) hmax addr).valued
  | setImage image fuse => exact (setImage_raises image fuse _).valued
  | passChipErase | passBlankCheck | passProgram | passVerify => cases hi

/-- The port delivers the value or the error the operation ended with. -/
theorem EndsWithin.delivered {Q : State → Prop} {cs : List ErrClass} {r : EStateM.Result Err State Value}
    (h : EndsWithin Q cs r) : ∃ x, lastResult (endOp r).obs = some x ∧ (resultClass x = .ok ∨ resultClass x ∈ cs) := by
  cases r with
  | ok v t => exact ⟨_, lastResult_deliver _ t, .inl rfl⟩
  | error e t => exact ⟨_, lastResult_deliver _ t, .inr h⟩

/-- Settles O42: a pass delivers a code; every other operation fails with its rule's classes alone. -/
theorem errorClassesAreTheOperationsOwn : Obligations.ErrorClassesAreTheOperationsOwn := by
  intro i s t ha h
  by_cases hi : passOf i = .none
  · rw [exec_accepted ha h]
    exact (opOf_endsWithin ha hi).delivered
  · obtain ⟨-, c, hr, -⟩ := passesReturnTheirOwnCodes i s t hi ha h
    exact ⟨_, hr, .inl rfl⟩

end Sys2Proof.Machine
end

section
/-! Reset (70_reset_and_hazards.md R159): no pin, an empty image memory and read-back buffer, nothing observed. -/

namespace Sys2Proof.Machine

open Sys2Proof.Safety

/-- With no call made the pin's registers are unknown (R14), and no listed byte is a watermark of 0 (R20). -/
theorem consistent_reset : Consistent State.reset where
  pins := ⟨rfl, rfl⟩
  recorded := rfl
  image := (imageSound_iff _).2 ⟨memoryWf_reset, rfl, Nat.zero_le _⟩
  fuse := rfl
  noPass := rfl
  buffer := ⟨⟨rfl, rfl⟩, Nat.zero_le _⟩

/-- Settles O55: reset meets what `Consistent` asks, and no operation runs. -/
theorem resetStateIsSound : Obligations.ResetStateIsSound := (sound_iff _).2 ⟨consistent_reset, rfl⟩

/-- Settles O56: the image memory's own law gives each byte (R20), `State.reset` itself every other value (R159). -/
theorem resetGivesTheStatedValues : Obligations.ResetGivesTheStatedValues :=
  ⟨rfl, rfl, rfl, rfl, rfl, imageByte_reset, rfl, rfl, rfl, rfl, rfl, rfl, rfl⟩

end Sys2Proof.Machine
end

section
/-! A watermark past the flash (10_state.md R20, 43_page_sequencer.md R130; the fault is the model's choice, log 11). -/

namespace Sys2Proof.Machine

open Sys2Proof.Safety

/-- Settles O48: both halves of the guard before the Program pass hold, so no page is walked. -/
theorem passProgramFaultsOnAWatermarkPastTheFlash : Obligations.PassProgramFaultsOnAWatermarkPastTheFlash := by
  intro s ha hu
  have hguard : (accepts .passProgram s && decide (flashBytes s < s.bytesUsed)) = true := by
    rw [ha, decide_eq_true hu, Bool.and_self]
  exact if_pos hguard

end Sys2Proof.Machine
end
